-- ==== Sys2Proof/Word.lean ====
section
/-! DEFINITION. Words of the part and their plainest arithmetic. -/

namespace Sys2Proof

/-- A byte. -/
abbrev Byte := BitVec 8
/-- A 64-bit scalar (R18). -/
abbrev Scalar := BitVec 64
/-- An entry of a vector queue: 512 bytes (R397). -/
abbrev Entry512 := BitVec 4096

/-- The little-endian value of bytes, least significant first (R3). -/
def leNat : List Byte → Nat
  | [] => 0
  | b :: bs => b.toNat + 256 * leNat bs

/-- The `n` bytes of a value, least significant first (R3). -/
def leBytes : Nat → Nat → List Byte
  | 0, _ => []
  | n + 1, x => BitVec.ofNat 8 x :: leBytes n (x / 256)

/-- Rounds `x` up to a multiple of `m`. -/
def roundUp (x m : Nat) : Nat := (x + m - 1) / m * m

/-- Ceiling division. -/
def ceilDiv (x m : Nat) : Nat := (x + m - 1) / m

end Sys2Proof
end

