-- ==== Sys2Proof/Syntax.lean ====
section
/-! DEFINITION. The syntax: operand records and the one inductive of instructions and events. -/

namespace Sys2Proof

/-- The four engines of a core (R17). -/
inductive EngineId where
  | c
  | l
  | m
  | v
deriving DecidableEq, Repr

/-- One engine of one context of one core: `ctx` is true for context 1, the pre-empting one (R135). -/
structure EngRef where
  core : Nat
  ctx : Bool
  eng : EngineId
deriving DecidableEq, Repr

/-- The dependency bits of word 0 (R140). -/
structure Dep where
  wp : Bool
  wn : Bool
  sp : Bool
  sn : Bool
deriving DecidableEq, Repr

/-- No dependency bit set. -/
abbrev Dep.none : Dep := ⟨false, false, false, false⟩

/-- Operand fields of the copy forms of format S (R310). -/
structure CopyArgs where
  tq : BitVec 6
  xs : BitVec 4
  h : BitVec 5
  i0 : BitVec 6
  i1 : BitVec 6
  i2 : BitVec 6
  i3 : BitVec 6
  sc : BitVec 3
deriving DecidableEq, Repr

/-- Operand fields of the atomics (R347). -/
structure AtomArgs where
  d : BitVec 6
  h : BitVec 5
  i0 : BitVec 6
  i1 : BitVec 6
  sc : BitVec 3
  ord : BitVec 3
deriving DecidableEq, Repr

/-- Operand fields of the key-value commands (R350). -/
structure KvArgs where
  t : BitVec 6
  h : BitVec 5
  klen : BitVec 4
  i0 : BitVec 6
  i1 : BitVec 6
  i2 : BitVec 6
  st : BitVec 6
deriving DecidableEq, Repr

/-- Operand fields of format M (R366). -/
structure MmaArgs where
  acc : BitVec 4
  xa : BitVec 4
  xb : BitVec 4
  na : Bool
  nb : Bool
  ad : Bool
  ca : Bool
  cb : Bool
  sc : Bool
  ta : BitVec 6
  tb : BitVec 6
  kba : BitVec 3
  kbb : BitVec 3
deriving DecidableEq, Repr

/-- Operand fields of ADRAIN (R387). -/
structure DrainArgs where
  d : BitVec 6
  a : BitVec 4
  b : BitVec 6
  trn : Bool
  az : Bool
  rnd : BitVec 3
  ovf : BitVec 2
  scf : BitVec 2
  scb : Bool
deriving DecidableEq, Repr

/-- Operand fields of ADRQ (R390). -/
structure AdrqArgs where
  d : BitVec 5
  a : BitVec 4
  b : BitVec 6
  n : BitVec 2
  rnd : BitVec 3
  ovf : BitVec 2
  trn : Bool
deriving DecidableEq, Repr

/-- Format Q with two sources (R224). -/
structure Q2 where
  d : BitVec 5
  a : BitVec 5
  b : BitVec 5
  ka : Bool
  kb : Bool
  t : BitVec 3
deriving DecidableEq, Repr

/-- Format Q with one source (R224). -/
structure Q1 where
  d : BitVec 5
  a : BitVec 5
  ka : Bool
  t : BitVec 3
deriving DecidableEq, Repr

/-- Rounding, overflow and third queue of format W on V (R405). -/
structure W3 where
  rnd : BitVec 3
  ovf : BitVec 2
  c : BitVec 5
  kc : Bool
deriving DecidableEq, Repr

/-- Extension fields of VCVT (R409). -/
structure CvtArgs where
  rnd : BitVec 3
  ovf : BitVec 2
  dfmt : BitVec 4
  sfmt : BitVec 4
  part : BitVec 3
deriving DecidableEq, Repr

/-- A resolution word written to a mere's resolution port, less its `RES` (R435). -/
structure ResWord where
  mere : Nat
  seqno : BitVec 16
  who : EngRef
deriving DecidableEq, Repr

/-- A signed image of the flash: whether its signature verifies, its security version, its digest (R486). -/
structure Image where
  sigOk : Bool
  version : Nat
  digest : BitVec 384
deriving DecidableEq, Repr

/-- An NVMe-oF connection that the configuration object defines (R480): RDMA over RoCEv2 or TCP, the target's transport address and
service identifier, and the subsystem NQN. -/
structure Connection where
  num : BitVec 4
  rdma : Bool
  address : List (BitVec 8)
  service : List (BitVec 8)
  nqn : List (BitVec 8)
deriving DecidableEq, Repr

/-- One partition of the configuration object (R481). -/
structure PartCfg where
  id : Nat
  tarns : List Nat
  /-- Ranges of object numbers, first and last (R41). -/
  ranges : List (Nat × Nat)
  prioLo : Nat
  prioHi : Nat
  pxQuota : Nat
  /-- Seal at an abandoned reservation (R94). -/
  sealAbandoned : Bool
  /-- The partition's HBM4E page frames (physical addresses of 64 KiB pages): their number is its quota of HBM4E pages. -/
  frames : List (BitVec 48)
  /-- Its quota of LPDDR6 pages. -/
  lpQuota : Nat
  /-- Defined NVMe-oF connections (R480). -/
  conns : List Connection
  kvTimeoutUs : Nat
deriving DecidableEq, Repr

/-- The accepted configuration object (R487). -/
structure Configuration where
  parts : List PartCfg
  /-- Carve-out mask per global core (R176). -/
  carves : List (Nat × BitVec 16)
  /-- The pinned system regions of the service pairs, first byte and bytes (R446). -/
  system : List (Nat × Nat)
deriving DecidableEq, Repr

/-- What the flash holds at power-on: each pair's firmware image and the configuration object (R486, R487). -/
structure Boot where
  firmware : List Image
  cfgImage : Image
  cfg : Configuration
deriving DecidableEq, Repr

/-- One host access to a window's aperture (R469, R472-R474). -/
structure Ingress where
  part : Nat
  win : BitVec 5
  rid : BitVec 16
  /-- Relaxed Ordering set. -/
  ro : Bool
  off : Nat
  bytes : List (BitVec 8)
deriving DecidableEq, Repr

/-- A new object: its number, its entry laid out as R42 and its page descriptors (R48) or block descriptors (R71). -/
structure CreateArgs where
  obj : BitVec 40
  bits : BitVec 512
  pages : List (BitVec 64)
deriving DecidableEq, Repr

/-- A page or block of an object and where the manager puts it (R441, R462): `ver` names a retained version. -/
structure PageArgs where
  hd : BitVec 64
  ver : Option Nat
  page : Nat
  tier : BitVec 3
  pkg : BitVec 10
  addr : BitVec 48
deriving DecidableEq, Repr

/-- What another package asks of an object homed here (R215, R483). -/
inductive PeerReq where
  | store (off : Nat) (bytes : List (BitVec 8))
  | read (off n : Nat)
  | atomicAdd (n : Nat) (v : BitVec 32)
  | reduce (n : Nat) (v : BitVec 32)
  | counterAdd (v : BitVec 64)
  | lock
  | unlock
  | waiter (target : BitVec 64) (id : Nat)
deriving DecidableEq, Repr

/-- A request from package `src`. -/
structure PeerArgs where
  src : BitVec 10
  part : Nat
  hd : BitVec 64
  req : PeerReq
deriving DecidableEq, Repr

/-- Every row of spec/opcode_table.json: the instructions, each with its dependency bits `dp` (R140, R222),
and the events of the other agents of the part. -/
inductive Instr where
  /-- NOP. No effect (R136). -/
  | nop (dp : Dep)
  /-- NOP_END. Ends the issuing engine's stream (R136). -/
  | nopEnd (dp : Dep)
  /-- ADD. R252. -/
  | add (dp : Dep) (d : BitVec 6) (a : BitVec 6) (b : BitVec 6)
  /-- SUB. R252. -/
  | sub (dp : Dep) (d : BitVec 6) (a : BitVec 6) (b : BitVec 6)
  /-- ADDI. R252. -/
  | addi (dp : Dep) (d : BitVec 6) (a : BitVec 6) (imm : BitVec 8)
  /-- MUL. R252. -/
  | mul (dp : Dep) (d : BitVec 6) (a : BitVec 6) (b : BitVec 6)
  /-- MULH. R252. -/
  | mulh (dp : Dep) (d : BitVec 6) (a : BitVec 6) (b : BitVec 6)
  /-- MULHU. R252. -/
  | mulhu (dp : Dep) (d : BitVec 6) (a : BitVec 6) (b : BitVec 6)
  /-- DIVU. R253. -/
  | divu (dp : Dep) (d : BitVec 6) (a : BitVec 6) (b : BitVec 6)
  /-- DIVS. R253. -/
  | divs (dp : Dep) (d : BitVec 6) (a : BitVec 6) (b : BitVec 6)
  /-- REMU. R253. -/
  | remu (dp : Dep) (d : BitVec 6) (a : BitVec 6) (b : BitVec 6)
  /-- REMS. R253. -/
  | rems (dp : Dep) (d : BitVec 6) (a : BitVec 6) (b : BitVec 6)
  /-- AND. R252. -/
  | and (dp : Dep) (d : BitVec 6) (a : BitVec 6) (b : BitVec 6)
  /-- ANDI. R252. -/
  | andi (dp : Dep) (d : BitVec 6) (a : BitVec 6) (imm : BitVec 8)
  /-- OR. R252. -/
  | or (dp : Dep) (d : BitVec 6) (a : BitVec 6) (b : BitVec 6)
  /-- ORI. R252. -/
  | ori (dp : Dep) (d : BitVec 6) (a : BitVec 6) (imm : BitVec 8)
  /-- XOR. R252. -/
  | xor (dp : Dep) (d : BitVec 6) (a : BitVec 6) (b : BitVec 6)
  /-- XORI. R252. -/
  | xori (dp : Dep) (d : BitVec 6) (a : BitVec 6) (imm : BitVec 8)
  /-- ANDN. R252. -/
  | andn (dp : Dep) (d : BitVec 6) (a : BitVec 6) (b : BitVec 6)
  /-- SHL. R252. -/
  | shl (dp : Dep) (d : BitVec 6) (a : BitVec 6) (b : BitVec 6)
  /-- SHLI. R252. -/
  | shli (dp : Dep) (d : BitVec 6) (a : BitVec 6) (imm : BitVec 6)
  /-- SHR. R252. -/
  | shr (dp : Dep) (d : BitVec 6) (a : BitVec 6) (b : BitVec 6)
  /-- SHRI. R252. -/
  | shri (dp : Dep) (d : BitVec 6) (a : BitVec 6) (imm : BitVec 6)
  /-- SAR. R252. -/
  | sar (dp : Dep) (d : BitVec 6) (a : BitVec 6) (b : BitVec 6)
  /-- SARI. R252. -/
  | sari (dp : Dep) (d : BitVec 6) (a : BitVec 6) (imm : BitVec 6)
  /-- ROTL. R252. -/
  | rotl (dp : Dep) (d : BitVec 6) (a : BitVec 6) (b : BitVec 6)
  /-- ROTLI. R252. -/
  | rotli (dp : Dep) (d : BitVec 6) (a : BitVec 6) (imm : BitVec 6)
  /-- MIN. R252. -/
  | min (dp : Dep) (d : BitVec 6) (a : BitVec 6) (b : BitVec 6)
  /-- MINU. R252. -/
  | minu (dp : Dep) (d : BitVec 6) (a : BitVec 6) (b : BitVec 6)
  /-- MAX. R252. -/
  | max (dp : Dep) (d : BitVec 6) (a : BitVec 6) (b : BitVec 6)
  /-- MAXU. R252. -/
  | maxu (dp : Dep) (d : BitVec 6) (a : BitVec 6) (b : BitVec 6)
  /-- CLZ. R252. -/
  | clz (dp : Dep) (d : BitVec 6) (a : BitVec 6)
  /-- POPC. R252. -/
  | popc (dp : Dep) (d : BitVec 6) (a : BitVec 6)
  /-- LUI. R254. -/
  | lui (dp : Dep) (d : BitVec 6) (imm : BitVec 14)
  /-- LI. R254. -/
  | li (dp : Dep) (d : BitVec 6) (imm : BitVec 14)
  /-- SEXT. R252. -/
  | sext (dp : Dep) (d : BitVec 6) (a : BitVec 6) (n : BitVec 8)
  /-- SEL. R257. -/
  | sel (dp : Dep) (d : BitVec 6) (a : BitVec 6) (b : BitVec 6) (p : BitVec 3) (n : Bool)
  /-- CMP. R255. -/
  | cmp (dp : Dep) (d : BitVec 3) (a : BitVec 6) (b : BitVec 6) (cond : BitVec 2)
  /-- CMPI. R255. -/
  | cmpi (dp : Dep) (d : BitVec 3) (a : BitVec 6) (cond : BitVec 2) (imm : BitVec 6)
  /-- PLOG. R256. -/
  | plog (dp : Dep) (d : BitVec 3) (a : BitVec 3) (b : BitVec 3) (f : BitVec 2)
  /-- BR. R258. -/
  | br (dp : Dep) (p : BitVec 3) (n : Bool) (off : BitVec 16)
  /-- JMP. R258. -/
  | jmp (dp : Dep) (off : BitVec 16)
  /-- CALL. R258. -/
  | call (dp : Dep) (off : BitVec 16)
  /-- RET. R259. -/
  | ret (dp : Dep)
  /-- LOOP_C. R261. -/
  | loopC (dp : Dep) (d : BitVec 6) (n : BitVec 14)
  /-- RETIRE. R266. -/
  | retire (dp : Dep)
  /-- PARK. R267. -/
  | park (dp : Dep) (d : BitVec 6) (slot : BitVec 6)
  /-- UNPARK. R267. -/
  | unpark (dp : Dep) (d : BitVec 6) (slot : BitVec 6)
  /-- BARA. R268, R270. -/
  | bara (dp : Dep) (n : BitVec 6) (a : BitVec 6) (sc : BitVec 3)
  /-- BARW. R268, R270. -/
  | barw (dp : Dep) (n : BitVec 6) (sc : BitVec 3)
  /-- BARAW. R268, R270. -/
  | baraw (dp : Dep) (n : BitVec 6) (a : BitVec 6) (sc : BitVec 3)
  /-- CADD. R273. -/
  | cadd (dp : Dep) (n : BitVec 5) (a : BitVec 6) (sc : BitVec 3)
  /-- CADD_SC. R274. -/
  | caddSc (dp : Dep) (n : BitVec 5) (a : BitVec 6) (sc : BitVec 3)
  /-- CWAITX. R276. -/
  | cwaitx (dp : Dep) (n : BitVec 5) (a : BitVec 6) (b : BitVec 6)
  /-- PUB. R279. -/
  | pub (dp : Dep) (n : BitVec 5) (sc : BitVec 3)
  /-- SUB_SUBSCRIBE. R276. -/
  | subSubscribe (dp : Dep) (n : BitVec 5) (a : BitVec 6) (b : BitVec 6)
  /-- OPIN. R281. -/
  | opin (dp : Dep) (n : BitVec 5) (d : BitVec 6)
  /-- OUNPIN. R282. -/
  | ounpin (dp : Dep) (n : BitVec 5)
  /-- QREL. R284. -/
  | qrel (dp : Dep) (n : BitVec 14)
  /-- AREL. R284. -/
  | arel (dp : Dep) (n : BitVec 14)
  /-- TREL. R284. -/
  | trel (dp : Dep) (n : BitVec 14)
  /-- SPAWN. R285, R286. -/
  | spawn (dp : Dep) (d : BitVec 6) (a : BitVec 6) (arg : Bool) (nsel : Bool) (nnum : BitVec 16)
  /-- YIELD. R287. -/
  | yield (dp : Dep)
  /-- SHP. R307. -/
  | shp (dp : Dep) (xs : BitVec 4) (h : BitVec 5) (i0 : BitVec 6) (i1 : BitVec 6) (i2 : BitVec 6)
  /-- SHPX. R307. -/
  | shpx (dp : Dep) (xs : BitVec 4) (h : BitVec 5) (i0 : BitVec 6) (i1 : BitVec 6) (i2 : BitVec 6)
  /-- SHPO. R307. -/
  | shpo (dp : Dep) (xs : BitVec 4) (h : BitVec 5) (pad : BitVec 2) (cdim : BitVec 3)
  /-- SHPS. R307. -/
  | shps (dp : Dep) (xs : BitVec 4) (h : BitVec 5) (rbr : BitVec 4) (rbc : BitVec 4)
  /-- CPIN. R309, R316. -/
  | cpin (dp : Dep) (q : CopyArgs)
  /-- CPIN_TR. R309, R312. -/
  | cpinTr (dp : Dep) (q : CopyArgs)
  /-- CPIN_RB. R309, R312. -/
  | cpinRb (dp : Dep) (q : CopyArgs)
  /-- CPQ. R319. -/
  | cpq (dp : Dep) (q : CopyArgs)
  /-- CPQ_TR. R319. -/
  | cpqTr (dp : Dep) (q : CopyArgs)
  /-- CPQ_RB. R319. -/
  | cpqRb (dp : Dep) (q : CopyArgs)
  /-- CPOUT. R317. -/
  | cpout (dp : Dep) (q : CopyArgs)
  /-- CPOUT_FF. R321. -/
  | cpoutFf (dp : Dep) (q : CopyArgs)
  /-- CPQO. R319. -/
  | cpqo (dp : Dep) (q : CopyArgs)
  /-- CPRAG. R320. -/
  | cprag (dp : Dep) (q : CopyArgs)
  /-- CPRAG_TR. R320. -/
  | cpragTr (dp : Dep) (q : CopyArgs)
  /-- CPPEER. R317. -/
  | cppeer (dp : Dep) (q : CopyArgs)
  /-- CPPEER_FF. R321. -/
  | cppeerFf (dp : Dep) (q : CopyArgs)
  /-- TSET. R323, F = 0b00. -/
  | tset (dp : Dep) (d : BitVec 6) (a : BitVec 6) (b : BitVec 6) (swz : BitVec 3)
  /-- TSET_CLR. R323, F = 0b01. -/
  | tsetClr (dp : Dep) (d : BitVec 6)
  /-- TSET_RDY. R323, F = 0b10. -/
  | tsetRdy (dp : Dep) (d : BitVec 6)
  /-- TSTAT. R325. -/
  | tstat (dp : Dep) (d : BitVec 6) (a : BitVec 6)
  /-- SQRES. R327. -/
  | sqres (dp : Dep) (d : BitVec 6) (h : BitVec 5) (i0 : BitVec 6)
  /-- SQCMT. R328. -/
  | sqcmt (dp : Dep) (h : BitVec 5) (i0 : BitVec 6) (i1 : BitVec 6) (sc : BitVec 3)
  /-- SQLEN. R329. -/
  | sqlen (dp : Dep) (d : BitVec 6) (h : BitVec 5) (f : BitVec 2)
  /-- SQFORK. R330. -/
  | sqfork (dp : Dep) (e : BitVec 5) (h : BitVec 5) (i0 : BitVec 6) (i1 : BitVec 6)
  /-- SQPIN. R331. -/
  | sqpin (dp : Dep) (h : BitVec 5) (i0 : BitVec 6) (i1 : BitVec 6)
  /-- SQUNPIN. R331. -/
  | squnpin (dp : Dep) (h : BitVec 5) (i0 : BitVec 6) (i1 : BitVec 6)
  /-- PXHASH. R334. -/
  | pxhash (dp : Dep) (d : BitVec 6) (a : BitVec 6) (b : BitVec 6) (j : BitVec 6) (o : BitVec 6)
  /-- PXFIND. R335. -/
  | pxfind (dp : Dep) (d : BitVec 6) (a : BitVec 6) (b : BitVec 6) (e : BitVec 5)
  /-- PXINS. R336. -/
  | pxins (dp : Dep) (d : BitVec 6) (a : BitVec 5) (b : BitVec 5) (j : BitVec 6) (k : BitVec 6)
  /-- PXDEL. R337. -/
  | pxdel (dp : Dep) (d : BitVec 6) (a : BitVec 6) (b : BitVec 6)
  /-- CBFILL_F32. R340. -/
  | cbfillF32 (dp : Dep) (q : CopyArgs)
  /-- CBFILL_BF16. R340. -/
  | cbfillBf16 (dp : Dep) (q : CopyArgs)
  /-- CBFILL_F16. R340. -/
  | cbfillF16 (dp : Dep) (q : CopyArgs)
  /-- CBFILL_E4M3. R340. -/
  | cbfillE4m3 (dp : Dep) (q : CopyArgs)
  /-- CBFILL_E5M2. R340. -/
  | cbfillE5m2 (dp : Dep) (q : CopyArgs)
  /-- CBSET_F32. R341. -/
  | cbsetF32 (dp : Dep) (d : BitVec 3) (a : BitVec 6) (b : BitVec 6)
  /-- CBSET_BF16. R341. -/
  | cbsetBf16 (dp : Dep) (d : BitVec 3) (a : BitVec 6) (b : BitVec 6)
  /-- CBSET_F16. R341. -/
  | cbsetF16 (dp : Dep) (d : BitVec 3) (a : BitVec 6) (b : BitVec 6)
  /-- CBSET_E4M3. R341. -/
  | cbsetE4m3 (dp : Dep) (d : BitVec 3) (a : BitVec 6) (b : BitVec 6)
  /-- CBSET_E5M2. R341. -/
  | cbsetE5m2 (dp : Dep) (d : BitVec 3) (a : BitVec 6) (b : BitVec 6)
  /-- CBINV. R342. -/
  | cbinv (dp : Dep) (d : BitVec 3)
  /-- BKX. R345, tile form. -/
  | bkx (dp : Dep) (t : BitVec 6) (cmd : BitVec 4) (i0 : BitVec 6) (i1 : BitVec 6)
  /-- BKX_HANDLE. R345, handle form. -/
  | bkxHandle (dp : Dep) (h : BitVec 5) (cmd : BitVec 4) (i0 : BitVec 6) (i1 : BitVec 6) (sc : BitVec 3)
  /-- AADD. R347, R348. -/
  | aadd (dp : Dep) (q : AtomArgs)
  /-- AMIN. R347, R348. -/
  | amin (dp : Dep) (q : AtomArgs)
  /-- AMAX. R347, R348. -/
  | amax (dp : Dep) (q : AtomArgs)
  /-- AXCH. R347, R348. -/
  | axch (dp : Dep) (q : AtomArgs)
  /-- ACAS. R347, R348, R210. -/
  | acas (dp : Dep) (q : AtomArgs) (i2 : BitVec 6) (ford : BitVec 3)
  /-- RADD. R349. -/
  | radd (dp : Dep) (q : CopyArgs)
  /-- RADD_FF. R349. -/
  | raddFf (dp : Dep) (q : CopyArgs)
  /-- KVPUT. R350, R351. -/
  | kvput (dp : Dep) (q : KvArgs)
  /-- KVGET. R350, R351. -/
  | kvget (dp : Dep) (q : KvArgs)
  /-- KVDEL. R350, R351. -/
  | kvdel (dp : Dep) (q : KvArgs)
  /-- KVEXIST. R350, R351. -/
  | kvexist (dp : Dep) (q : KvArgs)
  /-- KVLIST. R350, R351. -/
  | kvlist (dp : Dep) (q : KvArgs)
  /-- PROMO. R352. -/
  | promo (dp : Dep) (q : CopyArgs) (tier : BitVec 3)
  /-- DEMO. R352. -/
  | demo (dp : Dep) (q : CopyArgs) (tier : BitVec 3)
  /-- HSET. R227, R303, F = 0b00. -/
  | hset (dp : Dep) (d : BitVec 5) (a : BitVec 6)
  /-- HSET_IMPORT. R227, R303, F = 0b01. -/
  | hsetImport (dp : Dep) (d : BitVec 5) (b : BitVec 6)
  /-- HGET. R304. -/
  | hget (dp : Dep) (d : BitVec 6) (h : BitVec 5) (f : BitVec 2)
  /-- HPROBE. R305. -/
  | hprobe (dp : Dep) (d : BitVec 6) (h : BitVec 5) (i0 : BitVec 6) (i1 : BitVec 6) (i2 : BitVec 6) (i3 : BitVec 6)
  /-- LOOP_L. R261, R265. -/
  | loopL (dp : Dep) (d : BitVec 6) (n : BitVec 14)
  /-- MMA. R366, R367. -/
  | mma (dp : Dep) (q : MmaArgs)
  /-- MNCFG. R374: a level row (d 0-5) or the header (d = 6). -/
  | mncfg (dp : Dep) (d : BitVec 3) (a : BitVec 6) (b : BitVec 6) (x : BitVec 28)
  /-- MNEST. R375. -/
  | mnest (dp : Dep)
  /-- ACOOP. R377, R378. -/
  | acoop (dp : Dep) (qr : BitVec 2) (qc : BitVec 3)
  /-- ACOOP_END. R377, R383. -/
  | acoopEnd (dp : Dep)
  /-- AZERO. R384. -/
  | azero (dp : Dep) (d : BitVec 4) (n : BitVec 4) (it : Bool)
  /-- ALOAD_F32. R385. -/
  | aloadF32 (dp : Dep) (d : BitVec 4) (a : BitVec 6) (trn : Bool)
  /-- ALOAD_I32. R385. -/
  | aloadI32 (dp : Dep) (d : BitVec 4) (a : BitVec 6) (trn : Bool)
  /-- ASTAT. R386. -/
  | astat (dp : Dep) (d : BitVec 6) (a : BitVec 4)
  /-- LOOP_M. R261, R265. -/
  | loopM (dp : Dep) (d : BitVec 6) (n : BitVec 14)
  /-- ADRAIN_F32. R387, R388. -/
  | adrainF32 (dp : Dep) (q : DrainArgs)
  /-- ADRAIN_F16. R387, R388. -/
  | adrainF16 (dp : Dep) (q : DrainArgs)
  /-- ADRAIN_BF16. R387, R388. -/
  | adrainBf16 (dp : Dep) (q : DrainArgs)
  /-- ADRAIN_E4M3. R387, R388. -/
  | adrainE4m3 (dp : Dep) (q : DrainArgs)
  /-- ADRAIN_E5M2. R387, R388. -/
  | adrainE5m2 (dp : Dep) (q : DrainArgs)
  /-- ADRAIN_E2M3. R387, R388. -/
  | adrainE2m3 (dp : Dep) (q : DrainArgs)
  /-- ADRAIN_E3M2. R387, R388. -/
  | adrainE3m2 (dp : Dep) (q : DrainArgs)
  /-- ADRAIN_E2M1. R387, R388. -/
  | adrainE2m1 (dp : Dep) (q : DrainArgs)
  /-- ADRAIN_I32. R387, R388. -/
  | adrainI32 (dp : Dep) (q : DrainArgs)
  /-- ADRAIN_I8. R387, R388. -/
  | adrainI8 (dp : Dep) (q : DrainArgs)
  /-- ADRAIN_I4. R387, R388. -/
  | adrainI4 (dp : Dep) (q : DrainArgs)
  /-- ADRQ_F32. R390. -/
  | adrqF32 (dp : Dep) (q : AdrqArgs)
  /-- ADRQ_F16. R390. -/
  | adrqF16 (dp : Dep) (q : AdrqArgs)
  /-- ADRQ_BF16. R390. -/
  | adrqBf16 (dp : Dep) (q : AdrqArgs)
  /-- ADRQ_E4M3. R390. -/
  | adrqE4m3 (dp : Dep) (q : AdrqArgs)
  /-- ADRQ_E5M2. R390. -/
  | adrqE5m2 (dp : Dep) (q : AdrqArgs)
  /-- ADRQ_I32. R390. -/
  | adrqI32 (dp : Dep) (q : AdrqArgs)
  /-- ADRQ_I8. R390. -/
  | adrqI8 (dp : Dep) (q : AdrqArgs)
  /-- VADD_F32. R406. -/
  | vaddF32 (dp : Dep) (q : Q2) (rnd : BitVec 3)
  /-- VADD_F16. R406. -/
  | vaddF16 (dp : Dep) (q : Q2) (rnd : BitVec 3)
  /-- VADD_BF16. R406. -/
  | vaddBf16 (dp : Dep) (q : Q2) (rnd : BitVec 3)
  /-- VSUB_F32. R406. -/
  | vsubF32 (dp : Dep) (q : Q2) (rnd : BitVec 3)
  /-- VSUB_F16. R406. -/
  | vsubF16 (dp : Dep) (q : Q2) (rnd : BitVec 3)
  /-- VSUB_BF16. R406. -/
  | vsubBf16 (dp : Dep) (q : Q2) (rnd : BitVec 3)
  /-- VMUL_F32. R406. -/
  | vmulF32 (dp : Dep) (q : Q2) (rnd : BitVec 3)
  /-- VMUL_F16. R406. -/
  | vmulF16 (dp : Dep) (q : Q2) (rnd : BitVec 3)
  /-- VMUL_BF16. R406. -/
  | vmulBf16 (dp : Dep) (q : Q2) (rnd : BitVec 3)
  /-- VFMA_F32. R406. -/
  | vfmaF32 (dp : Dep) (q : Q2) (x : W3)
  /-- VFMA_F16. R406. -/
  | vfmaF16 (dp : Dep) (q : Q2) (x : W3)
  /-- VFMA_BF16. R406. -/
  | vfmaBf16 (dp : Dep) (q : Q2) (x : W3)
  /-- VFMA_E4M3. R406. -/
  | vfmaE4m3 (dp : Dep) (q : Q2) (x : W3)
  /-- VFMA_E5M2. R406. -/
  | vfmaE5m2 (dp : Dep) (q : Q2) (x : W3)
  /-- VMIN_F32. R407. -/
  | vminF32 (dp : Dep) (q : Q2)
  /-- VMIN_F16. R407. -/
  | vminF16 (dp : Dep) (q : Q2)
  /-- VMIN_BF16. R407. -/
  | vminBf16 (dp : Dep) (q : Q2)
  /-- VMAX_F32. R407. -/
  | vmaxF32 (dp : Dep) (q : Q2)
  /-- VMAX_F16. R407. -/
  | vmaxF16 (dp : Dep) (q : Q2)
  /-- VMAX_BF16. R407. -/
  | vmaxBf16 (dp : Dep) (q : Q2)
  /-- VRCP_F32. R408. -/
  | vrcpF32 (dp : Dep) (q : Q1) (rnd : BitVec 3)
  /-- VRCP_F16. R408. -/
  | vrcpF16 (dp : Dep) (q : Q1) (rnd : BitVec 3)
  /-- VRCP_BF16. R408. -/
  | vrcpBf16 (dp : Dep) (q : Q1) (rnd : BitVec 3)
  /-- VRSQ_F32. R408. -/
  | vrsqF32 (dp : Dep) (q : Q1) (rnd : BitVec 3)
  /-- VRSQ_F16. R408. -/
  | vrsqF16 (dp : Dep) (q : Q1) (rnd : BitVec 3)
  /-- VRSQ_BF16. R408. -/
  | vrsqBf16 (dp : Dep) (q : Q1) (rnd : BitVec 3)
  /-- VEXP2_F32. R408. -/
  | vexp2F32 (dp : Dep) (q : Q1) (rnd : BitVec 3)
  /-- VEXP2_F16. R408. -/
  | vexp2F16 (dp : Dep) (q : Q1) (rnd : BitVec 3)
  /-- VEXP2_BF16. R408. -/
  | vexp2Bf16 (dp : Dep) (q : Q1) (rnd : BitVec 3)
  /-- VLOG2_F32. R408. -/
  | vlog2F32 (dp : Dep) (q : Q1) (rnd : BitVec 3)
  /-- VLOG2_F16. R408. -/
  | vlog2F16 (dp : Dep) (q : Q1) (rnd : BitVec 3)
  /-- VLOG2_BF16. R408. -/
  | vlog2Bf16 (dp : Dep) (q : Q1) (rnd : BitVec 3)
  /-- VABS_F32. R407. -/
  | vabsF32 (dp : Dep) (q : Q1)
  /-- VABS_F16. R407. -/
  | vabsF16 (dp : Dep) (q : Q1)
  /-- VABS_BF16. R407. -/
  | vabsBf16 (dp : Dep) (q : Q1)
  /-- VNEG_F32. R407. -/
  | vnegF32 (dp : Dep) (q : Q1)
  /-- VNEG_F16. R407. -/
  | vnegF16 (dp : Dep) (q : Q1)
  /-- VNEG_BF16. R407. -/
  | vnegBf16 (dp : Dep) (q : Q1)
  /-- VCVT. R409, R410. -/
  | vcvt (dp : Dep) (q : Q1) (x : CvtArgs)
  /-- VCBX. R411, R412. -/
  | vcbx (dp : Dep) (q : Q1) (kb : BitVec 3) (wid : BitVec 3) (part : BitVec 5)
  /-- VIADD_I32. R413. -/
  | viaddI32 (dp : Dep) (q : Q2) (ovf : BitVec 2)
  /-- VIADD_I8. R413. -/
  | viaddI8 (dp : Dep) (q : Q2) (ovf : BitVec 2)
  /-- VISUB_I32. R413. -/
  | visubI32 (dp : Dep) (q : Q2) (ovf : BitVec 2)
  /-- VISUB_I8. R413. -/
  | visubI8 (dp : Dep) (q : Q2) (ovf : BitVec 2)
  /-- VIMUL_I32. R413. -/
  | vimulI32 (dp : Dep) (q : Q2) (ovf : BitVec 2)
  /-- VIMUL_I8. R413. -/
  | vimulI8 (dp : Dep) (q : Q2) (ovf : BitVec 2)
  /-- VAND. R414. -/
  | vand (dp : Dep) (q : Q2)
  /-- VOR. R414. -/
  | vor (dp : Dep) (q : Q2)
  /-- VXOR. R414. -/
  | vxor (dp : Dep) (q : Q2)
  /-- VSHL_I32. R415. -/
  | vshlI32 (dp : Dep) (q : Q2)
  /-- VSHL_I8. R415. -/
  | vshlI8 (dp : Dep) (q : Q2)
  /-- VSHR_I32. R415. -/
  | vshrI32 (dp : Dep) (q : Q2)
  /-- VSHR_I8. R415. -/
  | vshrI8 (dp : Dep) (q : Q2)
  /-- VCMP_F32. R416; q.t holds the condition, q.d the mask. -/
  | vcmpF32 (dp : Dep) (q : Q2)
  /-- VCMP_F16. R416; q.t holds the condition, q.d the mask. -/
  | vcmpF16 (dp : Dep) (q : Q2)
  /-- VCMP_BF16. R416; q.t holds the condition, q.d the mask. -/
  | vcmpBf16 (dp : Dep) (q : Q2)
  /-- VCMP_I32. R416; q.t holds the condition, q.d the mask. -/
  | vcmpI32 (dp : Dep) (q : Q2)
  /-- VCMP_I8. R416; q.t holds the condition, q.d the mask. -/
  | vcmpI8 (dp : Dep) (q : Q2)
  /-- VSEL. R417. -/
  | vsel (dp : Dep) (q : Q2)
  /-- VBCAST. R418, value form. -/
  | vbcast (dp : Dep) (d : BitVec 5) (t : BitVec 3) (ss : BitVec 6) (wd : BitVec 2)
  /-- VBCAST_LANE. R418, lane form. -/
  | vbcastLane (dp : Dep) (q : Q1) (ss : BitVec 6) (wd : BitVec 2)
  /-- VREDADD_F32. R419. -/
  | vredaddF32 (dp : Dep) (q : Q1) (rnd : BitVec 3)
  /-- VREDADD_F16. R419. -/
  | vredaddF16 (dp : Dep) (q : Q1) (rnd : BitVec 3)
  /-- VREDADD_BF16. R419. -/
  | vredaddBf16 (dp : Dep) (q : Q1) (rnd : BitVec 3)
  /-- VREDADD_I32. R419. -/
  | vredaddI32 (dp : Dep) (q : Q1) (ovf : BitVec 2)
  /-- VREDMAX_F32. R419. -/
  | vredmaxF32 (dp : Dep) (q : Q1)
  /-- VREDMAX_F16. R419. -/
  | vredmaxF16 (dp : Dep) (q : Q1)
  /-- VREDMAX_BF16. R419. -/
  | vredmaxBf16 (dp : Dep) (q : Q1)
  /-- VREDMAX_I32. R419. -/
  | vredmaxI32 (dp : Dep) (q : Q1)
  /-- VSCAN_F32. R420. -/
  | vscanF32 (dp : Dep) (q : Q1) (x : W3) (hm : BitVec 3) (ci : Bool)
  /-- VSCAN_I32. R420. -/
  | vscanI32 (dp : Dep) (q : Q1) (x : W3) (hm : BitVec 3) (ci : Bool)
  /-- VPERM. R421. -/
  | vperm (dp : Dep) (q : Q2) (mode : BitVec 3) (wd : BitVec 2) (sk : BitVec 6) (part : Bool)
  /-- VPACK. R422. -/
  | vpack (dp : Dep) (q : Q1) (wid : BitVec 3) (part : BitVec 3)
  /-- VUNPACK. R422. -/
  | vunpack (dp : Dep) (q : Q1) (wid : BitVec 3) (part : BitVec 3) (sx : Bool)
  /-- VMOVQ. R423. -/
  | vmovq (dp : Dep) (q : Q1)
  /-- VDUP. R423; q.b is the second destination. -/
  | vdup (dp : Dep) (q : Q2)
  /-- VDROP. R423. -/
  | vdrop (dp : Dep) (a : BitVec 5) (n : BitVec 2)
  /-- VLANEI. R424. -/
  | vlanei (dp : Dep) (d : BitVec 5) (t : BitVec 3) (sb : BitVec 6) (wd : BitVec 2) (sst : BitVec 6)
  /-- VPEEKS. R425. -/
  | vpeeks (dp : Dep) (a : BitVec 5) (ka : Bool) (sd : BitVec 6) (wd : BitVec 2) (ln : BitVec 9)
  /-- VMERGE3. R426. -/
  | vmerge3 (dp : Dep) (q : Q2) (rnd : BitVec 3)
  /-- LOOP_V. R261, R265. -/
  | loopV (dp : Dep) (d : BitVec 6) (n : BitVec 14)
  /-- TRAP. R288. -/
  | trap (dp : Dep) (code : BitVec 14)
  /-- SYSRD. R289. -/
  | sysrd (dp : Dep) (d : BitVec 6) (reg : BitVec 14)
  /-- SYSWR. R289. -/
  | syswr (dp : Dep) (d : BitVec 6) (reg : BitVec 14)
  /-- BBOX. R293. -/
  | bbox (dp : Dep) (a : BitVec 6) (tag : BitVec 8)
  /-- POWER_ON_RESET. Power-on reset with what the flash holds (R454, R486, R487). -/
  | powerOnReset (boot : Boot)
  /-- LEADER_CLAIM. The pair of mere m claims leadership (R454). -/
  | leaderClaim (m : Nat)
  /-- ELECTION_GRANT. The election register grants leadership (R454). -/
  | electionGrant
  /-- HEARTBEAT. The leader writes the heartbeat register (R455). -/
  | heartbeat
  /-- HEARTBEAT_LAPSE. 10 ms pass without a heartbeat (R455). -/
  | heartbeatLapse
  /-- MACHINE_CHECK. A violation of the service pair of mere m (R444, R447). -/
  | machineCheck (m : Nat) (cause : BitVec 8) (paddr : BitVec 48)
  /-- FABRIC_ENUMERATION. The leader sets PACKAGE (R36). -/
  | fabricEnumeration (pkg : BitVec 10)
  /-- RESUME. A resolution word with RES RESUME (R436). -/
  | resume (r : ResWord)
  /-- RETRY. A resolution word with RES RETRY (R436, R438). -/
  | retry (r : ResWord)
  /-- KILL. A resolution word with RES KILL (R439). -/
  | kill (r : ResWord)
  /-- DELIVER. A resolution word with RES DELIVER (R440). -/
  | deliver (r : ResWord)
  /-- RESTART. RST RESTART is written to PCTL (R483). -/
  | restart (p : Nat)
  /-- CLEAR. RST CLEAR is written to PCTL (R483). -/
  | clear (p : Nat)
  /-- PARTITION_RESET_COMPLETE. The reset of partition p completes (R483). -/
  | partitionResetComplete (p : Nat)
  /-- FLOCK. 1 is written to FLOCK (R484). -/
  | flock (p : Nat)
  /-- FEAT_ACCEPT. A write of FEAT_ACCEPT (R484). -/
  | featAccept (p : Nat) (word : BitVec 2) (val : BitVec 64)
  /-- LAUNCH_QUEUE_BIND. A handle is written to LQH i (R467). -/
  | launchQueueBind (p : Nat) (i : BitVec 3) (hd : BitVec 64)
  /-- LAUNCH_QUEUE_UNBIND. 0 is written to LQH i (R467). -/
  | launchQueueUnbind (p : Nat) (i : BitVec 3)
  /-- WINDOW_BIND. A binding write of WCTL (R471). -/
  | windowBind (p : Nat) (w : BitVec 5) (val : BitVec 64)
  /-- WINDOW_UNBIND. A write of WCTL with KIND 00 (R471). -/
  | windowUnbind (p : Nat) (w : BitVec 5) (val : BitVec 64)
  /-- WINDOW_REOPEN. A write of WCTL that reopens a closed window (R91, R471). -/
  | windowReopen (p : Nat) (w : BitVec 5) (val : BitVec 64)
  /-- WINDOW_RID_CHANGE. A write of WCTL to a bound, open window that keeps the binding (R471). -/
  | windowRidChange (p : Nat) (w : BitVec 5) (val : BitVec 64)
  /-- REQUESTER_UNFREEZE. 1 is written to FROZEN of WSTAT (R445). -/
  | requesterUnfreeze (p : Nat) (w : BitVec 5)
  /-- WTGT_WRITE. A write of WTGT (R474). -/
  | wtgtWrite (p : Nat) (w : BitVec 5) (val : BitVec 64)
  /-- NAMESPACE_BIND. NSCTL is written with BIND 1; kv: the namespace reports the Key Value command set (R480). -/
  | namespaceBind (p : Nat) (n : BitVec 6) (val : BitVec 64) (kv : Bool)
  /-- NAMESPACE_UNBIND. NSCTL is written with BIND 0 (R480). -/
  | namespaceUnbind (p : Nat) (n : BitVec 6)
  /-- EDGE_WRITE. A write to the edge aperture (R466). -/
  | edgeWrite (p : Nat) (i : BitVec 14) (val : BitVec 16)
  /-- REGISTER_WRITE. A write to a register with no behaviour of its own (R465, R470). -/
  | registerWrite (p : Nat) (off : BitVec 16) (val : BitVec 64)
  /-- INGRESS_SEQUENCE_WRITE. A posted write to a sequence window (R89, R90). -/
  | ingressSequenceWrite (x : Ingress)
  /-- INGRESS_TENSOR_WRITE. A posted write to a tensor window (R473). -/
  | ingressTensorWrite (x : Ingress)
  /-- INGRESS_TENSOR_READ. A read of n bytes through a tensor window (R473). -/
  | ingressTensorRead (x : Ingress) (n : Nat)
  /-- INGRESS_COUNTER_WRITE. A write to a counter window (R474). -/
  | ingressCounterWrite (x : Ingress)
  /-- INGRESS_COUNTER_READ. A read of a counter window (R474). -/
  | ingressCounterRead (x : Ingress)
  /-- INGRESS_UNSUPPORTED. An access that receives Unsupported Request (R469, R90). -/
  | ingressUnsupported (x : Ingress)
  /-- GET_VERSION. SPDM request (R489). -/
  | getVersion
  /-- GET_CAPABILITIES. SPDM request (R489). -/
  | getCapabilities
  /-- NEGOTIATE_ALGORITHMS. SPDM request (R489). -/
  | negotiateAlgorithms
  /-- GET_DIGESTS. SPDM request (R489). -/
  | getDigests
  /-- GET_CERTIFICATE. SPDM request (R489). -/
  | getCertificate
  /-- CHALLENGE. SPDM request (R489). -/
  | challenge (nonce : BitVec 256)
  /-- GET_MEASUREMENTS. SPDM request (R489). -/
  | getMeasurements
  /-- KEY_EXCHANGE. SPDM request (R489). -/
  | keyExchange (sess : BitVec 16)
  /-- FINISH. SPDM request (R489). -/
  | finish (sess : BitVec 16)
  /-- BLACK_BOX_READ. The host reads mere m's black box and counters (R490, R461). -/
  | blackBoxRead (m : Nat)
  /-- POWER_LIMIT_SET. The power limit is set (R490, R493). -/
  | powerLimitSet (watts : Nat)
  /-- CHECKPOINT_START. A checkpoint to that many namespaces begins (R491). -/
  | checkpointStart (targets : Nat)
  /-- CHECKPOINT_COPY. The copy phase (R491). -/
  | checkpointCopy
  /-- CHECKPOINT_RESUME. The resume phase (R491, R496). -/
  | checkpointResume
  /-- CHECKPOINT_RESTORE. A restore writes the image back (R492). -/
  | checkpointRestore
  /-- THROTTLE_PAUSE. Mere m's controller pauses issue for a slice (R494). -/
  | throttlePause (m : Nat)
  /-- THERMAL_TRIP. The trip temperature (R494). -/
  | thermalTrip
  /-- WARM_RESET_RELEASE. The warm reset is released (R494). -/
  | warmResetRelease
  /-- NVMEOF_CONNECT. A connection is established (R480). -/
  | nvmeofConnect (p : Nat) (conn : BitVec 4)
  /-- KV_COMPLETION. An NVMe completion arrives (R351). -/
  | kvCompletion (op : Nat) (nvst : BitVec 16) (len : BitVec 32) (data : List (BitVec 8))
  /-- KV_TIMEOUT. A key-value command times out (R479). -/
  | kvTimeout (op : Nat)
  /-- WALKER_READ_RECORD. The walker reads the next record (R157, R467). -/
  | walkerReadRecord (p : Nat)
  /-- WALKER_UNREACHABLE_TIMEOUT. The home of a held record stays unreachable for 100 ms (R156). -/
  | walkerUnreachableTimeout (p : Nat)
  /-- TASK_DISPATCH. The walker hands out an iteration or continuation (R158, R162). -/
  | taskDispatch (p : Nat)
  /-- PREEMPTOR_START. The pre-empting task starts on a core (R169, R448). -/
  | preemptorStart (core : Nat)
  /-- AGING_STEP. Ready work item k of partition p rises one level (R163). -/
  | agingStep (p : Nat) (k : Nat)
  /-- CONTINUATION_ENQUEUE. Continuation k of partition p is enqueued (R167). -/
  | continuationEnqueue (p : Nat) (k : Nat)
  /-- NODE_COMPLETE. Node n of partition p completes (R160, R161). -/
  | nodeComplete (p : Nat) (n : Nat)
  /-- STORE_ACK. An unacknowledged store is acknowledged (R160, R216). -/
  | storeAck (op : Nat)
  /-- WATCHDOG_EXPIRY. An engine's stall count passes its bound (R143). -/
  | watchdogExpiry (e : EngRef)
  /-- HELD_SIGNAL_ACCEPT. A held signal is accepted (R141). -/
  | heldSignalAccept (e : EngRef)
  /-- WHEEL_SC_CHOICE. The wheel reaches a position of the core (R202, R203). -/
  | wheelScChoice (core : Nat)
  /-- STREAMER_GRANT_ROUND. One round of a streamer (R302). -/
  | streamerGrantRound (tarn : Nat)
  /-- COPY_RESOLUTION. R316, R68. -/
  | copyResolution (op : Nat)
  /-- COPY_IN_COMPLETION. R316. -/
  | copyInCompletion (op : Nat)
  /-- COPY_OUT_COMPLETION. R317. -/
  | copyOutCompletion (op : Nat)
  /-- CBFILL_COMPLETION. R339. -/
  | cbfillCompletion (op : Nat)
  /-- BANK_COMMAND_SERVED. R183. -/
  | bankCommandServed (op : Nat)
  /-- MMA_COMPLETION. R360. -/
  | mmaCompletion (op : Nat)
  /-- ALOAD_COMPLETION. R385. -/
  | aloadCompletion (op : Nat)
  /-- DRAIN_COMPLETION. R388. -/
  | drainCompletion (op : Nat)
  /-- ADRQ_ENTRY_WRITE. R390. -/
  | adrqEntryWrite (op : Nat)
  /-- V_RESULT_WRITE. R401. -/
  | vResultWrite (op : Nat)
  /-- REPLICATED_COMMIT. R56. -/
  | replicatedCommit (op : Nat)
  /-- REPLICA_LOCK_TIMEOUT. A replica did not acknowledge in 20 µs (R57). -/
  | replicaLockTimeout (hd : BitVec 64) (pkg : BitVec 10)
  /-- STORE_FAILURE. An unacknowledged store fails (R52). -/
  | storeFailure (op : Nat)
  /-- REDUCTION_MERGE. Two reduction contributions merge (R211). -/
  | reductionMerge (op : Nat) (op2 : Nat)
  /-- OBJECT_CREATE. The manager creates an object (R40). -/
  | objectCreate (x : CreateArgs)
  /-- OBJECT_DESTROY. The manager destroys an object (R40, R278). -/
  | objectDestroy (hd : BitVec 64)
  /-- PAGE_PLACEMENT. The manager places a page or block and writes RETRY (R441). -/
  | pagePlacement (x : PageArgs) (r : ResWord)
  /-- VIEW_REBUILD. The manager rebuilds a stale view and writes RETRY (R441). -/
  | viewRebuild (hd : BitVec 64) (r : ResWord)
  /-- PAGE_MOVE. One step of a page move (R462): 0 invalidate, 1 copy, 2 revalidate. -/
  | pageMove (x : PageArgs) (phase : BitVec 2)
  /-- PROMOTION_LAND. A promotion completes; late: after every request for it was served (R51). -/
  | promotionLand (x : PageArgs) (late : Bool)
  /-- SEQUENCE_SEAL. The manager seals a sequence (R82). -/
  | sequenceSeal (hd : BitVec 64)
  /-- CONTEXT_SWITCH_OUT. An ordinary task is saved to a save object (R171, R450). -/
  | contextSwitchOut (core : Nat) (hd : BitVec 64)
  /-- CONTEXT_RESTORE. Save k of partition p is restored on a core (R172). -/
  | contextRestore (p : Nat) (k : Nat) (core : Nat)
  /-- HOME_REQUEST_COMPLETION. A home request completes (R298, R250). -/
  | homeRequestCompletion (op : Nat)
  /-- CONNECTION_LOST. An NVMe-oF connection is lost (R480). -/
  | connectionLost (p : Nat) (conn : BitVec 4)
  /-- HOME_UNREACHABLE. A package becomes unreachable (R477). -/
  | homeUnreachable (pkg : BitVec 10)
  /-- HOME_REACHABLE. A package becomes reachable again (R156). -/
  | homeReachable (pkg : BitVec 10)
  /-- PEER_REQUEST. A request from another package arrives (R483, R215). -/
  | peerRequest (x : PeerArgs)
  /-- CONSUMER_INDEX_ADVANCE. The service pair takes n records (R432). -/
  | consumerIndexAdvance (m : Nat) (n : Nat)
  /-- RESOLUTION_IGNORED. A resolution word with a reserved RES (R435). -/
  | resolutionIgnored (m : Nat) (word : BitVec 64)
  /-- OBJECT_REPLICATE. The manager rewrites the replica list (R45, R205). -/
  | objectReplicate (hd : BitVec 64) (pkgs : List (BitVec 10))
deriving DecidableEq, Repr

end Sys2Proof
end

