-- ==== Sys2Proof/WellFormed.lean ====
section
/-! DEFINITION. Well-formed instructions: the static conditions of the encoding, and static facts of each row. -/

namespace Sys2Proof

/-- A destination scalar of C, L, M, V (R151). -/
def inC (d : BitVec 6) : Bool := decide (d.toNat < 32)
/-- A destination scalar of L (R151). -/
def inL (d : BitVec 6) : Bool := decide (32 ≤ d.toNat ∧ d.toNat < 44)
/-- A destination scalar of M (R151). -/
def inM (d : BitVec 6) : Bool := decide (44 ≤ d.toNat ∧ d.toNat < 52)
/-- A destination scalar of V (R151). -/
def inV (d : BitVec 6) : Bool := decide (52 ≤ d.toNat)
/-- Scope codes that exist (R187). -/
def scopeOk (sc : BitVec 3) : Bool := decide (sc.toNat ≤ 4)
/-- Scopes an SC access may name (R204, R274). -/
def scopeSc (sc : BitVec 3) : Bool := decide (sc.toNat ≤ 3)
/-- Scopes of a barrier: CORE, TARN, MERE (R268). -/
def barScope (sc : BitVec 3) : Bool := decide (sc.toNat ≤ 2)
/-- Barriers b0-b47 (R228, R229). -/
def barNum (n : BitVec 6) : Bool := decide (n.toNat < 48)
/-- Rounding codes that exist (R107). -/
def rndOk (r : BitVec 3) : Bool := decide (r.toNat ≤ 4)
/-- Orders that exist (R193); SC does not take the RACK scope (R204). -/
def ordOk (o sc : BitVec 3) : Bool := decide (o.toNat ≤ 4) && (decide (o ≠ 4) || scopeSc sc)
/-- The listed system registers (R290). -/
def sysReg (r : BitVec 14) : Bool := decide (r.toNat ≤ 3 ∨ r.toNat = 0x10 ∨ r.toNat = 0x11)

/-- Lane container width of a conversion format: 8 for FP6, else its width (R410). -/
def cvtWidth (f : BitVec 4) : Nat :=
  match f.toNat with
  | 0 | 8 => 32
  | 1 | 2 => 16
  | 7 | 10 => 4
  | _ => 8

/-- The codes of VCVT that exist: two different formats and a part below the ratio (R409). -/
def cvtOk (x : CvtArgs) : Bool :=
  decide (x.dfmt.toNat ≤ 10 ∧ x.sfmt.toNat ≤ 10 ∧ x.dfmt ≠ x.sfmt) &&
  decide (x.part.toNat * min (cvtWidth x.dfmt) (cvtWidth x.sfmt) < max (cvtWidth x.dfmt) (cvtWidth x.sfmt))

/-- The operand fields each VPERM mode leaves unused are zero (R421). -/
def permOk (q : Q2) (mode : BitVec 3) (wd : BitVec 2) (sk : BitVec 6) (part : Bool) : Bool :=
  decide (wd ≠ 3) &&
  match mode.toNat with
  | 0 => decide (sk = 0) && !part
  | 1 | 2 => decide (q.b = 0) && !q.kb && !part
  | 3 | 4 => decide (q.b = 0) && !q.kb && decide (sk = 0) && !part
  | 5 | 6 => decide (sk = 0)
  | _ => false

/-- The encoding conditions of R226-R234 that the operand types do not already say. -/
def Instr.wf : Instr → Bool
  | .nop _ => true
  | .nopEnd _ => true
  | .add _ d _ _ => inC d
  | .sub _ d _ _ => inC d
  | .addi _ d _ _ => inC d
  | .mul _ d _ _ => inC d
  | .mulh _ d _ _ => inC d
  | .mulhu _ d _ _ => inC d
  | .divu _ d _ _ => inC d
  | .divs _ d _ _ => inC d
  | .remu _ d _ _ => inC d
  | .rems _ d _ _ => inC d
  | .and _ d _ _ => inC d
  | .andi _ d _ _ => inC d
  | .or _ d _ _ => inC d
  | .ori _ d _ _ => inC d
  | .xor _ d _ _ => inC d
  | .xori _ d _ _ => inC d
  | .andn _ d _ _ => inC d
  | .shl _ d _ _ => inC d
  | .shli _ d _ _ => inC d
  | .shr _ d _ _ => inC d
  | .shri _ d _ _ => inC d
  | .sar _ d _ _ => inC d
  | .sari _ d _ _ => inC d
  | .rotl _ d _ _ => inC d
  | .rotli _ d _ _ => inC d
  | .min _ d _ _ => inC d
  | .minu _ d _ _ => inC d
  | .max _ d _ _ => inC d
  | .maxu _ d _ _ => inC d
  | .clz _ d _ => inC d
  | .popc _ d _ => inC d
  | .lui _ d _ => inC d
  | .li _ d _ => inC d
  | .sext _ d _ n => inC d && decide (1 ≤ n.toNat ∧ n.toNat ≤ 64)
  | .sel _ d _ _ _ _ => inC d
  | .cmp _ _ _ _ _ => true
  | .cmpi _ _ _ _ _ => true
  | .plog _ _ _ _ _ => true
  | .br _ _ _ _ => true
  | .jmp _ _ => true
  | .call _ _ => true
  | .ret _ => true
  | .loopC _ _ n => decide (n ≠ 0)
  | .retire _ => true
  | .park _ _ _ => true
  | .unpark _ d _ => inC d
  | .bara _ n _ sc => barNum n && barScope sc
  | .barw _ n sc => barNum n && barScope sc
  | .baraw _ n _ sc => barNum n && barScope sc
  | .cadd _ _ _ sc => scopeOk sc
  | .caddSc _ _ _ sc => scopeSc sc
  | .cwaitx _ _ _ _ => true
  | .pub _ _ sc => scopeOk sc
  | .subSubscribe _ _ _ _ => true
  | .opin _ _ d => inC d
  | .ounpin _ _ => true
  | .qrel _ _ => true
  | .arel _ _ => true
  | .trel _ _ => true
  | .spawn _ _ a arg nsel nnum => (arg || decide (a = 0)) && (if nsel then decide (nnum.toNat < 4096 ∨ nnum = 0xFFFF#16) else decide (nnum = 0))
  | .yield _ => true
  | .shp _ _ _ _ _ _ => true
  | .shpx _ _ _ _ _ _ => true
  | .shpo _ _ _ pad cdim => decide (pad ≠ 3) && decide (cdim.toNat ≤ 4)
  | .shps _ _ _ _ _ => true
  | .cpin _ q => scopeOk q.sc
  | .cpinTr _ q => scopeOk q.sc
  | .cpinRb _ q => scopeOk q.sc
  | .cpq _ q => decide (q.tq.toNat < 32) && scopeOk q.sc
  | .cpqTr _ q => decide (q.tq.toNat < 32) && scopeOk q.sc
  | .cpqRb _ q => decide (q.tq.toNat < 32) && scopeOk q.sc
  | .cpout _ q => scopeOk q.sc
  | .cpoutFf _ q => scopeOk q.sc
  | .cpqo _ q => decide (q.tq.toNat < 32) && scopeOk q.sc
  | .cprag _ q => scopeOk q.sc
  | .cpragTr _ q => scopeOk q.sc
  | .cppeer _ q => scopeOk q.sc
  | .cppeerFf _ q => scopeOk q.sc
  | .tset _ _ _ _ swz => decide (swz.toNat ≤ 4)
  | .tsetClr _ _ => true
  | .tsetRdy _ _ => true
  | .tstat _ d _ => inL d
  | .sqres _ d _ _ => inL d
  | .sqcmt _ _ _ _ sc => scopeOk sc
  | .sqlen _ d _ _ => inL d
  | .sqfork _ _ _ _ _ => true
  | .sqpin _ _ _ _ => true
  | .squnpin _ _ _ _ => true
  | .pxhash _ d _ _ _ _ => inL d
  | .pxfind _ d _ _ _ => inL d
  | .pxins _ d _ _ _ _ => inL d
  | .pxdel _ d _ _ => inL d
  | .cbfillF32 _ q => decide (q.tq.toNat < 8) && scopeOk q.sc
  | .cbfillBf16 _ q => decide (q.tq.toNat < 8) && scopeOk q.sc
  | .cbfillF16 _ q => decide (q.tq.toNat < 8) && scopeOk q.sc
  | .cbfillE4m3 _ q => decide (q.tq.toNat < 8) && scopeOk q.sc
  | .cbfillE5m2 _ q => decide (q.tq.toNat < 8) && scopeOk q.sc
  | .cbsetF32 _ _ _ _ => true
  | .cbsetBf16 _ _ _ _ => true
  | .cbsetF16 _ _ _ _ => true
  | .cbsetE4m3 _ _ _ _ => true
  | .cbsetE5m2 _ _ _ _ => true
  | .cbinv _ _ => true
  | .bkx _ _ cmd _ _ => decide (cmd.toNat ≤ 6)
  | .bkxHandle _ _ cmd _ _ sc => decide (cmd.toNat ≤ 6) && scopeOk sc
  | .aadd _ q => (inL q.d || decide (q.d = 0)) && scopeOk q.sc && ordOk q.ord q.sc
  | .amin _ q => (inL q.d || decide (q.d = 0)) && scopeOk q.sc && ordOk q.ord q.sc
  | .amax _ q => (inL q.d || decide (q.d = 0)) && scopeOk q.sc && ordOk q.ord q.sc
  | .axch _ q => (inL q.d || decide (q.d = 0)) && scopeOk q.sc && ordOk q.ord q.sc
  | .acas _ q _ ford => (inL q.d || decide (q.d = 0)) && scopeOk q.sc && ordOk q.ord q.sc && decide (ford.toNat ≤ 1)
  | .radd _ q => scopeOk q.sc
  | .raddFf _ q => scopeOk q.sc
  | .kvput _ q => (inL q.st || decide (q.st = 0))
  | .kvget _ q => (inL q.st || decide (q.st = 0))
  | .kvdel _ q => (inL q.st || decide (q.st = 0)) && decide (q.t = 0 ∧ q.i0 = 0)
  | .kvexist _ q => (inL q.st || decide (q.st = 0)) && decide (q.t = 0 ∧ q.i0 = 0)
  | .kvlist _ q => (inL q.st || decide (q.st = 0))
  | .promo _ q tier => scopeOk q.sc && decide (q.tq = 0) && decide (tier.toNat ≤ 1)
  | .demo _ q tier => scopeOk q.sc && decide (q.tq = 0) && decide (tier = 1 ∨ tier = 2 ∨ tier = 4)
  | .hset _ _ _ => true
  | .hsetImport _ _ _ => true
  | .hget _ d _ f => inL d && decide (f ≠ 3)
  | .hprobe _ d _ _ _ _ _ => inL d
  | .loopL _ _ n => decide (n ≠ 0)
  | .mma _ q => (q.ca || decide (q.kba = 0)) && (q.cb || decide (q.kbb = 0))
  | .mncfg _ d _ b x => if d.toNat ≤ 5 then decide (x.extractLsb' 12 16 = 0) else decide (d.toNat = 6 ∧ b = 0 ∧ x.extractLsb' 0 10 = 0)
  | .mnest _ => true
  | .acoop _ qr qc => decide (1 ≤ qr.toNat) && decide (1 ≤ qc.toNat ∧ qc.toNat ≤ 5)
  | .acoopEnd _ => true
  | .azero _ _ _ _ => true
  | .aloadF32 _ _ _ _ => true
  | .aloadI32 _ _ _ _ => true
  | .astat _ d _ => inM d
  | .loopM _ _ n => decide (n ≠ 0)
  | .adrainF32 _ q => rndOk q.rnd && decide (q.scf = 0) && decide (q.b = 0) && !q.scb
  | .adrainF16 _ q => rndOk q.rnd && decide (q.scf = 0) && decide (q.b = 0) && !q.scb
  | .adrainBf16 _ q => rndOk q.rnd && decide (q.scf = 0) && decide (q.b = 0) && !q.scb
  | .adrainE4m3 _ q => rndOk q.rnd && decide (q.scf ≠ 3) && (decide (q.scf ≠ 0) || (decide (q.b = 0) && !q.scb))
  | .adrainE5m2 _ q => rndOk q.rnd && decide (q.scf ≠ 3) && (decide (q.scf ≠ 0) || (decide (q.b = 0) && !q.scb))
  | .adrainE2m3 _ q => rndOk q.rnd && decide (q.scf ≠ 3) && (decide (q.scf ≠ 0) || (decide (q.b = 0) && !q.scb))
  | .adrainE3m2 _ q => rndOk q.rnd && decide (q.scf ≠ 3) && (decide (q.scf ≠ 0) || (decide (q.b = 0) && !q.scb))
  | .adrainE2m1 _ q => rndOk q.rnd && decide (q.scf ≠ 3) && (decide (q.scf ≠ 0) || (decide (q.b = 0) && !q.scb))
  | .adrainI32 _ q => rndOk q.rnd && decide (q.scf = 0) && decide (q.b = 0) && !q.scb
  | .adrainI8 _ q => rndOk q.rnd && decide (q.scf ≠ 3) && (decide (q.scf ≠ 0) || (decide (q.b = 0) && !q.scb))
  | .adrainI4 _ q => rndOk q.rnd && decide (q.scf ≠ 3) && (decide (q.scf ≠ 0) || (decide (q.b = 0) && !q.scb))
  | .adrqF32 _ q => rndOk q.rnd
  | .adrqF16 _ q => rndOk q.rnd
  | .adrqBf16 _ q => rndOk q.rnd
  | .adrqE4m3 _ q => rndOk q.rnd
  | .adrqE5m2 _ q => rndOk q.rnd
  | .adrqI32 _ q => rndOk q.rnd
  | .adrqI8 _ q => rndOk q.rnd
  | .vaddF32 _ _ rnd => rndOk rnd
  | .vaddF16 _ _ rnd => rndOk rnd
  | .vaddBf16 _ _ rnd => rndOk rnd
  | .vsubF32 _ _ rnd => rndOk rnd
  | .vsubF16 _ _ rnd => rndOk rnd
  | .vsubBf16 _ _ rnd => rndOk rnd
  | .vmulF32 _ _ rnd => rndOk rnd
  | .vmulF16 _ _ rnd => rndOk rnd
  | .vmulBf16 _ _ rnd => rndOk rnd
  | .vfmaF32 _ _ x => rndOk x.rnd && decide (x.ovf = 0)
  | .vfmaF16 _ _ x => rndOk x.rnd && decide (x.ovf = 0)
  | .vfmaBf16 _ _ x => rndOk x.rnd && decide (x.ovf = 0)
  | .vfmaE4m3 _ _ x => rndOk x.rnd
  | .vfmaE5m2 _ _ x => rndOk x.rnd
  | .vminF32 _ _ => true
  | .vminF16 _ _ => true
  | .vminBf16 _ _ => true
  | .vmaxF32 _ _ => true
  | .vmaxF16 _ _ => true
  | .vmaxBf16 _ _ => true
  | .vrcpF32 _ _ rnd => rndOk rnd
  | .vrcpF16 _ _ rnd => rndOk rnd
  | .vrcpBf16 _ _ rnd => rndOk rnd
  | .vrsqF32 _ _ rnd => rndOk rnd
  | .vrsqF16 _ _ rnd => rndOk rnd
  | .vrsqBf16 _ _ rnd => rndOk rnd
  | .vexp2F32 _ _ rnd => rndOk rnd
  | .vexp2F16 _ _ rnd => rndOk rnd
  | .vexp2Bf16 _ _ rnd => rndOk rnd
  | .vlog2F32 _ _ rnd => rndOk rnd
  | .vlog2F16 _ _ rnd => rndOk rnd
  | .vlog2Bf16 _ _ rnd => rndOk rnd
  | .vabsF32 _ _ => true
  | .vabsF16 _ _ => true
  | .vabsBf16 _ _ => true
  | .vnegF32 _ _ => true
  | .vnegF16 _ _ => true
  | .vnegBf16 _ _ => true
  | .vcvt _ _ x => rndOk x.rnd && cvtOk x
  | .vcbx _ _ _ wid part => decide ((part.toNat + 1) * 128 * (wid.toNat + 1) ≤ 4096)
  | .viaddI32 _ _ _ => true
  | .viaddI8 _ _ _ => true
  | .visubI32 _ _ _ => true
  | .visubI8 _ _ _ => true
  | .vimulI32 _ _ _ => true
  | .vimulI8 _ _ _ => true
  | .vand _ _ => true
  | .vor _ _ => true
  | .vxor _ _ => true
  | .vshlI32 _ _ => true
  | .vshlI8 _ _ => true
  | .vshrI32 _ _ => true
  | .vshrI8 _ _ => true
  | .vcmpF32 _ q => decide (1 ≤ q.d.toNat ∧ q.d.toNat ≤ 7)
  | .vcmpF16 _ q => decide (1 ≤ q.d.toNat ∧ q.d.toNat ≤ 7)
  | .vcmpBf16 _ q => decide (1 ≤ q.d.toNat ∧ q.d.toNat ≤ 7)
  | .vcmpI32 _ q => decide (1 ≤ q.d.toNat ∧ q.d.toNat ≤ 7)
  | .vcmpI8 _ q => decide (1 ≤ q.d.toNat ∧ q.d.toNat ≤ 7)
  | .vsel _ _ => true
  | .vbcast _ _ _ _ wd => decide (wd ≠ 3)
  | .vbcastLane _ _ _ wd => decide (wd ≠ 3)
  | .vredaddF32 _ _ rnd => decide (rnd.toNat ≤ 3)
  | .vredaddF16 _ _ rnd => decide (rnd.toNat ≤ 3)
  | .vredaddBf16 _ _ rnd => decide (rnd.toNat ≤ 3)
  | .vredaddI32 _ _ _ => true
  | .vredmaxF32 _ _ => true
  | .vredmaxF16 _ _ => true
  | .vredmaxBf16 _ _ => true
  | .vredmaxI32 _ _ => true
  | .vscanF32 _ _ x _ ci => decide (x.rnd.toNat ≤ 3) && decide (x.ovf = 0) && (ci || (decide (x.c = 0) && !x.kc))
  | .vscanI32 _ _ x _ ci => decide (x.rnd = 0) && (ci || (decide (x.c = 0) && !x.kc))
  | .vperm _ q mode wd sk part => permOk q mode wd sk part
  | .vpack _ _ wid part => decide ((part.toNat + 1) * 512 * (wid.toNat + 1) ≤ 4096)
  | .vunpack _ _ wid part _ => decide ((part.toNat + 1) * 512 * (wid.toNat + 1) ≤ 4096)
  | .vmovq _ _ => true
  | .vdup _ q => !q.kb
  | .vdrop _ _ _ => true
  | .vlanei _ _ _ _ wd _ => decide (wd ≠ 3)
  | .vpeeks _ _ _ sd wd ln => inV sd && decide (wd ≠ 3) && decide (ln.toNat < 128 * 2 ^ wd.toNat)
  | .vmerge3 _ _ rnd => rndOk rnd
  | .loopV _ _ n => decide (n ≠ 0)
  | .trap _ _ => true
  | .sysrd _ d reg => inC d && sysReg reg
  | .syswr _ _ reg => sysReg reg
  | .bbox _ _ _ => true
  | .powerOnReset _ => true
  | .leaderClaim _ => true
  | .electionGrant => true
  | .heartbeat => true
  | .heartbeatLapse => true
  | .machineCheck _ _ _ => true
  | .fabricEnumeration _ => true
  | .resume _ => true
  | .retry _ => true
  | .kill _ => true
  | .deliver _ => true
  | .restart _ => true
  | .clear _ => true
  | .partitionResetComplete _ => true
  | .flock _ => true
  | .featAccept _ _ _ => true
  | .launchQueueBind _ _ _ => true
  | .launchQueueUnbind _ _ => true
  | .windowBind _ _ _ => true
  | .windowUnbind _ _ _ => true
  | .windowReopen _ _ _ => true
  | .windowRidChange _ _ _ => true
  | .requesterUnfreeze _ _ => true
  | .wtgtWrite _ _ _ => true
  | .namespaceBind _ _ _ _ => true
  | .namespaceUnbind _ _ => true
  | .edgeWrite _ _ _ => true
  | .registerWrite _ _ _ => true
  | .ingressSequenceWrite _ => true
  | .ingressTensorWrite _ => true
  | .ingressTensorRead _ _ => true
  | .ingressCounterWrite _ => true
  | .ingressCounterRead _ => true
  | .ingressUnsupported _ => true
  | .getVersion => true
  | .getCapabilities => true
  | .negotiateAlgorithms => true
  | .getDigests => true
  | .getCertificate => true
  | .challenge _ => true
  | .getMeasurements => true
  | .keyExchange _ => true
  | .finish _ => true
  | .blackBoxRead _ => true
  | .powerLimitSet _ => true
  | .checkpointStart _ => true
  | .checkpointCopy => true
  | .checkpointResume => true
  | .checkpointRestore => true
  | .throttlePause _ => true
  | .thermalTrip => true
  | .warmResetRelease => true
  | .nvmeofConnect _ _ => true
  | .kvCompletion _ _ _ _ => true
  | .kvTimeout _ => true
  | .walkerReadRecord _ => true
  | .walkerUnreachableTimeout _ => true
  | .taskDispatch _ => true
  | .preemptorStart _ => true
  | .agingStep _ _ => true
  | .continuationEnqueue _ _ => true
  | .nodeComplete _ _ => true
  | .storeAck _ => true
  | .watchdogExpiry _ => true
  | .heldSignalAccept _ => true
  | .wheelScChoice _ => true
  | .streamerGrantRound _ => true
  | .copyResolution _ => true
  | .copyInCompletion _ => true
  | .copyOutCompletion _ => true
  | .cbfillCompletion _ => true
  | .bankCommandServed _ => true
  | .mmaCompletion _ => true
  | .aloadCompletion _ => true
  | .drainCompletion _ => true
  | .adrqEntryWrite _ => true
  | .vResultWrite _ => true
  | .replicatedCommit _ => true
  | .replicaLockTimeout _ _ => true
  | .storeFailure _ => true
  | .reductionMerge _ _ => true
  | .objectCreate _ => true
  | .objectDestroy _ => true
  | .pagePlacement _ _ => true
  | .viewRebuild _ _ => true
  | .pageMove _ _ => true
  | .promotionLand _ _ => true
  | .sequenceSeal _ => true
  | .contextSwitchOut _ _ => true
  | .contextRestore _ _ _ => true
  | .homeRequestCompletion _ => true
  | .connectionLost _ _ => true
  | .homeUnreachable _ => true
  | .homeReachable _ => true
  | .peerRequest _ => true
  | .consumerIndexAdvance _ _ => true
  | .resolutionIgnored _ _ => true
  | .objectReplicate _ _ => true

/-- A well-formed instruction (R229, R234): its words decode to it. -/
abbrev Instr.WellFormed (i : Instr) : Prop := i.wf = true

/-- The engine whose range the opcode lies in (R231); `none` for NOP and NOP.END, and for events. -/
def Instr.engine : Instr → Option EngineId
  | .nop _ => none
  | .nopEnd _ => none
  | .add _ _ _ _ => some .c
  | .sub _ _ _ _ => some .c
  | .addi _ _ _ _ => some .c
  | .mul _ _ _ _ => some .c
  | .mulh _ _ _ _ => some .c
  | .mulhu _ _ _ _ => some .c
  | .divu _ _ _ _ => some .c
  | .divs _ _ _ _ => some .c
  | .remu _ _ _ _ => some .c
  | .rems _ _ _ _ => some .c
  | .and _ _ _ _ => some .c
  | .andi _ _ _ _ => some .c
  | .or _ _ _ _ => some .c
  | .ori _ _ _ _ => some .c
  | .xor _ _ _ _ => some .c
  | .xori _ _ _ _ => some .c
  | .andn _ _ _ _ => some .c
  | .shl _ _ _ _ => some .c
  | .shli _ _ _ _ => some .c
  | .shr _ _ _ _ => some .c
  | .shri _ _ _ _ => some .c
  | .sar _ _ _ _ => some .c
  | .sari _ _ _ _ => some .c
  | .rotl _ _ _ _ => some .c
  | .rotli _ _ _ _ => some .c
  | .min _ _ _ _ => some .c
  | .minu _ _ _ _ => some .c
  | .max _ _ _ _ => some .c
  | .maxu _ _ _ _ => some .c
  | .clz _ _ _ => some .c
  | .popc _ _ _ => some .c
  | .lui _ _ _ => some .c
  | .li _ _ _ => some .c
  | .sext _ _ _ _ => some .c
  | .sel _ _ _ _ _ _ => some .c
  | .cmp _ _ _ _ _ => some .c
  | .cmpi _ _ _ _ _ => some .c
  | .plog _ _ _ _ _ => some .c
  | .br _ _ _ _ => some .c
  | .jmp _ _ => some .c
  | .call _ _ => some .c
  | .ret _ => some .c
  | .loopC _ _ _ => some .c
  | .retire _ => some .c
  | .park _ _ _ => some .c
  | .unpark _ _ _ => some .c
  | .bara _ _ _ _ => some .c
  | .barw _ _ _ => some .c
  | .baraw _ _ _ _ => some .c
  | .cadd _ _ _ _ => some .c
  | .caddSc _ _ _ _ => some .c
  | .cwaitx _ _ _ _ => some .c
  | .pub _ _ _ => some .c
  | .subSubscribe _ _ _ _ => some .c
  | .opin _ _ _ => some .c
  | .ounpin _ _ => some .c
  | .qrel _ _ => some .c
  | .arel _ _ => some .c
  | .trel _ _ => some .c
  | .spawn _ _ _ _ _ _ => some .c
  | .yield _ => some .c
  | .shp _ _ _ _ _ _ => some .l
  | .shpx _ _ _ _ _ _ => some .l
  | .shpo _ _ _ _ _ => some .l
  | .shps _ _ _ _ _ => some .l
  | .cpin _ _ => some .l
  | .cpinTr _ _ => some .l
  | .cpinRb _ _ => some .l
  | .cpq _ _ => some .l
  | .cpqTr _ _ => some .l
  | .cpqRb _ _ => some .l
  | .cpout _ _ => some .l
  | .cpoutFf _ _ => some .l
  | .cpqo _ _ => some .l
  | .cprag _ _ => some .l
  | .cpragTr _ _ => some .l
  | .cppeer _ _ => some .l
  | .cppeerFf _ _ => some .l
  | .tset _ _ _ _ _ => some .l
  | .tsetClr _ _ => some .l
  | .tsetRdy _ _ => some .l
  | .tstat _ _ _ => some .l
  | .sqres _ _ _ _ => some .l
  | .sqcmt _ _ _ _ _ => some .l
  | .sqlen _ _ _ _ => some .l
  | .sqfork _ _ _ _ _ => some .l
  | .sqpin _ _ _ _ => some .l
  | .squnpin _ _ _ _ => some .l
  | .pxhash _ _ _ _ _ _ => some .l
  | .pxfind _ _ _ _ _ => some .l
  | .pxins _ _ _ _ _ _ => some .l
  | .pxdel _ _ _ _ => some .l
  | .cbfillF32 _ _ => some .l
  | .cbfillBf16 _ _ => some .l
  | .cbfillF16 _ _ => some .l
  | .cbfillE4m3 _ _ => some .l
  | .cbfillE5m2 _ _ => some .l
  | .cbsetF32 _ _ _ _ => some .l
  | .cbsetBf16 _ _ _ _ => some .l
  | .cbsetF16 _ _ _ _ => some .l
  | .cbsetE4m3 _ _ _ _ => some .l
  | .cbsetE5m2 _ _ _ _ => some .l
  | .cbinv _ _ => some .l
  | .bkx _ _ _ _ _ => some .l
  | .bkxHandle _ _ _ _ _ _ => some .l
  | .aadd _ _ => some .l
  | .amin _ _ => some .l
  | .amax _ _ => some .l
  | .axch _ _ => some .l
  | .acas _ _ _ _ => some .l
  | .radd _ _ => some .l
  | .raddFf _ _ => some .l
  | .kvput _ _ => some .l
  | .kvget _ _ => some .l
  | .kvdel _ _ => some .l
  | .kvexist _ _ => some .l
  | .kvlist _ _ => some .l
  | .promo _ _ _ => some .l
  | .demo _ _ _ => some .l
  | .hset _ _ _ => some .l
  | .hsetImport _ _ _ => some .l
  | .hget _ _ _ _ => some .l
  | .hprobe _ _ _ _ _ _ _ => some .l
  | .loopL _ _ _ => some .l
  | .mma _ _ => some .m
  | .mncfg _ _ _ _ _ => some .m
  | .mnest _ => some .m
  | .acoop _ _ _ => some .m
  | .acoopEnd _ => some .m
  | .azero _ _ _ _ => some .m
  | .aloadF32 _ _ _ _ => some .m
  | .aloadI32 _ _ _ _ => some .m
  | .astat _ _ _ => some .m
  | .loopM _ _ _ => some .m
  | .adrainF32 _ _ => some .m
  | .adrainF16 _ _ => some .m
  | .adrainBf16 _ _ => some .m
  | .adrainE4m3 _ _ => some .m
  | .adrainE5m2 _ _ => some .m
  | .adrainE2m3 _ _ => some .m
  | .adrainE3m2 _ _ => some .m
  | .adrainE2m1 _ _ => some .m
  | .adrainI32 _ _ => some .m
  | .adrainI8 _ _ => some .m
  | .adrainI4 _ _ => some .m
  | .adrqF32 _ _ => some .m
  | .adrqF16 _ _ => some .m
  | .adrqBf16 _ _ => some .m
  | .adrqE4m3 _ _ => some .m
  | .adrqE5m2 _ _ => some .m
  | .adrqI32 _ _ => some .m
  | .adrqI8 _ _ => some .m
  | .vaddF32 _ _ _ => some .v
  | .vaddF16 _ _ _ => some .v
  | .vaddBf16 _ _ _ => some .v
  | .vsubF32 _ _ _ => some .v
  | .vsubF16 _ _ _ => some .v
  | .vsubBf16 _ _ _ => some .v
  | .vmulF32 _ _ _ => some .v
  | .vmulF16 _ _ _ => some .v
  | .vmulBf16 _ _ _ => some .v
  | .vfmaF32 _ _ _ => some .v
  | .vfmaF16 _ _ _ => some .v
  | .vfmaBf16 _ _ _ => some .v
  | .vfmaE4m3 _ _ _ => some .v
  | .vfmaE5m2 _ _ _ => some .v
  | .vminF32 _ _ => some .v
  | .vminF16 _ _ => some .v
  | .vminBf16 _ _ => some .v
  | .vmaxF32 _ _ => some .v
  | .vmaxF16 _ _ => some .v
  | .vmaxBf16 _ _ => some .v
  | .vrcpF32 _ _ _ => some .v
  | .vrcpF16 _ _ _ => some .v
  | .vrcpBf16 _ _ _ => some .v
  | .vrsqF32 _ _ _ => some .v
  | .vrsqF16 _ _ _ => some .v
  | .vrsqBf16 _ _ _ => some .v
  | .vexp2F32 _ _ _ => some .v
  | .vexp2F16 _ _ _ => some .v
  | .vexp2Bf16 _ _ _ => some .v
  | .vlog2F32 _ _ _ => some .v
  | .vlog2F16 _ _ _ => some .v
  | .vlog2Bf16 _ _ _ => some .v
  | .vabsF32 _ _ => some .v
  | .vabsF16 _ _ => some .v
  | .vabsBf16 _ _ => some .v
  | .vnegF32 _ _ => some .v
  | .vnegF16 _ _ => some .v
  | .vnegBf16 _ _ => some .v
  | .vcvt _ _ _ => some .v
  | .vcbx _ _ _ _ _ => some .v
  | .viaddI32 _ _ _ => some .v
  | .viaddI8 _ _ _ => some .v
  | .visubI32 _ _ _ => some .v
  | .visubI8 _ _ _ => some .v
  | .vimulI32 _ _ _ => some .v
  | .vimulI8 _ _ _ => some .v
  | .vand _ _ => some .v
  | .vor _ _ => some .v
  | .vxor _ _ => some .v
  | .vshlI32 _ _ => some .v
  | .vshlI8 _ _ => some .v
  | .vshrI32 _ _ => some .v
  | .vshrI8 _ _ => some .v
  | .vcmpF32 _ _ => some .v
  | .vcmpF16 _ _ => some .v
  | .vcmpBf16 _ _ => some .v
  | .vcmpI32 _ _ => some .v
  | .vcmpI8 _ _ => some .v
  | .vsel _ _ => some .v
  | .vbcast _ _ _ _ _ => some .v
  | .vbcastLane _ _ _ _ => some .v
  | .vredaddF32 _ _ _ => some .v
  | .vredaddF16 _ _ _ => some .v
  | .vredaddBf16 _ _ _ => some .v
  | .vredaddI32 _ _ _ => some .v
  | .vredmaxF32 _ _ => some .v
  | .vredmaxF16 _ _ => some .v
  | .vredmaxBf16 _ _ => some .v
  | .vredmaxI32 _ _ => some .v
  | .vscanF32 _ _ _ _ _ => some .v
  | .vscanI32 _ _ _ _ _ => some .v
  | .vperm _ _ _ _ _ _ => some .v
  | .vpack _ _ _ _ => some .v
  | .vunpack _ _ _ _ _ => some .v
  | .vmovq _ _ => some .v
  | .vdup _ _ => some .v
  | .vdrop _ _ _ => some .v
  | .vlanei _ _ _ _ _ _ => some .v
  | .vpeeks _ _ _ _ _ _ => some .v
  | .vmerge3 _ _ _ => some .v
  | .loopV _ _ _ => some .v
  | .trap _ _ => some .c
  | .sysrd _ _ _ => some .c
  | .syswr _ _ _ => some .c
  | .bbox _ _ _ => some .c
  | .powerOnReset _ => none
  | .leaderClaim _ => none
  | .electionGrant => none
  | .heartbeat => none
  | .heartbeatLapse => none
  | .machineCheck _ _ _ => none
  | .fabricEnumeration _ => none
  | .resume _ => none
  | .retry _ => none
  | .kill _ => none
  | .deliver _ => none
  | .restart _ => none
  | .clear _ => none
  | .partitionResetComplete _ => none
  | .flock _ => none
  | .featAccept _ _ _ => none
  | .launchQueueBind _ _ _ => none
  | .launchQueueUnbind _ _ => none
  | .windowBind _ _ _ => none
  | .windowUnbind _ _ _ => none
  | .windowReopen _ _ _ => none
  | .windowRidChange _ _ _ => none
  | .requesterUnfreeze _ _ => none
  | .wtgtWrite _ _ _ => none
  | .namespaceBind _ _ _ _ => none
  | .namespaceUnbind _ _ => none
  | .edgeWrite _ _ _ => none
  | .registerWrite _ _ _ => none
  | .ingressSequenceWrite _ => none
  | .ingressTensorWrite _ => none
  | .ingressTensorRead _ _ => none
  | .ingressCounterWrite _ => none
  | .ingressCounterRead _ => none
  | .ingressUnsupported _ => none
  | .getVersion => none
  | .getCapabilities => none
  | .negotiateAlgorithms => none
  | .getDigests => none
  | .getCertificate => none
  | .challenge _ => none
  | .getMeasurements => none
  | .keyExchange _ => none
  | .finish _ => none
  | .blackBoxRead _ => none
  | .powerLimitSet _ => none
  | .checkpointStart _ => none
  | .checkpointCopy => none
  | .checkpointResume => none
  | .checkpointRestore => none
  | .throttlePause _ => none
  | .thermalTrip => none
  | .warmResetRelease => none
  | .nvmeofConnect _ _ => none
  | .kvCompletion _ _ _ _ => none
  | .kvTimeout _ => none
  | .walkerReadRecord _ => none
  | .walkerUnreachableTimeout _ => none
  | .taskDispatch _ => none
  | .preemptorStart _ => none
  | .agingStep _ _ => none
  | .continuationEnqueue _ _ => none
  | .nodeComplete _ _ => none
  | .storeAck _ => none
  | .watchdogExpiry _ => none
  | .heldSignalAccept _ => none
  | .wheelScChoice _ => none
  | .streamerGrantRound _ => none
  | .copyResolution _ => none
  | .copyInCompletion _ => none
  | .copyOutCompletion _ => none
  | .cbfillCompletion _ => none
  | .bankCommandServed _ => none
  | .mmaCompletion _ => none
  | .aloadCompletion _ => none
  | .drainCompletion _ => none
  | .adrqEntryWrite _ => none
  | .vResultWrite _ => none
  | .replicatedCommit _ => none
  | .replicaLockTimeout _ _ => none
  | .storeFailure _ => none
  | .reductionMerge _ _ => none
  | .objectCreate _ => none
  | .objectDestroy _ => none
  | .pagePlacement _ _ => none
  | .viewRebuild _ _ => none
  | .pageMove _ _ => none
  | .promotionLand _ _ => none
  | .sequenceSeal _ => none
  | .contextSwitchOut _ _ => none
  | .contextRestore _ _ _ => none
  | .homeRequestCompletion _ => none
  | .connectionLost _ _ => none
  | .homeUnreachable _ => none
  | .homeReachable _ => none
  | .peerRequest _ => none
  | .consumerIndexAdvance _ _ => none
  | .resolutionIgnored _ _ => none
  | .objectReplicate _ _ => none

/-- The feature bit an instruction depends on (R485); bit 0 is always accepted. -/
def Instr.feature : Instr → Nat
  | .nop _ => 0
  | .nopEnd _ => 0
  | .add _ _ _ _ => 0
  | .sub _ _ _ _ => 0
  | .addi _ _ _ _ => 0
  | .mul _ _ _ _ => 0
  | .mulh _ _ _ _ => 0
  | .mulhu _ _ _ _ => 0
  | .divu _ _ _ _ => 0
  | .divs _ _ _ _ => 0
  | .remu _ _ _ _ => 0
  | .rems _ _ _ _ => 0
  | .and _ _ _ _ => 0
  | .andi _ _ _ _ => 0
  | .or _ _ _ _ => 0
  | .ori _ _ _ _ => 0
  | .xor _ _ _ _ => 0
  | .xori _ _ _ _ => 0
  | .andn _ _ _ _ => 0
  | .shl _ _ _ _ => 0
  | .shli _ _ _ _ => 0
  | .shr _ _ _ _ => 0
  | .shri _ _ _ _ => 0
  | .sar _ _ _ _ => 0
  | .sari _ _ _ _ => 0
  | .rotl _ _ _ _ => 0
  | .rotli _ _ _ _ => 0
  | .min _ _ _ _ => 0
  | .minu _ _ _ _ => 0
  | .max _ _ _ _ => 0
  | .maxu _ _ _ _ => 0
  | .clz _ _ _ => 0
  | .popc _ _ _ => 0
  | .lui _ _ _ => 0
  | .li _ _ _ => 0
  | .sext _ _ _ _ => 0
  | .sel _ _ _ _ _ _ => 0
  | .cmp _ _ _ _ _ => 0
  | .cmpi _ _ _ _ _ => 0
  | .plog _ _ _ _ _ => 0
  | .br _ _ _ _ => 0
  | .jmp _ _ => 0
  | .call _ _ => 0
  | .ret _ => 0
  | .loopC _ _ _ => 0
  | .retire _ => 0
  | .park _ _ _ => 0
  | .unpark _ _ _ => 0
  | .bara _ _ _ _ => 0
  | .barw _ _ _ => 0
  | .baraw _ _ _ _ => 0
  | .cadd _ _ _ _ => 0
  | .caddSc _ _ _ _ => 7
  | .cwaitx _ _ _ _ => 0
  | .pub _ _ _ => 0
  | .subSubscribe _ _ _ _ => 0
  | .opin _ _ _ => 0
  | .ounpin _ _ => 0
  | .qrel _ _ => 0
  | .arel _ _ => 0
  | .trel _ _ => 0
  | .spawn _ _ _ _ _ _ => 0
  | .yield _ => 0
  | .shp _ _ _ _ _ _ => 0
  | .shpx _ _ _ _ _ _ => 0
  | .shpo _ _ _ _ _ => 0
  | .shps _ _ _ _ _ => 0
  | .cpin _ _ => 0
  | .cpinTr _ _ => 0
  | .cpinRb _ _ => 0
  | .cpq _ _ => 0
  | .cpqTr _ _ => 0
  | .cpqRb _ _ => 0
  | .cpout _ _ => 0
  | .cpoutFf _ _ => 0
  | .cpqo _ _ => 0
  | .cprag _ _ => 0
  | .cpragTr _ _ => 0
  | .cppeer _ _ => 0
  | .cppeerFf _ _ => 0
  | .tset _ _ _ _ _ => 0
  | .tsetClr _ _ => 0
  | .tsetRdy _ _ => 0
  | .tstat _ _ _ => 0
  | .sqres _ _ _ _ => 2
  | .sqcmt _ _ _ _ _ => 2
  | .sqlen _ _ _ _ => 2
  | .sqfork _ _ _ _ _ => 2
  | .sqpin _ _ _ _ => 2
  | .squnpin _ _ _ _ => 2
  | .pxhash _ _ _ _ _ _ => 2
  | .pxfind _ _ _ _ _ => 2
  | .pxins _ _ _ _ _ _ => 2
  | .pxdel _ _ _ _ => 2
  | .cbfillF32 _ _ => 1
  | .cbfillBf16 _ _ => 1
  | .cbfillF16 _ _ => 1
  | .cbfillE4m3 _ _ => 1
  | .cbfillE5m2 _ _ => 1
  | .cbsetF32 _ _ _ _ => 1
  | .cbsetBf16 _ _ _ _ => 1
  | .cbsetF16 _ _ _ _ => 1
  | .cbsetE4m3 _ _ _ _ => 1
  | .cbsetE5m2 _ _ _ _ => 1
  | .cbinv _ _ => 1
  | .bkx _ _ _ _ _ => 4
  | .bkxHandle _ _ _ _ _ _ => 4
  | .aadd _ q => if q.ord = 4 then 7 else 0
  | .amin _ q => if q.ord = 4 then 7 else 0
  | .amax _ q => if q.ord = 4 then 7 else 0
  | .axch _ q => if q.ord = 4 then 7 else 0
  | .acas _ q _ _ => if q.ord = 4 then 7 else 0
  | .radd _ _ => 6
  | .raddFf _ _ => 6
  | .kvput _ _ => 3
  | .kvget _ _ => 3
  | .kvdel _ _ => 3
  | .kvexist _ _ => 3
  | .kvlist _ _ => 3
  | .promo _ _ _ => 8
  | .demo _ _ _ => 8
  | .hset _ _ _ => 0
  | .hsetImport _ _ _ => 0
  | .hget _ _ _ _ => 0
  | .hprobe _ _ _ _ _ _ _ => 0
  | .loopL _ _ _ => 0
  | .mma _ q => if q.ca || q.cb then 1 else 0
  | .mncfg _ _ _ _ _ => 0
  | .mnest _ => 0
  | .acoop _ _ _ => 5
  | .acoopEnd _ => 5
  | .azero _ _ _ _ => 0
  | .aloadF32 _ _ _ _ => 0
  | .aloadI32 _ _ _ _ => 0
  | .astat _ _ _ => 0
  | .loopM _ _ _ => 0
  | .adrainF32 _ _ => 0
  | .adrainF16 _ _ => 0
  | .adrainBf16 _ _ => 0
  | .adrainE4m3 _ _ => 0
  | .adrainE5m2 _ _ => 0
  | .adrainE2m3 _ _ => 0
  | .adrainE3m2 _ _ => 0
  | .adrainE2m1 _ _ => 0
  | .adrainI32 _ _ => 0
  | .adrainI8 _ _ => 0
  | .adrainI4 _ _ => 0
  | .adrqF32 _ _ => 0
  | .adrqF16 _ _ => 0
  | .adrqBf16 _ _ => 0
  | .adrqE4m3 _ _ => 0
  | .adrqE5m2 _ _ => 0
  | .adrqI32 _ _ => 0
  | .adrqI8 _ _ => 0
  | .vaddF32 _ _ _ => 0
  | .vaddF16 _ _ _ => 0
  | .vaddBf16 _ _ _ => 0
  | .vsubF32 _ _ _ => 0
  | .vsubF16 _ _ _ => 0
  | .vsubBf16 _ _ _ => 0
  | .vmulF32 _ _ _ => 0
  | .vmulF16 _ _ _ => 0
  | .vmulBf16 _ _ _ => 0
  | .vfmaF32 _ _ _ => 0
  | .vfmaF16 _ _ _ => 0
  | .vfmaBf16 _ _ _ => 0
  | .vfmaE4m3 _ _ _ => 0
  | .vfmaE5m2 _ _ _ => 0
  | .vminF32 _ _ => 0
  | .vminF16 _ _ => 0
  | .vminBf16 _ _ => 0
  | .vmaxF32 _ _ => 0
  | .vmaxF16 _ _ => 0
  | .vmaxBf16 _ _ => 0
  | .vrcpF32 _ _ _ => 0
  | .vrcpF16 _ _ _ => 0
  | .vrcpBf16 _ _ _ => 0
  | .vrsqF32 _ _ _ => 0
  | .vrsqF16 _ _ _ => 0
  | .vrsqBf16 _ _ _ => 0
  | .vexp2F32 _ _ _ => 0
  | .vexp2F16 _ _ _ => 0
  | .vexp2Bf16 _ _ _ => 0
  | .vlog2F32 _ _ _ => 0
  | .vlog2F16 _ _ _ => 0
  | .vlog2Bf16 _ _ _ => 0
  | .vabsF32 _ _ => 0
  | .vabsF16 _ _ => 0
  | .vabsBf16 _ _ => 0
  | .vnegF32 _ _ => 0
  | .vnegF16 _ _ => 0
  | .vnegBf16 _ _ => 0
  | .vcvt _ _ _ => 0
  | .vcbx _ _ _ _ _ => 1
  | .viaddI32 _ _ _ => 0
  | .viaddI8 _ _ _ => 0
  | .visubI32 _ _ _ => 0
  | .visubI8 _ _ _ => 0
  | .vimulI32 _ _ _ => 0
  | .vimulI8 _ _ _ => 0
  | .vand _ _ => 0
  | .vor _ _ => 0
  | .vxor _ _ => 0
  | .vshlI32 _ _ => 0
  | .vshlI8 _ _ => 0
  | .vshrI32 _ _ => 0
  | .vshrI8 _ _ => 0
  | .vcmpF32 _ _ => 0
  | .vcmpF16 _ _ => 0
  | .vcmpBf16 _ _ => 0
  | .vcmpI32 _ _ => 0
  | .vcmpI8 _ _ => 0
  | .vsel _ _ => 0
  | .vbcast _ _ _ _ _ => 0
  | .vbcastLane _ _ _ _ => 0
  | .vredaddF32 _ _ _ => 0
  | .vredaddF16 _ _ _ => 0
  | .vredaddBf16 _ _ _ => 0
  | .vredaddI32 _ _ _ => 0
  | .vredmaxF32 _ _ => 0
  | .vredmaxF16 _ _ => 0
  | .vredmaxBf16 _ _ => 0
  | .vredmaxI32 _ _ => 0
  | .vscanF32 _ _ _ _ _ => 0
  | .vscanI32 _ _ _ _ _ => 0
  | .vperm _ _ _ _ _ _ => 0
  | .vpack _ _ _ _ => 0
  | .vunpack _ _ _ _ _ => 0
  | .vmovq _ _ => 0
  | .vdup _ _ => 0
  | .vdrop _ _ _ => 0
  | .vlanei _ _ _ _ _ _ => 0
  | .vpeeks _ _ _ _ _ _ => 0
  | .vmerge3 _ _ _ => 0
  | .loopV _ _ _ => 0
  | .trap _ _ => 0
  | .sysrd _ _ _ => 0
  | .syswr _ _ _ => 0
  | .bbox _ _ _ => 0
  | .powerOnReset _ => 0
  | .leaderClaim _ => 0
  | .electionGrant => 0
  | .heartbeat => 0
  | .heartbeatLapse => 0
  | .machineCheck _ _ _ => 0
  | .fabricEnumeration _ => 0
  | .resume _ => 0
  | .retry _ => 0
  | .kill _ => 0
  | .deliver _ => 0
  | .restart _ => 0
  | .clear _ => 0
  | .partitionResetComplete _ => 0
  | .flock _ => 0
  | .featAccept _ _ _ => 0
  | .launchQueueBind _ _ _ => 0
  | .launchQueueUnbind _ _ => 0
  | .windowBind _ _ _ => 0
  | .windowUnbind _ _ _ => 0
  | .windowReopen _ _ _ => 0
  | .windowRidChange _ _ _ => 0
  | .requesterUnfreeze _ _ => 0
  | .wtgtWrite _ _ _ => 0
  | .namespaceBind _ _ _ _ => 0
  | .namespaceUnbind _ _ => 0
  | .edgeWrite _ _ _ => 0
  | .registerWrite _ _ _ => 0
  | .ingressSequenceWrite _ => 0
  | .ingressTensorWrite _ => 0
  | .ingressTensorRead _ _ => 0
  | .ingressCounterWrite _ => 0
  | .ingressCounterRead _ => 0
  | .ingressUnsupported _ => 0
  | .getVersion => 0
  | .getCapabilities => 0
  | .negotiateAlgorithms => 0
  | .getDigests => 0
  | .getCertificate => 0
  | .challenge _ => 0
  | .getMeasurements => 0
  | .keyExchange _ => 0
  | .finish _ => 0
  | .blackBoxRead _ => 0
  | .powerLimitSet _ => 0
  | .checkpointStart _ => 0
  | .checkpointCopy => 0
  | .checkpointResume => 0
  | .checkpointRestore => 0
  | .throttlePause _ => 0
  | .thermalTrip => 0
  | .warmResetRelease => 0
  | .nvmeofConnect _ _ => 0
  | .kvCompletion _ _ _ _ => 0
  | .kvTimeout _ => 0
  | .walkerReadRecord _ => 0
  | .walkerUnreachableTimeout _ => 0
  | .taskDispatch _ => 0
  | .preemptorStart _ => 0
  | .agingStep _ _ => 0
  | .continuationEnqueue _ _ => 0
  | .nodeComplete _ _ => 0
  | .storeAck _ => 0
  | .watchdogExpiry _ => 0
  | .heldSignalAccept _ => 0
  | .wheelScChoice _ => 0
  | .streamerGrantRound _ => 0
  | .copyResolution _ => 0
  | .copyInCompletion _ => 0
  | .copyOutCompletion _ => 0
  | .cbfillCompletion _ => 0
  | .bankCommandServed _ => 0
  | .mmaCompletion _ => 0
  | .aloadCompletion _ => 0
  | .drainCompletion _ => 0
  | .adrqEntryWrite _ => 0
  | .vResultWrite _ => 0
  | .replicatedCommit _ => 0
  | .replicaLockTimeout _ _ => 0
  | .storeFailure _ => 0
  | .reductionMerge _ _ => 0
  | .objectCreate _ => 0
  | .objectDestroy _ => 0
  | .pagePlacement _ _ => 0
  | .viewRebuild _ _ => 0
  | .pageMove _ _ => 0
  | .promotionLand _ _ => 0
  | .sequenceSeal _ => 0
  | .contextSwitchOut _ _ => 0
  | .contextRestore _ _ _ => 0
  | .homeRequestCompletion _ => 0
  | .connectionLost _ _ => 0
  | .homeUnreachable _ => 0
  | .homeReachable _ => 0
  | .peerRequest _ => 0
  | .consumerIndexAdvance _ _ => 0
  | .resolutionIgnored _ _ => 0
  | .objectReplicate _ _ => 0

/-- The length in words (R218, R224); an event has none. -/
def Instr.words : Instr → Nat
  | .nop _ => 1
  | .nopEnd _ => 1
  | .add _ _ _ _ => 1
  | .sub _ _ _ _ => 1
  | .addi _ _ _ _ => 1
  | .mul _ _ _ _ => 1
  | .mulh _ _ _ _ => 1
  | .mulhu _ _ _ _ => 1
  | .divu _ _ _ _ => 1
  | .divs _ _ _ _ => 1
  | .remu _ _ _ _ => 1
  | .rems _ _ _ _ => 1
  | .and _ _ _ _ => 1
  | .andi _ _ _ _ => 1
  | .or _ _ _ _ => 1
  | .ori _ _ _ _ => 1
  | .xor _ _ _ _ => 1
  | .xori _ _ _ _ => 1
  | .andn _ _ _ _ => 1
  | .shl _ _ _ _ => 1
  | .shli _ _ _ _ => 1
  | .shr _ _ _ _ => 1
  | .shri _ _ _ _ => 1
  | .sar _ _ _ _ => 1
  | .sari _ _ _ _ => 1
  | .rotl _ _ _ _ => 1
  | .rotli _ _ _ _ => 1
  | .min _ _ _ _ => 1
  | .minu _ _ _ _ => 1
  | .max _ _ _ _ => 1
  | .maxu _ _ _ _ => 1
  | .clz _ _ _ => 1
  | .popc _ _ _ => 1
  | .lui _ _ _ => 1
  | .li _ _ _ => 1
  | .sext _ _ _ _ => 1
  | .sel _ _ _ _ _ _ => 2
  | .cmp _ _ _ _ _ => 1
  | .cmpi _ _ _ _ _ => 1
  | .plog _ _ _ _ _ => 1
  | .br _ _ _ _ => 1
  | .jmp _ _ => 1
  | .call _ _ => 1
  | .ret _ => 1
  | .loopC _ _ _ => 1
  | .retire _ => 1
  | .park _ _ _ => 1
  | .unpark _ _ _ => 1
  | .bara _ _ _ _ => 1
  | .barw _ _ _ => 1
  | .baraw _ _ _ _ => 1
  | .cadd _ _ _ _ => 1
  | .caddSc _ _ _ _ => 1
  | .cwaitx _ _ _ _ => 1
  | .pub _ _ _ => 1
  | .subSubscribe _ _ _ _ => 1
  | .opin _ _ _ => 1
  | .ounpin _ _ => 1
  | .qrel _ _ => 1
  | .arel _ _ => 1
  | .trel _ _ => 1
  | .spawn _ _ _ _ _ _ => 2
  | .yield _ => 1
  | .shp _ _ _ _ _ _ => 2
  | .shpx _ _ _ _ _ _ => 2
  | .shpo _ _ _ _ _ => 2
  | .shps _ _ _ _ _ => 2
  | .cpin _ _ => 2
  | .cpinTr _ _ => 2
  | .cpinRb _ _ => 2
  | .cpq _ _ => 2
  | .cpqTr _ _ => 2
  | .cpqRb _ _ => 2
  | .cpout _ _ => 2
  | .cpoutFf _ _ => 2
  | .cpqo _ _ => 2
  | .cprag _ _ => 2
  | .cpragTr _ _ => 2
  | .cppeer _ _ => 2
  | .cppeerFf _ _ => 2
  | .tset _ _ _ _ _ => 2
  | .tsetClr _ _ => 2
  | .tsetRdy _ _ => 2
  | .tstat _ _ _ => 1
  | .sqres _ _ _ _ => 2
  | .sqcmt _ _ _ _ _ => 2
  | .sqlen _ _ _ _ => 1
  | .sqfork _ _ _ _ _ => 2
  | .sqpin _ _ _ _ => 2
  | .squnpin _ _ _ _ => 2
  | .pxhash _ _ _ _ _ _ => 2
  | .pxfind _ _ _ _ _ => 2
  | .pxins _ _ _ _ _ _ => 2
  | .pxdel _ _ _ _ => 2
  | .cbfillF32 _ _ => 2
  | .cbfillBf16 _ _ => 2
  | .cbfillF16 _ _ => 2
  | .cbfillE4m3 _ _ => 2
  | .cbfillE5m2 _ _ => 2
  | .cbsetF32 _ _ _ _ => 1
  | .cbsetBf16 _ _ _ _ => 1
  | .cbsetF16 _ _ _ _ => 1
  | .cbsetE4m3 _ _ _ _ => 1
  | .cbsetE5m2 _ _ _ _ => 1
  | .cbinv _ _ => 1
  | .bkx _ _ _ _ _ => 2
  | .bkxHandle _ _ _ _ _ _ => 2
  | .aadd _ _ => 2
  | .amin _ _ => 2
  | .amax _ _ => 2
  | .axch _ _ => 2
  | .acas _ _ _ _ => 2
  | .radd _ _ => 2
  | .raddFf _ _ => 2
  | .kvput _ _ => 2
  | .kvget _ _ => 2
  | .kvdel _ _ => 2
  | .kvexist _ _ => 2
  | .kvlist _ _ => 2
  | .promo _ _ _ => 2
  | .demo _ _ _ => 2
  | .hset _ _ _ => 1
  | .hsetImport _ _ _ => 1
  | .hget _ _ _ _ => 1
  | .hprobe _ _ _ _ _ _ _ => 2
  | .loopL _ _ _ => 1
  | .mma _ _ => 2
  | .mncfg _ _ _ _ _ => 2
  | .mnest _ => 1
  | .acoop _ _ _ => 2
  | .acoopEnd _ => 2
  | .azero _ _ _ _ => 1
  | .aloadF32 _ _ _ _ => 2
  | .aloadI32 _ _ _ _ => 2
  | .astat _ _ _ => 1
  | .loopM _ _ _ => 1
  | .adrainF32 _ _ => 2
  | .adrainF16 _ _ => 2
  | .adrainBf16 _ _ => 2
  | .adrainE4m3 _ _ => 2
  | .adrainE5m2 _ _ => 2
  | .adrainE2m3 _ _ => 2
  | .adrainE3m2 _ _ => 2
  | .adrainE2m1 _ _ => 2
  | .adrainI32 _ _ => 2
  | .adrainI8 _ _ => 2
  | .adrainI4 _ _ => 2
  | .adrqF32 _ _ => 2
  | .adrqF16 _ _ => 2
  | .adrqBf16 _ _ => 2
  | .adrqE4m3 _ _ => 2
  | .adrqE5m2 _ _ => 2
  | .adrqI32 _ _ => 2
  | .adrqI8 _ _ => 2
  | .vaddF32 _ _ _ => 2
  | .vaddF16 _ _ _ => 2
  | .vaddBf16 _ _ _ => 2
  | .vsubF32 _ _ _ => 2
  | .vsubF16 _ _ _ => 2
  | .vsubBf16 _ _ _ => 2
  | .vmulF32 _ _ _ => 2
  | .vmulF16 _ _ _ => 2
  | .vmulBf16 _ _ _ => 2
  | .vfmaF32 _ _ _ => 2
  | .vfmaF16 _ _ _ => 2
  | .vfmaBf16 _ _ _ => 2
  | .vfmaE4m3 _ _ _ => 2
  | .vfmaE5m2 _ _ _ => 2
  | .vminF32 _ _ => 1
  | .vminF16 _ _ => 1
  | .vminBf16 _ _ => 1
  | .vmaxF32 _ _ => 1
  | .vmaxF16 _ _ => 1
  | .vmaxBf16 _ _ => 1
  | .vrcpF32 _ _ _ => 2
  | .vrcpF16 _ _ _ => 2
  | .vrcpBf16 _ _ _ => 2
  | .vrsqF32 _ _ _ => 2
  | .vrsqF16 _ _ _ => 2
  | .vrsqBf16 _ _ _ => 2
  | .vexp2F32 _ _ _ => 2
  | .vexp2F16 _ _ _ => 2
  | .vexp2Bf16 _ _ _ => 2
  | .vlog2F32 _ _ _ => 2
  | .vlog2F16 _ _ _ => 2
  | .vlog2Bf16 _ _ _ => 2
  | .vabsF32 _ _ => 1
  | .vabsF16 _ _ => 1
  | .vabsBf16 _ _ => 1
  | .vnegF32 _ _ => 1
  | .vnegF16 _ _ => 1
  | .vnegBf16 _ _ => 1
  | .vcvt _ _ _ => 2
  | .vcbx _ _ _ _ _ => 2
  | .viaddI32 _ _ _ => 2
  | .viaddI8 _ _ _ => 2
  | .visubI32 _ _ _ => 2
  | .visubI8 _ _ _ => 2
  | .vimulI32 _ _ _ => 2
  | .vimulI8 _ _ _ => 2
  | .vand _ _ => 1
  | .vor _ _ => 1
  | .vxor _ _ => 1
  | .vshlI32 _ _ => 1
  | .vshlI8 _ _ => 1
  | .vshrI32 _ _ => 1
  | .vshrI8 _ _ => 1
  | .vcmpF32 _ _ => 1
  | .vcmpF16 _ _ => 1
  | .vcmpBf16 _ _ => 1
  | .vcmpI32 _ _ => 1
  | .vcmpI8 _ _ => 1
  | .vsel _ _ => 1
  | .vbcast _ _ _ _ _ => 2
  | .vbcastLane _ _ _ _ => 2
  | .vredaddF32 _ _ _ => 2
  | .vredaddF16 _ _ _ => 2
  | .vredaddBf16 _ _ _ => 2
  | .vredaddI32 _ _ _ => 2
  | .vredmaxF32 _ _ => 1
  | .vredmaxF16 _ _ => 1
  | .vredmaxBf16 _ _ => 1
  | .vredmaxI32 _ _ => 1
  | .vscanF32 _ _ _ _ _ => 2
  | .vscanI32 _ _ _ _ _ => 2
  | .vperm _ _ _ _ _ _ => 2
  | .vpack _ _ _ _ => 2
  | .vunpack _ _ _ _ _ => 2
  | .vmovq _ _ => 1
  | .vdup _ _ => 1
  | .vdrop _ _ _ => 1
  | .vlanei _ _ _ _ _ _ => 2
  | .vpeeks _ _ _ _ _ _ => 2
  | .vmerge3 _ _ _ => 2
  | .loopV _ _ _ => 1
  | .trap _ _ => 1
  | .sysrd _ _ _ => 1
  | .syswr _ _ _ => 1
  | .bbox _ _ _ => 1
  | .powerOnReset _ => 0
  | .leaderClaim _ => 0
  | .electionGrant => 0
  | .heartbeat => 0
  | .heartbeatLapse => 0
  | .machineCheck _ _ _ => 0
  | .fabricEnumeration _ => 0
  | .resume _ => 0
  | .retry _ => 0
  | .kill _ => 0
  | .deliver _ => 0
  | .restart _ => 0
  | .clear _ => 0
  | .partitionResetComplete _ => 0
  | .flock _ => 0
  | .featAccept _ _ _ => 0
  | .launchQueueBind _ _ _ => 0
  | .launchQueueUnbind _ _ => 0
  | .windowBind _ _ _ => 0
  | .windowUnbind _ _ _ => 0
  | .windowReopen _ _ _ => 0
  | .windowRidChange _ _ _ => 0
  | .requesterUnfreeze _ _ => 0
  | .wtgtWrite _ _ _ => 0
  | .namespaceBind _ _ _ _ => 0
  | .namespaceUnbind _ _ => 0
  | .edgeWrite _ _ _ => 0
  | .registerWrite _ _ _ => 0
  | .ingressSequenceWrite _ => 0
  | .ingressTensorWrite _ => 0
  | .ingressTensorRead _ _ => 0
  | .ingressCounterWrite _ => 0
  | .ingressCounterRead _ => 0
  | .ingressUnsupported _ => 0
  | .getVersion => 0
  | .getCapabilities => 0
  | .negotiateAlgorithms => 0
  | .getDigests => 0
  | .getCertificate => 0
  | .challenge _ => 0
  | .getMeasurements => 0
  | .keyExchange _ => 0
  | .finish _ => 0
  | .blackBoxRead _ => 0
  | .powerLimitSet _ => 0
  | .checkpointStart _ => 0
  | .checkpointCopy => 0
  | .checkpointResume => 0
  | .checkpointRestore => 0
  | .throttlePause _ => 0
  | .thermalTrip => 0
  | .warmResetRelease => 0
  | .nvmeofConnect _ _ => 0
  | .kvCompletion _ _ _ _ => 0
  | .kvTimeout _ => 0
  | .walkerReadRecord _ => 0
  | .walkerUnreachableTimeout _ => 0
  | .taskDispatch _ => 0
  | .preemptorStart _ => 0
  | .agingStep _ _ => 0
  | .continuationEnqueue _ _ => 0
  | .nodeComplete _ _ => 0
  | .storeAck _ => 0
  | .watchdogExpiry _ => 0
  | .heldSignalAccept _ => 0
  | .wheelScChoice _ => 0
  | .streamerGrantRound _ => 0
  | .copyResolution _ => 0
  | .copyInCompletion _ => 0
  | .copyOutCompletion _ => 0
  | .cbfillCompletion _ => 0
  | .bankCommandServed _ => 0
  | .mmaCompletion _ => 0
  | .aloadCompletion _ => 0
  | .drainCompletion _ => 0
  | .adrqEntryWrite _ => 0
  | .vResultWrite _ => 0
  | .replicatedCommit _ => 0
  | .replicaLockTimeout _ _ => 0
  | .storeFailure _ => 0
  | .reductionMerge _ _ => 0
  | .objectCreate _ => 0
  | .objectDestroy _ => 0
  | .pagePlacement _ _ => 0
  | .viewRebuild _ _ => 0
  | .pageMove _ _ => 0
  | .promotionLand _ _ => 0
  | .sequenceSeal _ => 0
  | .contextSwitchOut _ _ => 0
  | .contextRestore _ _ _ => 0
  | .homeRequestCompletion _ => 0
  | .connectionLost _ _ => 0
  | .homeUnreachable _ => 0
  | .homeReachable _ => 0
  | .peerRequest _ => 0
  | .consumerIndexAdvance _ _ => 0
  | .resolutionIgnored _ _ => 0
  | .objectReplicate _ _ => 0

/-- The dependency bits (R140); an event has none. -/
def Instr.dep : Instr → Dep
  | .nop dp => dp
  | .nopEnd dp => dp
  | .add dp _ _ _ => dp
  | .sub dp _ _ _ => dp
  | .addi dp _ _ _ => dp
  | .mul dp _ _ _ => dp
  | .mulh dp _ _ _ => dp
  | .mulhu dp _ _ _ => dp
  | .divu dp _ _ _ => dp
  | .divs dp _ _ _ => dp
  | .remu dp _ _ _ => dp
  | .rems dp _ _ _ => dp
  | .and dp _ _ _ => dp
  | .andi dp _ _ _ => dp
  | .or dp _ _ _ => dp
  | .ori dp _ _ _ => dp
  | .xor dp _ _ _ => dp
  | .xori dp _ _ _ => dp
  | .andn dp _ _ _ => dp
  | .shl dp _ _ _ => dp
  | .shli dp _ _ _ => dp
  | .shr dp _ _ _ => dp
  | .shri dp _ _ _ => dp
  | .sar dp _ _ _ => dp
  | .sari dp _ _ _ => dp
  | .rotl dp _ _ _ => dp
  | .rotli dp _ _ _ => dp
  | .min dp _ _ _ => dp
  | .minu dp _ _ _ => dp
  | .max dp _ _ _ => dp
  | .maxu dp _ _ _ => dp
  | .clz dp _ _ => dp
  | .popc dp _ _ => dp
  | .lui dp _ _ => dp
  | .li dp _ _ => dp
  | .sext dp _ _ _ => dp
  | .sel dp _ _ _ _ _ => dp
  | .cmp dp _ _ _ _ => dp
  | .cmpi dp _ _ _ _ => dp
  | .plog dp _ _ _ _ => dp
  | .br dp _ _ _ => dp
  | .jmp dp _ => dp
  | .call dp _ => dp
  | .ret dp => dp
  | .loopC dp _ _ => dp
  | .retire dp => dp
  | .park dp _ _ => dp
  | .unpark dp _ _ => dp
  | .bara dp _ _ _ => dp
  | .barw dp _ _ => dp
  | .baraw dp _ _ _ => dp
  | .cadd dp _ _ _ => dp
  | .caddSc dp _ _ _ => dp
  | .cwaitx dp _ _ _ => dp
  | .pub dp _ _ => dp
  | .subSubscribe dp _ _ _ => dp
  | .opin dp _ _ => dp
  | .ounpin dp _ => dp
  | .qrel dp _ => dp
  | .arel dp _ => dp
  | .trel dp _ => dp
  | .spawn dp _ _ _ _ _ => dp
  | .yield dp => dp
  | .shp dp _ _ _ _ _ => dp
  | .shpx dp _ _ _ _ _ => dp
  | .shpo dp _ _ _ _ => dp
  | .shps dp _ _ _ _ => dp
  | .cpin dp _ => dp
  | .cpinTr dp _ => dp
  | .cpinRb dp _ => dp
  | .cpq dp _ => dp
  | .cpqTr dp _ => dp
  | .cpqRb dp _ => dp
  | .cpout dp _ => dp
  | .cpoutFf dp _ => dp
  | .cpqo dp _ => dp
  | .cprag dp _ => dp
  | .cpragTr dp _ => dp
  | .cppeer dp _ => dp
  | .cppeerFf dp _ => dp
  | .tset dp _ _ _ _ => dp
  | .tsetClr dp _ => dp
  | .tsetRdy dp _ => dp
  | .tstat dp _ _ => dp
  | .sqres dp _ _ _ => dp
  | .sqcmt dp _ _ _ _ => dp
  | .sqlen dp _ _ _ => dp
  | .sqfork dp _ _ _ _ => dp
  | .sqpin dp _ _ _ => dp
  | .squnpin dp _ _ _ => dp
  | .pxhash dp _ _ _ _ _ => dp
  | .pxfind dp _ _ _ _ => dp
  | .pxins dp _ _ _ _ _ => dp
  | .pxdel dp _ _ _ => dp
  | .cbfillF32 dp _ => dp
  | .cbfillBf16 dp _ => dp
  | .cbfillF16 dp _ => dp
  | .cbfillE4m3 dp _ => dp
  | .cbfillE5m2 dp _ => dp
  | .cbsetF32 dp _ _ _ => dp
  | .cbsetBf16 dp _ _ _ => dp
  | .cbsetF16 dp _ _ _ => dp
  | .cbsetE4m3 dp _ _ _ => dp
  | .cbsetE5m2 dp _ _ _ => dp
  | .cbinv dp _ => dp
  | .bkx dp _ _ _ _ => dp
  | .bkxHandle dp _ _ _ _ _ => dp
  | .aadd dp _ => dp
  | .amin dp _ => dp
  | .amax dp _ => dp
  | .axch dp _ => dp
  | .acas dp _ _ _ => dp
  | .radd dp _ => dp
  | .raddFf dp _ => dp
  | .kvput dp _ => dp
  | .kvget dp _ => dp
  | .kvdel dp _ => dp
  | .kvexist dp _ => dp
  | .kvlist dp _ => dp
  | .promo dp _ _ => dp
  | .demo dp _ _ => dp
  | .hset dp _ _ => dp
  | .hsetImport dp _ _ => dp
  | .hget dp _ _ _ => dp
  | .hprobe dp _ _ _ _ _ _ => dp
  | .loopL dp _ _ => dp
  | .mma dp _ => dp
  | .mncfg dp _ _ _ _ => dp
  | .mnest dp => dp
  | .acoop dp _ _ => dp
  | .acoopEnd dp => dp
  | .azero dp _ _ _ => dp
  | .aloadF32 dp _ _ _ => dp
  | .aloadI32 dp _ _ _ => dp
  | .astat dp _ _ => dp
  | .loopM dp _ _ => dp
  | .adrainF32 dp _ => dp
  | .adrainF16 dp _ => dp
  | .adrainBf16 dp _ => dp
  | .adrainE4m3 dp _ => dp
  | .adrainE5m2 dp _ => dp
  | .adrainE2m3 dp _ => dp
  | .adrainE3m2 dp _ => dp
  | .adrainE2m1 dp _ => dp
  | .adrainI32 dp _ => dp
  | .adrainI8 dp _ => dp
  | .adrainI4 dp _ => dp
  | .adrqF32 dp _ => dp
  | .adrqF16 dp _ => dp
  | .adrqBf16 dp _ => dp
  | .adrqE4m3 dp _ => dp
  | .adrqE5m2 dp _ => dp
  | .adrqI32 dp _ => dp
  | .adrqI8 dp _ => dp
  | .vaddF32 dp _ _ => dp
  | .vaddF16 dp _ _ => dp
  | .vaddBf16 dp _ _ => dp
  | .vsubF32 dp _ _ => dp
  | .vsubF16 dp _ _ => dp
  | .vsubBf16 dp _ _ => dp
  | .vmulF32 dp _ _ => dp
  | .vmulF16 dp _ _ => dp
  | .vmulBf16 dp _ _ => dp
  | .vfmaF32 dp _ _ => dp
  | .vfmaF16 dp _ _ => dp
  | .vfmaBf16 dp _ _ => dp
  | .vfmaE4m3 dp _ _ => dp
  | .vfmaE5m2 dp _ _ => dp
  | .vminF32 dp _ => dp
  | .vminF16 dp _ => dp
  | .vminBf16 dp _ => dp
  | .vmaxF32 dp _ => dp
  | .vmaxF16 dp _ => dp
  | .vmaxBf16 dp _ => dp
  | .vrcpF32 dp _ _ => dp
  | .vrcpF16 dp _ _ => dp
  | .vrcpBf16 dp _ _ => dp
  | .vrsqF32 dp _ _ => dp
  | .vrsqF16 dp _ _ => dp
  | .vrsqBf16 dp _ _ => dp
  | .vexp2F32 dp _ _ => dp
  | .vexp2F16 dp _ _ => dp
  | .vexp2Bf16 dp _ _ => dp
  | .vlog2F32 dp _ _ => dp
  | .vlog2F16 dp _ _ => dp
  | .vlog2Bf16 dp _ _ => dp
  | .vabsF32 dp _ => dp
  | .vabsF16 dp _ => dp
  | .vabsBf16 dp _ => dp
  | .vnegF32 dp _ => dp
  | .vnegF16 dp _ => dp
  | .vnegBf16 dp _ => dp
  | .vcvt dp _ _ => dp
  | .vcbx dp _ _ _ _ => dp
  | .viaddI32 dp _ _ => dp
  | .viaddI8 dp _ _ => dp
  | .visubI32 dp _ _ => dp
  | .visubI8 dp _ _ => dp
  | .vimulI32 dp _ _ => dp
  | .vimulI8 dp _ _ => dp
  | .vand dp _ => dp
  | .vor dp _ => dp
  | .vxor dp _ => dp
  | .vshlI32 dp _ => dp
  | .vshlI8 dp _ => dp
  | .vshrI32 dp _ => dp
  | .vshrI8 dp _ => dp
  | .vcmpF32 dp _ => dp
  | .vcmpF16 dp _ => dp
  | .vcmpBf16 dp _ => dp
  | .vcmpI32 dp _ => dp
  | .vcmpI8 dp _ => dp
  | .vsel dp _ => dp
  | .vbcast dp _ _ _ _ => dp
  | .vbcastLane dp _ _ _ => dp
  | .vredaddF32 dp _ _ => dp
  | .vredaddF16 dp _ _ => dp
  | .vredaddBf16 dp _ _ => dp
  | .vredaddI32 dp _ _ => dp
  | .vredmaxF32 dp _ => dp
  | .vredmaxF16 dp _ => dp
  | .vredmaxBf16 dp _ => dp
  | .vredmaxI32 dp _ => dp
  | .vscanF32 dp _ _ _ _ => dp
  | .vscanI32 dp _ _ _ _ => dp
  | .vperm dp _ _ _ _ _ => dp
  | .vpack dp _ _ _ => dp
  | .vunpack dp _ _ _ _ => dp
  | .vmovq dp _ => dp
  | .vdup dp _ => dp
  | .vdrop dp _ _ => dp
  | .vlanei dp _ _ _ _ _ => dp
  | .vpeeks dp _ _ _ _ _ => dp
  | .vmerge3 dp _ _ => dp
  | .loopV dp _ _ => dp
  | .trap dp _ => dp
  | .sysrd dp _ _ => dp
  | .syswr dp _ _ => dp
  | .bbox dp _ _ => dp
  | .powerOnReset _ => Dep.none
  | .leaderClaim _ => Dep.none
  | .electionGrant => Dep.none
  | .heartbeat => Dep.none
  | .heartbeatLapse => Dep.none
  | .machineCheck _ _ _ => Dep.none
  | .fabricEnumeration _ => Dep.none
  | .resume _ => Dep.none
  | .retry _ => Dep.none
  | .kill _ => Dep.none
  | .deliver _ => Dep.none
  | .restart _ => Dep.none
  | .clear _ => Dep.none
  | .partitionResetComplete _ => Dep.none
  | .flock _ => Dep.none
  | .featAccept _ _ _ => Dep.none
  | .launchQueueBind _ _ _ => Dep.none
  | .launchQueueUnbind _ _ => Dep.none
  | .windowBind _ _ _ => Dep.none
  | .windowUnbind _ _ _ => Dep.none
  | .windowReopen _ _ _ => Dep.none
  | .windowRidChange _ _ _ => Dep.none
  | .requesterUnfreeze _ _ => Dep.none
  | .wtgtWrite _ _ _ => Dep.none
  | .namespaceBind _ _ _ _ => Dep.none
  | .namespaceUnbind _ _ => Dep.none
  | .edgeWrite _ _ _ => Dep.none
  | .registerWrite _ _ _ => Dep.none
  | .ingressSequenceWrite _ => Dep.none
  | .ingressTensorWrite _ => Dep.none
  | .ingressTensorRead _ _ => Dep.none
  | .ingressCounterWrite _ => Dep.none
  | .ingressCounterRead _ => Dep.none
  | .ingressUnsupported _ => Dep.none
  | .getVersion => Dep.none
  | .getCapabilities => Dep.none
  | .negotiateAlgorithms => Dep.none
  | .getDigests => Dep.none
  | .getCertificate => Dep.none
  | .challenge _ => Dep.none
  | .getMeasurements => Dep.none
  | .keyExchange _ => Dep.none
  | .finish _ => Dep.none
  | .blackBoxRead _ => Dep.none
  | .powerLimitSet _ => Dep.none
  | .checkpointStart _ => Dep.none
  | .checkpointCopy => Dep.none
  | .checkpointResume => Dep.none
  | .checkpointRestore => Dep.none
  | .throttlePause _ => Dep.none
  | .thermalTrip => Dep.none
  | .warmResetRelease => Dep.none
  | .nvmeofConnect _ _ => Dep.none
  | .kvCompletion _ _ _ _ => Dep.none
  | .kvTimeout _ => Dep.none
  | .walkerReadRecord _ => Dep.none
  | .walkerUnreachableTimeout _ => Dep.none
  | .taskDispatch _ => Dep.none
  | .preemptorStart _ => Dep.none
  | .agingStep _ _ => Dep.none
  | .continuationEnqueue _ _ => Dep.none
  | .nodeComplete _ _ => Dep.none
  | .storeAck _ => Dep.none
  | .watchdogExpiry _ => Dep.none
  | .heldSignalAccept _ => Dep.none
  | .wheelScChoice _ => Dep.none
  | .streamerGrantRound _ => Dep.none
  | .copyResolution _ => Dep.none
  | .copyInCompletion _ => Dep.none
  | .copyOutCompletion _ => Dep.none
  | .cbfillCompletion _ => Dep.none
  | .bankCommandServed _ => Dep.none
  | .mmaCompletion _ => Dep.none
  | .aloadCompletion _ => Dep.none
  | .drainCompletion _ => Dep.none
  | .adrqEntryWrite _ => Dep.none
  | .vResultWrite _ => Dep.none
  | .replicatedCommit _ => Dep.none
  | .replicaLockTimeout _ _ => Dep.none
  | .storeFailure _ => Dep.none
  | .reductionMerge _ _ => Dep.none
  | .objectCreate _ => Dep.none
  | .objectDestroy _ => Dep.none
  | .pagePlacement _ _ => Dep.none
  | .viewRebuild _ _ => Dep.none
  | .pageMove _ _ => Dep.none
  | .promotionLand _ _ => Dep.none
  | .sequenceSeal _ => Dep.none
  | .contextSwitchOut _ _ => Dep.none
  | .contextRestore _ _ _ => Dep.none
  | .homeRequestCompletion _ => Dep.none
  | .connectionLost _ _ => Dep.none
  | .homeUnreachable _ => Dep.none
  | .homeReachable _ => Dep.none
  | .peerRequest _ => Dep.none
  | .consumerIndexAdvance _ _ => Dep.none
  | .resolutionIgnored _ _ => Dep.none
  | .objectReplicate _ _ => Dep.none

/-- Whether the row is an event of another agent and not an instruction word. -/
abbrev Instr.isEvent (i : Instr) : Bool := i.words == 0

end Sys2Proof
end

