-- ==== Sys2Proof/Decode.lean ====
section
/-! DEFINITION. The decoder, total on any words and rejecting by name, and the encoder. -/

namespace Sys2Proof

/-- The dependency bits [31:28] of word 0 (R218). -/
def Dep.bits (d : Dep) : BitVec 4 :=
  BitVec.ofBool d.wp ++ BitVec.ofBool d.wn ++ BitVec.ofBool d.sp ++ BitVec.ofBool d.sn

/-- Reads the dependency bits of word 0. -/
def Dep.ofWord (w : BitVec 32) : Dep :=
  ⟨w.getLsbD 31, w.getLsbD 30, w.getLsbD 29, w.getLsbD 28⟩

/-- Word 0: dependency bits, primary opcode, operand fields (R218). -/
def word0 (dp : Dep) (op : BitVec 8) (body : BitVec 20) : BitVec 32 := dp.bits ++ op ++ body

/-- An extension word carries zero in [31:28] (R222). -/
def ext (body : BitVec 28) : BitVec 32 := 0#4 ++ body

/-- Keeps an instruction whose constant fields match and that is well formed (R234). -/
def keep (ok : Bool) (i : Instr) : Option Instr := if ok && i.wf then some i else none

/-- The words of an instruction, from the format tables of R224-R226 and the chapters; an event has no words. -/
def encode : Instr → List (BitVec 32)
  | .nop dp => [word0 dp 0x00#8 (0#20)]
  | .nopEnd dp => [word0 dp 0x00#8 (1#20)]
  | .add dp d a b => [word0 dp 0x01#8 (d ++ a ++ b ++ 0#2)]
  | .sub dp d a b => [word0 dp 0x02#8 (d ++ a ++ b ++ 0#2)]
  | .addi dp d a imm => [word0 dp 0x03#8 (d ++ a ++ imm)]
  | .mul dp d a b => [word0 dp 0x04#8 (d ++ a ++ b ++ 0#2)]
  | .mulh dp d a b => [word0 dp 0x05#8 (d ++ a ++ b ++ 0#2)]
  | .mulhu dp d a b => [word0 dp 0x06#8 (d ++ a ++ b ++ 0#2)]
  | .divu dp d a b => [word0 dp 0x07#8 (d ++ a ++ b ++ 0#2)]
  | .divs dp d a b => [word0 dp 0x08#8 (d ++ a ++ b ++ 0#2)]
  | .remu dp d a b => [word0 dp 0x09#8 (d ++ a ++ b ++ 0#2)]
  | .rems dp d a b => [word0 dp 0x0A#8 (d ++ a ++ b ++ 0#2)]
  | .and dp d a b => [word0 dp 0x0B#8 (d ++ a ++ b ++ 0#2)]
  | .andi dp d a imm => [word0 dp 0x0C#8 (d ++ a ++ imm)]
  | .or dp d a b => [word0 dp 0x0D#8 (d ++ a ++ b ++ 0#2)]
  | .ori dp d a imm => [word0 dp 0x0E#8 (d ++ a ++ imm)]
  | .xor dp d a b => [word0 dp 0x0F#8 (d ++ a ++ b ++ 0#2)]
  | .xori dp d a imm => [word0 dp 0x10#8 (d ++ a ++ imm)]
  | .andn dp d a b => [word0 dp 0x11#8 (d ++ a ++ b ++ 0#2)]
  | .shl dp d a b => [word0 dp 0x12#8 (d ++ a ++ b ++ 0#2)]
  | .shli dp d a imm => [word0 dp 0x13#8 (d ++ a ++ 0#2 ++ imm)]
  | .shr dp d a b => [word0 dp 0x14#8 (d ++ a ++ b ++ 0#2)]
  | .shri dp d a imm => [word0 dp 0x15#8 (d ++ a ++ 0#2 ++ imm)]
  | .sar dp d a b => [word0 dp 0x16#8 (d ++ a ++ b ++ 0#2)]
  | .sari dp d a imm => [word0 dp 0x17#8 (d ++ a ++ 0#2 ++ imm)]
  | .rotl dp d a b => [word0 dp 0x18#8 (d ++ a ++ b ++ 0#2)]
  | .rotli dp d a imm => [word0 dp 0x19#8 (d ++ a ++ 0#2 ++ imm)]
  | .min dp d a b => [word0 dp 0x1A#8 (d ++ a ++ b ++ 0#2)]
  | .minu dp d a b => [word0 dp 0x1B#8 (d ++ a ++ b ++ 0#2)]
  | .max dp d a b => [word0 dp 0x1C#8 (d ++ a ++ b ++ 0#2)]
  | .maxu dp d a b => [word0 dp 0x1D#8 (d ++ a ++ b ++ 0#2)]
  | .clz dp d a => [word0 dp 0x1E#8 (d ++ a ++ 0#8)]
  | .popc dp d a => [word0 dp 0x1F#8 (d ++ a ++ 0#8)]
  | .lui dp d imm => [word0 dp 0x20#8 (d ++ imm)]
  | .li dp d imm => [word0 dp 0x21#8 (d ++ imm)]
  | .sext dp d a n => [word0 dp 0x22#8 (d ++ a ++ n)]
  | .sel dp d a b p n => [word0 dp 0x23#8 (d ++ a ++ b ++ 0#2), ext (0#24 ++ BitVec.ofBool n ++ p)]
  | .cmp dp d a b cond => [word0 dp 0x24#8 (0#3 ++ d ++ a ++ b ++ cond)]
  | .cmpi dp d a cond imm => [word0 dp 0x25#8 (0#3 ++ d ++ a ++ cond ++ imm)]
  | .plog dp d a b f => [word0 dp 0x26#8 (0#3 ++ d ++ 0#3 ++ a ++ 0#3 ++ b ++ f)]
  | .br dp p n off => [word0 dp 0x27#8 (p ++ BitVec.ofBool n ++ off)]
  | .jmp dp off => [word0 dp 0x28#8 (0#4 ++ off)]
  | .call dp off => [word0 dp 0x29#8 (0#4 ++ off)]
  | .ret dp => [word0 dp 0x2A#8 (0#20)]
  | .loopC dp d n => [word0 dp 0x2B#8 (d ++ n)]
  | .retire dp => [word0 dp 0x2C#8 (0#20)]
  | .park dp d slot => [word0 dp 0x2D#8 (d ++ 0#8 ++ slot)]
  | .unpark dp d slot => [word0 dp 0x2E#8 (d ++ 0#8 ++ slot)]
  | .bara dp n a sc => [word0 dp 0x2F#8 (n ++ a ++ sc ++ 0#5)]
  | .barw dp n sc => [word0 dp 0x30#8 (n ++ 0#6 ++ sc ++ 0#5)]
  | .baraw dp n a sc => [word0 dp 0x31#8 (n ++ a ++ sc ++ 0#5)]
  | .cadd dp n a sc => [word0 dp 0x32#8 (0#1 ++ n ++ a ++ sc ++ 0#5)]
  | .caddSc dp n a sc => [word0 dp 0x33#8 (0#1 ++ n ++ a ++ sc ++ 0#5)]
  | .cwaitx dp n a b => [word0 dp 0x34#8 (0#1 ++ n ++ a ++ b ++ 0#2)]
  | .pub dp n sc => [word0 dp 0x35#8 (0#1 ++ n ++ 0#6 ++ sc ++ 0#5)]
  | .subSubscribe dp n a b => [word0 dp 0x36#8 (0#1 ++ n ++ a ++ b ++ 0#2)]
  | .opin dp n d => [word0 dp 0x37#8 (0#1 ++ n ++ d ++ 0#8)]
  | .ounpin dp n => [word0 dp 0x38#8 (0#1 ++ n ++ 0#14)]
  | .qrel dp n => [word0 dp 0x39#8 (0#6 ++ n)]
  | .arel dp n => [word0 dp 0x3A#8 (0#6 ++ n)]
  | .trel dp n => [word0 dp 0x3B#8 (0#6 ++ n)]
  | .spawn dp d a arg nsel nnum => [word0 dp 0x3C#8 (d ++ a ++ 0#6 ++ 0#1 ++ BitVec.ofBool arg), ext (0#11 ++ BitVec.ofBool nsel ++ nnum)]
  | .yield dp => [word0 dp 0x3D#8 (0#20)]
  | .shp dp xs h i0 i1 i2 => [word0 dp 0x40#8 (0#6 ++ xs ++ h ++ 0#5), ext (i0 ++ i1 ++ i2 ++ 0#10)]
  | .shpx dp xs h i0 i1 i2 => [word0 dp 0x41#8 (0#6 ++ xs ++ h ++ 0#5), ext (i0 ++ i1 ++ i2 ++ 0#10)]
  | .shpo dp xs h pad cdim => [word0 dp 0x42#8 (0#6 ++ xs ++ h ++ 0#5), ext (0#18 ++ pad ++ cdim ++ 0#5)]
  | .shps dp xs h rbr rbc => [word0 dp 0x43#8 (0#6 ++ xs ++ h ++ 0#5), ext (0#18 ++ rbr ++ rbc ++ 0#2)]
  | .cpin dp q => [word0 dp 0x44#8 (q.tq ++ q.xs ++ q.h ++ 0#5), ext (q.i0 ++ q.i1 ++ q.i2 ++ q.i3 ++ q.sc ++ 0#1)]
  | .cpinTr dp q => [word0 dp 0x45#8 (q.tq ++ q.xs ++ q.h ++ 0#5), ext (q.i0 ++ q.i1 ++ q.i2 ++ q.i3 ++ q.sc ++ 0#1)]
  | .cpinRb dp q => [word0 dp 0x46#8 (q.tq ++ q.xs ++ q.h ++ 0#5), ext (q.i0 ++ q.i1 ++ q.i2 ++ q.i3 ++ q.sc ++ 0#1)]
  | .cpq dp q => [word0 dp 0x47#8 (q.tq ++ q.xs ++ q.h ++ 0#5), ext (q.i0 ++ q.i1 ++ q.i2 ++ q.i3 ++ q.sc ++ 0#1)]
  | .cpqTr dp q => [word0 dp 0x48#8 (q.tq ++ q.xs ++ q.h ++ 0#5), ext (q.i0 ++ q.i1 ++ q.i2 ++ q.i3 ++ q.sc ++ 0#1)]
  | .cpqRb dp q => [word0 dp 0x49#8 (q.tq ++ q.xs ++ q.h ++ 0#5), ext (q.i0 ++ q.i1 ++ q.i2 ++ q.i3 ++ q.sc ++ 0#1)]
  | .cpout dp q => [word0 dp 0x4A#8 (q.tq ++ q.xs ++ q.h ++ 0#5), ext (q.i0 ++ q.i1 ++ q.i2 ++ q.i3 ++ q.sc ++ 0#1)]
  | .cpoutFf dp q => [word0 dp 0x4B#8 (q.tq ++ q.xs ++ q.h ++ 0#5), ext (q.i0 ++ q.i1 ++ q.i2 ++ q.i3 ++ q.sc ++ 0#1)]
  | .cpqo dp q => [word0 dp 0x4C#8 (q.tq ++ q.xs ++ q.h ++ 0#5), ext (q.i0 ++ q.i1 ++ q.i2 ++ q.i3 ++ q.sc ++ 0#1)]
  | .cprag dp q => [word0 dp 0x4D#8 (q.tq ++ q.xs ++ q.h ++ 0#5), ext (q.i0 ++ q.i1 ++ q.i2 ++ q.i3 ++ q.sc ++ 0#1)]
  | .cpragTr dp q => [word0 dp 0x4E#8 (q.tq ++ q.xs ++ q.h ++ 0#5), ext (q.i0 ++ q.i1 ++ q.i2 ++ q.i3 ++ q.sc ++ 0#1)]
  | .cppeer dp q => [word0 dp 0x4F#8 (q.tq ++ q.xs ++ q.h ++ 0#5), ext (q.i0 ++ q.i1 ++ q.i2 ++ q.i3 ++ q.sc ++ 0#1)]
  | .cppeerFf dp q => [word0 dp 0x50#8 (q.tq ++ q.xs ++ q.h ++ 0#5), ext (q.i0 ++ q.i1 ++ q.i2 ++ q.i3 ++ q.sc ++ 0#1)]
  | .tset dp d a b swz => [word0 dp 0x51#8 (d ++ a ++ b ++ 0#2), ext (0#25 ++ swz)]
  | .tsetClr dp d => [word0 dp 0x51#8 (d ++ 0#12 ++ 1#2), ext (0#28)]
  | .tsetRdy dp d => [word0 dp 0x51#8 (d ++ 0#12 ++ 2#2), ext (0#28)]
  | .tstat dp d a => [word0 dp 0x52#8 (d ++ a ++ 0#8)]
  | .sqres dp d h i0 => [word0 dp 0x53#8 (d ++ 0#4 ++ h ++ 0#5), ext (i0 ++ 0#22)]
  | .sqcmt dp h i0 i1 sc => [word0 dp 0x54#8 (0#10 ++ h ++ 0#5), ext (i0 ++ i1 ++ 0#6 ++ sc ++ 0#7)]
  | .sqlen dp d h f => [word0 dp 0x55#8 (d ++ 0#1 ++ h ++ 0#6 ++ f)]
  | .sqfork dp e h i0 i1 => [word0 dp 0x56#8 (0#1 ++ e ++ 0#4 ++ h ++ 0#5), ext (i0 ++ i1 ++ 0#16)]
  | .sqpin dp h i0 i1 => [word0 dp 0x57#8 (0#10 ++ h ++ 0#5), ext (i0 ++ i1 ++ 0#16)]
  | .squnpin dp h i0 i1 => [word0 dp 0x58#8 (0#10 ++ h ++ 0#5), ext (i0 ++ i1 ++ 0#16)]
  | .pxhash dp d a b j o => [word0 dp 0x59#8 (d ++ a ++ b ++ 0#2), ext (j ++ o ++ 0#16)]
  | .pxfind dp d a b e => [word0 dp 0x5A#8 (d ++ a ++ b ++ 0#2), ext (0#1 ++ e ++ 0#22)]
  | .pxins dp d a b j k => [word0 dp 0x5B#8 (d ++ 0#1 ++ a ++ 0#1 ++ b ++ 0#2), ext (j ++ k ++ 0#16)]
  | .pxdel dp d a b => [word0 dp 0x5C#8 (d ++ a ++ b ++ 0#2), ext (0#28)]
  | .cbfillF32 dp q => [word0 dp 0x5D#8 (q.tq ++ q.xs ++ q.h ++ 0#5), ext (q.i0 ++ q.i1 ++ q.i2 ++ q.i3 ++ q.sc ++ 0#1)]
  | .cbfillBf16 dp q => [word0 dp 0x5E#8 (q.tq ++ q.xs ++ q.h ++ 0#5), ext (q.i0 ++ q.i1 ++ q.i2 ++ q.i3 ++ q.sc ++ 0#1)]
  | .cbfillF16 dp q => [word0 dp 0x5F#8 (q.tq ++ q.xs ++ q.h ++ 0#5), ext (q.i0 ++ q.i1 ++ q.i2 ++ q.i3 ++ q.sc ++ 0#1)]
  | .cbfillE4m3 dp q => [word0 dp 0x60#8 (q.tq ++ q.xs ++ q.h ++ 0#5), ext (q.i0 ++ q.i1 ++ q.i2 ++ q.i3 ++ q.sc ++ 0#1)]
  | .cbfillE5m2 dp q => [word0 dp 0x61#8 (q.tq ++ q.xs ++ q.h ++ 0#5), ext (q.i0 ++ q.i1 ++ q.i2 ++ q.i3 ++ q.sc ++ 0#1)]
  | .cbsetF32 dp d a b => [word0 dp 0x62#8 (0#3 ++ d ++ a ++ b ++ 0#2)]
  | .cbsetBf16 dp d a b => [word0 dp 0x63#8 (0#3 ++ d ++ a ++ b ++ 0#2)]
  | .cbsetF16 dp d a b => [word0 dp 0x64#8 (0#3 ++ d ++ a ++ b ++ 0#2)]
  | .cbsetE4m3 dp d a b => [word0 dp 0x65#8 (0#3 ++ d ++ a ++ b ++ 0#2)]
  | .cbsetE5m2 dp d a b => [word0 dp 0x66#8 (0#3 ++ d ++ a ++ b ++ 0#2)]
  | .cbinv dp d => [word0 dp 0x67#8 (0#3 ++ d ++ 0#14)]
  | .bkx dp t cmd i0 i1 => [word0 dp 0x68#8 (t ++ 0#4 ++ 0#5 ++ 0#1 ++ cmd), ext (i0 ++ i1 ++ 0#16)]
  | .bkxHandle dp h cmd i0 i1 sc => [word0 dp 0x68#8 (0#10 ++ h ++ 1#1 ++ cmd), ext (i0 ++ i1 ++ 0#6 ++ sc ++ 0#7)]
  | .aadd dp q => [word0 dp 0x69#8 (q.d ++ 0#4 ++ q.h ++ 0#5), ext (q.i0 ++ q.i1 ++ 0#6 ++ q.sc ++ q.ord ++ 0#4)]
  | .amin dp q => [word0 dp 0x6A#8 (q.d ++ 0#4 ++ q.h ++ 0#5), ext (q.i0 ++ q.i1 ++ 0#6 ++ q.sc ++ q.ord ++ 0#4)]
  | .amax dp q => [word0 dp 0x6B#8 (q.d ++ 0#4 ++ q.h ++ 0#5), ext (q.i0 ++ q.i1 ++ 0#6 ++ q.sc ++ q.ord ++ 0#4)]
  | .axch dp q => [word0 dp 0x6C#8 (q.d ++ 0#4 ++ q.h ++ 0#5), ext (q.i0 ++ q.i1 ++ 0#6 ++ q.sc ++ q.ord ++ 0#4)]
  | .acas dp q i2 ford => [word0 dp 0x6D#8 (q.d ++ 0#4 ++ q.h ++ 0#5), ext (q.i0 ++ q.i1 ++ i2 ++ q.sc ++ q.ord ++ ford ++ 0#1)]
  | .radd dp q => [word0 dp 0x6E#8 (q.tq ++ q.xs ++ q.h ++ 0#5), ext (q.i0 ++ q.i1 ++ q.i2 ++ q.i3 ++ q.sc ++ 0#1)]
  | .raddFf dp q => [word0 dp 0x6F#8 (q.tq ++ q.xs ++ q.h ++ 0#5), ext (q.i0 ++ q.i1 ++ q.i2 ++ q.i3 ++ q.sc ++ 0#1)]
  | .kvput dp q => [word0 dp 0x70#8 (q.t ++ 0#4 ++ q.h ++ 0#1 ++ q.klen), ext (q.i0 ++ q.i1 ++ q.i2 ++ q.st ++ 0#4)]
  | .kvget dp q => [word0 dp 0x71#8 (q.t ++ 0#4 ++ q.h ++ 0#1 ++ q.klen), ext (q.i0 ++ q.i1 ++ q.i2 ++ q.st ++ 0#4)]
  | .kvdel dp q => [word0 dp 0x72#8 (q.t ++ 0#4 ++ q.h ++ 0#1 ++ q.klen), ext (q.i0 ++ q.i1 ++ q.i2 ++ q.st ++ 0#4)]
  | .kvexist dp q => [word0 dp 0x73#8 (q.t ++ 0#4 ++ q.h ++ 0#1 ++ q.klen), ext (q.i0 ++ q.i1 ++ q.i2 ++ q.st ++ 0#4)]
  | .kvlist dp q => [word0 dp 0x74#8 (q.t ++ 0#4 ++ q.h ++ 0#1 ++ q.klen), ext (q.i0 ++ q.i1 ++ q.i2 ++ q.st ++ 0#4)]
  | .promo dp q tier => [word0 dp 0x75#8 (0#6 ++ q.xs ++ q.h ++ 0#2 ++ tier), ext (q.i0 ++ q.i1 ++ q.i2 ++ q.i3 ++ q.sc ++ 0#1)]
  | .demo dp q tier => [word0 dp 0x76#8 (0#6 ++ q.xs ++ q.h ++ 0#2 ++ tier), ext (q.i0 ++ q.i1 ++ q.i2 ++ q.i3 ++ q.sc ++ 0#1)]
  | .hset dp d a => [word0 dp 0x77#8 (0#1 ++ d ++ a ++ 0#8)]
  | .hsetImport dp d b => [word0 dp 0x77#8 (0#1 ++ d ++ 0#6 ++ b ++ 1#2)]
  | .hget dp d h f => [word0 dp 0x78#8 (d ++ 0#1 ++ h ++ 0#6 ++ f)]
  | .hprobe dp d h i0 i1 i2 i3 => [word0 dp 0x79#8 (d ++ 0#4 ++ h ++ 0#5), ext (i0 ++ i1 ++ i2 ++ i3 ++ 0#4)]
  | .loopL dp d n => [word0 dp 0x7A#8 (d ++ n)]
  | .mma dp q => [word0 dp 0x80#8 (q.acc ++ q.xa ++ q.xb ++ BitVec.ofBool q.na ++ BitVec.ofBool q.nb ++ BitVec.ofBool q.ad ++ BitVec.ofBool q.ca ++ BitVec.ofBool q.cb ++ BitVec.ofBool q.sc ++ 0#2), ext (q.ta ++ q.tb ++ q.kba ++ q.kbb ++ 0#10)]
  | .mncfg dp d a b x => [word0 dp 0x81#8 (0#3 ++ d ++ a ++ b ++ 0#2), ext (x)]
  | .mnest dp => [word0 dp 0x82#8 (0#20)]
  | .acoop dp qr qc => [word0 dp 0x83#8 (0#20), ext (0#22 ++ qr ++ 0#1 ++ qc)]
  | .acoopEnd dp => [word0 dp 0x83#8 (1#20), ext (0#28)]
  | .azero dp d n it => [word0 dp 0x84#8 (0#2 ++ d ++ 0#2 ++ n ++ 0#6 ++ 0#1 ++ BitVec.ofBool it)]
  | .aloadF32 dp d a trn => [word0 dp 0x85#8 (0#2 ++ d ++ a ++ 0#6 ++ 0#1 ++ BitVec.ofBool trn), ext (0#28)]
  | .aloadI32 dp d a trn => [word0 dp 0x86#8 (0#2 ++ d ++ a ++ 0#6 ++ 0#1 ++ BitVec.ofBool trn), ext (0#28)]
  | .astat dp d a => [word0 dp 0x87#8 (d ++ 0#2 ++ a ++ 0#8)]
  | .loopM dp d n => [word0 dp 0x88#8 (d ++ n)]
  | .adrainF32 dp q => [word0 dp 0x89#8 (q.d ++ 0#2 ++ q.a ++ q.b ++ BitVec.ofBool q.trn ++ BitVec.ofBool q.az), ext (q.rnd ++ q.ovf ++ q.scf ++ BitVec.ofBool q.scb ++ 0#20)]
  | .adrainF16 dp q => [word0 dp 0x8A#8 (q.d ++ 0#2 ++ q.a ++ q.b ++ BitVec.ofBool q.trn ++ BitVec.ofBool q.az), ext (q.rnd ++ q.ovf ++ q.scf ++ BitVec.ofBool q.scb ++ 0#20)]
  | .adrainBf16 dp q => [word0 dp 0x8B#8 (q.d ++ 0#2 ++ q.a ++ q.b ++ BitVec.ofBool q.trn ++ BitVec.ofBool q.az), ext (q.rnd ++ q.ovf ++ q.scf ++ BitVec.ofBool q.scb ++ 0#20)]
  | .adrainE4m3 dp q => [word0 dp 0x8C#8 (q.d ++ 0#2 ++ q.a ++ q.b ++ BitVec.ofBool q.trn ++ BitVec.ofBool q.az), ext (q.rnd ++ q.ovf ++ q.scf ++ BitVec.ofBool q.scb ++ 0#20)]
  | .adrainE5m2 dp q => [word0 dp 0x8D#8 (q.d ++ 0#2 ++ q.a ++ q.b ++ BitVec.ofBool q.trn ++ BitVec.ofBool q.az), ext (q.rnd ++ q.ovf ++ q.scf ++ BitVec.ofBool q.scb ++ 0#20)]
  | .adrainE2m3 dp q => [word0 dp 0x8E#8 (q.d ++ 0#2 ++ q.a ++ q.b ++ BitVec.ofBool q.trn ++ BitVec.ofBool q.az), ext (q.rnd ++ q.ovf ++ q.scf ++ BitVec.ofBool q.scb ++ 0#20)]
  | .adrainE3m2 dp q => [word0 dp 0x8F#8 (q.d ++ 0#2 ++ q.a ++ q.b ++ BitVec.ofBool q.trn ++ BitVec.ofBool q.az), ext (q.rnd ++ q.ovf ++ q.scf ++ BitVec.ofBool q.scb ++ 0#20)]
  | .adrainE2m1 dp q => [word0 dp 0x90#8 (q.d ++ 0#2 ++ q.a ++ q.b ++ BitVec.ofBool q.trn ++ BitVec.ofBool q.az), ext (q.rnd ++ q.ovf ++ q.scf ++ BitVec.ofBool q.scb ++ 0#20)]
  | .adrainI32 dp q => [word0 dp 0x91#8 (q.d ++ 0#2 ++ q.a ++ q.b ++ BitVec.ofBool q.trn ++ BitVec.ofBool q.az), ext (q.rnd ++ q.ovf ++ q.scf ++ BitVec.ofBool q.scb ++ 0#20)]
  | .adrainI8 dp q => [word0 dp 0x92#8 (q.d ++ 0#2 ++ q.a ++ q.b ++ BitVec.ofBool q.trn ++ BitVec.ofBool q.az), ext (q.rnd ++ q.ovf ++ q.scf ++ BitVec.ofBool q.scb ++ 0#20)]
  | .adrainI4 dp q => [word0 dp 0x93#8 (q.d ++ 0#2 ++ q.a ++ q.b ++ BitVec.ofBool q.trn ++ BitVec.ofBool q.az), ext (q.rnd ++ q.ovf ++ q.scf ++ BitVec.ofBool q.scb ++ 0#20)]
  | .adrqF32 dp q => [word0 dp 0x94#8 (0#1 ++ q.d ++ 0#2 ++ q.a ++ q.b ++ q.n), ext (q.rnd ++ q.ovf ++ BitVec.ofBool q.trn ++ 0#22)]
  | .adrqF16 dp q => [word0 dp 0x95#8 (0#1 ++ q.d ++ 0#2 ++ q.a ++ q.b ++ q.n), ext (q.rnd ++ q.ovf ++ BitVec.ofBool q.trn ++ 0#22)]
  | .adrqBf16 dp q => [word0 dp 0x96#8 (0#1 ++ q.d ++ 0#2 ++ q.a ++ q.b ++ q.n), ext (q.rnd ++ q.ovf ++ BitVec.ofBool q.trn ++ 0#22)]
  | .adrqE4m3 dp q => [word0 dp 0x97#8 (0#1 ++ q.d ++ 0#2 ++ q.a ++ q.b ++ q.n), ext (q.rnd ++ q.ovf ++ BitVec.ofBool q.trn ++ 0#22)]
  | .adrqE5m2 dp q => [word0 dp 0x98#8 (0#1 ++ q.d ++ 0#2 ++ q.a ++ q.b ++ q.n), ext (q.rnd ++ q.ovf ++ BitVec.ofBool q.trn ++ 0#22)]
  | .adrqI32 dp q => [word0 dp 0x99#8 (0#1 ++ q.d ++ 0#2 ++ q.a ++ q.b ++ q.n), ext (q.rnd ++ q.ovf ++ BitVec.ofBool q.trn ++ 0#22)]
  | .adrqI8 dp q => [word0 dp 0x9A#8 (0#1 ++ q.d ++ 0#2 ++ q.a ++ q.b ++ q.n), ext (q.rnd ++ q.ovf ++ BitVec.ofBool q.trn ++ 0#22)]
  | .vaddF32 dp q rnd => [word0 dp 0xA0#8 (q.d ++ q.a ++ q.b ++ BitVec.ofBool q.ka ++ BitVec.ofBool q.kb ++ q.t), ext (rnd ++ 0#25)]
  | .vaddF16 dp q rnd => [word0 dp 0xA1#8 (q.d ++ q.a ++ q.b ++ BitVec.ofBool q.ka ++ BitVec.ofBool q.kb ++ q.t), ext (rnd ++ 0#25)]
  | .vaddBf16 dp q rnd => [word0 dp 0xA2#8 (q.d ++ q.a ++ q.b ++ BitVec.ofBool q.ka ++ BitVec.ofBool q.kb ++ q.t), ext (rnd ++ 0#25)]
  | .vsubF32 dp q rnd => [word0 dp 0xA3#8 (q.d ++ q.a ++ q.b ++ BitVec.ofBool q.ka ++ BitVec.ofBool q.kb ++ q.t), ext (rnd ++ 0#25)]
  | .vsubF16 dp q rnd => [word0 dp 0xA4#8 (q.d ++ q.a ++ q.b ++ BitVec.ofBool q.ka ++ BitVec.ofBool q.kb ++ q.t), ext (rnd ++ 0#25)]
  | .vsubBf16 dp q rnd => [word0 dp 0xA5#8 (q.d ++ q.a ++ q.b ++ BitVec.ofBool q.ka ++ BitVec.ofBool q.kb ++ q.t), ext (rnd ++ 0#25)]
  | .vmulF32 dp q rnd => [word0 dp 0xA6#8 (q.d ++ q.a ++ q.b ++ BitVec.ofBool q.ka ++ BitVec.ofBool q.kb ++ q.t), ext (rnd ++ 0#25)]
  | .vmulF16 dp q rnd => [word0 dp 0xA7#8 (q.d ++ q.a ++ q.b ++ BitVec.ofBool q.ka ++ BitVec.ofBool q.kb ++ q.t), ext (rnd ++ 0#25)]
  | .vmulBf16 dp q rnd => [word0 dp 0xA8#8 (q.d ++ q.a ++ q.b ++ BitVec.ofBool q.ka ++ BitVec.ofBool q.kb ++ q.t), ext (rnd ++ 0#25)]
  | .vfmaF32 dp q x => [word0 dp 0xA9#8 (q.d ++ q.a ++ q.b ++ BitVec.ofBool q.ka ++ BitVec.ofBool q.kb ++ q.t), ext (x.rnd ++ x.ovf ++ x.c ++ BitVec.ofBool x.kc ++ 0#17)]
  | .vfmaF16 dp q x => [word0 dp 0xAA#8 (q.d ++ q.a ++ q.b ++ BitVec.ofBool q.ka ++ BitVec.ofBool q.kb ++ q.t), ext (x.rnd ++ x.ovf ++ x.c ++ BitVec.ofBool x.kc ++ 0#17)]
  | .vfmaBf16 dp q x => [word0 dp 0xAB#8 (q.d ++ q.a ++ q.b ++ BitVec.ofBool q.ka ++ BitVec.ofBool q.kb ++ q.t), ext (x.rnd ++ x.ovf ++ x.c ++ BitVec.ofBool x.kc ++ 0#17)]
  | .vfmaE4m3 dp q x => [word0 dp 0xAC#8 (q.d ++ q.a ++ q.b ++ BitVec.ofBool q.ka ++ BitVec.ofBool q.kb ++ q.t), ext (x.rnd ++ x.ovf ++ x.c ++ BitVec.ofBool x.kc ++ 0#17)]
  | .vfmaE5m2 dp q x => [word0 dp 0xAD#8 (q.d ++ q.a ++ q.b ++ BitVec.ofBool q.ka ++ BitVec.ofBool q.kb ++ q.t), ext (x.rnd ++ x.ovf ++ x.c ++ BitVec.ofBool x.kc ++ 0#17)]
  | .vminF32 dp q => [word0 dp 0xAE#8 (q.d ++ q.a ++ q.b ++ BitVec.ofBool q.ka ++ BitVec.ofBool q.kb ++ q.t)]
  | .vminF16 dp q => [word0 dp 0xAF#8 (q.d ++ q.a ++ q.b ++ BitVec.ofBool q.ka ++ BitVec.ofBool q.kb ++ q.t)]
  | .vminBf16 dp q => [word0 dp 0xB0#8 (q.d ++ q.a ++ q.b ++ BitVec.ofBool q.ka ++ BitVec.ofBool q.kb ++ q.t)]
  | .vmaxF32 dp q => [word0 dp 0xB1#8 (q.d ++ q.a ++ q.b ++ BitVec.ofBool q.ka ++ BitVec.ofBool q.kb ++ q.t)]
  | .vmaxF16 dp q => [word0 dp 0xB2#8 (q.d ++ q.a ++ q.b ++ BitVec.ofBool q.ka ++ BitVec.ofBool q.kb ++ q.t)]
  | .vmaxBf16 dp q => [word0 dp 0xB3#8 (q.d ++ q.a ++ q.b ++ BitVec.ofBool q.ka ++ BitVec.ofBool q.kb ++ q.t)]
  | .vrcpF32 dp q rnd => [word0 dp 0xB4#8 (q.d ++ q.a ++ 0#5 ++ BitVec.ofBool q.ka ++ 0#1 ++ q.t), ext (rnd ++ 0#25)]
  | .vrcpF16 dp q rnd => [word0 dp 0xB5#8 (q.d ++ q.a ++ 0#5 ++ BitVec.ofBool q.ka ++ 0#1 ++ q.t), ext (rnd ++ 0#25)]
  | .vrcpBf16 dp q rnd => [word0 dp 0xB6#8 (q.d ++ q.a ++ 0#5 ++ BitVec.ofBool q.ka ++ 0#1 ++ q.t), ext (rnd ++ 0#25)]
  | .vrsqF32 dp q rnd => [word0 dp 0xB7#8 (q.d ++ q.a ++ 0#5 ++ BitVec.ofBool q.ka ++ 0#1 ++ q.t), ext (rnd ++ 0#25)]
  | .vrsqF16 dp q rnd => [word0 dp 0xB8#8 (q.d ++ q.a ++ 0#5 ++ BitVec.ofBool q.ka ++ 0#1 ++ q.t), ext (rnd ++ 0#25)]
  | .vrsqBf16 dp q rnd => [word0 dp 0xB9#8 (q.d ++ q.a ++ 0#5 ++ BitVec.ofBool q.ka ++ 0#1 ++ q.t), ext (rnd ++ 0#25)]
  | .vexp2F32 dp q rnd => [word0 dp 0xBA#8 (q.d ++ q.a ++ 0#5 ++ BitVec.ofBool q.ka ++ 0#1 ++ q.t), ext (rnd ++ 0#25)]
  | .vexp2F16 dp q rnd => [word0 dp 0xBB#8 (q.d ++ q.a ++ 0#5 ++ BitVec.ofBool q.ka ++ 0#1 ++ q.t), ext (rnd ++ 0#25)]
  | .vexp2Bf16 dp q rnd => [word0 dp 0xBC#8 (q.d ++ q.a ++ 0#5 ++ BitVec.ofBool q.ka ++ 0#1 ++ q.t), ext (rnd ++ 0#25)]
  | .vlog2F32 dp q rnd => [word0 dp 0xBD#8 (q.d ++ q.a ++ 0#5 ++ BitVec.ofBool q.ka ++ 0#1 ++ q.t), ext (rnd ++ 0#25)]
  | .vlog2F16 dp q rnd => [word0 dp 0xBE#8 (q.d ++ q.a ++ 0#5 ++ BitVec.ofBool q.ka ++ 0#1 ++ q.t), ext (rnd ++ 0#25)]
  | .vlog2Bf16 dp q rnd => [word0 dp 0xBF#8 (q.d ++ q.a ++ 0#5 ++ BitVec.ofBool q.ka ++ 0#1 ++ q.t), ext (rnd ++ 0#25)]
  | .vabsF32 dp q => [word0 dp 0xC0#8 (q.d ++ q.a ++ 0#5 ++ BitVec.ofBool q.ka ++ 0#1 ++ q.t)]
  | .vabsF16 dp q => [word0 dp 0xC1#8 (q.d ++ q.a ++ 0#5 ++ BitVec.ofBool q.ka ++ 0#1 ++ q.t)]
  | .vabsBf16 dp q => [word0 dp 0xC2#8 (q.d ++ q.a ++ 0#5 ++ BitVec.ofBool q.ka ++ 0#1 ++ q.t)]
  | .vnegF32 dp q => [word0 dp 0xC3#8 (q.d ++ q.a ++ 0#5 ++ BitVec.ofBool q.ka ++ 0#1 ++ q.t)]
  | .vnegF16 dp q => [word0 dp 0xC4#8 (q.d ++ q.a ++ 0#5 ++ BitVec.ofBool q.ka ++ 0#1 ++ q.t)]
  | .vnegBf16 dp q => [word0 dp 0xC5#8 (q.d ++ q.a ++ 0#5 ++ BitVec.ofBool q.ka ++ 0#1 ++ q.t)]
  | .vcvt dp q x => [word0 dp 0xC6#8 (q.d ++ q.a ++ 0#5 ++ BitVec.ofBool q.ka ++ 0#1 ++ q.t), ext (x.rnd ++ x.ovf ++ 0#6 ++ x.dfmt ++ x.sfmt ++ x.part ++ 0#6)]
  | .vcbx dp q kb wid part => [word0 dp 0xC7#8 (q.d ++ q.a ++ 0#5 ++ BitVec.ofBool q.ka ++ 0#1 ++ q.t), ext (0#11 ++ kb ++ wid ++ part ++ 0#6)]
  | .viaddI32 dp q ovf => [word0 dp 0xC8#8 (q.d ++ q.a ++ q.b ++ BitVec.ofBool q.ka ++ BitVec.ofBool q.kb ++ q.t), ext (0#3 ++ ovf ++ 0#23)]
  | .viaddI8 dp q ovf => [word0 dp 0xC9#8 (q.d ++ q.a ++ q.b ++ BitVec.ofBool q.ka ++ BitVec.ofBool q.kb ++ q.t), ext (0#3 ++ ovf ++ 0#23)]
  | .visubI32 dp q ovf => [word0 dp 0xCA#8 (q.d ++ q.a ++ q.b ++ BitVec.ofBool q.ka ++ BitVec.ofBool q.kb ++ q.t), ext (0#3 ++ ovf ++ 0#23)]
  | .visubI8 dp q ovf => [word0 dp 0xCB#8 (q.d ++ q.a ++ q.b ++ BitVec.ofBool q.ka ++ BitVec.ofBool q.kb ++ q.t), ext (0#3 ++ ovf ++ 0#23)]
  | .vimulI32 dp q ovf => [word0 dp 0xCC#8 (q.d ++ q.a ++ q.b ++ BitVec.ofBool q.ka ++ BitVec.ofBool q.kb ++ q.t), ext (0#3 ++ ovf ++ 0#23)]
  | .vimulI8 dp q ovf => [word0 dp 0xCD#8 (q.d ++ q.a ++ q.b ++ BitVec.ofBool q.ka ++ BitVec.ofBool q.kb ++ q.t), ext (0#3 ++ ovf ++ 0#23)]
  | .vand dp q => [word0 dp 0xCE#8 (q.d ++ q.a ++ q.b ++ BitVec.ofBool q.ka ++ BitVec.ofBool q.kb ++ q.t)]
  | .vor dp q => [word0 dp 0xCF#8 (q.d ++ q.a ++ q.b ++ BitVec.ofBool q.ka ++ BitVec.ofBool q.kb ++ q.t)]
  | .vxor dp q => [word0 dp 0xD0#8 (q.d ++ q.a ++ q.b ++ BitVec.ofBool q.ka ++ BitVec.ofBool q.kb ++ q.t)]
  | .vshlI32 dp q => [word0 dp 0xD1#8 (q.d ++ q.a ++ q.b ++ BitVec.ofBool q.ka ++ BitVec.ofBool q.kb ++ q.t)]
  | .vshlI8 dp q => [word0 dp 0xD2#8 (q.d ++ q.a ++ q.b ++ BitVec.ofBool q.ka ++ BitVec.ofBool q.kb ++ q.t)]
  | .vshrI32 dp q => [word0 dp 0xD3#8 (q.d ++ q.a ++ q.b ++ BitVec.ofBool q.ka ++ BitVec.ofBool q.kb ++ q.t)]
  | .vshrI8 dp q => [word0 dp 0xD4#8 (q.d ++ q.a ++ q.b ++ BitVec.ofBool q.ka ++ BitVec.ofBool q.kb ++ q.t)]
  | .vcmpF32 dp q => [word0 dp 0xD5#8 (q.d ++ q.a ++ q.b ++ BitVec.ofBool q.ka ++ BitVec.ofBool q.kb ++ q.t)]
  | .vcmpF16 dp q => [word0 dp 0xD6#8 (q.d ++ q.a ++ q.b ++ BitVec.ofBool q.ka ++ BitVec.ofBool q.kb ++ q.t)]
  | .vcmpBf16 dp q => [word0 dp 0xD7#8 (q.d ++ q.a ++ q.b ++ BitVec.ofBool q.ka ++ BitVec.ofBool q.kb ++ q.t)]
  | .vcmpI32 dp q => [word0 dp 0xD8#8 (q.d ++ q.a ++ q.b ++ BitVec.ofBool q.ka ++ BitVec.ofBool q.kb ++ q.t)]
  | .vcmpI8 dp q => [word0 dp 0xD9#8 (q.d ++ q.a ++ q.b ++ BitVec.ofBool q.ka ++ BitVec.ofBool q.kb ++ q.t)]
  | .vsel dp q => [word0 dp 0xDA#8 (q.d ++ q.a ++ q.b ++ BitVec.ofBool q.ka ++ BitVec.ofBool q.kb ++ q.t)]
  | .vbcast dp d t ss wd => [word0 dp 0xDB#8 (d ++ 0#12 ++ t), ext (0#11 ++ ss ++ wd ++ 0#1 ++ 0#8)]
  | .vbcastLane dp q ss wd => [word0 dp 0xDB#8 (q.d ++ q.a ++ 0#5 ++ BitVec.ofBool q.ka ++ 0#1 ++ q.t), ext (0#11 ++ ss ++ wd ++ 1#1 ++ 0#8)]
  | .vredaddF32 dp q rnd => [word0 dp 0xDC#8 (q.d ++ q.a ++ 0#5 ++ BitVec.ofBool q.ka ++ 0#1 ++ q.t), ext (rnd ++ 0#25)]
  | .vredaddF16 dp q rnd => [word0 dp 0xDD#8 (q.d ++ q.a ++ 0#5 ++ BitVec.ofBool q.ka ++ 0#1 ++ q.t), ext (rnd ++ 0#25)]
  | .vredaddBf16 dp q rnd => [word0 dp 0xDE#8 (q.d ++ q.a ++ 0#5 ++ BitVec.ofBool q.ka ++ 0#1 ++ q.t), ext (rnd ++ 0#25)]
  | .vredaddI32 dp q ovf => [word0 dp 0xDF#8 (q.d ++ q.a ++ 0#5 ++ BitVec.ofBool q.ka ++ 0#1 ++ q.t), ext (0#3 ++ ovf ++ 0#23)]
  | .vredmaxF32 dp q => [word0 dp 0xE0#8 (q.d ++ q.a ++ 0#5 ++ BitVec.ofBool q.ka ++ 0#1 ++ q.t)]
  | .vredmaxF16 dp q => [word0 dp 0xE1#8 (q.d ++ q.a ++ 0#5 ++ BitVec.ofBool q.ka ++ 0#1 ++ q.t)]
  | .vredmaxBf16 dp q => [word0 dp 0xE2#8 (q.d ++ q.a ++ 0#5 ++ BitVec.ofBool q.ka ++ 0#1 ++ q.t)]
  | .vredmaxI32 dp q => [word0 dp 0xE3#8 (q.d ++ q.a ++ 0#5 ++ BitVec.ofBool q.ka ++ 0#1 ++ q.t)]
  | .vscanF32 dp q x hm ci => [word0 dp 0xE4#8 (q.d ++ q.a ++ 0#5 ++ BitVec.ofBool q.ka ++ 0#1 ++ q.t), ext (x.rnd ++ x.ovf ++ x.c ++ BitVec.ofBool x.kc ++ hm ++ BitVec.ofBool ci ++ 0#13)]
  | .vscanI32 dp q x hm ci => [word0 dp 0xE5#8 (q.d ++ q.a ++ 0#5 ++ BitVec.ofBool q.ka ++ 0#1 ++ q.t), ext (x.rnd ++ x.ovf ++ x.c ++ BitVec.ofBool x.kc ++ hm ++ BitVec.ofBool ci ++ 0#13)]
  | .vperm dp q mode wd sk part => [word0 dp 0xE6#8 (q.d ++ q.a ++ q.b ++ BitVec.ofBool q.ka ++ BitVec.ofBool q.kb ++ q.t), ext (0#11 ++ mode ++ wd ++ sk ++ BitVec.ofBool part ++ 0#5)]
  | .vpack dp q wid part => [word0 dp 0xE7#8 (q.d ++ q.a ++ 0#5 ++ BitVec.ofBool q.ka ++ 0#1 ++ q.t), ext (0#11 ++ wid ++ part ++ 0#11)]
  | .vunpack dp q wid part sx => [word0 dp 0xE8#8 (q.d ++ q.a ++ 0#5 ++ BitVec.ofBool q.ka ++ 0#1 ++ q.t), ext (0#11 ++ wid ++ part ++ BitVec.ofBool sx ++ 0#10)]
  | .vmovq dp q => [word0 dp 0xE9#8 (q.d ++ q.a ++ 0#5 ++ BitVec.ofBool q.ka ++ 0#1 ++ q.t)]
  | .vdup dp q => [word0 dp 0xEA#8 (q.d ++ q.a ++ q.b ++ BitVec.ofBool q.ka ++ BitVec.ofBool q.kb ++ q.t)]
  | .vdrop dp a n => [word0 dp 0xEB#8 (0#5 ++ a ++ 0#3 ++ n ++ 0#5)]
  | .vlanei dp d t sb wd sst => [word0 dp 0xEC#8 (d ++ 0#12 ++ t), ext (0#11 ++ sb ++ wd ++ sst ++ 0#3)]
  | .vpeeks dp a ka sd wd ln => [word0 dp 0xED#8 (0#5 ++ a ++ 0#5 ++ BitVec.ofBool ka ++ 0#4), ext (0#11 ++ sd ++ wd ++ ln)]
  | .vmerge3 dp q rnd => [word0 dp 0xEE#8 (q.d ++ q.a ++ q.b ++ BitVec.ofBool q.ka ++ BitVec.ofBool q.kb ++ q.t), ext (rnd ++ 0#25)]
  | .loopV dp d n => [word0 dp 0xEF#8 (d ++ n)]
  | .trap dp code => [word0 dp 0xF0#8 (0#6 ++ code)]
  | .sysrd dp d reg => [word0 dp 0xF1#8 (d ++ reg)]
  | .syswr dp d reg => [word0 dp 0xF2#8 (d ++ reg)]
  | .bbox dp a tag => [word0 dp 0xF3#8 (0#6 ++ a ++ tag)]
  | .powerOnReset _ => []
  | .leaderClaim _ => []
  | .electionGrant => []
  | .heartbeat => []
  | .heartbeatLapse => []
  | .machineCheck _ _ _ => []
  | .fabricEnumeration _ => []
  | .resume _ => []
  | .retry _ => []
  | .kill _ => []
  | .deliver _ => []
  | .restart _ => []
  | .clear _ => []
  | .partitionResetComplete _ => []
  | .flock _ => []
  | .featAccept _ _ _ => []
  | .launchQueueBind _ _ _ => []
  | .launchQueueUnbind _ _ => []
  | .windowBind _ _ _ => []
  | .windowUnbind _ _ _ => []
  | .windowReopen _ _ _ => []
  | .windowRidChange _ _ _ => []
  | .requesterUnfreeze _ _ => []
  | .wtgtWrite _ _ _ => []
  | .namespaceBind _ _ _ _ => []
  | .namespaceUnbind _ _ => []
  | .edgeWrite _ _ _ => []
  | .registerWrite _ _ _ => []
  | .ingressSequenceWrite _ => []
  | .ingressTensorWrite _ => []
  | .ingressTensorRead _ _ => []
  | .ingressCounterWrite _ => []
  | .ingressCounterRead _ => []
  | .ingressUnsupported _ => []
  | .getVersion => []
  | .getCapabilities => []
  | .negotiateAlgorithms => []
  | .getDigests => []
  | .getCertificate => []
  | .challenge _ => []
  | .getMeasurements => []
  | .keyExchange _ => []
  | .finish _ => []
  | .blackBoxRead _ => []
  | .powerLimitSet _ => []
  | .checkpointStart _ => []
  | .checkpointCopy => []
  | .checkpointResume => []
  | .checkpointRestore => []
  | .throttlePause _ => []
  | .thermalTrip => []
  | .warmResetRelease => []
  | .nvmeofConnect _ _ => []
  | .kvCompletion _ _ _ _ => []
  | .kvTimeout _ => []
  | .walkerReadRecord _ => []
  | .walkerUnreachableTimeout _ => []
  | .taskDispatch _ => []
  | .preemptorStart _ => []
  | .agingStep _ _ => []
  | .continuationEnqueue _ _ => []
  | .nodeComplete _ _ => []
  | .storeAck _ => []
  | .watchdogExpiry _ => []
  | .heldSignalAccept _ => []
  | .wheelScChoice _ => []
  | .streamerGrantRound _ => []
  | .copyResolution _ => []
  | .copyInCompletion _ => []
  | .copyOutCompletion _ => []
  | .cbfillCompletion _ => []
  | .bankCommandServed _ => []
  | .mmaCompletion _ => []
  | .aloadCompletion _ => []
  | .drainCompletion _ => []
  | .adrqEntryWrite _ => []
  | .vResultWrite _ => []
  | .replicatedCommit _ => []
  | .replicaLockTimeout _ _ => []
  | .storeFailure _ => []
  | .reductionMerge _ _ => []
  | .objectCreate _ => []
  | .objectDestroy _ => []
  | .pagePlacement _ _ => []
  | .viewRebuild _ _ => []
  | .pageMove _ _ => []
  | .promotionLand _ _ => []
  | .sequenceSeal _ => []
  | .contextSwitchOut _ _ => []
  | .contextRestore _ _ _ => []
  | .homeRequestCompletion _ => []
  | .connectionLost _ _ => []
  | .homeUnreachable _ => []
  | .homeReachable _ => []
  | .peerRequest _ => []
  | .consumerIndexAdvance _ _ => []
  | .resolutionIgnored _ _ => []
  | .objectReplicate _ _ => []

/-! One parser per row: the constant fields of its layout, and its operands. -/

/-- Reads NOP. -/
def parseNop (dp : Dep) (b : BitVec 20) (_x : BitVec 28) : Option Instr :=
  keep (b.extractLsb' 0 20 == 0#20) (.nop dp )

/-- Reads NOP_END. -/
def parseNopEnd (dp : Dep) (b : BitVec 20) (_x : BitVec 28) : Option Instr :=
  keep (b.extractLsb' 0 20 == 1#20) (.nopEnd dp )

/-- Reads ADD. -/
def parseAdd (dp : Dep) (b : BitVec 20) (_x : BitVec 28) : Option Instr :=
  keep (b.extractLsb' 0 2 == 0#2) (.add dp (b.extractLsb' 14 6) (b.extractLsb' 8 6) (b.extractLsb' 2 6))

/-- Reads SUB. -/
def parseSub (dp : Dep) (b : BitVec 20) (_x : BitVec 28) : Option Instr :=
  keep (b.extractLsb' 0 2 == 0#2) (.sub dp (b.extractLsb' 14 6) (b.extractLsb' 8 6) (b.extractLsb' 2 6))

/-- Reads ADDI. -/
def parseAddi (dp : Dep) (b : BitVec 20) (_x : BitVec 28) : Option Instr :=
  keep (true) (.addi dp (b.extractLsb' 14 6) (b.extractLsb' 8 6) (b.extractLsb' 0 8))

/-- Reads MUL. -/
def parseMul (dp : Dep) (b : BitVec 20) (_x : BitVec 28) : Option Instr :=
  keep (b.extractLsb' 0 2 == 0#2) (.mul dp (b.extractLsb' 14 6) (b.extractLsb' 8 6) (b.extractLsb' 2 6))

/-- Reads MULH. -/
def parseMulh (dp : Dep) (b : BitVec 20) (_x : BitVec 28) : Option Instr :=
  keep (b.extractLsb' 0 2 == 0#2) (.mulh dp (b.extractLsb' 14 6) (b.extractLsb' 8 6) (b.extractLsb' 2 6))

/-- Reads MULHU. -/
def parseMulhu (dp : Dep) (b : BitVec 20) (_x : BitVec 28) : Option Instr :=
  keep (b.extractLsb' 0 2 == 0#2) (.mulhu dp (b.extractLsb' 14 6) (b.extractLsb' 8 6) (b.extractLsb' 2 6))

/-- Reads DIVU. -/
def parseDivu (dp : Dep) (b : BitVec 20) (_x : BitVec 28) : Option Instr :=
  keep (b.extractLsb' 0 2 == 0#2) (.divu dp (b.extractLsb' 14 6) (b.extractLsb' 8 6) (b.extractLsb' 2 6))

/-- Reads DIVS. -/
def parseDivs (dp : Dep) (b : BitVec 20) (_x : BitVec 28) : Option Instr :=
  keep (b.extractLsb' 0 2 == 0#2) (.divs dp (b.extractLsb' 14 6) (b.extractLsb' 8 6) (b.extractLsb' 2 6))

/-- Reads REMU. -/
def parseRemu (dp : Dep) (b : BitVec 20) (_x : BitVec 28) : Option Instr :=
  keep (b.extractLsb' 0 2 == 0#2) (.remu dp (b.extractLsb' 14 6) (b.extractLsb' 8 6) (b.extractLsb' 2 6))

/-- Reads REMS. -/
def parseRems (dp : Dep) (b : BitVec 20) (_x : BitVec 28) : Option Instr :=
  keep (b.extractLsb' 0 2 == 0#2) (.rems dp (b.extractLsb' 14 6) (b.extractLsb' 8 6) (b.extractLsb' 2 6))

/-- Reads AND. -/
def parseAnd (dp : Dep) (b : BitVec 20) (_x : BitVec 28) : Option Instr :=
  keep (b.extractLsb' 0 2 == 0#2) (.and dp (b.extractLsb' 14 6) (b.extractLsb' 8 6) (b.extractLsb' 2 6))

/-- Reads ANDI. -/
def parseAndi (dp : Dep) (b : BitVec 20) (_x : BitVec 28) : Option Instr :=
  keep (true) (.andi dp (b.extractLsb' 14 6) (b.extractLsb' 8 6) (b.extractLsb' 0 8))

/-- Reads OR. -/
def parseOr (dp : Dep) (b : BitVec 20) (_x : BitVec 28) : Option Instr :=
  keep (b.extractLsb' 0 2 == 0#2) (.or dp (b.extractLsb' 14 6) (b.extractLsb' 8 6) (b.extractLsb' 2 6))

/-- Reads ORI. -/
def parseOri (dp : Dep) (b : BitVec 20) (_x : BitVec 28) : Option Instr :=
  keep (true) (.ori dp (b.extractLsb' 14 6) (b.extractLsb' 8 6) (b.extractLsb' 0 8))

/-- Reads XOR. -/
def parseXor (dp : Dep) (b : BitVec 20) (_x : BitVec 28) : Option Instr :=
  keep (b.extractLsb' 0 2 == 0#2) (.xor dp (b.extractLsb' 14 6) (b.extractLsb' 8 6) (b.extractLsb' 2 6))

/-- Reads XORI. -/
def parseXori (dp : Dep) (b : BitVec 20) (_x : BitVec 28) : Option Instr :=
  keep (true) (.xori dp (b.extractLsb' 14 6) (b.extractLsb' 8 6) (b.extractLsb' 0 8))

/-- Reads ANDN. -/
def parseAndn (dp : Dep) (b : BitVec 20) (_x : BitVec 28) : Option Instr :=
  keep (b.extractLsb' 0 2 == 0#2) (.andn dp (b.extractLsb' 14 6) (b.extractLsb' 8 6) (b.extractLsb' 2 6))

/-- Reads SHL. -/
def parseShl (dp : Dep) (b : BitVec 20) (_x : BitVec 28) : Option Instr :=
  keep (b.extractLsb' 0 2 == 0#2) (.shl dp (b.extractLsb' 14 6) (b.extractLsb' 8 6) (b.extractLsb' 2 6))

/-- Reads SHLI. -/
def parseShli (dp : Dep) (b : BitVec 20) (_x : BitVec 28) : Option Instr :=
  keep (b.extractLsb' 6 2 == 0#2) (.shli dp (b.extractLsb' 14 6) (b.extractLsb' 8 6) (b.extractLsb' 0 6))

/-- Reads SHR. -/
def parseShr (dp : Dep) (b : BitVec 20) (_x : BitVec 28) : Option Instr :=
  keep (b.extractLsb' 0 2 == 0#2) (.shr dp (b.extractLsb' 14 6) (b.extractLsb' 8 6) (b.extractLsb' 2 6))

/-- Reads SHRI. -/
def parseShri (dp : Dep) (b : BitVec 20) (_x : BitVec 28) : Option Instr :=
  keep (b.extractLsb' 6 2 == 0#2) (.shri dp (b.extractLsb' 14 6) (b.extractLsb' 8 6) (b.extractLsb' 0 6))

/-- Reads SAR. -/
def parseSar (dp : Dep) (b : BitVec 20) (_x : BitVec 28) : Option Instr :=
  keep (b.extractLsb' 0 2 == 0#2) (.sar dp (b.extractLsb' 14 6) (b.extractLsb' 8 6) (b.extractLsb' 2 6))

/-- Reads SARI. -/
def parseSari (dp : Dep) (b : BitVec 20) (_x : BitVec 28) : Option Instr :=
  keep (b.extractLsb' 6 2 == 0#2) (.sari dp (b.extractLsb' 14 6) (b.extractLsb' 8 6) (b.extractLsb' 0 6))

/-- Reads ROTL. -/
def parseRotl (dp : Dep) (b : BitVec 20) (_x : BitVec 28) : Option Instr :=
  keep (b.extractLsb' 0 2 == 0#2) (.rotl dp (b.extractLsb' 14 6) (b.extractLsb' 8 6) (b.extractLsb' 2 6))

/-- Reads ROTLI. -/
def parseRotli (dp : Dep) (b : BitVec 20) (_x : BitVec 28) : Option Instr :=
  keep (b.extractLsb' 6 2 == 0#2) (.rotli dp (b.extractLsb' 14 6) (b.extractLsb' 8 6) (b.extractLsb' 0 6))

/-- Reads MIN. -/
def parseMin (dp : Dep) (b : BitVec 20) (_x : BitVec 28) : Option Instr :=
  keep (b.extractLsb' 0 2 == 0#2) (.min dp (b.extractLsb' 14 6) (b.extractLsb' 8 6) (b.extractLsb' 2 6))

/-- Reads MINU. -/
def parseMinu (dp : Dep) (b : BitVec 20) (_x : BitVec 28) : Option Instr :=
  keep (b.extractLsb' 0 2 == 0#2) (.minu dp (b.extractLsb' 14 6) (b.extractLsb' 8 6) (b.extractLsb' 2 6))

/-- Reads MAX. -/
def parseMax (dp : Dep) (b : BitVec 20) (_x : BitVec 28) : Option Instr :=
  keep (b.extractLsb' 0 2 == 0#2) (.max dp (b.extractLsb' 14 6) (b.extractLsb' 8 6) (b.extractLsb' 2 6))

/-- Reads MAXU. -/
def parseMaxu (dp : Dep) (b : BitVec 20) (_x : BitVec 28) : Option Instr :=
  keep (b.extractLsb' 0 2 == 0#2) (.maxu dp (b.extractLsb' 14 6) (b.extractLsb' 8 6) (b.extractLsb' 2 6))

/-- Reads CLZ. -/
def parseClz (dp : Dep) (b : BitVec 20) (_x : BitVec 28) : Option Instr :=
  keep (b.extractLsb' 0 8 == 0#8) (.clz dp (b.extractLsb' 14 6) (b.extractLsb' 8 6))

/-- Reads POPC. -/
def parsePopc (dp : Dep) (b : BitVec 20) (_x : BitVec 28) : Option Instr :=
  keep (b.extractLsb' 0 8 == 0#8) (.popc dp (b.extractLsb' 14 6) (b.extractLsb' 8 6))

/-- Reads LUI. -/
def parseLui (dp : Dep) (b : BitVec 20) (_x : BitVec 28) : Option Instr :=
  keep (true) (.lui dp (b.extractLsb' 14 6) (b.extractLsb' 0 14))

/-- Reads LI. -/
def parseLi (dp : Dep) (b : BitVec 20) (_x : BitVec 28) : Option Instr :=
  keep (true) (.li dp (b.extractLsb' 14 6) (b.extractLsb' 0 14))

/-- Reads SEXT. -/
def parseSext (dp : Dep) (b : BitVec 20) (_x : BitVec 28) : Option Instr :=
  keep (true) (.sext dp (b.extractLsb' 14 6) (b.extractLsb' 8 6) (b.extractLsb' 0 8))

/-- Reads SEL. -/
def parseSel (dp : Dep) (b : BitVec 20) (x : BitVec 28) : Option Instr :=
  keep (b.extractLsb' 0 2 == 0#2 && x.extractLsb' 4 24 == 0#24) (.sel dp (b.extractLsb' 14 6) (b.extractLsb' 8 6) (b.extractLsb' 2 6) (x.extractLsb' 0 3) (x.getLsbD 3))

/-- Reads CMP. -/
def parseCmp (dp : Dep) (b : BitVec 20) (_x : BitVec 28) : Option Instr :=
  keep (b.extractLsb' 17 3 == 0#3) (.cmp dp (b.extractLsb' 14 3) (b.extractLsb' 8 6) (b.extractLsb' 2 6) (b.extractLsb' 0 2))

/-- Reads CMPI. -/
def parseCmpi (dp : Dep) (b : BitVec 20) (_x : BitVec 28) : Option Instr :=
  keep (b.extractLsb' 17 3 == 0#3) (.cmpi dp (b.extractLsb' 14 3) (b.extractLsb' 8 6) (b.extractLsb' 6 2) (b.extractLsb' 0 6))

/-- Reads PLOG. -/
def parsePlog (dp : Dep) (b : BitVec 20) (_x : BitVec 28) : Option Instr :=
  keep (b.extractLsb' 17 3 == 0#3 && b.extractLsb' 11 3 == 0#3 && b.extractLsb' 5 3 == 0#3) (.plog dp (b.extractLsb' 14 3) (b.extractLsb' 8 3) (b.extractLsb' 2 3) (b.extractLsb' 0 2))

/-- Reads BR. -/
def parseBr (dp : Dep) (b : BitVec 20) (_x : BitVec 28) : Option Instr :=
  keep (true) (.br dp (b.extractLsb' 17 3) (b.getLsbD 16) (b.extractLsb' 0 16))

/-- Reads JMP. -/
def parseJmp (dp : Dep) (b : BitVec 20) (_x : BitVec 28) : Option Instr :=
  keep (b.extractLsb' 16 4 == 0#4) (.jmp dp (b.extractLsb' 0 16))

/-- Reads CALL. -/
def parseCall (dp : Dep) (b : BitVec 20) (_x : BitVec 28) : Option Instr :=
  keep (b.extractLsb' 16 4 == 0#4) (.call dp (b.extractLsb' 0 16))

/-- Reads RET. -/
def parseRet (dp : Dep) (b : BitVec 20) (_x : BitVec 28) : Option Instr :=
  keep (b.extractLsb' 0 20 == 0#20) (.ret dp )

/-- Reads LOOP_C. -/
def parseLoopC (dp : Dep) (b : BitVec 20) (_x : BitVec 28) : Option Instr :=
  keep (true) (.loopC dp (b.extractLsb' 14 6) (b.extractLsb' 0 14))

/-- Reads RETIRE. -/
def parseRetire (dp : Dep) (b : BitVec 20) (_x : BitVec 28) : Option Instr :=
  keep (b.extractLsb' 0 20 == 0#20) (.retire dp )

/-- Reads PARK. -/
def parsePark (dp : Dep) (b : BitVec 20) (_x : BitVec 28) : Option Instr :=
  keep (b.extractLsb' 6 8 == 0#8) (.park dp (b.extractLsb' 14 6) (b.extractLsb' 0 6))

/-- Reads UNPARK. -/
def parseUnpark (dp : Dep) (b : BitVec 20) (_x : BitVec 28) : Option Instr :=
  keep (b.extractLsb' 6 8 == 0#8) (.unpark dp (b.extractLsb' 14 6) (b.extractLsb' 0 6))

/-- Reads BARA. -/
def parseBara (dp : Dep) (b : BitVec 20) (_x : BitVec 28) : Option Instr :=
  keep (b.extractLsb' 0 5 == 0#5) (.bara dp (b.extractLsb' 14 6) (b.extractLsb' 8 6) (b.extractLsb' 5 3))

/-- Reads BARW. -/
def parseBarw (dp : Dep) (b : BitVec 20) (_x : BitVec 28) : Option Instr :=
  keep (b.extractLsb' 8 6 == 0#6 && b.extractLsb' 0 5 == 0#5) (.barw dp (b.extractLsb' 14 6) (b.extractLsb' 5 3))

/-- Reads BARAW. -/
def parseBaraw (dp : Dep) (b : BitVec 20) (_x : BitVec 28) : Option Instr :=
  keep (b.extractLsb' 0 5 == 0#5) (.baraw dp (b.extractLsb' 14 6) (b.extractLsb' 8 6) (b.extractLsb' 5 3))

/-- Reads CADD. -/
def parseCadd (dp : Dep) (b : BitVec 20) (_x : BitVec 28) : Option Instr :=
  keep (b.extractLsb' 19 1 == 0#1 && b.extractLsb' 0 5 == 0#5) (.cadd dp (b.extractLsb' 14 5) (b.extractLsb' 8 6) (b.extractLsb' 5 3))

/-- Reads CADD_SC. -/
def parseCaddSc (dp : Dep) (b : BitVec 20) (_x : BitVec 28) : Option Instr :=
  keep (b.extractLsb' 19 1 == 0#1 && b.extractLsb' 0 5 == 0#5) (.caddSc dp (b.extractLsb' 14 5) (b.extractLsb' 8 6) (b.extractLsb' 5 3))

/-- Reads CWAITX. -/
def parseCwaitx (dp : Dep) (b : BitVec 20) (_x : BitVec 28) : Option Instr :=
  keep (b.extractLsb' 19 1 == 0#1 && b.extractLsb' 0 2 == 0#2) (.cwaitx dp (b.extractLsb' 14 5) (b.extractLsb' 8 6) (b.extractLsb' 2 6))

/-- Reads PUB. -/
def parsePub (dp : Dep) (b : BitVec 20) (_x : BitVec 28) : Option Instr :=
  keep (b.extractLsb' 19 1 == 0#1 && b.extractLsb' 8 6 == 0#6 && b.extractLsb' 0 5 == 0#5) (.pub dp (b.extractLsb' 14 5) (b.extractLsb' 5 3))

/-- Reads SUB_SUBSCRIBE. -/
def parseSubSubscribe (dp : Dep) (b : BitVec 20) (_x : BitVec 28) : Option Instr :=
  keep (b.extractLsb' 19 1 == 0#1 && b.extractLsb' 0 2 == 0#2) (.subSubscribe dp (b.extractLsb' 14 5) (b.extractLsb' 8 6) (b.extractLsb' 2 6))

/-- Reads OPIN. -/
def parseOpin (dp : Dep) (b : BitVec 20) (_x : BitVec 28) : Option Instr :=
  keep (b.extractLsb' 19 1 == 0#1 && b.extractLsb' 0 8 == 0#8) (.opin dp (b.extractLsb' 14 5) (b.extractLsb' 8 6))

/-- Reads OUNPIN. -/
def parseOunpin (dp : Dep) (b : BitVec 20) (_x : BitVec 28) : Option Instr :=
  keep (b.extractLsb' 19 1 == 0#1 && b.extractLsb' 0 14 == 0#14) (.ounpin dp (b.extractLsb' 14 5))

/-- Reads QREL. -/
def parseQrel (dp : Dep) (b : BitVec 20) (_x : BitVec 28) : Option Instr :=
  keep (b.extractLsb' 14 6 == 0#6) (.qrel dp (b.extractLsb' 0 14))

/-- Reads AREL. -/
def parseArel (dp : Dep) (b : BitVec 20) (_x : BitVec 28) : Option Instr :=
  keep (b.extractLsb' 14 6 == 0#6) (.arel dp (b.extractLsb' 0 14))

/-- Reads TREL. -/
def parseTrel (dp : Dep) (b : BitVec 20) (_x : BitVec 28) : Option Instr :=
  keep (b.extractLsb' 14 6 == 0#6) (.trel dp (b.extractLsb' 0 14))

/-- Reads SPAWN. -/
def parseSpawn (dp : Dep) (b : BitVec 20) (x : BitVec 28) : Option Instr :=
  keep (b.extractLsb' 2 6 == 0#6 && b.extractLsb' 1 1 == 0#1 && x.extractLsb' 17 11 == 0#11) (.spawn dp (b.extractLsb' 14 6) (b.extractLsb' 8 6) (b.getLsbD 0) (x.getLsbD 16) (x.extractLsb' 0 16))

/-- Reads YIELD. -/
def parseYield (dp : Dep) (b : BitVec 20) (_x : BitVec 28) : Option Instr :=
  keep (b.extractLsb' 0 20 == 0#20) (.yield dp )

/-- Reads SHP. -/
def parseShp (dp : Dep) (b : BitVec 20) (x : BitVec 28) : Option Instr :=
  keep (b.extractLsb' 14 6 == 0#6 && b.extractLsb' 0 5 == 0#5 && x.extractLsb' 0 10 == 0#10) (.shp dp (b.extractLsb' 10 4) (b.extractLsb' 5 5) (x.extractLsb' 22 6) (x.extractLsb' 16 6) (x.extractLsb' 10 6))

/-- Reads SHPX. -/
def parseShpx (dp : Dep) (b : BitVec 20) (x : BitVec 28) : Option Instr :=
  keep (b.extractLsb' 14 6 == 0#6 && b.extractLsb' 0 5 == 0#5 && x.extractLsb' 0 10 == 0#10) (.shpx dp (b.extractLsb' 10 4) (b.extractLsb' 5 5) (x.extractLsb' 22 6) (x.extractLsb' 16 6) (x.extractLsb' 10 6))

/-- Reads SHPO. -/
def parseShpo (dp : Dep) (b : BitVec 20) (x : BitVec 28) : Option Instr :=
  keep (b.extractLsb' 14 6 == 0#6 && b.extractLsb' 0 5 == 0#5 && x.extractLsb' 10 18 == 0#18 && x.extractLsb' 0 5 == 0#5) (.shpo dp (b.extractLsb' 10 4) (b.extractLsb' 5 5) (x.extractLsb' 8 2) (x.extractLsb' 5 3))

/-- Reads SHPS. -/
def parseShps (dp : Dep) (b : BitVec 20) (x : BitVec 28) : Option Instr :=
  keep (b.extractLsb' 14 6 == 0#6 && b.extractLsb' 0 5 == 0#5 && x.extractLsb' 10 18 == 0#18 && x.extractLsb' 0 2 == 0#2) (.shps dp (b.extractLsb' 10 4) (b.extractLsb' 5 5) (x.extractLsb' 6 4) (x.extractLsb' 2 4))

/-- Reads CPIN. -/
def parseCpin (dp : Dep) (b : BitVec 20) (x : BitVec 28) : Option Instr :=
  keep (b.extractLsb' 0 5 == 0#5 && x.extractLsb' 0 1 == 0#1) (.cpin dp { tq := b.extractLsb' 14 6, xs := b.extractLsb' 10 4, h := b.extractLsb' 5 5, i0 := x.extractLsb' 22 6, i1 := x.extractLsb' 16 6, i2 := x.extractLsb' 10 6, i3 := x.extractLsb' 4 6, sc := x.extractLsb' 1 3 })

/-- Reads CPIN_TR. -/
def parseCpinTr (dp : Dep) (b : BitVec 20) (x : BitVec 28) : Option Instr :=
  keep (b.extractLsb' 0 5 == 0#5 && x.extractLsb' 0 1 == 0#1) (.cpinTr dp { tq := b.extractLsb' 14 6, xs := b.extractLsb' 10 4, h := b.extractLsb' 5 5, i0 := x.extractLsb' 22 6, i1 := x.extractLsb' 16 6, i2 := x.extractLsb' 10 6, i3 := x.extractLsb' 4 6, sc := x.extractLsb' 1 3 })

/-- Reads CPIN_RB. -/
def parseCpinRb (dp : Dep) (b : BitVec 20) (x : BitVec 28) : Option Instr :=
  keep (b.extractLsb' 0 5 == 0#5 && x.extractLsb' 0 1 == 0#1) (.cpinRb dp { tq := b.extractLsb' 14 6, xs := b.extractLsb' 10 4, h := b.extractLsb' 5 5, i0 := x.extractLsb' 22 6, i1 := x.extractLsb' 16 6, i2 := x.extractLsb' 10 6, i3 := x.extractLsb' 4 6, sc := x.extractLsb' 1 3 })

/-- Reads CPQ. -/
def parseCpq (dp : Dep) (b : BitVec 20) (x : BitVec 28) : Option Instr :=
  keep (b.extractLsb' 0 5 == 0#5 && x.extractLsb' 0 1 == 0#1) (.cpq dp { tq := b.extractLsb' 14 6, xs := b.extractLsb' 10 4, h := b.extractLsb' 5 5, i0 := x.extractLsb' 22 6, i1 := x.extractLsb' 16 6, i2 := x.extractLsb' 10 6, i3 := x.extractLsb' 4 6, sc := x.extractLsb' 1 3 })

/-- Reads CPQ_TR. -/
def parseCpqTr (dp : Dep) (b : BitVec 20) (x : BitVec 28) : Option Instr :=
  keep (b.extractLsb' 0 5 == 0#5 && x.extractLsb' 0 1 == 0#1) (.cpqTr dp { tq := b.extractLsb' 14 6, xs := b.extractLsb' 10 4, h := b.extractLsb' 5 5, i0 := x.extractLsb' 22 6, i1 := x.extractLsb' 16 6, i2 := x.extractLsb' 10 6, i3 := x.extractLsb' 4 6, sc := x.extractLsb' 1 3 })

/-- Reads CPQ_RB. -/
def parseCpqRb (dp : Dep) (b : BitVec 20) (x : BitVec 28) : Option Instr :=
  keep (b.extractLsb' 0 5 == 0#5 && x.extractLsb' 0 1 == 0#1) (.cpqRb dp { tq := b.extractLsb' 14 6, xs := b.extractLsb' 10 4, h := b.extractLsb' 5 5, i0 := x.extractLsb' 22 6, i1 := x.extractLsb' 16 6, i2 := x.extractLsb' 10 6, i3 := x.extractLsb' 4 6, sc := x.extractLsb' 1 3 })

/-- Reads CPOUT. -/
def parseCpout (dp : Dep) (b : BitVec 20) (x : BitVec 28) : Option Instr :=
  keep (b.extractLsb' 0 5 == 0#5 && x.extractLsb' 0 1 == 0#1) (.cpout dp { tq := b.extractLsb' 14 6, xs := b.extractLsb' 10 4, h := b.extractLsb' 5 5, i0 := x.extractLsb' 22 6, i1 := x.extractLsb' 16 6, i2 := x.extractLsb' 10 6, i3 := x.extractLsb' 4 6, sc := x.extractLsb' 1 3 })

/-- Reads CPOUT_FF. -/
def parseCpoutFf (dp : Dep) (b : BitVec 20) (x : BitVec 28) : Option Instr :=
  keep (b.extractLsb' 0 5 == 0#5 && x.extractLsb' 0 1 == 0#1) (.cpoutFf dp { tq := b.extractLsb' 14 6, xs := b.extractLsb' 10 4, h := b.extractLsb' 5 5, i0 := x.extractLsb' 22 6, i1 := x.extractLsb' 16 6, i2 := x.extractLsb' 10 6, i3 := x.extractLsb' 4 6, sc := x.extractLsb' 1 3 })

/-- Reads CPQO. -/
def parseCpqo (dp : Dep) (b : BitVec 20) (x : BitVec 28) : Option Instr :=
  keep (b.extractLsb' 0 5 == 0#5 && x.extractLsb' 0 1 == 0#1) (.cpqo dp { tq := b.extractLsb' 14 6, xs := b.extractLsb' 10 4, h := b.extractLsb' 5 5, i0 := x.extractLsb' 22 6, i1 := x.extractLsb' 16 6, i2 := x.extractLsb' 10 6, i3 := x.extractLsb' 4 6, sc := x.extractLsb' 1 3 })

/-- Reads CPRAG. -/
def parseCprag (dp : Dep) (b : BitVec 20) (x : BitVec 28) : Option Instr :=
  keep (b.extractLsb' 0 5 == 0#5 && x.extractLsb' 0 1 == 0#1) (.cprag dp { tq := b.extractLsb' 14 6, xs := b.extractLsb' 10 4, h := b.extractLsb' 5 5, i0 := x.extractLsb' 22 6, i1 := x.extractLsb' 16 6, i2 := x.extractLsb' 10 6, i3 := x.extractLsb' 4 6, sc := x.extractLsb' 1 3 })

/-- Reads CPRAG_TR. -/
def parseCpragTr (dp : Dep) (b : BitVec 20) (x : BitVec 28) : Option Instr :=
  keep (b.extractLsb' 0 5 == 0#5 && x.extractLsb' 0 1 == 0#1) (.cpragTr dp { tq := b.extractLsb' 14 6, xs := b.extractLsb' 10 4, h := b.extractLsb' 5 5, i0 := x.extractLsb' 22 6, i1 := x.extractLsb' 16 6, i2 := x.extractLsb' 10 6, i3 := x.extractLsb' 4 6, sc := x.extractLsb' 1 3 })

/-- Reads CPPEER. -/
def parseCppeer (dp : Dep) (b : BitVec 20) (x : BitVec 28) : Option Instr :=
  keep (b.extractLsb' 0 5 == 0#5 && x.extractLsb' 0 1 == 0#1) (.cppeer dp { tq := b.extractLsb' 14 6, xs := b.extractLsb' 10 4, h := b.extractLsb' 5 5, i0 := x.extractLsb' 22 6, i1 := x.extractLsb' 16 6, i2 := x.extractLsb' 10 6, i3 := x.extractLsb' 4 6, sc := x.extractLsb' 1 3 })

/-- Reads CPPEER_FF. -/
def parseCppeerFf (dp : Dep) (b : BitVec 20) (x : BitVec 28) : Option Instr :=
  keep (b.extractLsb' 0 5 == 0#5 && x.extractLsb' 0 1 == 0#1) (.cppeerFf dp { tq := b.extractLsb' 14 6, xs := b.extractLsb' 10 4, h := b.extractLsb' 5 5, i0 := x.extractLsb' 22 6, i1 := x.extractLsb' 16 6, i2 := x.extractLsb' 10 6, i3 := x.extractLsb' 4 6, sc := x.extractLsb' 1 3 })

/-- Reads TSET. -/
def parseTset (dp : Dep) (b : BitVec 20) (x : BitVec 28) : Option Instr :=
  keep (b.extractLsb' 0 2 == 0#2 && x.extractLsb' 3 25 == 0#25) (.tset dp (b.extractLsb' 14 6) (b.extractLsb' 8 6) (b.extractLsb' 2 6) (x.extractLsb' 0 3))

/-- Reads TSET_CLR. -/
def parseTsetClr (dp : Dep) (b : BitVec 20) (x : BitVec 28) : Option Instr :=
  keep (b.extractLsb' 2 12 == 0#12 && b.extractLsb' 0 2 == 1#2 && x.extractLsb' 0 28 == 0#28) (.tsetClr dp (b.extractLsb' 14 6))

/-- Reads TSET_RDY. -/
def parseTsetRdy (dp : Dep) (b : BitVec 20) (x : BitVec 28) : Option Instr :=
  keep (b.extractLsb' 2 12 == 0#12 && b.extractLsb' 0 2 == 2#2 && x.extractLsb' 0 28 == 0#28) (.tsetRdy dp (b.extractLsb' 14 6))

/-- Reads TSTAT. -/
def parseTstat (dp : Dep) (b : BitVec 20) (_x : BitVec 28) : Option Instr :=
  keep (b.extractLsb' 0 8 == 0#8) (.tstat dp (b.extractLsb' 14 6) (b.extractLsb' 8 6))

/-- Reads SQRES. -/
def parseSqres (dp : Dep) (b : BitVec 20) (x : BitVec 28) : Option Instr :=
  keep (b.extractLsb' 10 4 == 0#4 && b.extractLsb' 0 5 == 0#5 && x.extractLsb' 0 22 == 0#22) (.sqres dp (b.extractLsb' 14 6) (b.extractLsb' 5 5) (x.extractLsb' 22 6))

/-- Reads SQCMT. -/
def parseSqcmt (dp : Dep) (b : BitVec 20) (x : BitVec 28) : Option Instr :=
  keep (b.extractLsb' 10 10 == 0#10 && b.extractLsb' 0 5 == 0#5 && x.extractLsb' 10 6 == 0#6 && x.extractLsb' 0 7 == 0#7) (.sqcmt dp (b.extractLsb' 5 5) (x.extractLsb' 22 6) (x.extractLsb' 16 6) (x.extractLsb' 7 3))

/-- Reads SQLEN. -/
def parseSqlen (dp : Dep) (b : BitVec 20) (_x : BitVec 28) : Option Instr :=
  keep (b.extractLsb' 13 1 == 0#1 && b.extractLsb' 2 6 == 0#6) (.sqlen dp (b.extractLsb' 14 6) (b.extractLsb' 8 5) (b.extractLsb' 0 2))

/-- Reads SQFORK. -/
def parseSqfork (dp : Dep) (b : BitVec 20) (x : BitVec 28) : Option Instr :=
  keep (b.extractLsb' 19 1 == 0#1 && b.extractLsb' 10 4 == 0#4 && b.extractLsb' 0 5 == 0#5 && x.extractLsb' 0 16 == 0#16) (.sqfork dp (b.extractLsb' 14 5) (b.extractLsb' 5 5) (x.extractLsb' 22 6) (x.extractLsb' 16 6))

/-- Reads SQPIN. -/
def parseSqpin (dp : Dep) (b : BitVec 20) (x : BitVec 28) : Option Instr :=
  keep (b.extractLsb' 10 10 == 0#10 && b.extractLsb' 0 5 == 0#5 && x.extractLsb' 0 16 == 0#16) (.sqpin dp (b.extractLsb' 5 5) (x.extractLsb' 22 6) (x.extractLsb' 16 6))

/-- Reads SQUNPIN. -/
def parseSqunpin (dp : Dep) (b : BitVec 20) (x : BitVec 28) : Option Instr :=
  keep (b.extractLsb' 10 10 == 0#10 && b.extractLsb' 0 5 == 0#5 && x.extractLsb' 0 16 == 0#16) (.squnpin dp (b.extractLsb' 5 5) (x.extractLsb' 22 6) (x.extractLsb' 16 6))

/-- Reads PXHASH. -/
def parsePxhash (dp : Dep) (b : BitVec 20) (x : BitVec 28) : Option Instr :=
  keep (b.extractLsb' 0 2 == 0#2 && x.extractLsb' 0 16 == 0#16) (.pxhash dp (b.extractLsb' 14 6) (b.extractLsb' 8 6) (b.extractLsb' 2 6) (x.extractLsb' 22 6) (x.extractLsb' 16 6))

/-- Reads PXFIND. -/
def parsePxfind (dp : Dep) (b : BitVec 20) (x : BitVec 28) : Option Instr :=
  keep (b.extractLsb' 0 2 == 0#2 && x.extractLsb' 27 1 == 0#1 && x.extractLsb' 0 22 == 0#22) (.pxfind dp (b.extractLsb' 14 6) (b.extractLsb' 8 6) (b.extractLsb' 2 6) (x.extractLsb' 22 5))

/-- Reads PXINS. -/
def parsePxins (dp : Dep) (b : BitVec 20) (x : BitVec 28) : Option Instr :=
  keep (b.extractLsb' 13 1 == 0#1 && b.extractLsb' 7 1 == 0#1 && b.extractLsb' 0 2 == 0#2 && x.extractLsb' 0 16 == 0#16) (.pxins dp (b.extractLsb' 14 6) (b.extractLsb' 8 5) (b.extractLsb' 2 5) (x.extractLsb' 22 6) (x.extractLsb' 16 6))

/-- Reads PXDEL. -/
def parsePxdel (dp : Dep) (b : BitVec 20) (x : BitVec 28) : Option Instr :=
  keep (b.extractLsb' 0 2 == 0#2 && x.extractLsb' 0 28 == 0#28) (.pxdel dp (b.extractLsb' 14 6) (b.extractLsb' 8 6) (b.extractLsb' 2 6))

/-- Reads CBFILL_F32. -/
def parseCbfillF32 (dp : Dep) (b : BitVec 20) (x : BitVec 28) : Option Instr :=
  keep (b.extractLsb' 0 5 == 0#5 && x.extractLsb' 0 1 == 0#1) (.cbfillF32 dp { tq := b.extractLsb' 14 6, xs := b.extractLsb' 10 4, h := b.extractLsb' 5 5, i0 := x.extractLsb' 22 6, i1 := x.extractLsb' 16 6, i2 := x.extractLsb' 10 6, i3 := x.extractLsb' 4 6, sc := x.extractLsb' 1 3 })

/-- Reads CBFILL_BF16. -/
def parseCbfillBf16 (dp : Dep) (b : BitVec 20) (x : BitVec 28) : Option Instr :=
  keep (b.extractLsb' 0 5 == 0#5 && x.extractLsb' 0 1 == 0#1) (.cbfillBf16 dp { tq := b.extractLsb' 14 6, xs := b.extractLsb' 10 4, h := b.extractLsb' 5 5, i0 := x.extractLsb' 22 6, i1 := x.extractLsb' 16 6, i2 := x.extractLsb' 10 6, i3 := x.extractLsb' 4 6, sc := x.extractLsb' 1 3 })

/-- Reads CBFILL_F16. -/
def parseCbfillF16 (dp : Dep) (b : BitVec 20) (x : BitVec 28) : Option Instr :=
  keep (b.extractLsb' 0 5 == 0#5 && x.extractLsb' 0 1 == 0#1) (.cbfillF16 dp { tq := b.extractLsb' 14 6, xs := b.extractLsb' 10 4, h := b.extractLsb' 5 5, i0 := x.extractLsb' 22 6, i1 := x.extractLsb' 16 6, i2 := x.extractLsb' 10 6, i3 := x.extractLsb' 4 6, sc := x.extractLsb' 1 3 })

/-- Reads CBFILL_E4M3. -/
def parseCbfillE4m3 (dp : Dep) (b : BitVec 20) (x : BitVec 28) : Option Instr :=
  keep (b.extractLsb' 0 5 == 0#5 && x.extractLsb' 0 1 == 0#1) (.cbfillE4m3 dp { tq := b.extractLsb' 14 6, xs := b.extractLsb' 10 4, h := b.extractLsb' 5 5, i0 := x.extractLsb' 22 6, i1 := x.extractLsb' 16 6, i2 := x.extractLsb' 10 6, i3 := x.extractLsb' 4 6, sc := x.extractLsb' 1 3 })

/-- Reads CBFILL_E5M2. -/
def parseCbfillE5m2 (dp : Dep) (b : BitVec 20) (x : BitVec 28) : Option Instr :=
  keep (b.extractLsb' 0 5 == 0#5 && x.extractLsb' 0 1 == 0#1) (.cbfillE5m2 dp { tq := b.extractLsb' 14 6, xs := b.extractLsb' 10 4, h := b.extractLsb' 5 5, i0 := x.extractLsb' 22 6, i1 := x.extractLsb' 16 6, i2 := x.extractLsb' 10 6, i3 := x.extractLsb' 4 6, sc := x.extractLsb' 1 3 })

/-- Reads CBSET_F32. -/
def parseCbsetF32 (dp : Dep) (b : BitVec 20) (_x : BitVec 28) : Option Instr :=
  keep (b.extractLsb' 17 3 == 0#3 && b.extractLsb' 0 2 == 0#2) (.cbsetF32 dp (b.extractLsb' 14 3) (b.extractLsb' 8 6) (b.extractLsb' 2 6))

/-- Reads CBSET_BF16. -/
def parseCbsetBf16 (dp : Dep) (b : BitVec 20) (_x : BitVec 28) : Option Instr :=
  keep (b.extractLsb' 17 3 == 0#3 && b.extractLsb' 0 2 == 0#2) (.cbsetBf16 dp (b.extractLsb' 14 3) (b.extractLsb' 8 6) (b.extractLsb' 2 6))

/-- Reads CBSET_F16. -/
def parseCbsetF16 (dp : Dep) (b : BitVec 20) (_x : BitVec 28) : Option Instr :=
  keep (b.extractLsb' 17 3 == 0#3 && b.extractLsb' 0 2 == 0#2) (.cbsetF16 dp (b.extractLsb' 14 3) (b.extractLsb' 8 6) (b.extractLsb' 2 6))

/-- Reads CBSET_E4M3. -/
def parseCbsetE4m3 (dp : Dep) (b : BitVec 20) (_x : BitVec 28) : Option Instr :=
  keep (b.extractLsb' 17 3 == 0#3 && b.extractLsb' 0 2 == 0#2) (.cbsetE4m3 dp (b.extractLsb' 14 3) (b.extractLsb' 8 6) (b.extractLsb' 2 6))

/-- Reads CBSET_E5M2. -/
def parseCbsetE5m2 (dp : Dep) (b : BitVec 20) (_x : BitVec 28) : Option Instr :=
  keep (b.extractLsb' 17 3 == 0#3 && b.extractLsb' 0 2 == 0#2) (.cbsetE5m2 dp (b.extractLsb' 14 3) (b.extractLsb' 8 6) (b.extractLsb' 2 6))

/-- Reads CBINV. -/
def parseCbinv (dp : Dep) (b : BitVec 20) (_x : BitVec 28) : Option Instr :=
  keep (b.extractLsb' 17 3 == 0#3 && b.extractLsb' 0 14 == 0#14) (.cbinv dp (b.extractLsb' 14 3))

/-- Reads BKX. -/
def parseBkx (dp : Dep) (b : BitVec 20) (x : BitVec 28) : Option Instr :=
  keep (b.extractLsb' 10 4 == 0#4 && b.extractLsb' 5 5 == 0#5 && b.extractLsb' 4 1 == 0#1 && x.extractLsb' 0 16 == 0#16) (.bkx dp (b.extractLsb' 14 6) (b.extractLsb' 0 4) (x.extractLsb' 22 6) (x.extractLsb' 16 6))

/-- Reads BKX_HANDLE. -/
def parseBkxHandle (dp : Dep) (b : BitVec 20) (x : BitVec 28) : Option Instr :=
  keep (b.extractLsb' 10 10 == 0#10 && b.extractLsb' 4 1 == 1#1 && x.extractLsb' 10 6 == 0#6 && x.extractLsb' 0 7 == 0#7) (.bkxHandle dp (b.extractLsb' 5 5) (b.extractLsb' 0 4) (x.extractLsb' 22 6) (x.extractLsb' 16 6) (x.extractLsb' 7 3))

/-- Reads AADD. -/
def parseAadd (dp : Dep) (b : BitVec 20) (x : BitVec 28) : Option Instr :=
  keep (b.extractLsb' 10 4 == 0#4 && b.extractLsb' 0 5 == 0#5 && x.extractLsb' 10 6 == 0#6 && x.extractLsb' 0 4 == 0#4) (.aadd dp { d := b.extractLsb' 14 6, h := b.extractLsb' 5 5, i0 := x.extractLsb' 22 6, i1 := x.extractLsb' 16 6, sc := x.extractLsb' 7 3, ord := x.extractLsb' 4 3 })

/-- Reads AMIN. -/
def parseAmin (dp : Dep) (b : BitVec 20) (x : BitVec 28) : Option Instr :=
  keep (b.extractLsb' 10 4 == 0#4 && b.extractLsb' 0 5 == 0#5 && x.extractLsb' 10 6 == 0#6 && x.extractLsb' 0 4 == 0#4) (.amin dp { d := b.extractLsb' 14 6, h := b.extractLsb' 5 5, i0 := x.extractLsb' 22 6, i1 := x.extractLsb' 16 6, sc := x.extractLsb' 7 3, ord := x.extractLsb' 4 3 })

/-- Reads AMAX. -/
def parseAmax (dp : Dep) (b : BitVec 20) (x : BitVec 28) : Option Instr :=
  keep (b.extractLsb' 10 4 == 0#4 && b.extractLsb' 0 5 == 0#5 && x.extractLsb' 10 6 == 0#6 && x.extractLsb' 0 4 == 0#4) (.amax dp { d := b.extractLsb' 14 6, h := b.extractLsb' 5 5, i0 := x.extractLsb' 22 6, i1 := x.extractLsb' 16 6, sc := x.extractLsb' 7 3, ord := x.extractLsb' 4 3 })

/-- Reads AXCH. -/
def parseAxch (dp : Dep) (b : BitVec 20) (x : BitVec 28) : Option Instr :=
  keep (b.extractLsb' 10 4 == 0#4 && b.extractLsb' 0 5 == 0#5 && x.extractLsb' 10 6 == 0#6 && x.extractLsb' 0 4 == 0#4) (.axch dp { d := b.extractLsb' 14 6, h := b.extractLsb' 5 5, i0 := x.extractLsb' 22 6, i1 := x.extractLsb' 16 6, sc := x.extractLsb' 7 3, ord := x.extractLsb' 4 3 })

/-- Reads ACAS. -/
def parseAcas (dp : Dep) (b : BitVec 20) (x : BitVec 28) : Option Instr :=
  keep (b.extractLsb' 10 4 == 0#4 && b.extractLsb' 0 5 == 0#5 && x.extractLsb' 0 1 == 0#1) (.acas dp { d := b.extractLsb' 14 6, h := b.extractLsb' 5 5, i0 := x.extractLsb' 22 6, i1 := x.extractLsb' 16 6, sc := x.extractLsb' 7 3, ord := x.extractLsb' 4 3 } (x.extractLsb' 10 6) (x.extractLsb' 1 3))

/-- Reads RADD. -/
def parseRadd (dp : Dep) (b : BitVec 20) (x : BitVec 28) : Option Instr :=
  keep (b.extractLsb' 0 5 == 0#5 && x.extractLsb' 0 1 == 0#1) (.radd dp { tq := b.extractLsb' 14 6, xs := b.extractLsb' 10 4, h := b.extractLsb' 5 5, i0 := x.extractLsb' 22 6, i1 := x.extractLsb' 16 6, i2 := x.extractLsb' 10 6, i3 := x.extractLsb' 4 6, sc := x.extractLsb' 1 3 })

/-- Reads RADD_FF. -/
def parseRaddFf (dp : Dep) (b : BitVec 20) (x : BitVec 28) : Option Instr :=
  keep (b.extractLsb' 0 5 == 0#5 && x.extractLsb' 0 1 == 0#1) (.raddFf dp { tq := b.extractLsb' 14 6, xs := b.extractLsb' 10 4, h := b.extractLsb' 5 5, i0 := x.extractLsb' 22 6, i1 := x.extractLsb' 16 6, i2 := x.extractLsb' 10 6, i3 := x.extractLsb' 4 6, sc := x.extractLsb' 1 3 })

/-- Reads KVPUT. -/
def parseKvput (dp : Dep) (b : BitVec 20) (x : BitVec 28) : Option Instr :=
  keep (b.extractLsb' 10 4 == 0#4 && b.extractLsb' 4 1 == 0#1 && x.extractLsb' 0 4 == 0#4) (.kvput dp { t := b.extractLsb' 14 6, h := b.extractLsb' 5 5, klen := b.extractLsb' 0 4, i0 := x.extractLsb' 22 6, i1 := x.extractLsb' 16 6, i2 := x.extractLsb' 10 6, st := x.extractLsb' 4 6 })

/-- Reads KVGET. -/
def parseKvget (dp : Dep) (b : BitVec 20) (x : BitVec 28) : Option Instr :=
  keep (b.extractLsb' 10 4 == 0#4 && b.extractLsb' 4 1 == 0#1 && x.extractLsb' 0 4 == 0#4) (.kvget dp { t := b.extractLsb' 14 6, h := b.extractLsb' 5 5, klen := b.extractLsb' 0 4, i0 := x.extractLsb' 22 6, i1 := x.extractLsb' 16 6, i2 := x.extractLsb' 10 6, st := x.extractLsb' 4 6 })

/-- Reads KVDEL. -/
def parseKvdel (dp : Dep) (b : BitVec 20) (x : BitVec 28) : Option Instr :=
  keep (b.extractLsb' 10 4 == 0#4 && b.extractLsb' 4 1 == 0#1 && x.extractLsb' 0 4 == 0#4) (.kvdel dp { t := b.extractLsb' 14 6, h := b.extractLsb' 5 5, klen := b.extractLsb' 0 4, i0 := x.extractLsb' 22 6, i1 := x.extractLsb' 16 6, i2 := x.extractLsb' 10 6, st := x.extractLsb' 4 6 })

/-- Reads KVEXIST. -/
def parseKvexist (dp : Dep) (b : BitVec 20) (x : BitVec 28) : Option Instr :=
  keep (b.extractLsb' 10 4 == 0#4 && b.extractLsb' 4 1 == 0#1 && x.extractLsb' 0 4 == 0#4) (.kvexist dp { t := b.extractLsb' 14 6, h := b.extractLsb' 5 5, klen := b.extractLsb' 0 4, i0 := x.extractLsb' 22 6, i1 := x.extractLsb' 16 6, i2 := x.extractLsb' 10 6, st := x.extractLsb' 4 6 })

/-- Reads KVLIST. -/
def parseKvlist (dp : Dep) (b : BitVec 20) (x : BitVec 28) : Option Instr :=
  keep (b.extractLsb' 10 4 == 0#4 && b.extractLsb' 4 1 == 0#1 && x.extractLsb' 0 4 == 0#4) (.kvlist dp { t := b.extractLsb' 14 6, h := b.extractLsb' 5 5, klen := b.extractLsb' 0 4, i0 := x.extractLsb' 22 6, i1 := x.extractLsb' 16 6, i2 := x.extractLsb' 10 6, st := x.extractLsb' 4 6 })

/-- Reads PROMO. -/
def parsePromo (dp : Dep) (b : BitVec 20) (x : BitVec 28) : Option Instr :=
  keep (b.extractLsb' 14 6 == 0#6 && b.extractLsb' 3 2 == 0#2 && x.extractLsb' 0 1 == 0#1) (.promo dp { tq := 0#6, xs := b.extractLsb' 10 4, h := b.extractLsb' 5 5, i0 := x.extractLsb' 22 6, i1 := x.extractLsb' 16 6, i2 := x.extractLsb' 10 6, i3 := x.extractLsb' 4 6, sc := x.extractLsb' 1 3 } (b.extractLsb' 0 3))

/-- Reads DEMO. -/
def parseDemo (dp : Dep) (b : BitVec 20) (x : BitVec 28) : Option Instr :=
  keep (b.extractLsb' 14 6 == 0#6 && b.extractLsb' 3 2 == 0#2 && x.extractLsb' 0 1 == 0#1) (.demo dp { tq := 0#6, xs := b.extractLsb' 10 4, h := b.extractLsb' 5 5, i0 := x.extractLsb' 22 6, i1 := x.extractLsb' 16 6, i2 := x.extractLsb' 10 6, i3 := x.extractLsb' 4 6, sc := x.extractLsb' 1 3 } (b.extractLsb' 0 3))

/-- Reads HSET. -/
def parseHset (dp : Dep) (b : BitVec 20) (_x : BitVec 28) : Option Instr :=
  keep (b.extractLsb' 19 1 == 0#1 && b.extractLsb' 0 8 == 0#8) (.hset dp (b.extractLsb' 14 5) (b.extractLsb' 8 6))

/-- Reads HSET_IMPORT. -/
def parseHsetImport (dp : Dep) (b : BitVec 20) (_x : BitVec 28) : Option Instr :=
  keep (b.extractLsb' 19 1 == 0#1 && b.extractLsb' 8 6 == 0#6 && b.extractLsb' 0 2 == 1#2) (.hsetImport dp (b.extractLsb' 14 5) (b.extractLsb' 2 6))

/-- Reads HGET. -/
def parseHget (dp : Dep) (b : BitVec 20) (_x : BitVec 28) : Option Instr :=
  keep (b.extractLsb' 13 1 == 0#1 && b.extractLsb' 2 6 == 0#6) (.hget dp (b.extractLsb' 14 6) (b.extractLsb' 8 5) (b.extractLsb' 0 2))

/-- Reads HPROBE. -/
def parseHprobe (dp : Dep) (b : BitVec 20) (x : BitVec 28) : Option Instr :=
  keep (b.extractLsb' 10 4 == 0#4 && b.extractLsb' 0 5 == 0#5 && x.extractLsb' 0 4 == 0#4) (.hprobe dp (b.extractLsb' 14 6) (b.extractLsb' 5 5) (x.extractLsb' 22 6) (x.extractLsb' 16 6) (x.extractLsb' 10 6) (x.extractLsb' 4 6))

/-- Reads LOOP_L. -/
def parseLoopL (dp : Dep) (b : BitVec 20) (_x : BitVec 28) : Option Instr :=
  keep (true) (.loopL dp (b.extractLsb' 14 6) (b.extractLsb' 0 14))

/-- Reads MMA. -/
def parseMma (dp : Dep) (b : BitVec 20) (x : BitVec 28) : Option Instr :=
  keep (b.extractLsb' 0 2 == 0#2 && x.extractLsb' 0 10 == 0#10) (.mma dp { acc := b.extractLsb' 16 4, xa := b.extractLsb' 12 4, xb := b.extractLsb' 8 4, na := b.getLsbD 7, nb := b.getLsbD 6, ad := b.getLsbD 5, ca := b.getLsbD 4, cb := b.getLsbD 3, sc := b.getLsbD 2, ta := x.extractLsb' 22 6, tb := x.extractLsb' 16 6, kba := x.extractLsb' 13 3, kbb := x.extractLsb' 10 3 })

/-- Reads MNCFG. -/
def parseMncfg (dp : Dep) (b : BitVec 20) (x : BitVec 28) : Option Instr :=
  keep (b.extractLsb' 17 3 == 0#3 && b.extractLsb' 0 2 == 0#2) (.mncfg dp (b.extractLsb' 14 3) (b.extractLsb' 8 6) (b.extractLsb' 2 6) (x.extractLsb' 0 28))

/-- Reads MNEST. -/
def parseMnest (dp : Dep) (b : BitVec 20) (_x : BitVec 28) : Option Instr :=
  keep (b.extractLsb' 0 20 == 0#20) (.mnest dp )

/-- Reads ACOOP. -/
def parseAcoop (dp : Dep) (b : BitVec 20) (x : BitVec 28) : Option Instr :=
  keep (b.extractLsb' 0 20 == 0#20 && x.extractLsb' 6 22 == 0#22 && x.extractLsb' 3 1 == 0#1) (.acoop dp (x.extractLsb' 4 2) (x.extractLsb' 0 3))

/-- Reads ACOOP_END. -/
def parseAcoopEnd (dp : Dep) (b : BitVec 20) (x : BitVec 28) : Option Instr :=
  keep (b.extractLsb' 0 20 == 1#20 && x.extractLsb' 0 28 == 0#28) (.acoopEnd dp )

/-- Reads AZERO. -/
def parseAzero (dp : Dep) (b : BitVec 20) (_x : BitVec 28) : Option Instr :=
  keep (b.extractLsb' 18 2 == 0#2 && b.extractLsb' 12 2 == 0#2 && b.extractLsb' 2 6 == 0#6 && b.extractLsb' 1 1 == 0#1) (.azero dp (b.extractLsb' 14 4) (b.extractLsb' 8 4) (b.getLsbD 0))

/-- Reads ALOAD_F32. -/
def parseAloadF32 (dp : Dep) (b : BitVec 20) (x : BitVec 28) : Option Instr :=
  keep (b.extractLsb' 18 2 == 0#2 && b.extractLsb' 2 6 == 0#6 && b.extractLsb' 1 1 == 0#1 && x.extractLsb' 0 28 == 0#28) (.aloadF32 dp (b.extractLsb' 14 4) (b.extractLsb' 8 6) (b.getLsbD 0))

/-- Reads ALOAD_I32. -/
def parseAloadI32 (dp : Dep) (b : BitVec 20) (x : BitVec 28) : Option Instr :=
  keep (b.extractLsb' 18 2 == 0#2 && b.extractLsb' 2 6 == 0#6 && b.extractLsb' 1 1 == 0#1 && x.extractLsb' 0 28 == 0#28) (.aloadI32 dp (b.extractLsb' 14 4) (b.extractLsb' 8 6) (b.getLsbD 0))

/-- Reads ASTAT. -/
def parseAstat (dp : Dep) (b : BitVec 20) (_x : BitVec 28) : Option Instr :=
  keep (b.extractLsb' 12 2 == 0#2 && b.extractLsb' 0 8 == 0#8) (.astat dp (b.extractLsb' 14 6) (b.extractLsb' 8 4))

/-- Reads LOOP_M. -/
def parseLoopM (dp : Dep) (b : BitVec 20) (_x : BitVec 28) : Option Instr :=
  keep (true) (.loopM dp (b.extractLsb' 14 6) (b.extractLsb' 0 14))

/-- Reads ADRAIN_F32. -/
def parseAdrainF32 (dp : Dep) (b : BitVec 20) (x : BitVec 28) : Option Instr :=
  keep (b.extractLsb' 12 2 == 0#2 && x.extractLsb' 0 20 == 0#20) (.adrainF32 dp { d := b.extractLsb' 14 6, a := b.extractLsb' 8 4, b := b.extractLsb' 2 6, trn := b.getLsbD 1, az := b.getLsbD 0, rnd := x.extractLsb' 25 3, ovf := x.extractLsb' 23 2, scf := x.extractLsb' 21 2, scb := x.getLsbD 20 })

/-- Reads ADRAIN_F16. -/
def parseAdrainF16 (dp : Dep) (b : BitVec 20) (x : BitVec 28) : Option Instr :=
  keep (b.extractLsb' 12 2 == 0#2 && x.extractLsb' 0 20 == 0#20) (.adrainF16 dp { d := b.extractLsb' 14 6, a := b.extractLsb' 8 4, b := b.extractLsb' 2 6, trn := b.getLsbD 1, az := b.getLsbD 0, rnd := x.extractLsb' 25 3, ovf := x.extractLsb' 23 2, scf := x.extractLsb' 21 2, scb := x.getLsbD 20 })

/-- Reads ADRAIN_BF16. -/
def parseAdrainBf16 (dp : Dep) (b : BitVec 20) (x : BitVec 28) : Option Instr :=
  keep (b.extractLsb' 12 2 == 0#2 && x.extractLsb' 0 20 == 0#20) (.adrainBf16 dp { d := b.extractLsb' 14 6, a := b.extractLsb' 8 4, b := b.extractLsb' 2 6, trn := b.getLsbD 1, az := b.getLsbD 0, rnd := x.extractLsb' 25 3, ovf := x.extractLsb' 23 2, scf := x.extractLsb' 21 2, scb := x.getLsbD 20 })

/-- Reads ADRAIN_E4M3. -/
def parseAdrainE4m3 (dp : Dep) (b : BitVec 20) (x : BitVec 28) : Option Instr :=
  keep (b.extractLsb' 12 2 == 0#2 && x.extractLsb' 0 20 == 0#20) (.adrainE4m3 dp { d := b.extractLsb' 14 6, a := b.extractLsb' 8 4, b := b.extractLsb' 2 6, trn := b.getLsbD 1, az := b.getLsbD 0, rnd := x.extractLsb' 25 3, ovf := x.extractLsb' 23 2, scf := x.extractLsb' 21 2, scb := x.getLsbD 20 })

/-- Reads ADRAIN_E5M2. -/
def parseAdrainE5m2 (dp : Dep) (b : BitVec 20) (x : BitVec 28) : Option Instr :=
  keep (b.extractLsb' 12 2 == 0#2 && x.extractLsb' 0 20 == 0#20) (.adrainE5m2 dp { d := b.extractLsb' 14 6, a := b.extractLsb' 8 4, b := b.extractLsb' 2 6, trn := b.getLsbD 1, az := b.getLsbD 0, rnd := x.extractLsb' 25 3, ovf := x.extractLsb' 23 2, scf := x.extractLsb' 21 2, scb := x.getLsbD 20 })

/-- Reads ADRAIN_E2M3. -/
def parseAdrainE2m3 (dp : Dep) (b : BitVec 20) (x : BitVec 28) : Option Instr :=
  keep (b.extractLsb' 12 2 == 0#2 && x.extractLsb' 0 20 == 0#20) (.adrainE2m3 dp { d := b.extractLsb' 14 6, a := b.extractLsb' 8 4, b := b.extractLsb' 2 6, trn := b.getLsbD 1, az := b.getLsbD 0, rnd := x.extractLsb' 25 3, ovf := x.extractLsb' 23 2, scf := x.extractLsb' 21 2, scb := x.getLsbD 20 })

/-- Reads ADRAIN_E3M2. -/
def parseAdrainE3m2 (dp : Dep) (b : BitVec 20) (x : BitVec 28) : Option Instr :=
  keep (b.extractLsb' 12 2 == 0#2 && x.extractLsb' 0 20 == 0#20) (.adrainE3m2 dp { d := b.extractLsb' 14 6, a := b.extractLsb' 8 4, b := b.extractLsb' 2 6, trn := b.getLsbD 1, az := b.getLsbD 0, rnd := x.extractLsb' 25 3, ovf := x.extractLsb' 23 2, scf := x.extractLsb' 21 2, scb := x.getLsbD 20 })

/-- Reads ADRAIN_E2M1. -/
def parseAdrainE2m1 (dp : Dep) (b : BitVec 20) (x : BitVec 28) : Option Instr :=
  keep (b.extractLsb' 12 2 == 0#2 && x.extractLsb' 0 20 == 0#20) (.adrainE2m1 dp { d := b.extractLsb' 14 6, a := b.extractLsb' 8 4, b := b.extractLsb' 2 6, trn := b.getLsbD 1, az := b.getLsbD 0, rnd := x.extractLsb' 25 3, ovf := x.extractLsb' 23 2, scf := x.extractLsb' 21 2, scb := x.getLsbD 20 })

/-- Reads ADRAIN_I32. -/
def parseAdrainI32 (dp : Dep) (b : BitVec 20) (x : BitVec 28) : Option Instr :=
  keep (b.extractLsb' 12 2 == 0#2 && x.extractLsb' 0 20 == 0#20) (.adrainI32 dp { d := b.extractLsb' 14 6, a := b.extractLsb' 8 4, b := b.extractLsb' 2 6, trn := b.getLsbD 1, az := b.getLsbD 0, rnd := x.extractLsb' 25 3, ovf := x.extractLsb' 23 2, scf := x.extractLsb' 21 2, scb := x.getLsbD 20 })

/-- Reads ADRAIN_I8. -/
def parseAdrainI8 (dp : Dep) (b : BitVec 20) (x : BitVec 28) : Option Instr :=
  keep (b.extractLsb' 12 2 == 0#2 && x.extractLsb' 0 20 == 0#20) (.adrainI8 dp { d := b.extractLsb' 14 6, a := b.extractLsb' 8 4, b := b.extractLsb' 2 6, trn := b.getLsbD 1, az := b.getLsbD 0, rnd := x.extractLsb' 25 3, ovf := x.extractLsb' 23 2, scf := x.extractLsb' 21 2, scb := x.getLsbD 20 })

/-- Reads ADRAIN_I4. -/
def parseAdrainI4 (dp : Dep) (b : BitVec 20) (x : BitVec 28) : Option Instr :=
  keep (b.extractLsb' 12 2 == 0#2 && x.extractLsb' 0 20 == 0#20) (.adrainI4 dp { d := b.extractLsb' 14 6, a := b.extractLsb' 8 4, b := b.extractLsb' 2 6, trn := b.getLsbD 1, az := b.getLsbD 0, rnd := x.extractLsb' 25 3, ovf := x.extractLsb' 23 2, scf := x.extractLsb' 21 2, scb := x.getLsbD 20 })

/-- Reads ADRQ_F32. -/
def parseAdrqF32 (dp : Dep) (b : BitVec 20) (x : BitVec 28) : Option Instr :=
  keep (b.extractLsb' 19 1 == 0#1 && b.extractLsb' 12 2 == 0#2 && x.extractLsb' 0 22 == 0#22) (.adrqF32 dp { d := b.extractLsb' 14 5, a := b.extractLsb' 8 4, b := b.extractLsb' 2 6, n := b.extractLsb' 0 2, rnd := x.extractLsb' 25 3, ovf := x.extractLsb' 23 2, trn := x.getLsbD 22 })

/-- Reads ADRQ_F16. -/
def parseAdrqF16 (dp : Dep) (b : BitVec 20) (x : BitVec 28) : Option Instr :=
  keep (b.extractLsb' 19 1 == 0#1 && b.extractLsb' 12 2 == 0#2 && x.extractLsb' 0 22 == 0#22) (.adrqF16 dp { d := b.extractLsb' 14 5, a := b.extractLsb' 8 4, b := b.extractLsb' 2 6, n := b.extractLsb' 0 2, rnd := x.extractLsb' 25 3, ovf := x.extractLsb' 23 2, trn := x.getLsbD 22 })

/-- Reads ADRQ_BF16. -/
def parseAdrqBf16 (dp : Dep) (b : BitVec 20) (x : BitVec 28) : Option Instr :=
  keep (b.extractLsb' 19 1 == 0#1 && b.extractLsb' 12 2 == 0#2 && x.extractLsb' 0 22 == 0#22) (.adrqBf16 dp { d := b.extractLsb' 14 5, a := b.extractLsb' 8 4, b := b.extractLsb' 2 6, n := b.extractLsb' 0 2, rnd := x.extractLsb' 25 3, ovf := x.extractLsb' 23 2, trn := x.getLsbD 22 })

/-- Reads ADRQ_E4M3. -/
def parseAdrqE4m3 (dp : Dep) (b : BitVec 20) (x : BitVec 28) : Option Instr :=
  keep (b.extractLsb' 19 1 == 0#1 && b.extractLsb' 12 2 == 0#2 && x.extractLsb' 0 22 == 0#22) (.adrqE4m3 dp { d := b.extractLsb' 14 5, a := b.extractLsb' 8 4, b := b.extractLsb' 2 6, n := b.extractLsb' 0 2, rnd := x.extractLsb' 25 3, ovf := x.extractLsb' 23 2, trn := x.getLsbD 22 })

/-- Reads ADRQ_E5M2. -/
def parseAdrqE5m2 (dp : Dep) (b : BitVec 20) (x : BitVec 28) : Option Instr :=
  keep (b.extractLsb' 19 1 == 0#1 && b.extractLsb' 12 2 == 0#2 && x.extractLsb' 0 22 == 0#22) (.adrqE5m2 dp { d := b.extractLsb' 14 5, a := b.extractLsb' 8 4, b := b.extractLsb' 2 6, n := b.extractLsb' 0 2, rnd := x.extractLsb' 25 3, ovf := x.extractLsb' 23 2, trn := x.getLsbD 22 })

/-- Reads ADRQ_I32. -/
def parseAdrqI32 (dp : Dep) (b : BitVec 20) (x : BitVec 28) : Option Instr :=
  keep (b.extractLsb' 19 1 == 0#1 && b.extractLsb' 12 2 == 0#2 && x.extractLsb' 0 22 == 0#22) (.adrqI32 dp { d := b.extractLsb' 14 5, a := b.extractLsb' 8 4, b := b.extractLsb' 2 6, n := b.extractLsb' 0 2, rnd := x.extractLsb' 25 3, ovf := x.extractLsb' 23 2, trn := x.getLsbD 22 })

/-- Reads ADRQ_I8. -/
def parseAdrqI8 (dp : Dep) (b : BitVec 20) (x : BitVec 28) : Option Instr :=
  keep (b.extractLsb' 19 1 == 0#1 && b.extractLsb' 12 2 == 0#2 && x.extractLsb' 0 22 == 0#22) (.adrqI8 dp { d := b.extractLsb' 14 5, a := b.extractLsb' 8 4, b := b.extractLsb' 2 6, n := b.extractLsb' 0 2, rnd := x.extractLsb' 25 3, ovf := x.extractLsb' 23 2, trn := x.getLsbD 22 })

/-- Reads VADD_F32. -/
def parseVaddF32 (dp : Dep) (b : BitVec 20) (x : BitVec 28) : Option Instr :=
  keep (x.extractLsb' 0 25 == 0#25) (.vaddF32 dp { d := b.extractLsb' 15 5, a := b.extractLsb' 10 5, b := b.extractLsb' 5 5, ka := b.getLsbD 4, kb := b.getLsbD 3, t := b.extractLsb' 0 3 } (x.extractLsb' 25 3))

/-- Reads VADD_F16. -/
def parseVaddF16 (dp : Dep) (b : BitVec 20) (x : BitVec 28) : Option Instr :=
  keep (x.extractLsb' 0 25 == 0#25) (.vaddF16 dp { d := b.extractLsb' 15 5, a := b.extractLsb' 10 5, b := b.extractLsb' 5 5, ka := b.getLsbD 4, kb := b.getLsbD 3, t := b.extractLsb' 0 3 } (x.extractLsb' 25 3))

/-- Reads VADD_BF16. -/
def parseVaddBf16 (dp : Dep) (b : BitVec 20) (x : BitVec 28) : Option Instr :=
  keep (x.extractLsb' 0 25 == 0#25) (.vaddBf16 dp { d := b.extractLsb' 15 5, a := b.extractLsb' 10 5, b := b.extractLsb' 5 5, ka := b.getLsbD 4, kb := b.getLsbD 3, t := b.extractLsb' 0 3 } (x.extractLsb' 25 3))

/-- Reads VSUB_F32. -/
def parseVsubF32 (dp : Dep) (b : BitVec 20) (x : BitVec 28) : Option Instr :=
  keep (x.extractLsb' 0 25 == 0#25) (.vsubF32 dp { d := b.extractLsb' 15 5, a := b.extractLsb' 10 5, b := b.extractLsb' 5 5, ka := b.getLsbD 4, kb := b.getLsbD 3, t := b.extractLsb' 0 3 } (x.extractLsb' 25 3))

/-- Reads VSUB_F16. -/
def parseVsubF16 (dp : Dep) (b : BitVec 20) (x : BitVec 28) : Option Instr :=
  keep (x.extractLsb' 0 25 == 0#25) (.vsubF16 dp { d := b.extractLsb' 15 5, a := b.extractLsb' 10 5, b := b.extractLsb' 5 5, ka := b.getLsbD 4, kb := b.getLsbD 3, t := b.extractLsb' 0 3 } (x.extractLsb' 25 3))

/-- Reads VSUB_BF16. -/
def parseVsubBf16 (dp : Dep) (b : BitVec 20) (x : BitVec 28) : Option Instr :=
  keep (x.extractLsb' 0 25 == 0#25) (.vsubBf16 dp { d := b.extractLsb' 15 5, a := b.extractLsb' 10 5, b := b.extractLsb' 5 5, ka := b.getLsbD 4, kb := b.getLsbD 3, t := b.extractLsb' 0 3 } (x.extractLsb' 25 3))

/-- Reads VMUL_F32. -/
def parseVmulF32 (dp : Dep) (b : BitVec 20) (x : BitVec 28) : Option Instr :=
  keep (x.extractLsb' 0 25 == 0#25) (.vmulF32 dp { d := b.extractLsb' 15 5, a := b.extractLsb' 10 5, b := b.extractLsb' 5 5, ka := b.getLsbD 4, kb := b.getLsbD 3, t := b.extractLsb' 0 3 } (x.extractLsb' 25 3))

/-- Reads VMUL_F16. -/
def parseVmulF16 (dp : Dep) (b : BitVec 20) (x : BitVec 28) : Option Instr :=
  keep (x.extractLsb' 0 25 == 0#25) (.vmulF16 dp { d := b.extractLsb' 15 5, a := b.extractLsb' 10 5, b := b.extractLsb' 5 5, ka := b.getLsbD 4, kb := b.getLsbD 3, t := b.extractLsb' 0 3 } (x.extractLsb' 25 3))

/-- Reads VMUL_BF16. -/
def parseVmulBf16 (dp : Dep) (b : BitVec 20) (x : BitVec 28) : Option Instr :=
  keep (x.extractLsb' 0 25 == 0#25) (.vmulBf16 dp { d := b.extractLsb' 15 5, a := b.extractLsb' 10 5, b := b.extractLsb' 5 5, ka := b.getLsbD 4, kb := b.getLsbD 3, t := b.extractLsb' 0 3 } (x.extractLsb' 25 3))

/-- Reads VFMA_F32. -/
def parseVfmaF32 (dp : Dep) (b : BitVec 20) (x : BitVec 28) : Option Instr :=
  keep (x.extractLsb' 0 17 == 0#17) (.vfmaF32 dp { d := b.extractLsb' 15 5, a := b.extractLsb' 10 5, b := b.extractLsb' 5 5, ka := b.getLsbD 4, kb := b.getLsbD 3, t := b.extractLsb' 0 3 } { rnd := x.extractLsb' 25 3, ovf := x.extractLsb' 23 2, c := x.extractLsb' 18 5, kc := x.getLsbD 17 })

/-- Reads VFMA_F16. -/
def parseVfmaF16 (dp : Dep) (b : BitVec 20) (x : BitVec 28) : Option Instr :=
  keep (x.extractLsb' 0 17 == 0#17) (.vfmaF16 dp { d := b.extractLsb' 15 5, a := b.extractLsb' 10 5, b := b.extractLsb' 5 5, ka := b.getLsbD 4, kb := b.getLsbD 3, t := b.extractLsb' 0 3 } { rnd := x.extractLsb' 25 3, ovf := x.extractLsb' 23 2, c := x.extractLsb' 18 5, kc := x.getLsbD 17 })

/-- Reads VFMA_BF16. -/
def parseVfmaBf16 (dp : Dep) (b : BitVec 20) (x : BitVec 28) : Option Instr :=
  keep (x.extractLsb' 0 17 == 0#17) (.vfmaBf16 dp { d := b.extractLsb' 15 5, a := b.extractLsb' 10 5, b := b.extractLsb' 5 5, ka := b.getLsbD 4, kb := b.getLsbD 3, t := b.extractLsb' 0 3 } { rnd := x.extractLsb' 25 3, ovf := x.extractLsb' 23 2, c := x.extractLsb' 18 5, kc := x.getLsbD 17 })

/-- Reads VFMA_E4M3. -/
def parseVfmaE4m3 (dp : Dep) (b : BitVec 20) (x : BitVec 28) : Option Instr :=
  keep (x.extractLsb' 0 17 == 0#17) (.vfmaE4m3 dp { d := b.extractLsb' 15 5, a := b.extractLsb' 10 5, b := b.extractLsb' 5 5, ka := b.getLsbD 4, kb := b.getLsbD 3, t := b.extractLsb' 0 3 } { rnd := x.extractLsb' 25 3, ovf := x.extractLsb' 23 2, c := x.extractLsb' 18 5, kc := x.getLsbD 17 })

/-- Reads VFMA_E5M2. -/
def parseVfmaE5m2 (dp : Dep) (b : BitVec 20) (x : BitVec 28) : Option Instr :=
  keep (x.extractLsb' 0 17 == 0#17) (.vfmaE5m2 dp { d := b.extractLsb' 15 5, a := b.extractLsb' 10 5, b := b.extractLsb' 5 5, ka := b.getLsbD 4, kb := b.getLsbD 3, t := b.extractLsb' 0 3 } { rnd := x.extractLsb' 25 3, ovf := x.extractLsb' 23 2, c := x.extractLsb' 18 5, kc := x.getLsbD 17 })

/-- Reads VMIN_F32. -/
def parseVminF32 (dp : Dep) (b : BitVec 20) (_x : BitVec 28) : Option Instr :=
  keep (true) (.vminF32 dp { d := b.extractLsb' 15 5, a := b.extractLsb' 10 5, b := b.extractLsb' 5 5, ka := b.getLsbD 4, kb := b.getLsbD 3, t := b.extractLsb' 0 3 })

/-- Reads VMIN_F16. -/
def parseVminF16 (dp : Dep) (b : BitVec 20) (_x : BitVec 28) : Option Instr :=
  keep (true) (.vminF16 dp { d := b.extractLsb' 15 5, a := b.extractLsb' 10 5, b := b.extractLsb' 5 5, ka := b.getLsbD 4, kb := b.getLsbD 3, t := b.extractLsb' 0 3 })

/-- Reads VMIN_BF16. -/
def parseVminBf16 (dp : Dep) (b : BitVec 20) (_x : BitVec 28) : Option Instr :=
  keep (true) (.vminBf16 dp { d := b.extractLsb' 15 5, a := b.extractLsb' 10 5, b := b.extractLsb' 5 5, ka := b.getLsbD 4, kb := b.getLsbD 3, t := b.extractLsb' 0 3 })

/-- Reads VMAX_F32. -/
def parseVmaxF32 (dp : Dep) (b : BitVec 20) (_x : BitVec 28) : Option Instr :=
  keep (true) (.vmaxF32 dp { d := b.extractLsb' 15 5, a := b.extractLsb' 10 5, b := b.extractLsb' 5 5, ka := b.getLsbD 4, kb := b.getLsbD 3, t := b.extractLsb' 0 3 })

/-- Reads VMAX_F16. -/
def parseVmaxF16 (dp : Dep) (b : BitVec 20) (_x : BitVec 28) : Option Instr :=
  keep (true) (.vmaxF16 dp { d := b.extractLsb' 15 5, a := b.extractLsb' 10 5, b := b.extractLsb' 5 5, ka := b.getLsbD 4, kb := b.getLsbD 3, t := b.extractLsb' 0 3 })

/-- Reads VMAX_BF16. -/
def parseVmaxBf16 (dp : Dep) (b : BitVec 20) (_x : BitVec 28) : Option Instr :=
  keep (true) (.vmaxBf16 dp { d := b.extractLsb' 15 5, a := b.extractLsb' 10 5, b := b.extractLsb' 5 5, ka := b.getLsbD 4, kb := b.getLsbD 3, t := b.extractLsb' 0 3 })

/-- Reads VRCP_F32. -/
def parseVrcpF32 (dp : Dep) (b : BitVec 20) (x : BitVec 28) : Option Instr :=
  keep (b.extractLsb' 5 5 == 0#5 && b.extractLsb' 3 1 == 0#1 && x.extractLsb' 0 25 == 0#25) (.vrcpF32 dp { d := b.extractLsb' 15 5, a := b.extractLsb' 10 5, ka := b.getLsbD 4, t := b.extractLsb' 0 3 } (x.extractLsb' 25 3))

/-- Reads VRCP_F16. -/
def parseVrcpF16 (dp : Dep) (b : BitVec 20) (x : BitVec 28) : Option Instr :=
  keep (b.extractLsb' 5 5 == 0#5 && b.extractLsb' 3 1 == 0#1 && x.extractLsb' 0 25 == 0#25) (.vrcpF16 dp { d := b.extractLsb' 15 5, a := b.extractLsb' 10 5, ka := b.getLsbD 4, t := b.extractLsb' 0 3 } (x.extractLsb' 25 3))

/-- Reads VRCP_BF16. -/
def parseVrcpBf16 (dp : Dep) (b : BitVec 20) (x : BitVec 28) : Option Instr :=
  keep (b.extractLsb' 5 5 == 0#5 && b.extractLsb' 3 1 == 0#1 && x.extractLsb' 0 25 == 0#25) (.vrcpBf16 dp { d := b.extractLsb' 15 5, a := b.extractLsb' 10 5, ka := b.getLsbD 4, t := b.extractLsb' 0 3 } (x.extractLsb' 25 3))

/-- Reads VRSQ_F32. -/
def parseVrsqF32 (dp : Dep) (b : BitVec 20) (x : BitVec 28) : Option Instr :=
  keep (b.extractLsb' 5 5 == 0#5 && b.extractLsb' 3 1 == 0#1 && x.extractLsb' 0 25 == 0#25) (.vrsqF32 dp { d := b.extractLsb' 15 5, a := b.extractLsb' 10 5, ka := b.getLsbD 4, t := b.extractLsb' 0 3 } (x.extractLsb' 25 3))

/-- Reads VRSQ_F16. -/
def parseVrsqF16 (dp : Dep) (b : BitVec 20) (x : BitVec 28) : Option Instr :=
  keep (b.extractLsb' 5 5 == 0#5 && b.extractLsb' 3 1 == 0#1 && x.extractLsb' 0 25 == 0#25) (.vrsqF16 dp { d := b.extractLsb' 15 5, a := b.extractLsb' 10 5, ka := b.getLsbD 4, t := b.extractLsb' 0 3 } (x.extractLsb' 25 3))

/-- Reads VRSQ_BF16. -/
def parseVrsqBf16 (dp : Dep) (b : BitVec 20) (x : BitVec 28) : Option Instr :=
  keep (b.extractLsb' 5 5 == 0#5 && b.extractLsb' 3 1 == 0#1 && x.extractLsb' 0 25 == 0#25) (.vrsqBf16 dp { d := b.extractLsb' 15 5, a := b.extractLsb' 10 5, ka := b.getLsbD 4, t := b.extractLsb' 0 3 } (x.extractLsb' 25 3))

/-- Reads VEXP2_F32. -/
def parseVexp2F32 (dp : Dep) (b : BitVec 20) (x : BitVec 28) : Option Instr :=
  keep (b.extractLsb' 5 5 == 0#5 && b.extractLsb' 3 1 == 0#1 && x.extractLsb' 0 25 == 0#25) (.vexp2F32 dp { d := b.extractLsb' 15 5, a := b.extractLsb' 10 5, ka := b.getLsbD 4, t := b.extractLsb' 0 3 } (x.extractLsb' 25 3))

/-- Reads VEXP2_F16. -/
def parseVexp2F16 (dp : Dep) (b : BitVec 20) (x : BitVec 28) : Option Instr :=
  keep (b.extractLsb' 5 5 == 0#5 && b.extractLsb' 3 1 == 0#1 && x.extractLsb' 0 25 == 0#25) (.vexp2F16 dp { d := b.extractLsb' 15 5, a := b.extractLsb' 10 5, ka := b.getLsbD 4, t := b.extractLsb' 0 3 } (x.extractLsb' 25 3))

/-- Reads VEXP2_BF16. -/
def parseVexp2Bf16 (dp : Dep) (b : BitVec 20) (x : BitVec 28) : Option Instr :=
  keep (b.extractLsb' 5 5 == 0#5 && b.extractLsb' 3 1 == 0#1 && x.extractLsb' 0 25 == 0#25) (.vexp2Bf16 dp { d := b.extractLsb' 15 5, a := b.extractLsb' 10 5, ka := b.getLsbD 4, t := b.extractLsb' 0 3 } (x.extractLsb' 25 3))

/-- Reads VLOG2_F32. -/
def parseVlog2F32 (dp : Dep) (b : BitVec 20) (x : BitVec 28) : Option Instr :=
  keep (b.extractLsb' 5 5 == 0#5 && b.extractLsb' 3 1 == 0#1 && x.extractLsb' 0 25 == 0#25) (.vlog2F32 dp { d := b.extractLsb' 15 5, a := b.extractLsb' 10 5, ka := b.getLsbD 4, t := b.extractLsb' 0 3 } (x.extractLsb' 25 3))

/-- Reads VLOG2_F16. -/
def parseVlog2F16 (dp : Dep) (b : BitVec 20) (x : BitVec 28) : Option Instr :=
  keep (b.extractLsb' 5 5 == 0#5 && b.extractLsb' 3 1 == 0#1 && x.extractLsb' 0 25 == 0#25) (.vlog2F16 dp { d := b.extractLsb' 15 5, a := b.extractLsb' 10 5, ka := b.getLsbD 4, t := b.extractLsb' 0 3 } (x.extractLsb' 25 3))

/-- Reads VLOG2_BF16. -/
def parseVlog2Bf16 (dp : Dep) (b : BitVec 20) (x : BitVec 28) : Option Instr :=
  keep (b.extractLsb' 5 5 == 0#5 && b.extractLsb' 3 1 == 0#1 && x.extractLsb' 0 25 == 0#25) (.vlog2Bf16 dp { d := b.extractLsb' 15 5, a := b.extractLsb' 10 5, ka := b.getLsbD 4, t := b.extractLsb' 0 3 } (x.extractLsb' 25 3))

/-- Reads VABS_F32. -/
def parseVabsF32 (dp : Dep) (b : BitVec 20) (_x : BitVec 28) : Option Instr :=
  keep (b.extractLsb' 5 5 == 0#5 && b.extractLsb' 3 1 == 0#1) (.vabsF32 dp { d := b.extractLsb' 15 5, a := b.extractLsb' 10 5, ka := b.getLsbD 4, t := b.extractLsb' 0 3 })

/-- Reads VABS_F16. -/
def parseVabsF16 (dp : Dep) (b : BitVec 20) (_x : BitVec 28) : Option Instr :=
  keep (b.extractLsb' 5 5 == 0#5 && b.extractLsb' 3 1 == 0#1) (.vabsF16 dp { d := b.extractLsb' 15 5, a := b.extractLsb' 10 5, ka := b.getLsbD 4, t := b.extractLsb' 0 3 })

/-- Reads VABS_BF16. -/
def parseVabsBf16 (dp : Dep) (b : BitVec 20) (_x : BitVec 28) : Option Instr :=
  keep (b.extractLsb' 5 5 == 0#5 && b.extractLsb' 3 1 == 0#1) (.vabsBf16 dp { d := b.extractLsb' 15 5, a := b.extractLsb' 10 5, ka := b.getLsbD 4, t := b.extractLsb' 0 3 })

/-- Reads VNEG_F32. -/
def parseVnegF32 (dp : Dep) (b : BitVec 20) (_x : BitVec 28) : Option Instr :=
  keep (b.extractLsb' 5 5 == 0#5 && b.extractLsb' 3 1 == 0#1) (.vnegF32 dp { d := b.extractLsb' 15 5, a := b.extractLsb' 10 5, ka := b.getLsbD 4, t := b.extractLsb' 0 3 })

/-- Reads VNEG_F16. -/
def parseVnegF16 (dp : Dep) (b : BitVec 20) (_x : BitVec 28) : Option Instr :=
  keep (b.extractLsb' 5 5 == 0#5 && b.extractLsb' 3 1 == 0#1) (.vnegF16 dp { d := b.extractLsb' 15 5, a := b.extractLsb' 10 5, ka := b.getLsbD 4, t := b.extractLsb' 0 3 })

/-- Reads VNEG_BF16. -/
def parseVnegBf16 (dp : Dep) (b : BitVec 20) (_x : BitVec 28) : Option Instr :=
  keep (b.extractLsb' 5 5 == 0#5 && b.extractLsb' 3 1 == 0#1) (.vnegBf16 dp { d := b.extractLsb' 15 5, a := b.extractLsb' 10 5, ka := b.getLsbD 4, t := b.extractLsb' 0 3 })

/-- Reads VCVT. -/
def parseVcvt (dp : Dep) (b : BitVec 20) (x : BitVec 28) : Option Instr :=
  keep (b.extractLsb' 5 5 == 0#5 && b.extractLsb' 3 1 == 0#1 && x.extractLsb' 17 6 == 0#6 && x.extractLsb' 0 6 == 0#6) (.vcvt dp { d := b.extractLsb' 15 5, a := b.extractLsb' 10 5, ka := b.getLsbD 4, t := b.extractLsb' 0 3 } { rnd := x.extractLsb' 25 3, ovf := x.extractLsb' 23 2, dfmt := x.extractLsb' 13 4, sfmt := x.extractLsb' 9 4, part := x.extractLsb' 6 3 })

/-- Reads VCBX. -/
def parseVcbx (dp : Dep) (b : BitVec 20) (x : BitVec 28) : Option Instr :=
  keep (b.extractLsb' 5 5 == 0#5 && b.extractLsb' 3 1 == 0#1 && x.extractLsb' 17 11 == 0#11 && x.extractLsb' 0 6 == 0#6) (.vcbx dp { d := b.extractLsb' 15 5, a := b.extractLsb' 10 5, ka := b.getLsbD 4, t := b.extractLsb' 0 3 } (x.extractLsb' 14 3) (x.extractLsb' 11 3) (x.extractLsb' 6 5))

/-- Reads VIADD_I32. -/
def parseViaddI32 (dp : Dep) (b : BitVec 20) (x : BitVec 28) : Option Instr :=
  keep (x.extractLsb' 25 3 == 0#3 && x.extractLsb' 0 23 == 0#23) (.viaddI32 dp { d := b.extractLsb' 15 5, a := b.extractLsb' 10 5, b := b.extractLsb' 5 5, ka := b.getLsbD 4, kb := b.getLsbD 3, t := b.extractLsb' 0 3 } (x.extractLsb' 23 2))

/-- Reads VIADD_I8. -/
def parseViaddI8 (dp : Dep) (b : BitVec 20) (x : BitVec 28) : Option Instr :=
  keep (x.extractLsb' 25 3 == 0#3 && x.extractLsb' 0 23 == 0#23) (.viaddI8 dp { d := b.extractLsb' 15 5, a := b.extractLsb' 10 5, b := b.extractLsb' 5 5, ka := b.getLsbD 4, kb := b.getLsbD 3, t := b.extractLsb' 0 3 } (x.extractLsb' 23 2))

/-- Reads VISUB_I32. -/
def parseVisubI32 (dp : Dep) (b : BitVec 20) (x : BitVec 28) : Option Instr :=
  keep (x.extractLsb' 25 3 == 0#3 && x.extractLsb' 0 23 == 0#23) (.visubI32 dp { d := b.extractLsb' 15 5, a := b.extractLsb' 10 5, b := b.extractLsb' 5 5, ka := b.getLsbD 4, kb := b.getLsbD 3, t := b.extractLsb' 0 3 } (x.extractLsb' 23 2))

/-- Reads VISUB_I8. -/
def parseVisubI8 (dp : Dep) (b : BitVec 20) (x : BitVec 28) : Option Instr :=
  keep (x.extractLsb' 25 3 == 0#3 && x.extractLsb' 0 23 == 0#23) (.visubI8 dp { d := b.extractLsb' 15 5, a := b.extractLsb' 10 5, b := b.extractLsb' 5 5, ka := b.getLsbD 4, kb := b.getLsbD 3, t := b.extractLsb' 0 3 } (x.extractLsb' 23 2))

/-- Reads VIMUL_I32. -/
def parseVimulI32 (dp : Dep) (b : BitVec 20) (x : BitVec 28) : Option Instr :=
  keep (x.extractLsb' 25 3 == 0#3 && x.extractLsb' 0 23 == 0#23) (.vimulI32 dp { d := b.extractLsb' 15 5, a := b.extractLsb' 10 5, b := b.extractLsb' 5 5, ka := b.getLsbD 4, kb := b.getLsbD 3, t := b.extractLsb' 0 3 } (x.extractLsb' 23 2))

/-- Reads VIMUL_I8. -/
def parseVimulI8 (dp : Dep) (b : BitVec 20) (x : BitVec 28) : Option Instr :=
  keep (x.extractLsb' 25 3 == 0#3 && x.extractLsb' 0 23 == 0#23) (.vimulI8 dp { d := b.extractLsb' 15 5, a := b.extractLsb' 10 5, b := b.extractLsb' 5 5, ka := b.getLsbD 4, kb := b.getLsbD 3, t := b.extractLsb' 0 3 } (x.extractLsb' 23 2))

/-- Reads VAND. -/
def parseVand (dp : Dep) (b : BitVec 20) (_x : BitVec 28) : Option Instr :=
  keep (true) (.vand dp { d := b.extractLsb' 15 5, a := b.extractLsb' 10 5, b := b.extractLsb' 5 5, ka := b.getLsbD 4, kb := b.getLsbD 3, t := b.extractLsb' 0 3 })

/-- Reads VOR. -/
def parseVor (dp : Dep) (b : BitVec 20) (_x : BitVec 28) : Option Instr :=
  keep (true) (.vor dp { d := b.extractLsb' 15 5, a := b.extractLsb' 10 5, b := b.extractLsb' 5 5, ka := b.getLsbD 4, kb := b.getLsbD 3, t := b.extractLsb' 0 3 })

/-- Reads VXOR. -/
def parseVxor (dp : Dep) (b : BitVec 20) (_x : BitVec 28) : Option Instr :=
  keep (true) (.vxor dp { d := b.extractLsb' 15 5, a := b.extractLsb' 10 5, b := b.extractLsb' 5 5, ka := b.getLsbD 4, kb := b.getLsbD 3, t := b.extractLsb' 0 3 })

/-- Reads VSHL_I32. -/
def parseVshlI32 (dp : Dep) (b : BitVec 20) (_x : BitVec 28) : Option Instr :=
  keep (true) (.vshlI32 dp { d := b.extractLsb' 15 5, a := b.extractLsb' 10 5, b := b.extractLsb' 5 5, ka := b.getLsbD 4, kb := b.getLsbD 3, t := b.extractLsb' 0 3 })

/-- Reads VSHL_I8. -/
def parseVshlI8 (dp : Dep) (b : BitVec 20) (_x : BitVec 28) : Option Instr :=
  keep (true) (.vshlI8 dp { d := b.extractLsb' 15 5, a := b.extractLsb' 10 5, b := b.extractLsb' 5 5, ka := b.getLsbD 4, kb := b.getLsbD 3, t := b.extractLsb' 0 3 })

/-- Reads VSHR_I32. -/
def parseVshrI32 (dp : Dep) (b : BitVec 20) (_x : BitVec 28) : Option Instr :=
  keep (true) (.vshrI32 dp { d := b.extractLsb' 15 5, a := b.extractLsb' 10 5, b := b.extractLsb' 5 5, ka := b.getLsbD 4, kb := b.getLsbD 3, t := b.extractLsb' 0 3 })

/-- Reads VSHR_I8. -/
def parseVshrI8 (dp : Dep) (b : BitVec 20) (_x : BitVec 28) : Option Instr :=
  keep (true) (.vshrI8 dp { d := b.extractLsb' 15 5, a := b.extractLsb' 10 5, b := b.extractLsb' 5 5, ka := b.getLsbD 4, kb := b.getLsbD 3, t := b.extractLsb' 0 3 })

/-- Reads VCMP_F32. -/
def parseVcmpF32 (dp : Dep) (b : BitVec 20) (_x : BitVec 28) : Option Instr :=
  keep (true) (.vcmpF32 dp { d := b.extractLsb' 15 5, a := b.extractLsb' 10 5, b := b.extractLsb' 5 5, ka := b.getLsbD 4, kb := b.getLsbD 3, t := b.extractLsb' 0 3 })

/-- Reads VCMP_F16. -/
def parseVcmpF16 (dp : Dep) (b : BitVec 20) (_x : BitVec 28) : Option Instr :=
  keep (true) (.vcmpF16 dp { d := b.extractLsb' 15 5, a := b.extractLsb' 10 5, b := b.extractLsb' 5 5, ka := b.getLsbD 4, kb := b.getLsbD 3, t := b.extractLsb' 0 3 })

/-- Reads VCMP_BF16. -/
def parseVcmpBf16 (dp : Dep) (b : BitVec 20) (_x : BitVec 28) : Option Instr :=
  keep (true) (.vcmpBf16 dp { d := b.extractLsb' 15 5, a := b.extractLsb' 10 5, b := b.extractLsb' 5 5, ka := b.getLsbD 4, kb := b.getLsbD 3, t := b.extractLsb' 0 3 })

/-- Reads VCMP_I32. -/
def parseVcmpI32 (dp : Dep) (b : BitVec 20) (_x : BitVec 28) : Option Instr :=
  keep (true) (.vcmpI32 dp { d := b.extractLsb' 15 5, a := b.extractLsb' 10 5, b := b.extractLsb' 5 5, ka := b.getLsbD 4, kb := b.getLsbD 3, t := b.extractLsb' 0 3 })

/-- Reads VCMP_I8. -/
def parseVcmpI8 (dp : Dep) (b : BitVec 20) (_x : BitVec 28) : Option Instr :=
  keep (true) (.vcmpI8 dp { d := b.extractLsb' 15 5, a := b.extractLsb' 10 5, b := b.extractLsb' 5 5, ka := b.getLsbD 4, kb := b.getLsbD 3, t := b.extractLsb' 0 3 })

/-- Reads VSEL. -/
def parseVsel (dp : Dep) (b : BitVec 20) (_x : BitVec 28) : Option Instr :=
  keep (true) (.vsel dp { d := b.extractLsb' 15 5, a := b.extractLsb' 10 5, b := b.extractLsb' 5 5, ka := b.getLsbD 4, kb := b.getLsbD 3, t := b.extractLsb' 0 3 })

/-- Reads VBCAST. -/
def parseVbcast (dp : Dep) (b : BitVec 20) (x : BitVec 28) : Option Instr :=
  keep (b.extractLsb' 3 12 == 0#12 && x.extractLsb' 17 11 == 0#11 && x.extractLsb' 8 1 == 0#1 && x.extractLsb' 0 8 == 0#8) (.vbcast dp (b.extractLsb' 15 5) (b.extractLsb' 0 3) (x.extractLsb' 11 6) (x.extractLsb' 9 2))

/-- Reads VBCAST_LANE. -/
def parseVbcastLane (dp : Dep) (b : BitVec 20) (x : BitVec 28) : Option Instr :=
  keep (b.extractLsb' 5 5 == 0#5 && b.extractLsb' 3 1 == 0#1 && x.extractLsb' 17 11 == 0#11 && x.extractLsb' 8 1 == 1#1 && x.extractLsb' 0 8 == 0#8) (.vbcastLane dp { d := b.extractLsb' 15 5, a := b.extractLsb' 10 5, ka := b.getLsbD 4, t := b.extractLsb' 0 3 } (x.extractLsb' 11 6) (x.extractLsb' 9 2))

/-- Reads VREDADD_F32. -/
def parseVredaddF32 (dp : Dep) (b : BitVec 20) (x : BitVec 28) : Option Instr :=
  keep (b.extractLsb' 5 5 == 0#5 && b.extractLsb' 3 1 == 0#1 && x.extractLsb' 0 25 == 0#25) (.vredaddF32 dp { d := b.extractLsb' 15 5, a := b.extractLsb' 10 5, ka := b.getLsbD 4, t := b.extractLsb' 0 3 } (x.extractLsb' 25 3))

/-- Reads VREDADD_F16. -/
def parseVredaddF16 (dp : Dep) (b : BitVec 20) (x : BitVec 28) : Option Instr :=
  keep (b.extractLsb' 5 5 == 0#5 && b.extractLsb' 3 1 == 0#1 && x.extractLsb' 0 25 == 0#25) (.vredaddF16 dp { d := b.extractLsb' 15 5, a := b.extractLsb' 10 5, ka := b.getLsbD 4, t := b.extractLsb' 0 3 } (x.extractLsb' 25 3))

/-- Reads VREDADD_BF16. -/
def parseVredaddBf16 (dp : Dep) (b : BitVec 20) (x : BitVec 28) : Option Instr :=
  keep (b.extractLsb' 5 5 == 0#5 && b.extractLsb' 3 1 == 0#1 && x.extractLsb' 0 25 == 0#25) (.vredaddBf16 dp { d := b.extractLsb' 15 5, a := b.extractLsb' 10 5, ka := b.getLsbD 4, t := b.extractLsb' 0 3 } (x.extractLsb' 25 3))

/-- Reads VREDADD_I32. -/
def parseVredaddI32 (dp : Dep) (b : BitVec 20) (x : BitVec 28) : Option Instr :=
  keep (b.extractLsb' 5 5 == 0#5 && b.extractLsb' 3 1 == 0#1 && x.extractLsb' 25 3 == 0#3 && x.extractLsb' 0 23 == 0#23) (.vredaddI32 dp { d := b.extractLsb' 15 5, a := b.extractLsb' 10 5, ka := b.getLsbD 4, t := b.extractLsb' 0 3 } (x.extractLsb' 23 2))

/-- Reads VREDMAX_F32. -/
def parseVredmaxF32 (dp : Dep) (b : BitVec 20) (_x : BitVec 28) : Option Instr :=
  keep (b.extractLsb' 5 5 == 0#5 && b.extractLsb' 3 1 == 0#1) (.vredmaxF32 dp { d := b.extractLsb' 15 5, a := b.extractLsb' 10 5, ka := b.getLsbD 4, t := b.extractLsb' 0 3 })

/-- Reads VREDMAX_F16. -/
def parseVredmaxF16 (dp : Dep) (b : BitVec 20) (_x : BitVec 28) : Option Instr :=
  keep (b.extractLsb' 5 5 == 0#5 && b.extractLsb' 3 1 == 0#1) (.vredmaxF16 dp { d := b.extractLsb' 15 5, a := b.extractLsb' 10 5, ka := b.getLsbD 4, t := b.extractLsb' 0 3 })

/-- Reads VREDMAX_BF16. -/
def parseVredmaxBf16 (dp : Dep) (b : BitVec 20) (_x : BitVec 28) : Option Instr :=
  keep (b.extractLsb' 5 5 == 0#5 && b.extractLsb' 3 1 == 0#1) (.vredmaxBf16 dp { d := b.extractLsb' 15 5, a := b.extractLsb' 10 5, ka := b.getLsbD 4, t := b.extractLsb' 0 3 })

/-- Reads VREDMAX_I32. -/
def parseVredmaxI32 (dp : Dep) (b : BitVec 20) (_x : BitVec 28) : Option Instr :=
  keep (b.extractLsb' 5 5 == 0#5 && b.extractLsb' 3 1 == 0#1) (.vredmaxI32 dp { d := b.extractLsb' 15 5, a := b.extractLsb' 10 5, ka := b.getLsbD 4, t := b.extractLsb' 0 3 })

/-- Reads VSCAN_F32. -/
def parseVscanF32 (dp : Dep) (b : BitVec 20) (x : BitVec 28) : Option Instr :=
  keep (b.extractLsb' 5 5 == 0#5 && b.extractLsb' 3 1 == 0#1 && x.extractLsb' 0 13 == 0#13) (.vscanF32 dp { d := b.extractLsb' 15 5, a := b.extractLsb' 10 5, ka := b.getLsbD 4, t := b.extractLsb' 0 3 } { rnd := x.extractLsb' 25 3, ovf := x.extractLsb' 23 2, c := x.extractLsb' 18 5, kc := x.getLsbD 17 } (x.extractLsb' 14 3) (x.getLsbD 13))

/-- Reads VSCAN_I32. -/
def parseVscanI32 (dp : Dep) (b : BitVec 20) (x : BitVec 28) : Option Instr :=
  keep (b.extractLsb' 5 5 == 0#5 && b.extractLsb' 3 1 == 0#1 && x.extractLsb' 0 13 == 0#13) (.vscanI32 dp { d := b.extractLsb' 15 5, a := b.extractLsb' 10 5, ka := b.getLsbD 4, t := b.extractLsb' 0 3 } { rnd := x.extractLsb' 25 3, ovf := x.extractLsb' 23 2, c := x.extractLsb' 18 5, kc := x.getLsbD 17 } (x.extractLsb' 14 3) (x.getLsbD 13))

/-- Reads VPERM. -/
def parseVperm (dp : Dep) (b : BitVec 20) (x : BitVec 28) : Option Instr :=
  keep (x.extractLsb' 17 11 == 0#11 && x.extractLsb' 0 5 == 0#5) (.vperm dp { d := b.extractLsb' 15 5, a := b.extractLsb' 10 5, b := b.extractLsb' 5 5, ka := b.getLsbD 4, kb := b.getLsbD 3, t := b.extractLsb' 0 3 } (x.extractLsb' 14 3) (x.extractLsb' 12 2) (x.extractLsb' 6 6) (x.getLsbD 5))

/-- Reads VPACK. -/
def parseVpack (dp : Dep) (b : BitVec 20) (x : BitVec 28) : Option Instr :=
  keep (b.extractLsb' 5 5 == 0#5 && b.extractLsb' 3 1 == 0#1 && x.extractLsb' 17 11 == 0#11 && x.extractLsb' 0 11 == 0#11) (.vpack dp { d := b.extractLsb' 15 5, a := b.extractLsb' 10 5, ka := b.getLsbD 4, t := b.extractLsb' 0 3 } (x.extractLsb' 14 3) (x.extractLsb' 11 3))

/-- Reads VUNPACK. -/
def parseVunpack (dp : Dep) (b : BitVec 20) (x : BitVec 28) : Option Instr :=
  keep (b.extractLsb' 5 5 == 0#5 && b.extractLsb' 3 1 == 0#1 && x.extractLsb' 17 11 == 0#11 && x.extractLsb' 0 10 == 0#10) (.vunpack dp { d := b.extractLsb' 15 5, a := b.extractLsb' 10 5, ka := b.getLsbD 4, t := b.extractLsb' 0 3 } (x.extractLsb' 14 3) (x.extractLsb' 11 3) (x.getLsbD 10))

/-- Reads VMOVQ. -/
def parseVmovq (dp : Dep) (b : BitVec 20) (_x : BitVec 28) : Option Instr :=
  keep (b.extractLsb' 5 5 == 0#5 && b.extractLsb' 3 1 == 0#1) (.vmovq dp { d := b.extractLsb' 15 5, a := b.extractLsb' 10 5, ka := b.getLsbD 4, t := b.extractLsb' 0 3 })

/-- Reads VDUP. -/
def parseVdup (dp : Dep) (b : BitVec 20) (_x : BitVec 28) : Option Instr :=
  keep (true) (.vdup dp { d := b.extractLsb' 15 5, a := b.extractLsb' 10 5, b := b.extractLsb' 5 5, ka := b.getLsbD 4, kb := b.getLsbD 3, t := b.extractLsb' 0 3 })

/-- Reads VDROP. -/
def parseVdrop (dp : Dep) (b : BitVec 20) (_x : BitVec 28) : Option Instr :=
  keep (b.extractLsb' 15 5 == 0#5 && b.extractLsb' 7 3 == 0#3 && b.extractLsb' 0 5 == 0#5) (.vdrop dp (b.extractLsb' 10 5) (b.extractLsb' 5 2))

/-- Reads VLANEI. -/
def parseVlanei (dp : Dep) (b : BitVec 20) (x : BitVec 28) : Option Instr :=
  keep (b.extractLsb' 3 12 == 0#12 && x.extractLsb' 17 11 == 0#11 && x.extractLsb' 0 3 == 0#3) (.vlanei dp (b.extractLsb' 15 5) (b.extractLsb' 0 3) (x.extractLsb' 11 6) (x.extractLsb' 9 2) (x.extractLsb' 3 6))

/-- Reads VPEEKS. -/
def parseVpeeks (dp : Dep) (b : BitVec 20) (x : BitVec 28) : Option Instr :=
  keep (b.extractLsb' 15 5 == 0#5 && b.extractLsb' 5 5 == 0#5 && b.extractLsb' 0 4 == 0#4 && x.extractLsb' 17 11 == 0#11) (.vpeeks dp (b.extractLsb' 10 5) (b.getLsbD 4) (x.extractLsb' 11 6) (x.extractLsb' 9 2) (x.extractLsb' 0 9))

/-- Reads VMERGE3. -/
def parseVmerge3 (dp : Dep) (b : BitVec 20) (x : BitVec 28) : Option Instr :=
  keep (x.extractLsb' 0 25 == 0#25) (.vmerge3 dp { d := b.extractLsb' 15 5, a := b.extractLsb' 10 5, b := b.extractLsb' 5 5, ka := b.getLsbD 4, kb := b.getLsbD 3, t := b.extractLsb' 0 3 } (x.extractLsb' 25 3))

/-- Reads LOOP_V. -/
def parseLoopV (dp : Dep) (b : BitVec 20) (_x : BitVec 28) : Option Instr :=
  keep (true) (.loopV dp (b.extractLsb' 14 6) (b.extractLsb' 0 14))

/-- Reads TRAP. -/
def parseTrap (dp : Dep) (b : BitVec 20) (_x : BitVec 28) : Option Instr :=
  keep (b.extractLsb' 14 6 == 0#6) (.trap dp (b.extractLsb' 0 14))

/-- Reads SYSRD. -/
def parseSysrd (dp : Dep) (b : BitVec 20) (_x : BitVec 28) : Option Instr :=
  keep (true) (.sysrd dp (b.extractLsb' 14 6) (b.extractLsb' 0 14))

/-- Reads SYSWR. -/
def parseSyswr (dp : Dep) (b : BitVec 20) (_x : BitVec 28) : Option Instr :=
  keep (true) (.syswr dp (b.extractLsb' 14 6) (b.extractLsb' 0 14))

/-- Reads BBOX. -/
def parseBbox (dp : Dep) (b : BitVec 20) (_x : BitVec 28) : Option Instr :=
  keep (b.extractLsb' 14 6 == 0#6) (.bbox dp (b.extractLsb' 8 6) (b.extractLsb' 0 8))

/-- The instruction an assigned opcode's operand fields hold (R231, R232); `none` when no form of the opcode
accepts them (R234). -/
def parseOp (op : Nat) (dp : Dep) (b : BitVec 20) (x : BitVec 28) : Option Instr :=
  match op / 16 with
  | 0 => (match op % 16 with
    | 0 => (parseNop dp b x) <|> (parseNopEnd dp b x)
    | 1 => parseAdd dp b x
    | 2 => parseSub dp b x
    | 3 => parseAddi dp b x
    | 4 => parseMul dp b x
    | 5 => parseMulh dp b x
    | 6 => parseMulhu dp b x
    | 7 => parseDivu dp b x
    | 8 => parseDivs dp b x
    | 9 => parseRemu dp b x
    | 10 => parseRems dp b x
    | 11 => parseAnd dp b x
    | 12 => parseAndi dp b x
    | 13 => parseOr dp b x
    | 14 => parseOri dp b x
    | 15 => parseXor dp b x
    | _ => none)
  | 1 => (match op % 16 with
    | 0 => parseXori dp b x
    | 1 => parseAndn dp b x
    | 2 => parseShl dp b x
    | 3 => parseShli dp b x
    | 4 => parseShr dp b x
    | 5 => parseShri dp b x
    | 6 => parseSar dp b x
    | 7 => parseSari dp b x
    | 8 => parseRotl dp b x
    | 9 => parseRotli dp b x
    | 10 => parseMin dp b x
    | 11 => parseMinu dp b x
    | 12 => parseMax dp b x
    | 13 => parseMaxu dp b x
    | 14 => parseClz dp b x
    | 15 => parsePopc dp b x
    | _ => none)
  | 2 => (match op % 16 with
    | 0 => parseLui dp b x
    | 1 => parseLi dp b x
    | 2 => parseSext dp b x
    | 3 => parseSel dp b x
    | 4 => parseCmp dp b x
    | 5 => parseCmpi dp b x
    | 6 => parsePlog dp b x
    | 7 => parseBr dp b x
    | 8 => parseJmp dp b x
    | 9 => parseCall dp b x
    | 10 => parseRet dp b x
    | 11 => parseLoopC dp b x
    | 12 => parseRetire dp b x
    | 13 => parsePark dp b x
    | 14 => parseUnpark dp b x
    | 15 => parseBara dp b x
    | _ => none)
  | 3 => (match op % 16 with
    | 0 => parseBarw dp b x
    | 1 => parseBaraw dp b x
    | 2 => parseCadd dp b x
    | 3 => parseCaddSc dp b x
    | 4 => parseCwaitx dp b x
    | 5 => parsePub dp b x
    | 6 => parseSubSubscribe dp b x
    | 7 => parseOpin dp b x
    | 8 => parseOunpin dp b x
    | 9 => parseQrel dp b x
    | 10 => parseArel dp b x
    | 11 => parseTrel dp b x
    | 12 => parseSpawn dp b x
    | 13 => parseYield dp b x
    | _ => none)
  | 4 => (match op % 16 with
    | 0 => parseShp dp b x
    | 1 => parseShpx dp b x
    | 2 => parseShpo dp b x
    | 3 => parseShps dp b x
    | 4 => parseCpin dp b x
    | 5 => parseCpinTr dp b x
    | 6 => parseCpinRb dp b x
    | 7 => parseCpq dp b x
    | 8 => parseCpqTr dp b x
    | 9 => parseCpqRb dp b x
    | 10 => parseCpout dp b x
    | 11 => parseCpoutFf dp b x
    | 12 => parseCpqo dp b x
    | 13 => parseCprag dp b x
    | 14 => parseCpragTr dp b x
    | 15 => parseCppeer dp b x
    | _ => none)
  | 5 => (match op % 16 with
    | 0 => parseCppeerFf dp b x
    | 1 => ((parseTset dp b x) <|> (parseTsetClr dp b x)) <|> (parseTsetRdy dp b x)
    | 2 => parseTstat dp b x
    | 3 => parseSqres dp b x
    | 4 => parseSqcmt dp b x
    | 5 => parseSqlen dp b x
    | 6 => parseSqfork dp b x
    | 7 => parseSqpin dp b x
    | 8 => parseSqunpin dp b x
    | 9 => parsePxhash dp b x
    | 10 => parsePxfind dp b x
    | 11 => parsePxins dp b x
    | 12 => parsePxdel dp b x
    | 13 => parseCbfillF32 dp b x
    | 14 => parseCbfillBf16 dp b x
    | 15 => parseCbfillF16 dp b x
    | _ => none)
  | 6 => (match op % 16 with
    | 0 => parseCbfillE4m3 dp b x
    | 1 => parseCbfillE5m2 dp b x
    | 2 => parseCbsetF32 dp b x
    | 3 => parseCbsetBf16 dp b x
    | 4 => parseCbsetF16 dp b x
    | 5 => parseCbsetE4m3 dp b x
    | 6 => parseCbsetE5m2 dp b x
    | 7 => parseCbinv dp b x
    | 8 => (parseBkx dp b x) <|> (parseBkxHandle dp b x)
    | 9 => parseAadd dp b x
    | 10 => parseAmin dp b x
    | 11 => parseAmax dp b x
    | 12 => parseAxch dp b x
    | 13 => parseAcas dp b x
    | 14 => parseRadd dp b x
    | 15 => parseRaddFf dp b x
    | _ => none)
  | 7 => (match op % 16 with
    | 0 => parseKvput dp b x
    | 1 => parseKvget dp b x
    | 2 => parseKvdel dp b x
    | 3 => parseKvexist dp b x
    | 4 => parseKvlist dp b x
    | 5 => parsePromo dp b x
    | 6 => parseDemo dp b x
    | 7 => (parseHset dp b x) <|> (parseHsetImport dp b x)
    | 8 => parseHget dp b x
    | 9 => parseHprobe dp b x
    | 10 => parseLoopL dp b x
    | _ => none)
  | 8 => (match op % 16 with
    | 0 => parseMma dp b x
    | 1 => parseMncfg dp b x
    | 2 => parseMnest dp b x
    | 3 => (parseAcoop dp b x) <|> (parseAcoopEnd dp b x)
    | 4 => parseAzero dp b x
    | 5 => parseAloadF32 dp b x
    | 6 => parseAloadI32 dp b x
    | 7 => parseAstat dp b x
    | 8 => parseLoopM dp b x
    | 9 => parseAdrainF32 dp b x
    | 10 => parseAdrainF16 dp b x
    | 11 => parseAdrainBf16 dp b x
    | 12 => parseAdrainE4m3 dp b x
    | 13 => parseAdrainE5m2 dp b x
    | 14 => parseAdrainE2m3 dp b x
    | 15 => parseAdrainE3m2 dp b x
    | _ => none)
  | 9 => (match op % 16 with
    | 0 => parseAdrainE2m1 dp b x
    | 1 => parseAdrainI32 dp b x
    | 2 => parseAdrainI8 dp b x
    | 3 => parseAdrainI4 dp b x
    | 4 => parseAdrqF32 dp b x
    | 5 => parseAdrqF16 dp b x
    | 6 => parseAdrqBf16 dp b x
    | 7 => parseAdrqE4m3 dp b x
    | 8 => parseAdrqE5m2 dp b x
    | 9 => parseAdrqI32 dp b x
    | 10 => parseAdrqI8 dp b x
    | _ => none)
  | 10 => (match op % 16 with
    | 0 => parseVaddF32 dp b x
    | 1 => parseVaddF16 dp b x
    | 2 => parseVaddBf16 dp b x
    | 3 => parseVsubF32 dp b x
    | 4 => parseVsubF16 dp b x
    | 5 => parseVsubBf16 dp b x
    | 6 => parseVmulF32 dp b x
    | 7 => parseVmulF16 dp b x
    | 8 => parseVmulBf16 dp b x
    | 9 => parseVfmaF32 dp b x
    | 10 => parseVfmaF16 dp b x
    | 11 => parseVfmaBf16 dp b x
    | 12 => parseVfmaE4m3 dp b x
    | 13 => parseVfmaE5m2 dp b x
    | 14 => parseVminF32 dp b x
    | 15 => parseVminF16 dp b x
    | _ => none)
  | 11 => (match op % 16 with
    | 0 => parseVminBf16 dp b x
    | 1 => parseVmaxF32 dp b x
    | 2 => parseVmaxF16 dp b x
    | 3 => parseVmaxBf16 dp b x
    | 4 => parseVrcpF32 dp b x
    | 5 => parseVrcpF16 dp b x
    | 6 => parseVrcpBf16 dp b x
    | 7 => parseVrsqF32 dp b x
    | 8 => parseVrsqF16 dp b x
    | 9 => parseVrsqBf16 dp b x
    | 10 => parseVexp2F32 dp b x
    | 11 => parseVexp2F16 dp b x
    | 12 => parseVexp2Bf16 dp b x
    | 13 => parseVlog2F32 dp b x
    | 14 => parseVlog2F16 dp b x
    | 15 => parseVlog2Bf16 dp b x
    | _ => none)
  | 12 => (match op % 16 with
    | 0 => parseVabsF32 dp b x
    | 1 => parseVabsF16 dp b x
    | 2 => parseVabsBf16 dp b x
    | 3 => parseVnegF32 dp b x
    | 4 => parseVnegF16 dp b x
    | 5 => parseVnegBf16 dp b x
    | 6 => parseVcvt dp b x
    | 7 => parseVcbx dp b x
    | 8 => parseViaddI32 dp b x
    | 9 => parseViaddI8 dp b x
    | 10 => parseVisubI32 dp b x
    | 11 => parseVisubI8 dp b x
    | 12 => parseVimulI32 dp b x
    | 13 => parseVimulI8 dp b x
    | 14 => parseVand dp b x
    | 15 => parseVor dp b x
    | _ => none)
  | 13 => (match op % 16 with
    | 0 => parseVxor dp b x
    | 1 => parseVshlI32 dp b x
    | 2 => parseVshlI8 dp b x
    | 3 => parseVshrI32 dp b x
    | 4 => parseVshrI8 dp b x
    | 5 => parseVcmpF32 dp b x
    | 6 => parseVcmpF16 dp b x
    | 7 => parseVcmpBf16 dp b x
    | 8 => parseVcmpI32 dp b x
    | 9 => parseVcmpI8 dp b x
    | 10 => parseVsel dp b x
    | 11 => (parseVbcast dp b x) <|> (parseVbcastLane dp b x)
    | 12 => parseVredaddF32 dp b x
    | 13 => parseVredaddF16 dp b x
    | 14 => parseVredaddBf16 dp b x
    | 15 => parseVredaddI32 dp b x
    | _ => none)
  | 14 => (match op % 16 with
    | 0 => parseVredmaxF32 dp b x
    | 1 => parseVredmaxF16 dp b x
    | 2 => parseVredmaxBf16 dp b x
    | 3 => parseVredmaxI32 dp b x
    | 4 => parseVscanF32 dp b x
    | 5 => parseVscanI32 dp b x
    | 6 => parseVperm dp b x
    | 7 => parseVpack dp b x
    | 8 => parseVunpack dp b x
    | 9 => parseVmovq dp b x
    | 10 => parseVdup dp b x
    | 11 => parseVdrop dp b x
    | 12 => parseVlanei dp b x
    | 13 => parseVpeeks dp b x
    | 14 => parseVmerge3 dp b x
    | 15 => parseLoopV dp b x
    | _ => none)
  | 15 => (match op % 16 with
    | 0 => parseTrap dp b x
    | 1 => parseSysrd dp b x
    | 2 => parseSyswr dp b x
    | 3 => parseBbox dp b x
    | _ => none)
  | _ => none

/-- Whether a primary opcode value is assigned (R231). -/
def opAssigned (op : Nat) : Bool :=
  decide (op < 0x3E) || (decide (0x40 ≤ op) && decide (op < 0x7B)) || (decide (0x80 ≤ op) && decide (op < 0x9B)) ||
  (decide (0xA0 ≤ op) && decide (op < 0xF4))

/-- The engine of an assigned opcode value; `none` for 0x00, which every engine accepts (R231, R233). -/
def opEngine (op : Nat) : Option EngineId :=
  if op = 0 then none
  else if op < 0x40 then some .c
  else if op < 0x80 then some .l
  else if op < 0xA0 then some .m
  else if op < 0xF0 then some .v
  else some .c

/-- Whether the opcode's format has two words: S, M and W (R224, R232). -/
def opTwoWords (op : Nat) : Bool :=
  [0x23, 0x3C, 0x51, 0x53, 0x54, 0x68, 0x79, 0x80, 0x81, 0x83, 0x85, 0x86].contains op ||
  (decide (0x40 ≤ op) && decide (op ≤ 0x50)) || (decide (0x56 ≤ op) && decide (op ≤ 0x61)) ||
  (decide (0x69 ≤ op) && decide (op ≤ 0x76)) || (decide (0x89 ≤ op) && decide (op ≤ 0x9A)) ||
  (decide (0xA0 ≤ op) && decide (op ≤ 0xAD)) || (decide (0xB4 ≤ op) && decide (op ≤ 0xBF)) ||
  (decide (0xC6 ≤ op) && decide (op ≤ 0xCD)) || (decide (0xDB ≤ op) && decide (op ≤ 0xDF)) ||
  (decide (0xE4 ≤ op) && decide (op ≤ 0xE8)) || (decide (0xEC ≤ op) && decide (op ≤ 0xEE))

/-- The feature bits that the words of an opcode ask for (R485), before any field is checked. -/
def opFeature (w0 w1 : BitVec 32) : Nat :=
  let op := (w0.extractLsb' 20 8).toNat
  if (0x5D ≤ op ∧ op ≤ 0x67) ∨ op = 0xC7 then 1
  else if op = 0x80 then (if w0.getLsbD 4 || w0.getLsbD 3 then 1 else 0)
  else if 0x53 ≤ op ∧ op ≤ 0x5C then 2
  else if 0x70 ≤ op ∧ op ≤ 0x74 then 3
  else if op = 0x68 then 4
  else if op = 0x83 then 5
  else if op = 0x6E ∨ op = 0x6F then 6
  else if op = 0x33 then 7
  else if 0x69 ≤ op ∧ op ≤ 0x6D then (if w1.extractLsb' 4 3 = 4#3 then 7 else 0)
  else if op = 0x75 ∨ op = 0x76 then 8
  else 0

/-- What the words at a program counter say (R231-R235). -/
inductive Decoded where
  /-- A well-formed instruction. -/
  | instr (i : Instr)
  /-- An unassigned opcode value. -/
  | unassigned
  /-- An assigned opcode whose fields fail a check: a reserved field or code, a wrong register class. -/
  | badEncoding
deriving DecidableEq, Repr

/-- Decodes word 0 and the word after it; the second is read only by two-word formats (R218). -/
def decode (w0 w1 : BitVec 32) : Decoded :=
  let op := (w0.extractLsb' 20 8).toNat
  if opAssigned op then
    if opTwoWords op && !(w1.extractLsb' 28 4 == 0#4) then .badEncoding
    else match parseOp op (Dep.ofWord w0) (w0.extractLsb' 0 20) (w1.extractLsb' 0 28) with
      | some i => .instr i
      | none => .badEncoding
  else .unassigned

/-- The instruction an opcode-table word stands for: its bits above `nbits` are zero (R3, R218). -/
def decodeTableWord (nbits w : Nat) : Option Instr :=
  let w := w % 2 ^ nbits
  match decode (BitVec.ofNat 32 w) (BitVec.ofNat 32 (w / 2 ^ 32)) with
  | .instr i => some i
  | .unassigned => none
  | .badEncoding => none

end Sys2Proof
end

