-- ==== Sys2Proof/Config.lean ====
section
/-! DEFINITION. What the part fixes, and the free values: constants with no body, of which no proof can see a value. -/

namespace Sys2Proof.Config

/-- Cores of the package (R16). -/
def cores : Nat := 1024
/-- Tarns of the package (R16). -/
def tarns : Nat := 256
/-- Meres of the package (R14). -/
def meres : Nat := 8
/-- `DEV_ID` of every shipped part (R35). -/
def devId : BitVec 64 := 0x0D0100010B000000#64
/-- The feature bits offered (R485). -/
def featOffer : Nat := 0x7FF
/-- Bytes of one HBM4E stack (R174). -/
def hbmBytes : Nat := 0xEE6B28000
/-- Bytes of one LPDDR6 site (R174). -/
def lpBytes : Nat := 0x2CB4178000

/-- FREE VALUE. A sum whose order of additions R124, R127 and R132 leave open: the `n`-th such value taken. -/
opaque freeSum (n : Nat) : BitVec 32
/-- FREE VALUE. A choice between two values that R280, R324, R354 or R292 leaves open. -/
opaque freeBit (n : Nat) : Bool
/-- FREE VALUE. The fixed approximation of a function of R131: it depends on the function, the format, the rounding
mode and the operand alone, and says which of the values within the error is returned. -/
opaque approx (fn fmt mode : Nat) (x : BitVec 32) : BitVec 32
/-- FREE VALUE. What a unit outside the part returns, and bytes whose layout R451 leaves open. -/
opaque outside (n : Nat) : BitVec 64

/-- FREE VALUE. The device identity key, which the physically unclonable function gives at every power-on (R488). -/
opaque identityKey : BitVec 384
/-- FREE VALUE. The identity's certificate, kept in flash since manufacture (R488), and its digest. -/
opaque certificate : List (BitVec 256)
@[inherit_doc certificate]
opaque certificateDigest : BitVec 384
/-- FREE VALUE. The digest of the boot ROM stage (R486, R489). -/
opaque bootRomDigest : BitVec 384
/-- FREE VALUE. The word of SPDM capabilities (R489). -/
opaque capabilities : BitVec 256
/-- FREE VALUE. How an alias key derives from the identity key and the digests of the accepted firmware (R488). -/
opaque aliasKey (identity : BitVec 384) (firmware : List (BitVec 384)) : BitVec 384
/-- FREE VALUE. Word `i` of the `n`-th signature or key-exchange answer made, under a key, over the words of its answer (R489). -/
opaque signature (key : BitVec 384) (n i : Nat) (words : List (BitVec 256)) : BitVec 256

end Sys2Proof.Config
end

