-- ==== Sys2Proof/Machine/State.lean ====
section
/-! DEFINITION. The state of the machine as plain data: everything the spec gives it, its reset value, and the reasons a step can stop. -/

namespace Sys2Proof.Machine

open Sys2Proof

/-- Fault codes (R428). -/
inductive Code where
  | illegalOp | illegalEnc | engineMismatch | allot | staleHandle | objType | rights | bounds | seqSealed | seqOrder
  | missingView | missingObject | counterRange | scScope | noSpace | shapeAlign | copyGeom | tileState | queueOver
  | queueUnder | tokenStall | parkFull | loopDepth | barCount | cbIndex | cbState | mmaFormat | accState | coopGeom
  | fpTrap | swTrap | eccUncorr | launchInvalid | storeFailed | nodeFailed | replicaDropped | machineCheck
deriving DecidableEq, Repr

/-- Kinds of fault records (R429). -/
inductive RecKind where
  | precise | poison | event | freeze | machineCheck
deriving DecidableEq, Repr

/-- The masters that `MASTER` names (R430). -/
inductive Master where
  | engine | streamer | walker | requester | service
deriving DecidableEq, Repr

/-- Classes of `UNIT` (R430). -/
inductive UnitClass where
  | none | tile | queue | bank
deriving DecidableEq, Repr

/-- A fault record (R430); Ops.lean lays out its 512 bits. -/
structure FaultRec where
  cycles : BitVec 64 := 0
  handle : BitVec 64 := 0
  info : BitVec 64 := 0
  word1 : BitVec 32 := 0
  word0 : BitVec 32 := 0
  pc : BitVec 32 := 0
  node : BitVec 16 := 0xFFFF#16
  rid : BitVec 16 := 0
  core : Nat := 0
  engine : EngineId := .c
  ctx : Bool := false
  part : Nat := 0
  uclass : UnitClass := .none
  unit : Nat := 0
  kind : RecKind := .precise
  master : Master := .engine
  seqno : BitVec 16 := 0
  code : Code := .illegalOp
  errst : Bool := false
  incons : Bool := false
  detach : Bool := false
  paddr : BitVec 48 := 0
deriving DecidableEq, Repr

/-- A black-box event (R458). -/
structure BbEvent where
  cycles : BitVec 64 := 0
  payload : BitVec 64 := 0
  etype : BitVec 16 := 0
  ecode : BitVec 16 := 0
  seqno : BitVec 16 := 0
  core : Nat := 0
  ctx : Bool := false
  part : Nat := 0
  tag : BitVec 8 := 0
  engine : EngineId := .c
  svc : Bool := false
deriving DecidableEq, Repr

/-! ### Objects -/

/-- `TYPE` (R42). -/
inductive ObjType where
  | free | tensor | sequence | counter
deriving DecidableEq, Repr

/-- An object-table entry (R42), field by field; Objects.lean lays out its 512 bits. -/
structure Entry where
  next : BitVec 32 := 0
  pinCnt : Nat := 0
  value : BitVec 64 := 0
  altGen : BitVec 8 := 0
  altObj : BitVec 40 := 0
  altStale : Bool := false
  loc : BitVec 48 := 0
  blkR : BitVec 4 := 0
  blkC : BitVec 4 := 0
  scbR : BitVec 4 := 0
  scbC : BitVec 4 := 0
  scaxis : BitVec 2 := 0
  repn : BitVec 3 := 0
  reps : BitVec 40 := 0
  ext3 : BitVec 32 := 0
  ext2 : BitVec 32 := 0
  ext1 : BitVec 32 := 0
  ext0 : BitVec 32 := 0
  gen : BitVec 8 := 0
  typ : ObjType := .free
  rank : BitVec 2 := 0
  fmt : BitVec 5 := 0
  swz : BitVec 3 := 0
  rights : BitVec 6 := 0
  wmode : Bool := false
  rwin : Bool := false
  err : Bool := false
  sealedBit : Bool := false
  scfmt : BitVec 2 := 0
  part : BitVec 5 := 0
  tier : BitVec 3 := 0
  shmode : BitVec 2 := 0
  shaxis : BitVec 2 := 0
  shfactor : BitVec 10 := 0
  shbase : BitVec 10 := 0
deriving DecidableEq, Repr

/-- A block a SEQUENCE's map holds: its descriptor without `REFCNT`, which the maps that hold it give (R71). -/
structure Block where
  num : Nat
  addr : BitVec 48
  tier : BitVec 3
  valid : Bool
  /-- The sequence owns the block and writes it in place (R80). -/
  owned : Bool
deriving DecidableEq, Repr

/-- Where the bytes of one version of an object (or of one of its shards or replicas) lie (R48, R71). -/
inductive Layout where
  /-- Whole in carved slice segments from this address. -/
  | slices (base : BitVec 48)
  /-- A page map: one descriptor per 64 KiB page. -/
  | pages (ds : List (BitVec 64))
  /-- A block map of a SEQUENCE. -/
  | blocks (bs : List Block)
  /-- A COUNTER has no element storage. -/
  | nothing
deriving DecidableEq, Repr

/-- The versions of a TENSOR that have storage (R61, R462). -/
inductive Ver where
  | current
  | working
  | kept (v : BitVec 64)
deriving DecidableEq, Repr

/-- Who owns a reservation (R73, R91, R94). -/
inductive Owner where
  | task (tid : Nat)
  | window (part win : Nat)
  | nobody
deriving DecidableEq, Repr

/-- RESERVED slots `lo` to `hi - 1` (R72). -/
structure Resv where
  lo : Nat
  hi : Nat
  owner : Owner
deriving DecidableEq, Repr

/-- A waiter registered on an object, in registration order (R77, R277). -/
structure Waiter where
  target : BitVec 64
  part : Nat
  cont : Nat
deriving DecidableEq, Repr

/-- An object: its number on its home package, its entry, its maps per package and version, and the state its home keeps. -/
structure Obj where
  home : Nat
  num : BitVec 40
  e : Entry
  maps : List (Nat × Ver × Layout) := []
  /-- Pages of the working copy already copied (R61). -/
  dirty : List (Nat × Nat) := []
  /-- Where the page map of the working copy lies when it has one of its own; 0 while it has none. -/
  workLoc : BitVec 48 := 0
  /-- Bindings of the current version and of retained ones (R62, R462). -/
  binds : List (BitVec 64 × Nat) := []
  /-- In-place pins: OPIN and windows (R50, R62). -/
  pagePins : Nat := 0
  resv : List Resv := []
  /-- COMMITTED slot ranges above `VALUE` (R76). -/
  done : List (Nat × Nat) := []
  forkLen : Nat := 0
  waiters : List Waiter := []
  /-- Pins of block ranges (R331). -/
  blkPins : List (Nat × Nat) := []
  /-- Replicas locked by an update in progress, with its operation (R56). -/
  locks : List (Nat × Nat) := []
  /-- The old copies of what was spilled under a pin, by package: they stay until the pins go (R50). -/
  spilled : List (Nat × Layout) := []
deriving DecidableEq, Repr

/-- Attributes a handle register caches (R66): the entry as it was read. -/
structure HReg where
  h : BitVec 64 := 0
  e : Entry := {}
  /-- The binding an OPIN made: none, an in-place pin, or a version (R62). -/
  pinned : Bool := false
  bound : Option (BitVec 64) := none
deriving DecidableEq, Repr

/-- The shared registers of a context as they stood when a token was sent (R151, R355, R395): scalars, handle registers, shape
records. `stamp` numbers the tokens of the context in the order they were sent. -/
structure View where
  stamp : Nat := 0
  s : Vector (BitVec 64) 64 := Vector.replicate 64 0
  h : Vector HReg 32 := Vector.replicate 32 {}
  x : Vector (BitVec 128) 16 := Vector.replicate 16 0
deriving DecidableEq, Repr

/-! ### Core -/

/-- Tile states (R148). -/
inductive TileSt where
  | empty | filling | ready | draining | poisoned
deriving DecidableEq, Repr

/-- A content tag (R362). -/
structure Tag where
  fmt : BitVec 5
  scfmt : BitVec 2
  scbR : BitVec 4
  scbC : BitVec 4
  reblocked : Bool
deriving DecidableEq, Repr

/-- The directions of a copy (R309). -/
inductive CopyKind where
  | cpin | cpinTr | cpinRb | cpq | cpqTr | cpqRb | cpout | cpoutFf | cpqo | cprag | cpragTr | cppeer | cppeerFf | radd | raddFf | cbfill (fmt : BitVec 3)
deriving DecidableEq, Repr

/-- A request an asynchronous unit can repeat: its direction, the two words and the values used at issue (R438). -/
structure Request where
  kind : CopyKind
  pc : BitVec 32 := 0
  word0 : BitVec 32 := 0
  word1 : BitVec 32 := 0
  hreg : HReg := {}
  idx : List (BitVec 64) := []
  shape : BitVec 128 := 0
  scope : BitVec 3 := 0
  /-- The row list of a ragged copy, as its row tile held it at issue (R320). -/
  rows : List (BitVec 64) := []
  /-- The one entry of its group that a replay rewrites, when an error has spoiled that entry alone (R438, R443). -/
  chunk : Option Nat := none
deriving DecidableEq, Repr

/-- A tile-table entry (R148, R323, R362, R438). -/
structure Tile where
  st : TileSt := .empty
  off : Nat := 0
  size : Nat := 0
  swz : BitVec 3 := 0
  tag : Option Tag := none
  /-- The fault record of a POISONED tile and the request to replay. -/
  fault : Option FaultRec := none
  replay : Option Request := none
  /-- Counts detachments (R324): an access started under an older count no longer changes the entry. -/
  epoch : Nat := 0
deriving DecidableEq, Repr

/-- A place of a vector queue: a pending push, an entry, an entry that a replay wrote, or a poisoned entry (R146, R319, R438). -/
inductive QSlot where
  | pending (op : Nat)
  | entry (bits : BitVec 4096)
  | refilled (bits : BitVec 4096) (request : Request)
  | poison (record : FaultRec) (group : Nat) (replay : Option Request)
deriving DecidableEq, Repr

/-- An accumulator tile: row-major cells, cell (i, j) at bits 32(64 i + j) (R150, R370). -/
structure Acc where
  cells : BitVec 131072 := 0
  inUse : Bool := false
  dirty : Bool := false
  int : Bool := false
  lent : Bool := false
  /-- Its cells hold an uncorrectable error (R443). -/
  bad : Bool := false
  /-- THE MODEL'S OWN: the exact terms, in units of 2^-360, that each FP32 cell has summed since its last AZERO, ALOAD or
  accumulate-disabled MMA, which a later MMA may take in another order (R124); empty where the cell starts afresh from its
  value. -/
  hist : List (List Int) := []
deriving DecidableEq, Repr

/-- Bank states (R338). -/
inductive BankSt where
  | empty | filling | ready
deriving DecidableEq, Repr

/-- A codebook bank: entry j at bits 32 j (R338). -/
structure Bank where
  bits : BitVec 8192 := 0
  st : BankSt := .empty
  fmt : BitVec 3 := 0
  count : Nat := 0
  pending : Option FaultRec := none
  source : Option Request := none
  written : Bool := false
deriving DecidableEq, Repr

/-- A barrier instance's identity (R269). -/
structure BarId where
  part : Nat
  ctx : Bool
  scope : BitVec 3
  unit : Nat
  num : Nat
deriving DecidableEq, Repr

/-- A barrier instance (R269): expected count (none while none), arrivals, phase number. -/
structure BarInst where
  id : BarId
  expect : Option Nat
  arrivals : Nat
  /-- Phases completed; the phase bit is its lowest bit. -/
  phase : Nat
deriving DecidableEq, Repr

/-- C's last arrival at a barrier number (R269): the instance, its phase then, and how many times the core has arrived in that phase. -/
structure Arrival where
  num : Nat
  inst : BarId
  phase : Nat
  count : Nat := 1
deriving DecidableEq, Repr

/-- A row of pins the task holds from SQPIN and PXFIND, the newest first (R331). -/
structure PinRange where
  home : Nat
  num : BitVec 40
  gen : BitVec 8
  lo : Nat
  hi : Nat
  /-- Mere and placement of the prefix entry a PXFIND pinned. -/
  prefixOf : Option (Nat × Nat)
deriving DecidableEq, Repr

/-- The task a context runs (R134, R155). -/
structure Task where
  tid : Nat
  launch : Nat
  record : BitVec 512
  part : Nat
  idx : BitVec 64
  codeVer : Option (BitVec 64)
  aq : Nat
  aa : Nat
  at_ : Nat
  ab : Nat
  ak : Nat
  cont : Bool
  /-- It is a catch continuation (R168, R291). -/
  catchRun : Bool
  /-- It is a catch continuation or was recorded by one: no second catch starts (R168, R440). -/
  caught : Bool
  pins : List PinRange
deriving DecidableEq, Repr

/-- A loop stack entry (R261). -/
structure LoopEnt where
  start : Nat
  stop : Nat
  left : Nat
deriving DecidableEq, Repr

/-- What an engine is doing (R136, R434, R444). -/
inductive EngSt where
  /-- No stream: no task, or an engine that a catch continuation does not start. -/
  | absent
  | running
  /-- It has executed NOP.END. -/
  | ended
  /-- It awaits the resolution of the record it wrote. -/
  | awaiting (record : FaultRec)
  /-- Frozen by a violation. -/
  | frozen
deriving DecidableEq, Repr

/-- What an engine stalls on, as `TOKEN_STALL` reports it (R143, R431); of a queue with the entries that it waits for (R427). -/
inductive Stall where
  | token (which : Nat)
  | heldSignal (which : Nat)
  | push (q n : Nat)
  | pop (q n : Nat)
  | pendingPush (q n : Nat)
  | tile (t : Nat)
  | barrier (b : Nat)
  | bank (k : Nat)
  /-- A wait that no watchdog counts. -/
  | other
deriving DecidableEq, Repr

/-- An engine of one context (R135). -/
structure Engine where
  pc : BitVec 32 := 0
  st : EngSt := .absent
  preds : BitVec 8 := 0
  loops : List LoopEnt := []
  g : BitVec 64 := 0
  flags : BitVec 5 := 0
  wdog : Nat := 0
  stall : Option Stall := none
  heldP : Nat := 0
  heldN : Nat := 0
  /-- An SC access waits for the wheel; the stamp it was chosen at (R202). -/
  scWait : Bool := false
  scGrant : Option (BitVec 64) := none
  /-- The barrier phase this engine waits out after its arrival (R270), or its arrival at a rendezvous. -/
  arrived : Bool := false
deriving DecidableEq, Repr

/-- Units of storage behind a spill map (R185, R296): a queue entry backs both groups, an accumulator column one. -/
inductive Backing where
  | queueEntry (q e : Nat)
  | accColumn (a col : Nat)
deriving DecidableEq, Repr

/-- One register context of a core (R135). -/
structure Ctx where
  s : Vector (BitVec 64) 64 := Vector.replicate 64 0
  h : Vector HReg 32 := Vector.replicate 32 {}
  x : Vector (BitVec 128) 16 := Vector.replicate 16 0
  g : Vector (BitVec 512) 8 := Vector.replicate 8 0
  spill : List (Nat × BitVec 64) := []
  backing : List (Nat × Backing) := []
  /-- Token queues: from predecessor and from successor, per engine C, L, M, V, the oldest token first (R139). A token carries the
  registers as they stood when it was sent. -/
  fromPred : Vector (List View) 4 := Vector.replicate 4 []
  fromSucc : Vector (List View) 4 := Vector.replicate 4 []
  /-- What each engine observes of the registers that other engines write (R151). -/
  views : Vector View 4 := Vector.replicate 4 {}
  /-- Tokens sent. -/
  puts : Nat := 0
  shadow : Vector (BitVec 128) 7 := Vector.replicate 7 0
  active : Vector (BitVec 128) 7 := Vector.replicate 7 0
  npos : BitVec 64 := 0
  /-- The MNEST in progress has taken its tokens; a fault gives them back (R376). -/
  nestTok : Bool := false
  c : Engine := {}
  l : Engine := {}
  m : Engine := {}
  v : Engine := {}
  task : Option Task := none
  /-- A KILL or DELIVER has stopped the task, and requests that it issued still run (R439): whether its pins pass on, and whether it
  then leaves its launch. -/
  dying : Option (Bool × Bool) := none
deriving DecidableEq, Repr

/-- The bound group of a core (R378). -/
structure Group where
  qr : Nat
  qc : Nat
  /-- The bind or end waits for the other cores. -/
  binding : Bool
  ending : Bool
  bound : Bool
deriving DecidableEq, Repr

/-- A core (R18). -/
structure Core where
  queues : Vector (List QSlot) 32 := Vector.replicate 32 []
  accs : Vector Acc 16 := Vector.replicate 16 {}
  tiles : Vector Tile 64 := Vector.replicate 64 {}
  banks : Vector Bank 8 := Vector.replicate 8 {}
  /-- Replay descriptors of entry groups that a RETRY has replayed, kept with their queue (R438). -/
  kept : List (Nat × Request) := []
  /-- C's last arrivals, one a barrier number (R269). -/
  lastArr : List Arrival := []
  carve : BitVec 16 := 0
  c0 : Ctx := {}
  c1 : Ctx := {}
  group : Option Group := none
  /-- Context 0 is frozen for a pre-emptor (R169). -/
  frozen : Bool := false
  /-- The pre-emptor work handed to this core and not yet started (R448). -/
  preemptor : Option (Bool × Nat × BitVec 64) := none
  /-- Idle until a tarn-blocked group of a launch retires (R158): of an ordinary record, of a pre-emptor record. -/
  hold : Option (Nat × BitVec 64) := none
  holdP : Option (Nat × BitVec 64) := none
  lastSc : Option (BitVec 64) := none
  /-- `CYCLES` at the last accepted software event (R293). -/
  bboxAt : Option (BitVec 64) := none
deriving DecidableEq, Repr

/-! ### Work in flight -/

/-- The mapping a request resolved with (R206): the object, the packages it reads or stores on, and their maps. -/
structure Resolved where
  home : Nat
  num : BitVec 40
  e : Entry
  maps : List (Nat × Layout)
  /-- A pin held its pages or blocks when it resolved (R282). -/
  pinned : Bool := false
  /-- Its stores go to the working copy of a versioned object (R280). -/
  work : Bool := false
deriving DecidableEq, Repr

/-- A copy in flight (R316, R317). -/
structure CopyOp where
  req : Request
  /-- Tile, queue or bank; the tile's epoch at issue (R324) and its buffer then. -/
  unit : Nat
  epoch : Nat := 0
  off : Nat := 0
  size : Nat := 0
  swz : BitVec 3 := 0
  /-- T (R313). -/
  total : Nat := 0
  rowTile : Option Nat := none
  /-- Data popped from a queue, or read out of a tile by a store without acknowledgement. -/
  data : List (BitVec 8) := []
  res : Option Resolved := none
  /-- The reduction that carries this one's contribution after a merge (R211). -/
  mergedInto : Option Nat := none
  /-- Bytes of its buffer, as offsets of the slice, first and past the last, that later accesses touched (R324). -/
  crossed : List (Nat × Nat) := []
  /-- A replay whose descriptor, already counted, stays with its queue (R438, R463). -/
  again : Bool := false
deriving DecidableEq, Repr

/-- The key-value commands (R350). -/
inductive KvCmd where
  | put | get | del | exist | list
deriving DecidableEq, Repr

/-- A key-value command sent to a namespace slot (R350), with its tile and the buffer then. -/
structure KvOp where
  cmd : KvCmd
  part : Nat
  slot : Nat
  /-- The COUNTER bound to the slot when it issued, which counts its completion (R479). -/
  counter : BitVec 64
  tile : Nat
  epoch : Nat
  off : Nat
  swz : BitVec 3
  max : Nat
  /-- The scalar that takes its status. -/
  st : Option Nat
  key : List (BitVec 8)
  data : List (BitVec 8)
  /-- A reset discards its completion (R483). -/
  abandoned : Bool := false
  /-- Bytes of its buffer, as offsets of the slice, that later accesses touched (R324). -/
  crossed : List (Nat × Nat) := []
deriving DecidableEq, Repr

/-- The five atomic operations (R348). -/
inductive AtomKind where
  | add | min | max | xch
  | cas (new : BitVec 32)
deriving DecidableEq, Repr

/-- An update of a replicated object other than a copy or a bank command (R56): an atomic on an element, whose old value an engine's
scalar or another package waits for, storage bytes that a window, another package or a save stores, or a PUB. -/
inductive Update where
  | atom (n : Nat) (k : AtomKind) (v : BitVec 32) (dst : Option Nat)
  | peerAtom (n : Nat) (k : AtomKind) (v : BitVec 32) (src : BitVec 10) (answers : Bool)
  | raw (off : Nat) (bytes : List (BitVec 8)) (src : Option (BitVec 10))
  /-- A PUB (R279). -/
  | pub
deriving DecidableEq, Repr

/-- What a drain writes to one tile: the buffer as it was at issue, the bytes from offset `at_`, the tag it leaves (R388). -/
structure DrainWrite where
  tile : Nat
  epoch : Nat
  off : Nat
  size : Nat
  swz : BitVec 3
  at_ : Nat
  bytes : List (BitVec 8)
  tag : Option Tag
  /-- The tile's state before the drain issued, which a fault gives back (R8, R154). -/
  was : TileSt := .empty
  /-- Bytes of its buffer, as offsets of the slice, that later accesses touched (R324). -/
  crossed : List (Nat × Nat) := []
deriving DecidableEq, Repr

/-- What an instruction took at issue, which a fault gives back (R8, R110, R154, R403): the entries it popped, G before and after it, and an
accumulator that it zeroed, as it was. -/
structure Undo where
  pops : List (Nat × QSlot) := []
  before : BitVec 64 := 0
  after : BitVec 64 := 0
  acc : Option (Nat × Acc) := none
deriving DecidableEq, Repr

/-- What an issued operation still has to do. -/
inductive OpKind where
  /-- A V result: entries by queue, a mask, a scalar, flags (R401). -/
  | vres (pushes : List (Nat × BitVec 4096)) (mask : Option (Nat × BitVec 512)) (dst : Option (Nat × BitVec 64)) (flags : BitVec 5) (bank : Option Nat)
      (undo : Undo)
  /-- An MMA or constituent: accumulator, its new cells, the tiles (core, tile) and banks it reads, and the step of its nest (R367,
  R376, R381). -/
  | mma (acc : Nat) (cells : BitVec 131072) (reads : List (Nat × Nat)) (banks : List Nat) (flags : BitVec 5) (step : Option (BitVec 64))
  | aload (acc : Nat) (cells : BitVec 131072) (tile : Nat)
  /-- A drain: its accumulator and what it writes (R388). -/
  | drain (acc : Nat) (writes : List DrainWrite) (flags : BitVec 5) (undo : Undo)
  | adrq (acc : Nat) (q : Nat) (entries : List (BitVec 4096)) (flags : BitVec 5) (undo : Undo)
  | copy (c : CopyOp)
  /-- A request done at its home: a destination scalar, a destination handle register (R250, R298). -/
  | home (dst : Option (Nat × BitVec 64)) (hdst : Option (Nat × HReg))
  /-- Bank commands: command and the addresses of the matrices left; a tile to make READY; the object of a handle form (R346). -/
  | bank (cmd : BitVec 4) (mats : List Nat) (tile : Option (Nat × Nat)) (obj : BitVec 64)
  | kv (k : KvOp)
  /-- A store issued without waiting for acknowledgement, out of its tile (R321). -/
  | store (c : CopyOp)
  /-- A replicated update that holds its locks (R56). -/
  | repl (c : CopyOp) (pkgs : List Nat)
  /-- An update of a replicated object that holds its locks, with the copies that it has locked (R56). -/
  | update (r : Resolved) (u : Update)
deriving DecidableEq, Repr

/-- An operation in flight: who issued it, the words it came from, the signals it puts (R141). -/
structure Op where
  id : Nat
  who : EngRef
  tid : Nat
  /-- Partition, launch and node of its task, and its weight at the streamer (R302). -/
  part : Nat
  launch : Nat
  node : BitVec 16
  swt : Nat
  pc : BitVec 32
  word0 : BitVec 32
  word1 : BitVec 32
  /-- The signals it puts; a replay puts none (R438). -/
  sp : Bool
  sn : Bool
  /-- Granules the streamer has still to grant it (R301). -/
  left : Nat
  /-- When the streamer granted the last of them: the order in which it issued its requests (R183). -/
  seq : Nat := 0
  kind : OpKind
  /-- A store whose partition has been reset writes no event (R483). -/
  quiet : Bool := false
deriving DecidableEq, Repr

/-! ### Meres, partitions and the I/O die -/

/-- A prefix-table entry (R83). -/
structure PxEntry where
  num : Nat
  /-- Which placement this is: a pin names the placement it was taken on. -/
  id : Nat
  part : Nat
  key : BitVec 32
  count : Nat
  seqH : BitVec 64
  tokH : BitVec 64
  pins : BitVec 16
  stamp : BitVec 64
deriving DecidableEq, Repr

/-- A mere (R20). -/
structure Mere where
  px : List PxEntry := []
  pxStamp : BitVec 64 := 0
  bbox : List BbEvent := []
  bboxCount : Nat := 0
  latePromo : BitVec 64 := 0
  bboxDrops : BitVec 64 := 0
  eccCorr : BitVec 64 := 0
  resIgnored : BitVec 64 := 0
  /-- The fault queue: the records not yet taken, oldest first, and the producer and consumer indices (R432). -/
  queue : List FaultRec := []
  prod : Nat := 0
  cons : Nat := 0
  seqno : BitVec 16 := 0
  verified : Bool := false
  frozen : Bool := false
  /-- The cycle at which the power controller last paused issue, for a slice of 2,400 cycles (R494). -/
  pausedAt : Option (BitVec 64) := none
deriving DecidableEq, Repr

/-- Node states (R161). -/
inductive NodeSt where
  | free | waiting | ready | running
deriving DecidableEq, Repr

/-- A node-table entry (R161). -/
structure Node where
  /-- Signed (R161). -/
  count : BitVec 18 := 0
  cancel : Bool := false
  st : NodeSt := .free
deriving DecidableEq, Repr

/-- A record the walker has read (R157, R467). -/
structure Launch where
  lid : Nat
  record : BitVec 512
  slot : BitVec 64
  spawned : Bool
  /-- The code object, bound as if pinned (R220). -/
  code : HReg
  succ : List Nat
  /-- Position in walk order of the next iteration; `none` once the last was handed out. -/
  next : Option Nat
  /-- Tasks and continuations alive. -/
  alive : Nat
  failed : Bool
  cancelled : Bool
deriving DecidableEq, Repr

/-- What ready work a level's queue holds (R162). -/
structure Work where
  isCont : Bool
  id : Nat
  prio : Nat
  level : Nat
  /-- Microseconds of the next aging step are counted by the agenda (R163). -/
  age : Nat
  /-- It was the last served at its level: the round robin comes to the others first (R162). -/
  served : Bool := false
deriving DecidableEq, Repr

/-- A recorded continuation (R166, R168). -/
structure Cont where
  cid : Nat
  task : Task
  ctx : Bool
  tarn : Nat
  /-- Resume addresses of C, L, M, V; `none`: the stream stands ended. -/
  pcs : List (Option (BitVec 32))
  s : List (Nat × BitVec 64)
  h : Vector HReg 32
  x : Vector (BitVec 128) 16
  gens : List (BitVec 64)
  /-- When its wait was satisfied, as an order among continuations (R77); `none` while it waits. -/
  satisfied : Option Nat
  enqueued : Bool
deriving DecidableEq, Repr

/-- A window's registers and binding (R470, R471). -/
structure Window where
  wctl : BitVec 64 := 0
  wobj : BitVec 64 := 0
  wcur : BitVec 64 := 0
  wtgt : BitVec 64 := 0xFFFFFFFFFFFFFFFF#64
  badbind : Bool := false
  dropped : Bool := false
  frozen : Bool := false
  /-- The Requester ID whose dropped write froze it. -/
  frid : BitVec 16 := 0
  closed : Bool := false
  bound : Bool := false
  /-- The handle the binding holds, the version it binds, and the slot it reserves. -/
  bobj : BitVec 64 := 0
  bver : Option (BitVec 64) := none
  slot : Option Nat := none
deriving DecidableEq, Repr

/-- A namespace binding slot (R480). -/
structure Namespace where
  nsctl : BitVec 64 := 0
  nsobj : BitVec 64 := 0
  /-- The handle the binding holds. -/
  bobj : BitVec 64 := 0
  badbind : Bool := false
  bound : Bool := false
  unbinding : Bool := false
deriving DecidableEq, Repr

/-- A partition (R481). -/
structure Part where
  cfg : PartCfg
  featAccept : BitVec 256 := 0
  flock : Bool := false
  rstBusy : Bool := false
  /-- A reset waits for the checkpoint to end (R496): whether it clears. -/
  rstLater : Option Bool := none
  rstClear : Bool := false
  lqbad : Bool := false
  lqh : Vector (BitVec 64) 8 := Vector.replicate 8 0
  lqcur : Vector (BitVec 64) 8 := Vector.replicate 8 0
  windows : Vector Window 32 := Vector.replicate 32 {}
  ns : Vector Namespace 64 := Vector.replicate 64 {}
  /-- Established connections (R480). -/
  links : BitVec 16 := 0
  edges : List (Nat × BitVec 16) := []
  nodes : List (Nat × Node) := []
  launches : List Launch := []
  conts : List Cont := []
  work : List Work := []
  /-- Next launch queue of the round robin (R467). -/
  rr : Nat := 0
  /-- Records held while their code's home cannot be reached: queue (8 for SPAWN), slot, record (R156). -/
  held : List (Nat × Nat × BitVec 512) := []
deriving DecidableEq, Repr

/-- A streamer (R301, R302). -/
structure Tarn where
  /-- The requester that opened the last round. -/
  cursor : Nat := 7
  rounds : Nat := 0
  frozen : Bool := false
deriving DecidableEq, Repr

/-- A saved task: everything a restore puts back (R171, R450 to R452); the save object holds its encoding. -/
structure Save where
  sid : Nat
  part : Nat
  obj : BitVec 64
  core : Nat
  at_ : BitVec 64
  /-- The core as it was saved. -/
  image : Core
  /-- Buffers of READY tiles. -/
  bufs : List (Nat × List (BitVec 8))
  /-- Made by a checkpoint (R452). -/
  checkpoint : Bool
  /-- Barrier instances of its open arrivals that have gone back to their start since, as they were (R171, R269). -/
  gone : List BarInst := []
deriving DecidableEq, Repr

/-- What the part sent to its hosts and targets (R350, R470, R473, R489). -/
inductive Sent where
  | msix (part vec : Nat)
  | unsupported (part win : Nat) (rid : BitVec 16)
  | readData (part win : Nat) (bytes : List (BitVec 8))
  | spdm (request : Nat) (words : List (BitVec 256))
  | blackBox (mere : Nat) (events : List BbEvent) (counters : List (BitVec 64))
  | kvCommand (op : Nat)
  | power (watts temp : Nat)
  | peerData (pkg : BitVec 10) (bytes : List (BitVec 8))
  | peerFault (pkg : BitVec 10) (code : Code)
  | peerWake (pkg id : Nat)
  /-- The object manager is notified that a restore refused a save object (R451). -/
  | saveRefused (part sid : Nat)
deriving DecidableEq, Repr

/-- Checkpoint phases (R491). -/
inductive Ckpt where
  | none | waiting | quiesced | copied
deriving DecidableEq, Repr

/-- One move of the agenda: an engine's turn, an event of another agent, or time passing. -/
inductive Action where
  | turn (e : EngRef)
  | event (i : Instr)
  | tick (n : Nat)
  /-- An uncorrectable word appears at a physical address (R443). -/
  | bitError (paddr : Nat)
  /-- A corrected word is counted in a mere (R443). -/
  | corrected (mere : Nat)
  /-- An uncorrectable error appears in an accumulator tile, in an entry of a queue, in a codebook bank (R443). -/
  | badAcc (core a : Nat)
  | badQueue (core q pos : Nat)
  | badBank (core k : Nat)
deriving DecidableEq, Repr

/-- The machine. -/
structure State where
  /-- Memory of this package at its physical addresses, of package q at (q + 1) 2^48 more; in canonical form. -/
  mem : List Host.Cell
  /-- The wheel counter (R202), which `CYCLES` reads. -/
  cycles : BitVec 64
  package : BitVec 10
  cores : List (Nat × Core)
  tarns : List (Nat × Tarn)
  meres : Vector Mere 8
  parts : List Part
  objs : List Obj
  /-- Destroyed objects whose blocks or pages are still pinned or in use (R81, R282, R331). -/
  ghosts : List Obj
  /-- Pages (package, address) that a move in progress has copied to (R462). -/
  moving : List (Nat × Nat)
  /-- The cold end of the tiers' replacement orders: pages of objects (home, number, page) that a late promotion placed there, eligible
  for immediate eviction (R51). -/
  cold : List (Nat × BitVec 40 × Nat)
  /-- The service pairs' pinned system regions, first byte and bytes: fixed at boot and reached by no handle (R446). -/
  system : List (Nat × Nat)
  /-- Meres whose resolutions and object-manager requests wait for a takeover to end (R457). -/
  takeover : List Nat
  ops : List Op
  bars : List BarInst
  saves : List Save
  leader : Option Nat
  claims : List Nat
  electionOpen : Bool
  configured : Bool
  warmHold : Bool
  unreachable : List Nat
  ckpt : Ckpt
  ckptTargets : Nat
  /-- The image of the last checkpoint: memory of HBM4E and LPDDR6, and the objects it holds (R491, R492). -/
  ckptImage : Option (List Host.Cell × List Obj)
  powerLimit : Nat
  temperature : Nat
  /-- The device identity key, derived at power-on, and the alias key of the accepted firmware (R488). -/
  identity : BitVec 384
  aliasKey : BitVec 384
  /-- SPDM: the algorithms are negotiated; the sessions open (R489). -/
  spdmNegotiated : Bool
  /-- Key exchanges that no FINISH has ended. -/
  spdmPending : List (BitVec 16)
  spdmSessions : List (BitVec 16)
  /-- Flash: security version counters of firmware and configuration, and accepted digests (R486). -/
  versions : List Nat
  digests : List (BitVec 384)
  /-- Records whose writer waits for a place in a mere's fault queue (R432). -/
  waitingRecs : List (Nat × FaultRec)
  /-- Words with an uncorrectable error (R443). -/
  badWords : List Nat
  sent : List Sent
  /-- The cycle of the leader's last heartbeat (R455). -/
  heartbeatAt : BitVec 64
  /-- The model's own: the moves to come, whose turn it is, which agent of the default order comes next, and counters of fresh
  numbers. -/
  agenda : List Action
  turn : EngRef
  beat : Nat
  fresh : Nat
  nextId : Nat
deriving DecidableEq, Repr

/-- Why an instruction or a request faults, with the details its record carries (R430, R431). -/
structure Trap where
  code : Code
  info : BitVec 64 := 0
  handle : BitVec 64 := 0
  uclass : UnitClass := .none
  unit : Nat := 0
  errst : Bool := false
  incons : Bool := false
  paddr : BitVec 48 := 0
  /-- A RIGHTS of the partition check, which freezes its master (R444). -/
  freeze : Bool := false
deriving DecidableEq, Repr

/-- Why the machine stops. -/
inductive Fault where
  /-- Raised by a meaning that would reach a physical address which R174 does not populate: safe, since no handle reaches one. -/
  | unpopulated (paddr : Nat)
deriving DecidableEq, Repr

/-- Why a step has no meaning. -/
inductive Refusal where
  /-- Raised by an arm of `exec` that has no meaning yet: safe. -/
  | notModelled (mnemonic : String)
deriving DecidableEq, Repr

/-- The state after power-on reset and before any pair has booted: no partition, no task, memory with nothing listed. -/
def State.reset : State where
  mem := []
  cycles := 0
  package := 0
  cores := []
  tarns := []
  meres := Vector.replicate 8 {}
  parts := []
  objs := []
  ghosts := []
  moving := []
  cold := []
  system := []
  takeover := []
  ops := []
  bars := []
  saves := []
  leader := none
  claims := []
  electionOpen := false
  configured := false
  warmHold := false
  unreachable := []
  ckpt := .none
  ckptTargets := 0
  ckptImage := none
  powerLimit := 3600
  temperature := 0
  identity := 0
  aliasKey := 0
  spdmNegotiated := false
  spdmPending := []
  spdmSessions := []
  versions := [0, 0]
  digests := []
  waitingRecs := []
  badWords := []
  sent := []
  heartbeatAt := 0
  agenda := []
  turn := ⟨0, false, .c⟩
  beat := 0
  fresh := 0
  nextId := 0

end Sys2Proof.Machine
end

