-- ==== Sys2Proof/Machine/Base.lean ====
section
/-! DEFINITION. Accessors of the state, byte memory, the physical map, fault records, the black box and tokens. -/

namespace Sys2Proof

/-- The same context's engine `e`. -/
def EngRef.at (w : EngRef) (e : EngineId) : EngRef := { w with eng := e }

/-- Engine numbers (R110, R430). -/
def EngineId.num : EngineId → Nat
  | .c => 0
  | .l => 1
  | .m => 2
  | .v => 3
/-- The engine of a number. -/
def engOfNum (n : Nat) : EngineId :=
  match n % 4 with
  | 0 => .c
  | 1 => .l
  | 2 => .m
  | _ => .v
/-- The predecessor in the ring (R139). -/
def EngineId.pred : EngineId → EngineId
  | .c => .v
  | .l => .c
  | .m => .l
  | .v => .m
/-- The successor in the ring (R139). -/
def EngineId.succ : EngineId → EngineId
  | .c => .l
  | .l => .m
  | .m => .v
  | .v => .c

end Sys2Proof

namespace Sys2Proof.Machine

open Sys2Proof

/-! ### Sparse tables -/

/-- The entry of a sparse table, or the default. -/
def lookupD {α : Type} (d : α) : List (Nat × α) → Nat → α
  | [], _ => d
  | (k, v) :: t, n => if k = n then v else lookupD d t n

/-- Writes an entry of a sparse table. -/
def upsert {α : Type} : List (Nat × α) → Nat → α → List (Nat × α)
  | [], n, v => [(n, v)]
  | (k, w) :: t, n, v => if k = n then (n, v) :: t else (k, w) :: upsert t n v

/-- The numbers below `n`, in ascending order. -/
def below (n : Nat) : List Nat := List.range n

/-! ### Memory -/

/-- A byte of memory: an address that is not listed reads as 0. -/
def memByte : List Host.Cell → Nat → Byte
  | [], _ => 0
  | (k, v) :: t, a => if k = a then v else memByte t a

/-- `n` bytes from address `a` of a list whose addresses are at or above `a`. -/
def expand : List Host.Cell → Nat → Nat → List Byte
  | _, _, 0 => []
  | [], a, n + 1 => 0 :: expand [] (a + 1) n
  | (k, v) :: t, a, n + 1 => if k = a then v :: expand t (a + 1) n else 0 :: expand ((k, v) :: t) (a + 1) n

/-- `n` bytes of memory from address `a`. -/
def memRead (m : List Host.Cell) (a n : Nat) : List Byte := expand (m.dropWhile (fun c => c.1 < a)) a n

/-- The cells of bytes stored from address `a`: a zero byte is not listed. -/
def cellsOf : Nat → List Byte → List Host.Cell
  | _, [] => []
  | a, b :: bs => if b = 0 then cellsOf (a + 1) bs else (a, b) :: cellsOf (a + 1) bs

/-- Stores bytes from address `a` and keeps the canonical form. -/
def memWrite (m : List Host.Cell) (a : Nat) (bs : List Byte) : List Host.Cell :=
  m.takeWhile (fun c => c.1 < a) ++ cellsOf a bs ++ (m.dropWhile (fun c => c.1 < a)).dropWhile (fun c => c.1 < a + bs.length)

/-- Addresses strictly rising from `lo` and no zero byte listed. -/
def memWfFrom : Nat → List Host.Cell → Bool
  | _, [] => true
  | lo, (k, v) :: t => decide (lo ≤ k) && !(v == 0) && memWfFrom (k + 1) t

/-- The canonical form of memory. -/
def Memory.wf (m : List Host.Cell) : Bool := memWfFrom 0 m

/-- Reads memory of the machine. -/
def State.bytes (s : State) (a n : Nat) : List Byte := memRead s.mem a n
/-- Reads a little-endian word of `n` bytes. -/
def State.word (s : State) (a n : Nat) : Nat := leNat (s.bytes a n)
/-- Stores bytes: a word they reach holds no uncorrectable error any more (R443). -/
def State.store (s : State) (a : Nat) (bs : List Byte) : State :=
  { s with mem := memWrite s.mem a bs, badWords := s.badWords.filter (fun w => !decide (w < a + bs.length ∧ a < w + 8)) }

/-- The memory address of a physical address of package `q` (R174): this package's own map comes first. -/
def State.phys (s : State) (q : Nat) (a : Nat) : Nat :=
  if q = s.package.toNat then a % 2 ^ 48 else (q + 1) * 2 ^ 48 + a % 2 ^ 48

/-- The address of a byte of a core's slice (R174). -/
def sliceAddr (core off : Nat) : Nat := core * 0x100000 + off

/-- Whether R174 populates a physical address. -/
def populated (a : Nat) : Bool :=
  let a := a % 2 ^ 48
  decide (a < 0x40000000) ||
  (decide (0x010000000000 ≤ a ∧ a < 0x018000000000) && decide ((a - 0x010000000000) % 0x1000000000 < Config.hbmBytes)) ||
  (decide (0x020000000000 ≤ a ∧ a < 0x030000000000) && decide ((a - 0x020000000000) % 0x4000000000 < Config.lpBytes))

/-! ### Cores, contexts and engines -/

/-- A core (R18); a core that nothing has touched is at its reset value. -/
def State.core (s : State) (k : Nat) : Core := lookupD {} s.cores k
/-- Writes a core. -/
def State.setCore (s : State) (k : Nat) (c : Core) : State := { s with cores := upsert s.cores k c }
/-- The tarn of a core (R16). -/
def tarnOf (core : Nat) : Nat := core / 4
/-- The mere of a core (R16). -/
def mereOf (core : Nat) : Nat := core / 128 % 8
/-- A streamer. -/
def State.tarn (s : State) (t : Nat) : Tarn := lookupD {} s.tarns t
/-- Writes a streamer. -/
def State.setTarn (s : State) (t : Nat) (x : Tarn) : State := { s with tarns := upsert s.tarns t x }
/-- A mere; numbers are taken modulo 8. -/
def State.mere (s : State) (m : Nat) : Mere := s.meres[m % 8]'(Nat.mod_lt _ (by decide))
/-- Writes a mere. -/
def State.setMere (s : State) (m : Nat) (x : Mere) : State := { s with meres := s.meres.set (m % 8) x (Nat.mod_lt _ (by decide)) }

/-- A register context of a core. -/
def Core.ctx (c : Core) (b : Bool) : Ctx := if b then c.c1 else c.c0
/-- Writes a register context. -/
def Core.setCtx (c : Core) (b : Bool) (x : Ctx) : Core := if b then { c with c1 := x } else { c with c0 := x }
/-- An engine of a context. -/
def Ctx.eng (c : Ctx) : EngineId → Engine
  | .c => c.c
  | .l => c.l
  | .m => c.m
  | .v => c.v
/-- Writes an engine of a context. -/
def Ctx.setEng (c : Ctx) (e : EngineId) (x : Engine) : Ctx :=
  match e with
  | .c => { c with c := x }
  | .l => { c with l := x }
  | .m => { c with m := x }
  | .v => { c with v := x }

/-- The context of an engine. -/
def State.ctx (s : State) (w : EngRef) : Ctx := (s.core w.core).ctx w.ctx
/-- Writes the context of an engine. -/
def State.setCtx (s : State) (w : EngRef) (x : Ctx) : State := s.setCore w.core ((s.core w.core).setCtx w.ctx x)
/-- An engine. -/
def State.eng (s : State) (w : EngRef) : Engine := (s.ctx w).eng w.eng
/-- Writes an engine. -/
def State.setEng (s : State) (w : EngRef) (x : Engine) : State := s.setCtx w ((s.ctx w).setEng w.eng x)
theorem bv6_lt (i : BitVec 6) : i.toNat < 64 := i.isLt
theorem bv5_lt (i : BitVec 5) : i.toNat < 32 := i.isLt
theorem bv4_lt (i : BitVec 4) : i.toNat < 16 := i.isLt
theorem bv3_lt (i : BitVec 3) : i.toNat < 8 := i.isLt
theorem engNum_lt (e : EngineId) : e.num < 4 := by cases e <;> decide

/-- Reads a scalar register (R151). -/
def Ctx.sget (c : Ctx) (i : BitVec 6) : BitVec 64 := c.s[i.toNat]'(bv6_lt i)
/-- Writes a scalar register. -/
def Ctx.sset (c : Ctx) (i : BitVec 6) (v : BitVec 64) : Ctx := { c with s := c.s.set i.toNat v (bv6_lt i) }
/-- A scalar register of an engine's context, as its owner has written it. -/
def State.sreg (s : State) (w : EngRef) (i : BitVec 6) : BitVec 64 := (s.ctx w).sget i
/-- Writes a scalar register of an engine's context. -/
def State.setS (s : State) (w : EngRef) (i : BitVec 6) (v : BitVec 64) : State := s.setCtx w ((s.ctx w).sset i v)
/-- A handle register, as it stands. -/
def State.hreg (s : State) (w : EngRef) (i : BitVec 5) : HReg := (s.ctx w).h[i.toNat]'(bv5_lt i)
/-- Writes a handle register. -/
def State.setH (s : State) (w : EngRef) (i : BitVec 5) (v : HReg) : State :=
  s.setCtx w { s.ctx w with h := (s.ctx w).h.set i.toNat v (bv5_lt i) }
/-- A shape record, as it stands. -/
def State.xreg (s : State) (w : EngRef) (i : BitVec 4) : BitVec 128 := (s.ctx w).x[i.toNat]'(bv4_lt i)
/-- Writes a shape record. -/
def State.setX (s : State) (w : EngRef) (i : BitVec 4) (v : BitVec 128) : State :=
  s.setCtx w { s.ctx w with x := (s.ctx w).x.set i.toNat v (bv4_lt i) }
/-- Reads a guard mask; g0 reads as 0 (R398). -/
def State.guard (s : State) (w : EngRef) (i : BitVec 3) : BitVec 512 :=
  if i = 0 then 0 else (s.ctx w).g[i.toNat]'(bv3_lt i)
/-- Reads a predicate of the engine (R152). -/
def Engine.pred (e : Engine) (p : BitVec 3) : Bool := e.preds.getLsbD p.toNat
/-- Writes a predicate of the engine. -/
def Engine.setPred (e : Engine) (p : BitVec 3) (v : Bool) : Engine :=
  { e with preds := if v then e.preds ||| (1#8 <<< p.toNat) else e.preds &&& ~~~(1#8 <<< p.toNat) }

/-- A tile-table entry of a core. -/
def Core.tile (c : Core) (t : Nat) : Tile := c.tiles[t % 64]'(Nat.mod_lt _ (by decide))
/-- Writes a tile-table entry. -/
def Core.setTile (c : Core) (t : Nat) (x : Tile) : Core := { c with tiles := c.tiles.set (t % 64) x (Nat.mod_lt _ (by decide)) }
/-- A vector queue of a core, the oldest place first. -/
def Core.queue (c : Core) (q : Nat) : List QSlot := c.queues[q % 32]'(Nat.mod_lt _ (by decide))
/-- Writes a vector queue. -/
def Core.setQueue (c : Core) (q : Nat) (x : List QSlot) : Core := { c with queues := c.queues.set (q % 32) x (Nat.mod_lt _ (by decide)) }
/-- An accumulator tile. -/
def Core.acc (c : Core) (a : Nat) : Acc := c.accs[a % 16]'(Nat.mod_lt _ (by decide))
/-- Writes an accumulator tile. -/
def Core.setAcc (c : Core) (a : Nat) (x : Acc) : Core := { c with accs := c.accs.set (a % 16) x (Nat.mod_lt _ (by decide)) }
/-- An accumulator tile that an instruction has zeroed (R384, R388). -/
def Acc.zeroed (x : Acc) : Acc := { x with cells := 0, inUse := true, dirty := false, bad := false, hist := [] }
/-- A codebook bank. -/
def Core.bank (c : Core) (k : Nat) : Bank := c.banks[k % 8]'(Nat.mod_lt _ (by decide))
/-- Writes a codebook bank. -/
def Core.setBank (c : Core) (k : Nat) (x : Bank) : Core := { c with banks := c.banks.set (k % 8) x (Nat.mod_lt _ (by decide)) }
/-- Applies a function to a core. -/
def State.modCore (s : State) (k : Nat) (f : Core → Core) : State := s.setCore k (f (s.core k))
/-- Applies a function to an engine. -/
def State.modEng (s : State) (w : EngRef) (f : Engine → Engine) : State := s.setEng w (f (s.eng w))

/-- A field of a record: bits `hi` to `lo`, as a number. -/
def field {n : Nat} (r : BitVec n) (hi lo : Nat) : Nat := (r.extractLsb' lo (hi - lo + 1)).toNat

/-- The task of an engine's context. -/
def State.task (s : State) (w : EngRef) : Option Task := (s.ctx w).task
/-- The task's identity, or 0. -/
def State.tid (s : State) (w : EngRef) : Nat := match s.task w with | some t => t.tid | none => 0
/-- The partition of an engine's task; 0 without a task. -/
def State.partOf (s : State) (w : EngRef) : Nat := match s.task w with | some t => t.part | none => 0

/-- A partition by number. -/
def State.part? (s : State) (p : Nat) : Option Part := s.parts.find? (fun x => x.cfg.id == p)
/-- Applies a function to a partition. -/
def State.modPart (s : State) (p : Nat) (f : Part → Part) : State :=
  { s with parts := s.parts.map (fun x => if x.cfg.id == p then f x else x) }
/-- The home mere of a partition: the one that holds its lowest-numbered tarn (R433). -/
def Part.homeMere (p : Part) : Nat := p.cfg.tarns.foldl min 255 / 32
/-- The home mere of a partition by number. -/
def State.homeMere (s : State) (p : Nat) : Nat := match s.part? p with | some x => x.homeMere | none => 0

/-- A fresh number for an operation, a task or a record. -/
def State.freshId (s : State) : Nat × State := (s.nextId, { s with nextId := s.nextId + 1 })
/-- The next draw of the free values. -/
def State.draw (s : State) (n : Nat) : Nat × State := (s.fresh, { s with fresh := s.fresh + n })

/-! ### Codes and records -/

/-- The 16-bit value of a code (R428). -/
def Code.val : Code → BitVec 16
  | .illegalOp => 0x0001 | .illegalEnc => 0x0002 | .engineMismatch => 0x0003 | .allot => 0x0004
  | .staleHandle => 0x0010 | .objType => 0x0011 | .rights => 0x0012 | .bounds => 0x0013
  | .seqSealed => 0x0014 | .seqOrder => 0x0015 | .missingView => 0x0016 | .missingObject => 0x0017
  | .counterRange => 0x0018 | .scScope => 0x0019 | .noSpace => 0x001A
  | .shapeAlign => 0x0020 | .copyGeom => 0x0021 | .tileState => 0x0022
  | .queueOver => 0x0030 | .queueUnder => 0x0031 | .tokenStall => 0x0032 | .parkFull => 0x0033
  | .loopDepth => 0x0034 | .barCount => 0x0035
  | .cbIndex => 0x0040 | .cbState => 0x0041 | .mmaFormat => 0x0042 | .accState => 0x0043
  | .coopGeom => 0x0044 | .fpTrap => 0x0045 | .swTrap => 0x0050 | .eccUncorr => 0x0051
  | .launchInvalid => 0x0060 | .storeFailed => 0x0061 | .nodeFailed => 0x0062 | .replicaDropped => 0x0063
  | .machineCheck => 0x00F0

/-- `KIND` (R429). -/
def RecKind.val : RecKind → BitVec 3
  | .precise => 0 | .poison => 1 | .event => 2 | .freeze => 3 | .machineCheck => 4
/-- `MASTER` (R430). -/
def Master.val : Master → BitVec 3
  | .engine => 0 | .streamer => 1 | .walker => 2 | .requester => 3 | .service => 4
/-- `UCLASS` (R430). -/
def UnitClass.val : UnitClass → BitVec 2
  | .none => 0 | .tile => 1 | .queue => 2 | .bank => 3

/-- The 512 bits of a fault record (R430). -/
def FaultRec.bits (r : FaultRec) : BitVec 512 :=
  r.cycles ++ r.handle ++ r.info ++ r.word1 ++ r.word0 ++ r.pc ++ r.node ++ r.rid ++ 0#64 ++
  BitVec.ofNat 10 r.core ++ BitVec.ofNat 2 r.engine.num ++ BitVec.ofBool r.ctx ++ BitVec.ofNat 5 r.part ++ r.uclass.val ++
  BitVec.ofNat 6 r.unit ++ r.kind.val ++ r.master.val ++ r.seqno ++ r.code.val ++ 0#13 ++ BitVec.ofBool r.errst ++
  BitVec.ofBool r.incons ++ BitVec.ofBool r.detach ++ r.paddr

/-- The 256 bits of a black-box event (R458). -/
def BbEvent.bits (e : BbEvent) : BitVec 256 :=
  e.cycles ++ e.payload ++ e.etype ++ e.ecode ++ e.seqno ++ BitVec.ofNat 10 e.core ++ BitVec.ofBool e.ctx ++
  BitVec.ofNat 5 e.part ++ e.tag ++ BitVec.ofNat 2 e.engine.num ++ BitVec.ofBool e.svc ++ 0#53

/-- Adds one to a counter of the black box, which saturates (R460). -/
def satInc (x : BitVec 64) : BitVec 64 := if x = BitVec.allOnes 64 then x else x + 1

/-- Writes an event to a mere's black box: 4,096 events, the newest last (R458). An event that no compute core made carries
the mere's number. -/
def State.bbox (s : State) (m : Nat) (e : BbEvent) : State :=
  let x := s.mere m
  let e := if e.svc then { e with core := m } else e
  s.setMere m { x with
    bbox := (x.bbox ++ [{ e with cycles := s.cycles }]).drop (x.bbox.length + 1 - 4096)
    bboxCount := x.bboxCount + 1 }

/-- Whether a mere's fault queue has a place (R432). -/
def State.queueRoom (s : State) (m : Nat) : Bool := decide ((s.mere m).queue.length < 1024)

/-- Writes a record to a mere's fault queue with the next `SEQNO` and the black-box event 0x0001 (R430, R432, R459).
The caller has made sure of a place, and a writer that finds none waits. -/
def State.writeRec (s : State) (m : Nat) (r : FaultRec) : FaultRec × State :=
  let x := s.mere m
  let r := { r with cycles := s.cycles, seqno := x.seqno }
  let s := s.setMere m { x with queue := x.queue ++ [r], prod := (x.prod + 1) % 1024, seqno := x.seqno + 1 }
  (r, s.bbox m { payload := r.info, etype := 0x0001, ecode := r.code.val, seqno := r.seqno, core := r.core, ctx := r.ctx,
                 part := r.part, engine := r.engine, svc := r.master != .engine && r.master != .streamer })

/-! ### Tokens -/

/-- The queue of tokens from the predecessor of `e`, the oldest first; from its successor. -/
def Ctx.predQ (c : Ctx) (e : EngineId) : List View := c.fromPred[e.num]'(engNum_lt e)
@[inherit_doc Ctx.predQ]
def Ctx.succQ (c : Ctx) (e : EngineId) : List View := c.fromSucc[e.num]'(engNum_lt e)
/-- Tokens that an engine may take: from its predecessor, from its successor. -/
def Ctx.tokP (c : Ctx) (e : EngineId) : Nat := (c.predQ e).length
@[inherit_doc Ctx.tokP]
def Ctx.tokS (c : Ctx) (e : EngineId) : Nat := (c.succQ e).length
/-- Writes the queue from the predecessor of `e`. -/
def Ctx.setPredQ (c : Ctx) (e : EngineId) (l : List View) : Ctx := { c with fromPred := c.fromPred.set e.num l (engNum_lt e) }
/-- Writes the queue from the successor of `e`. -/
def Ctx.setSuccQ (c : Ctx) (e : EngineId) (l : List View) : Ctx := { c with fromSucc := c.fromSucc.set e.num l (engNum_lt e) }

/-- The shared registers as they stand now, which a token sent now carries. -/
def Ctx.now (c : Ctx) : View := { stamp := c.puts + 1, s := c.s, h := c.h, x := c.x }
/-- What an engine observes of the other engines' registers. -/
def Ctx.viewOf (c : Ctx) (e : EngineId) : View := c.views[e.num]'(engNum_lt e)
/-- Writes what an engine observes. -/
def Ctx.setView (c : Ctx) (e : EngineId) (v : View) : Ctx := { c with views := c.views.set e.num v (engNum_lt e) }
/-- The later of a view and the one a token carries. -/
def View.later (v : View) : Option View → View
  | some u => if v.stamp < u.stamp then u else v
  | none => v
/-- What an instruction of `e` with dependency bits `dp` observes once it has taken its tokens (R140, R151). -/
def Ctx.look (c : Ctx) (e : EngineId) (dp : Dep) : View :=
  let v := if dp.wp then (c.viewOf e).later (c.predQ e).head? else c.viewOf e
  if dp.wn then v.later (c.succQ e).head? else v
/-- A context whose engines all observe its registers as they stand. -/
def Ctx.open_ (c : Ctx) : Ctx := { c with views := Vector.replicate 4 c.now, puts := c.puts + 1 }

/-- Sends a token into the queue from the predecessor of `e`, to its far end. -/
def Ctx.sendP (c : Ctx) (e : EngineId) : Ctx := { c.setPredQ e (c.predQ e ++ [c.now]) with puts := c.puts + 1 }
/-- Sends a token into the queue from the successor of `e`. -/
def Ctx.sendS (c : Ctx) (e : EngineId) : Ctx := { c.setSuccQ e (c.succQ e ++ [c.now]) with puts := c.puts + 1 }

/-- Puts one token into the queue to the predecessor; a full queue of 15 holds the signal (R139, R141). -/
def Ctx.putP (c : Ctx) (e : EngineId) : Ctx :=
  if c.tokS e.pred < 15 then c.sendS e.pred
  else c.setEng e { c.eng e with heldP := (c.eng e).heldP + 1 }
/-- Puts one token into the queue to the successor (R139, R141). -/
def Ctx.putS (c : Ctx) (e : EngineId) : Ctx :=
  if c.tokP e.succ < 15 then c.sendP e.succ
  else c.setEng e { c.eng e with heldN := (c.eng e).heldN + 1 }
/-- Puts the signals of a completed instruction (R140). -/
def Ctx.signal (c : Ctx) (e : EngineId) (sp sn : Bool) : Ctx :=
  let c := if sp then c.putP e else c
  if sn then c.putS e else c
/-- Takes the tokens of an issuing instruction (R140), and observes what they carry (R151). -/
def Ctx.take (c : Ctx) (e : EngineId) (dp : Dep) : Ctx :=
  let c := c.setView e (c.look e dp)
  let c := if dp.wp then c.setPredQ e (c.predQ e).tail else c
  if dp.wn then c.setSuccQ e (c.succQ e).tail else c
/-- The condition an instruction's token wait stalls on (R140, R431). -/
def Ctx.tokenWait (c : Ctx) (e : EngineId) (dp : Dep) : Option Stall :=
  if dp.wp && c.tokP e == 0 then some (.token 0)
  else if dp.wn && c.tokS e == 0 then some (.token 1)
  else none

/-! ### What an instruction reads of its context's registers (R151, R355, R395) -/

/-- The engine that owns a scalar register (R151). -/
def scalarOwner (i : BitVec 6) : EngineId :=
  if i.toNat < 32 then .c else if i.toNat < 44 then .l else if i.toNat < 52 then .m else .v
/-- A scalar register as an instruction of `w` with dependency bits `dp` reads it: the engine's own as it stands, another engine's as
the latest token taken has brought it (R151). -/
def State.sval (s : State) (w : EngRef) (dp : Dep) (i : BitVec 6) : BitVec 64 :=
  if scalarOwner i = w.eng then s.sreg w i else ((s.ctx w).look w.eng dp).s[i.toNat]'(bv6_lt i)
/-- A handle register as an instruction reads it. L writes it (R355); the binding is C's attribute and is read as it stands, which
R283 allows an instruction that took no token (DESIGN CHOICE, log 120). -/
def State.hval (s : State) (w : EngRef) (dp : Dep) (i : BitVec 5) : HReg :=
  let r := s.hreg w i
  if w.eng = .l then r else { ((s.ctx w).look w.eng dp).h[i.toNat]'(bv5_lt i) with pinned := r.pinned, bound := r.bound }
/-- A shape record as an instruction reads it; L writes it (R395). -/
def State.xval (s : State) (w : EngRef) (dp : Dep) (i : BitVec 4) : BitVec 128 :=
  if w.eng = .l then s.xreg w i else ((s.ctx w).look w.eng dp).x[i.toNat]'(bv4_lt i)

/-! ### Operations in flight -/

/-- Adds an operation issued by `w`. -/
def State.addOp (s : State) (o : Op) : State := { s with ops := s.ops ++ [o] }
/-- An operation by number. -/
def State.op? (s : State) (id : Nat) : Option Op := s.ops.find? (fun o => o.id == id)
/-- Removes an operation. -/
def State.dropOp (s : State) (id : Nat) : State := { s with ops := s.ops.filter (fun o => o.id != id) }
/-- Replaces an operation. -/
def State.putOp (s : State) (o : Op) : State := { s with ops := s.ops.map (fun x => if x.id == o.id then o else x) }
/-- Operations of one task that are in flight. -/
def State.opsOf (s : State) (tid : Nat) : List Op := s.ops.filter (fun o => o.tid == tid)
/-- Whether the context still runs the task that issued an operation. -/
def State.alive (s : State) (o : Op) : Bool :=
  match s.task o.who with
  | some t => t.tid == o.tid
  | none => false

/-- Ends an operation: it leaves the list and puts its signals in the context of its task (R141). -/
def State.finish (s : State) (o : Op) : State :=
  let s := s.dropOp o.id
  if s.alive o then s.setCtx o.who ((s.ctx o.who).signal o.who.eng o.sp o.sn) else s

/-- Whether an operation only waits for an acknowledgement and does not hold its task up (R137, R321). -/
def Op.fireForget (o : Op) : Bool := match o.kind with | .store _ => true | _ => false

end Sys2Proof.Machine
end

