-- ==== Sys2Proof/Machine/Objects.lean ====
section
/-! DEFINITION. Objects: entries, resolution, storage geometry, versions, pins, blocks and slots. -/

namespace Sys2Proof.Machine

open Sys2Proof

/-! ### Handles and entries -/

/-- `HOME` of a handle (R38). -/
def hHome (h : BitVec 64) : Nat := field h 63 48
/-- `OBJ` of a handle. -/
def hObj (h : BitVec 64) : BitVec 40 := h.extractLsb' 8 40
/-- `GEN` of a handle. -/
def hGen (h : BitVec 64) : BitVec 8 := h.extractLsb' 0 8
/-- The handle of an object. -/
def Obj.handle (o : Obj) : BitVec 64 := BitVec.ofNat 16 o.home ++ o.num ++ o.e.gen

/-- `TYPE` (R42). -/
def ObjType.val : ObjType → BitVec 2
  | .free => 0 | .tensor => 1 | .sequence => 2 | .counter => 3
/-- The type of a code. -/
def ObjType.ofVal (v : BitVec 2) : ObjType :=
  match v.toNat with
  | 0 => .free | 1 => .tensor | 2 => .sequence | _ => .counter

/-- The 512 bits of an entry (R42). -/
def Entry.bits (e : Entry) : BitVec 512 :=
  e.next ++ BitVec.ofNat 16 e.pinCnt ++ 0#16 ++ e.value ++ e.altGen ++ e.altObj ++ BitVec.ofBool e.altStale ++ 0#31 ++
  e.loc ++ e.blkR ++ e.blkC ++ e.scbR ++ e.scbC ++ e.scaxis ++ e.repn ++ 0#3 ++ e.reps ++ e.ext3 ++ e.ext2 ++ e.ext1 ++
  e.ext0 ++ e.gen ++ e.typ.val ++ e.rank ++ e.fmt ++ e.swz ++ e.rights ++ BitVec.ofBool e.wmode ++ BitVec.ofBool e.rwin ++
  BitVec.ofBool e.err ++ BitVec.ofBool e.sealedBit ++ e.scfmt ++ e.part ++ e.tier ++ e.shmode ++ e.shaxis ++ e.shfactor ++ e.shbase

/-- Reads an entry from its 512 bits (R42). -/
def Entry.ofBits (b : BitVec 512) : Entry where
  next := b.extractLsb' 480 32
  pinCnt := field b 479 464
  value := b.extractLsb' 384 64
  altGen := b.extractLsb' 376 8
  altObj := b.extractLsb' 336 40
  altStale := b.getLsbD 335
  loc := b.extractLsb' 256 48
  blkR := b.extractLsb' 252 4
  blkC := b.extractLsb' 248 4
  scbR := b.extractLsb' 244 4
  scbC := b.extractLsb' 240 4
  scaxis := b.extractLsb' 238 2
  repn := b.extractLsb' 235 3
  reps := b.extractLsb' 192 40
  ext3 := b.extractLsb' 160 32
  ext2 := b.extractLsb' 128 32
  ext1 := b.extractLsb' 96 32
  ext0 := b.extractLsb' 64 32
  gen := b.extractLsb' 56 8
  typ := ObjType.ofVal (b.extractLsb' 54 2)
  rank := b.extractLsb' 52 2
  fmt := b.extractLsb' 47 5
  swz := b.extractLsb' 44 3
  rights := b.extractLsb' 38 6
  wmode := b.getLsbD 37
  rwin := b.getLsbD 36
  err := b.getLsbD 35
  sealedBit := b.getLsbD 34
  scfmt := b.extractLsb' 32 2
  part := b.extractLsb' 27 5
  tier := b.extractLsb' 24 3
  shmode := b.extractLsb' 22 2
  shaxis := b.extractLsb' 20 2
  shfactor := b.extractLsb' 10 10
  shbase := b.extractLsb' 0 10

/-- Rights bits (R44), as positions of the `RIGHTS` field. -/
inductive Right where
  | pin | execute | publish | append | write | read
deriving DecidableEq, Repr

/-- Whether an entry grants a right (R44). -/
def Entry.grants (e : Entry) (r : Right) : Bool :=
  match r with
  | .pin => e.rights.getLsbD 0
  | .execute => e.rights.getLsbD 1
  | .publish => e.rights.getLsbD 2
  | .append => e.rights.getLsbD 3
  | .write => e.rights.getLsbD 4
  | .read => e.rights.getLsbD 5

/-- Bits per element of a format (R43); 0 for a reserved code. -/
def fmtBits (f : BitVec 5) : Nat :=
  match f.toNat with
  | 0 | 8 => 32
  | 1 | 2 => 16
  | 3 | 4 | 9 => 8
  | 5 | 6 => 6
  | 7 | 10 => 4
  | n => if 16 ≤ n ∧ n ≤ 23 then n - 15 else 0

/-- Rank, 1 to 4. -/
def Entry.rk (e : Entry) : Nat := e.rank.toNat + 1
/-- Extent of dimension `d`; 1 at and above the rank. -/
def Entry.ext (e : Entry) (d : Nat) : Nat :=
  if d < e.rk then
    (match d with | 0 => e.ext0.toNat | 1 => e.ext1.toNat | 2 => e.ext2.toNat | _ => e.ext3.toNat)
  else 1
/-- The extent field of dimension `d`, whatever the rank. -/
def Entry.extRaw (e : Entry) (d : Nat) : Nat :=
  match d with | 0 => e.ext0.toNat | 1 => e.ext1.toNat | 2 => e.ext2.toNat | _ => e.ext3.toNat
/-- Elements of the object. -/
def Entry.elems (e : Entry) : Nat := e.ext 0 * e.ext 1 * e.ext 2 * e.ext 3
/-- Element width in bits. -/
def Entry.w (e : Entry) : Nat := fmtBits e.fmt
/-- Capacity of a SEQUENCE: the extent of its slot dimension (R70). -/
def Entry.capacity (e : Entry) : Nat := e.extRaw e.rank.toNat
/-- Elements of a row of a SEQUENCE: the product of the lower extents (R70). -/
def Entry.rowElems (e : Entry) : Nat :=
  (if 0 < e.rank.toNat then e.ext0.toNat else 1) * (if 1 < e.rank.toNat then e.ext1.toNat else 1) * (if 2 < e.rank.toNat then e.ext2.toNat else 1)
/-- ROWB: a row's element bits in bytes, rounded up to a multiple of 64 (R70). -/
def Entry.rowb (e : Entry) : Nat := roundUp (ceilDiv (e.rowElems * e.w) 8) 64

/-- Packages of the replicas in use (R42). -/
def Entry.replicas (e : Entry) : List Nat :=
  (List.range (min e.repn.toNat 4)).map (fun i => (e.reps.extractLsb' (30 - 10 * i) 10).toNat)

/-- Whether an entry meets R46; a reserved format, swizzle or scale code also breaks it (R43, R178). -/
def Entry.consistent (e : Entry) : Bool :=
  let extOk := (List.range 4).all (fun d => if d < e.rk then decide (1 ≤ e.extRaw d) else decide (e.extRaw d = 0))
  let sb := (e.scbR.toNat, e.scbC.toNat)
  let scOk :=
    if e.scfmt = 0 then decide (e.scaxis = 0)
    else [3, 4, 5, 6, 7, 9, 10].contains e.fmt.toNat && decide (e.scfmt ≠ 3) &&
      ((sb == (0, 5) || sb == (0, 7)) && decide (e.scaxis = 1) || (sb == (5, 0) || sb == (7, 0)) && decide (e.scaxis = 2) ||
       sb == (7, 7) && decide (e.scaxis = 3))
  let bits := 2 ^ (e.blkR.toNat + e.blkC.toNat) * e.w
  let shardOk := decide (e.shaxis.toNat < e.rk) && decide (e.shbase.toNat + e.shfactor.toNat ≤ 1023)
  match e.typ with
  | .free => false
  | .counter =>
    shardOk && decide (e.rank = 0 ∧ e.fmt = 0 ∧ e.ext0 = 0 ∧ e.ext1 = 0 ∧ e.ext2 = 0 ∧ e.ext3 = 0 ∧ e.blkR = 0 ∧ e.blkC = 0 ∧ e.shmode = 0 ∧ e.scfmt = 0 ∧
      e.scaxis = 0 ∧ e.repn = 0) && decide (e.altObj = 0)
  | .sequence =>
    extOk && shardOk && decide (e.w ≠ 0) && decide (e.shmode = 0 ∧ e.repn = 0 ∧ e.wmode = false ∧ e.scfmt = 0 ∧ e.scaxis = 0 ∧ e.swz = 0 ∧ e.blkR = 0 ∧ e.blkC = 0) &&
    decide (e.capacity % 16 = 0) && decide (e.altObj = 0)
  | .tensor =>
    extOk && decide (e.w ≠ 0) && decide (e.swz.toNat ≤ 4) && scOk && (decide (e.rank ≠ 0) || decide (e.blkR = 0)) &&
    decide (512 ≤ bits ∧ bits ≤ 524288) &&
    shardOk && decide (e.shmode ≠ 3) &&
    decide (e.repn.toNat ≤ 4) && decide (e.tier.toNat ≤ 5)

/-- An object of the table by its home and number. -/
def State.obj? (s : State) (home : Nat) (num : BitVec 40) : Option Obj := s.objs.find? (fun o => o.home == home && o.num == num)
/-- The object a handle names, by home and number alone. -/
def State.objOf? (s : State) (h : BitVec 64) : Option Obj := s.obj? (hHome h) (hObj h)
/-- Applies a function to an object. -/
def State.modObj (s : State) (home : Nat) (num : BitVec 40) (f : Obj → Obj) : State :=
  { s with objs := s.objs.map (fun o => if o.home == home && o.num == num then f o else o) }
/-- Writes an object back. -/
def State.putObj (s : State) (o : Obj) : State := s.modObj o.home o.num (fun _ => o)
/-- Applies a function to an object's entry. -/
def Obj.mod (o : Obj) (f : Entry → Entry) : Obj := { o with e := f o.e }

/-- Whether an object number lies in a range of a partition (R41). -/
def State.inRange (s : State) (p : Nat) (n : BitVec 40) : Bool :=
  match s.part? p with
  | some x => x.cfg.ranges.any (fun r => decide (r.1 ≤ n.toNat ∧ n.toNat ≤ r.2))
  | none => false

/-- Whether the home of a handle cannot be reached (R477). -/
def State.away (s : State) (home : Nat) : Bool := s.unreachable.contains home

/-- The fault of a request whose home cannot be reached (R477). -/
def trapAway (h : BitVec 64) : Trap := { code := .missingObject, handle := h, info := BitVec.allOnes 64 }

/-- Resolves a handle for partition `p`: steps 1 to 3 of R67 and the unreachable home of R477. -/
def State.resolve (s : State) (p : Nat) (h : BitVec 64) : Except Trap Obj :=
  if hObj h = 0 ∨ 1024 ≤ hHome h then .error { code := .staleHandle, handle := h }
  else if !s.inRange p (hObj h) then .error { code := .rights, handle := h, freeze := true }
  else if s.away (hHome h) then .error (trapAway h)
  else match s.objOf? h with
    | none => .error { code := .staleHandle, handle := h }
    | some o => if o.e.gen != hGen h || o.e.typ == .free then .error { code := .staleHandle, handle := h } else .ok o

/-- A check that faults with a code on a handle. -/
def need (b : Bool) (t : Trap) : Except Trap Unit := if b then .ok () else .error t

/-- `OBJ_TYPE` unless the type is one of those named (R275). -/
def Obj.needType (o : Obj) (ts : List ObjType) : Except Trap Unit :=
  need (ts.contains o.e.typ) { code := .objType, handle := o.handle }
/-- `RIGHTS` unless every right named is granted (R44). -/
def Obj.needRights (o : Obj) (rs : List Right) : Except Trap Unit :=
  need (rs.all o.e.grants) { code := .rights, handle := o.handle }
/-- Whether the alternate view of an object meets R46: same home, partition, rank and extents, and named the other way as well. -/
def State.paired (s : State) (o : Obj) : Bool :=
  o.e.altObj == 0 || (match s.obj? o.home o.e.altObj with
    | some a => a.e.part == o.e.part && a.e.rank == o.e.rank && a.e.ext0 == o.e.ext0 && a.e.ext1 == o.e.ext1 && a.e.ext2 == o.e.ext2 &&
        a.e.ext3 == o.e.ext3 && a.e.altObj == o.num
    | none => false)
/-- Whether an object's entry meets every constraint of R46. -/
def State.sound (s : State) (o : Obj) : Bool := o.e.consistent && s.paired o

/-- `MISSING_OBJECT` for an entry that breaks R46 or whose `ERR` is 1 (R46, R49); `u` is the page or block that the access reaches
first, 0 where it reaches none (R431). -/
def State.needSound (s : State) (o : Obj) (u : Nat := 0) : Except Trap Unit :=
  if !s.sound o then .error { code := .missingObject, handle := o.handle, info := BitVec.ofNat 64 u, incons := true }
  else need (!o.e.err) { code := .missingObject, handle := o.handle, info := BitVec.ofNat 64 u, errst := true }

/-- Resolves a handle and checks type, rights and soundness, in the order of R67 and R275. -/
def State.resolveFor (s : State) (p : Nat) (h : BitVec 64) (ts : List ObjType) (rs : List Right) : Except Trap Obj := do
  let o ← s.resolve p h
  o.needType ts
  o.needRights rs
  s.needSound o
  return o

/-! ### Storage geometry -/

/-- The swizzle of a byte offset within a block or buffer (R178). -/
def swizzle (mode : BitVec 3) (o : Nat) : Nat :=
  let b := BitVec.ofNat 32 o
  let hi := b.extractLsb' 6 4
  let bit (i : Nat) : BitVec 4 := if b.getLsbD i then 1 else 0
  let x : BitVec 4 :=
    match mode.toNat with
    | 1 => hi ^^^ b.extractLsb' 10 4
    | 2 => hi ^^^ b.extractLsb' 10 4 ^^^ (b.extractLsb' 14 2).zeroExtend 4
    | 3 => hi ^^^ (8 * (bit 10 ^^^ bit 11 ^^^ bit 12 ^^^ bit 13 ^^^ bit 14 ^^^ bit 15))
    | 4 => hi ^^^ (4 * (bit 10 ^^^ bit 12 ^^^ bit 14)) ^^^ (8 * (bit 11 ^^^ bit 13 ^^^ bit 15))
    | _ => hi
  o / 1024 * 1024 + x.toNat * 64 + o % 64

/-- Canonical block extent along a dimension (R42). -/
def Entry.blk (e : Entry) (d : Nat) : Nat :=
  match d with | 0 => 2 ^ e.blkC.toNat | 1 => 2 ^ e.blkR.toNat | _ => 1
/-- Scale block extent along a dimension; 1 for an unscaled object. -/
def Entry.scb (e : Entry) (d : Nat) : Nat :=
  if e.scfmt = 0 then 1 else match d with | 0 => 2 ^ e.scbC.toNat | 1 => 2 ^ e.scbR.toNat | _ => 1
/-- Bytes of a scale container (R105). -/
def scBytes (f : BitVec 2) : Nat := match f.toNat with | 0 => 0 | 1 => 1 | _ => 4

/-- Shards of the object (R53). -/
def Entry.shards (e : Entry) : Nat := if e.shmode = 0 then 1 else e.shfactor.toNat + 1
/-- The span of a shard along the axis in block mode (R53). -/
def Entry.shardSpan (e : Entry) : Nat :=
  let a := e.shaxis.toNat
  roundUp (ceilDiv (e.ext a) e.shards) (e.blk a)
/-- The shard of an index along the sharded axis (R53). -/
def Entry.shardOf (e : Entry) (i : Nat) : Nat :=
  match e.shmode.toNat with
  | 1 => i / e.shardSpan
  | 2 => i / e.blk e.shaxis.toNat % e.shards
  | _ => 0
/-- The index within its shard (R53, R93). -/
def Entry.shardIdx (e : Entry) (i : Nat) : Nat :=
  let b := e.blk e.shaxis.toNat
  match e.shmode.toNat with
  | 1 => i % e.shardSpan
  | 2 => i / b / e.shards * b + i % b
  | _ => i
/-- The extent of a shard along a dimension (R53, R93). -/
def Entry.shardExt (e : Entry) (sh d : Nat) : Nat :=
  if e.shmode = 0 ∨ d ≠ e.shaxis.toNat then e.ext d
  else
    let n := e.ext d
    let b := e.blk d
    if e.shmode = 1 then min n ((sh + 1) * e.shardSpan) - min n (sh * e.shardSpan)
    else
      let full := n / b
      let mine := full / e.shards + (if sh < full % e.shards then 1 else 0)
      mine * b + (if n % b ≠ 0 ∧ full % e.shards = sh then n % b else 0)
/-- The package that holds a shard (R53). -/
def Entry.shardPkg (e : Entry) (home sh : Nat) : Nat := if e.shmode = 0 then home else e.shbase.toNat + sh

/-- The shard whose storage a package holds (R53); 0 for an unsharded object. -/
def Entry.shardOn (e : Entry) (q : Nat) : Nat := if e.shmode = 0 then 0 else q - e.shbase.toNat

/-- Bytes of the element blocks of a shard, where its scales begin (R47, R93). -/
def Entry.elemBytes (e : Entry) (sh : Nat) : Nat :=
  let n := (List.range 4).foldl (fun a d => a * ceilDiv (e.shardExt sh d) (e.blk d)) 1
  n * (e.blk 0 * e.blk 1 * e.w / 8)
/-- Bytes of the storage of a shard (R47, R93), or of a SEQUENCE's slots. -/
def Entry.storageBytes (e : Entry) (sh : Nat) : Nat :=
  match e.typ with
  | .tensor => e.elemBytes sh + (List.range 4).foldl (fun a d => a * ceilDiv (e.shardExt sh d) (e.scb d)) 1 * scBytes e.scfmt
  | .sequence => e.capacity * e.rowb
  | _ => 0

/-- Where a piece of an object lies: its shard, the storage block it is in, and its bit offset within that block. -/
structure Spot where
  shard : Nat
  base : Nat
  bit : Nat
deriving DecidableEq, Repr

/-- The spot of an element (R43, R47, R70, R93). -/
def Entry.elemSpot (e : Entry) (i0 i1 i2 i3 : Nat) : Spot :=
  match e.typ with
  | .sequence =>
    let idx := fun d => (match d with | 0 => i0 | 1 => i1 | 2 => i2 | _ => i3)
    let slot := idx e.rank.toNat
    let j := (if 0 < e.rank.toNat then i0 else 0) +
      (if 1 < e.rank.toNat then e.ext0.toNat * (i1 + (if 2 < e.rank.toNat then e.ext1.toNat * i2 else 0)) else 0)
    ⟨0, slot * e.rowb, j * e.w⟩
  | _ =>
    let ax := e.shaxis.toNat
    let axi := (match ax with | 0 => i0 | 1 => i1 | 2 => i2 | _ => i3)
    let sh := e.shardOf axi
    let loc := fun d i => if e.shmode ≠ 0 ∧ d = ax then e.shardIdx i else i
    let j0 := loc 0 i0
    let j1 := loc 1 i1
    let j2 := loc 2 i2
    let j3 := loc 3 i3
    let g0 := ceilDiv (e.shardExt sh 0) (e.blk 0)
    let g1 := ceilDiv (e.shardExt sh 1) (e.blk 1)
    let b := j0 / e.blk 0 + g0 * (j1 / e.blk 1 + g1 * (j2 + e.shardExt sh 2 * j3))
    ⟨sh, b * (e.blk 0 * e.blk 1 * e.w / 8), (j1 % e.blk 1 * e.blk 0 + j0 % e.blk 0) * e.w⟩

/-- The storage byte offset of the scale of the element at an index (R47, R93): the scale of the block of its shard's own grid that the
element lies in, also where a box starts on a block of the object's grid alone (DESIGN CHOICE, log 135). -/
def Entry.scaleSpot (e : Entry) (i0 i1 i2 i3 : Nat) : Spot :=
  let ax := e.shaxis.toNat
  let axi := (match ax with | 0 => i0 | 1 => i1 | 2 => i2 | _ => i3)
  let sh := e.shardOf axi
  let loc := fun d i => if e.shmode ≠ 0 ∧ d = ax then e.shardIdx i else i
  let g0 := ceilDiv (e.shardExt sh 0) (e.scb 0)
  let g1 := ceilDiv (e.shardExt sh 1) (e.scb 1)
  let k := loc 0 i0 / e.scb 0 + g0 * (loc 1 i1 / e.scb 1 + g1 * (loc 2 i2 + e.shardExt sh 2 * loc 3 i3))
  ⟨sh, e.elemBytes sh + k * scBytes e.scfmt, 0⟩

/-- The storage byte offset of byte `k` of a spot: element blocks are swizzled, scales and slots are not. -/
def Entry.byteOff (e : Entry) (p : Spot) (k : Nat) : Nat :=
  let o := p.bit / 8 + k
  if e.typ = .tensor ∧ p.base < e.elemBytes p.shard then p.base + swizzle e.swz o else p.base + o

/-- Whether blocks of a swizzle stand on multiples of 1,024 in a slice (R178). -/
def Entry.swizzleFits (e : Entry) (base : Nat) : Bool :=
  e.typ != .tensor || e.swz == 0 ||
  (decide (base % 1024 = 0) && (decide (e.blk 0 * e.blk 1 * e.w / 8 % 1024 = 0) || decide (e.elemBytes 0 ≤ e.blk 0 * e.blk 1 * e.w / 8)))

/-- `VALID` of a page descriptor (R48). -/
def descValid (d : BitVec 64) : Bool := d.getLsbD 0
/-- `PTIER` of a page descriptor. -/
def descTier (d : BitVec 64) : Nat := field d 63 61
/-- The physical address of a page. -/
def descAddr (d : BitVec 64) : Nat := field d 47 16 * 65536
/-- A page descriptor (R48). -/
def mkDesc (tier : BitVec 3) (pkg : BitVec 10) (addr : Nat) (pinned valid : Bool) : BitVec 64 :=
  tier ++ pkg ++ 0#3 ++ BitVec.ofNat 32 (addr / 65536) ++ 0#14 ++ BitVec.ofBool pinned ++ BitVec.ofBool valid

/-- The memory address of a storage byte of package `q`'s part of an object, or the page or block that is missing (R48, R49). -/
def Layout.at (s : State) (q : Nat) (e : Entry) (l : Layout) (off : Nat) : Except Nat Nat :=
  match l with
  | .slices base => .ok (s.phys q (base.toNat + off))
  | .pages ds =>
    let p := off / 65536
    match ds[p]? with
    | some d =>
      if descValid d && descTier d != 4 then
        .ok (s.phys (if descTier d = 3 then field d 60 51 else q) (descAddr d + off % 65536))
      else .error p
    | none => .error p
  | .blocks bs =>
    let b := off / (16 * e.rowb)
    match bs.find? (fun x => x.num == b) with
    | some x => if x.valid && decide (x.tier.toNat ≠ 4) then .ok (s.phys q (x.addr.toNat + off % (16 * e.rowb))) else .error b
    | none => .error b
  | .nothing => .error 0

/-- The map of package `q` for a version; a page of the working copy that no store has copied is the current one's. -/
def findMap (maps : List (Nat × Ver × Layout)) (q : Nat) (v : Ver) : Option Layout :=
  match maps.find? (fun m => m.1 == q && m.2.1 == v) with
  | some m => some m.2.2
  | none => none

/-- Replaces the map of package `q` for a version. -/
def setMap (maps : List (Nat × Ver × Layout)) (q : Nat) (v : Ver) (l : Layout) : List (Nat × Ver × Layout) :=
  if maps.any (fun m => m.1 == q && m.2.1 == v) then
    maps.map (fun m => if m.1 == q && m.2.1 == v then (q, v, l) else m)
  else maps ++ [(q, v, l)]

/-- The package that serves a read of a shard for this package (R55). -/
def Obj.readPkg (s : State) (o : Obj) (sh : Nat) : Nat :=
  if o.e.shmode = 0 then
    (if o.e.replicas.contains s.package.toNat then s.package.toNat else o.home)
  else o.e.shardPkg o.home sh

/-! ### Storage in use and allocation -/

/-- 64 KiB pages from `a` that `n` bytes touch. -/
def pagesOf (a n : Nat) : List Nat := (List.range (ceilDiv (a % 65536 + n) 65536)).map (fun i => (a / 65536 + i) * 65536)

/-- The pages of this package that a map keeps allocated, those of descriptors that are not `VALID` during a move among them (R462). -/
def Layout.frames (e : Entry) (l : Layout) : List Nat :=
  match l with
  | .pages ds => (ds.filter (fun d => descTier d == 1 || descTier d == 2)).map descAddr
  | .blocks bs => (bs.filter (fun b => decide (b.tier.toNat = 1 ∨ b.tier.toNat = 2))).flatMap (fun b => pagesOf b.addr.toNat (16 * e.rowb))
  | _ => []

/-- What an operation in flight has resolved to. -/
def Op.resolved? (o : Op) : Option Resolved :=
  match o.kind with
  | .copy c => c.res
  | .store c => c.res
  | .repl c _ => c.res
  | .update r _ => some r
  | _ => none

/-- Pages of package `q` that a request in flight still uses (R206). -/
def Op.frames (q : Nat) (o : Op) : List Nat :=
  (o.resolved?.toList).flatMap (fun y => (y.maps.filter (fun m => m.1 == q)).flatMap (fun m => m.2.frames y.e))

/-- Bytes of slices, first and past the last, that a request in flight still uses on package `q` (R206, R282, R346). -/
def Op.slices (q : Nat) (o : Op) : List (Nat × Nat) :=
  (match o.kind with
   | .bank _ ms _ _ => ms.map (fun m => (m, m + 15424))
   | _ => []) ++
  (o.resolved?.toList).flatMap (fun y => y.maps.filterMap (fun m => match m.2 with
    | .slices b => if m.1 = q then some (b.toNat, b.toNat + y.e.storageBytes (y.e.shardOn q)) else none
    | _ => none))

/-- Pages that the object's own map or block map and the map of its working copy occupy on its home package (R48, R71); a shard's map takes
none elsewhere (DESIGN CHOICE, log 145). -/
def Obj.mapFrames (o : Obj) : List Nat :=
  (match o.maps.find? (fun m => m.1 == o.home && m.2.1 == .current) with
   | some (_, _, .pages ds) => pagesOf o.e.loc.toNat (8 * ds.length)
   | some (_, _, .blocks _) => pagesOf o.e.loc.toNat (8 * (o.e.capacity / 16))
   | _ => []) ++
  (match o.maps.find? (fun m => m.1 == o.home && m.2.1 == .working) with
   | some (_, _, .pages ds) => if o.workLoc = 0 then [] else pagesOf o.workLoc.toNat (8 * ds.length)
   | _ => [])

/-- The number of bindings of a version. -/
def Obj.bindCount (o : Obj) (v : BitVec 64) : Nat := match o.binds.find? (fun b => b.1 == v) with | some b => b.2 | none => 0

/-- Whether a retained version is still needed: bound, or named by a copy in flight that issued under a binding: until it has resolved it
reads the version (R462), and until it completes it may still poison its unit, whose replay reads that version too (R463). -/
def State.keepsVer (s : State) (o : Obj) (v : BitVec 64) : Bool :=
  decide (0 < o.bindCount v) || s.ops.any (fun p => match p.kind with
    | .copy c => c.req.hreg.bound == some v && hHome c.req.hreg.h == o.home && hObj c.req.hreg.h == o.num && hGen c.req.hreg.h == o.e.gen
    | _ => false)

/-- The maps of an object without those of retained versions that nothing needs (R462). -/
def State.liveMaps (s : State) (o : Obj) : List (Nat × Ver × Layout) :=
  o.maps.filter (fun m => match m.2.1 with | .kept v => s.keepsVer o v | _ => true)

/-- Whether a pin covers storage of an object (R50). -/
def Obj.pinnedAny (o : Obj) : Bool := decide (0 < o.pagePins) || !o.blkPins.isEmpty
/-- Whether a pin of a sequence's own covers a block number (R331). -/
def Obj.pins (o : Obj) (b : Nat) : Bool := o.blkPins.any (fun k => decide (k.1 ≤ b ∧ b < k.2))
/-- The old copies that spills and private blocks have left under a pin, while one covers them (R50, R331). -/
def Obj.oldCopies (o : Obj) : List (Nat × Layout) :=
  (if o.pinnedAny then o.spilled else []).filterMap (fun m => match m.2 with
    | .blocks bs => let bs := bs.filter (fun b => o.pins b.num); if bs.isEmpty then none else some (m.1, .blocks bs)
    | _ => some m)

/-- Every page of package `q` that is in use: of objects, of their maps, of requests in flight, of moves, and of the service pairs'
system regions (R446). -/
def State.usedFrames (s : State) (q : Nat) : List Nat :=
  (s.objs ++ s.ghosts).flatMap (fun o => ((s.liveMaps o).filter (fun m => m.1 == q)).flatMap (fun m => m.2.2.frames o.e) ++
    (o.oldCopies.filter (fun m => m.1 == q)).flatMap (fun m => m.2.frames o.e)) ++
  (if q = s.package.toNat then s.system.flatMap (fun r => pagesOf r.1 r.2) else []) ++
  (s.objs.filter (fun o => o.home == q)).flatMap Obj.mapFrames ++
  s.ops.flatMap (Op.frames q) ++ (s.moving.filter (fun m => m.1 == q)).map (fun m => m.2)

/-- The first run of `n` free pages for a partition on package `q`: of the partition's HBM4E pages here (R481, R498). The
pages that another package gives the partition are not this package's state, and the lowest unused ones are taken there. -/
def State.freeRun (s : State) (q p n : Nat) : Option Nat :=
  let used := s.usedFrames q
  if q = s.package.toNat then
    match s.part? p with
    | none => none
    | some x =>
      let own := x.cfg.frames.map BitVec.toNat
      own.find? (fun f => (List.range n).all (fun i => own.contains (f + 65536 * i) && !used.contains (f + 65536 * i)))
  else
    ((List.range (n * used.length + 1)).map (fun i => 0x010000000000 + 65536 * i)).find?
      (fun f => (List.range n).all (fun i => !used.contains (f + 65536 * i)))

/-- Intervals of this package's slices that objects hold or requests in flight still use (R48, R206). -/
def State.takenSlices (s : State) : List (Nat × Nat) :=
  let here := s.package.toNat
  (s.objs ++ s.ghosts).flatMap (fun o => ((s.liveMaps o).map (fun m => (m.1, m.2.2)) ++ o.oldCopies).filterMap (fun m =>
    match m.2 with
    | .slices b => if m.1 = here then some (b.toNat, b.toNat + o.e.storageBytes (o.e.shardOn here)) else none
    | _ => none)) ++
  s.ops.flatMap (Op.slices here)

/-- The first run of carved slice segments of the partition's cores that holds `n` bytes and no object (R48, R176). -/
def State.freeSlices (s : State) (p n : Nat) : Option Nat :=
  match s.part? p with
  | none => none
  | some x =>
    let taken := s.takenSlices
    let spots : List (Nat × Nat) := (s.cores.filter (fun c => x.cfg.tarns.contains (c.1 / 4))).flatMap (fun c => (List.range 14).map (fun j => (c.1, j)))
    (spots.find? (fun y =>
      let lo := y.1 * 0x100000 + y.2 * 65536
      let segs := ceilDiv n 65536
      decide (y.2 + segs ≤ 14) && (List.range segs).all (fun i => (s.core y.1).carve.getLsbD (y.2 + i)) &&
      taken.all (fun t => decide (t.2 ≤ lo ∨ lo + n ≤ t.1)))).map (fun y => y.1 * 0x100000 + y.2 * 65536)

/-! ### Versions (R60 to R62, R462) -/

/-- Sets the number of bindings of a version. -/
def Obj.setBinds (o : Obj) (v : BitVec 64) (n : Nat) : Obj :=
  let rest := o.binds.filter (fun b => b.1 != v)
  { o with binds := if n = 0 then rest else rest ++ [(v, n)] }
/-- Takes a binding of a version; it counts in `PIN_CNT` (R62). -/
def Obj.bind (o : Obj) (v : BitVec 64) : Obj :=
  (o.setBinds v (o.bindCount v + 1)).mod (fun e => { e with pinCnt := e.pinCnt + 1 })
/-- Releases a binding of a version (R463). -/
def Obj.unbind (o : Obj) (v : BitVec 64) : Obj :=
  (o.setBinds v (o.bindCount v - 1)).mod (fun e => { e with pinCnt := e.pinCnt - 1 })
/-- Takes an in-place pin (R62). -/
def Obj.pin (o : Obj) : Obj := { o.mod (fun e => { e with pinCnt := e.pinCnt + 1 }) with pagePins := o.pagePins + 1 }
/-- Releases an in-place pin. -/
def Obj.unpin (o : Obj) : Obj := { o.mod (fun e => { e with pinCnt := e.pinCnt - 1 }) with pagePins := o.pagePins - 1 }

/-- Applies a function to the object a handle names, if its generation still is the handle's. -/
def State.modHandle (s : State) (h : BitVec 64) (f : Obj → Obj) : State :=
  { s with
    objs := s.objs.map (fun o => if o.home == hHome h && o.num == hObj h && o.e.gen == hGen h then f o else o)
    ghosts := s.ghosts.map (fun o => if o.home == hHome h && o.num == hObj h && o.e.gen == hGen h then f o else o) }

/-- Frees what a release leaves without a holder: retained versions that nothing needs (R462), of destroyed sequences the blocks
that no pin covers (R81, R331), and destroyed objects that no pin and no binding holds (R282). -/
def State.sweep (s : State) : State :=
  let covered (o : Obj) : Obj :=
    { o with maps := (s.liveMaps o).map (fun m => match m.2.2 with
        | .blocks bs => (m.1, m.2.1, .blocks (bs.filter (fun b => o.pins b.num)))
        | _ => m) }
  { s with
    objs := s.objs.map (fun o => { o with maps := s.liveMaps o, spilled := o.oldCopies })
    ghosts := (s.ghosts.filter (fun o => !o.binds.isEmpty || !o.blkPins.isEmpty || decide (0 < o.pagePins))).map covered }

/-- Releases the binding or pin of a handle register (R282). -/
def State.releaseHReg (s : State) (r : HReg) : State :=
  match r.bound with
  | some v => (s.modHandle r.h (fun o => o.unbind v)).sweep
  | none => if r.pinned then (s.modHandle r.h (fun o => o.unpin)).sweep else s

/-- Takes again the binding that a replay descriptor records (R463). -/
def State.bindRequest (s : State) (r : Request) : State :=
  match r.hreg.bound with
  | some v => s.modHandle r.hreg.h (fun o => o.bind v)
  | none => s
/-- Releases the binding that a replay descriptor records (R463). -/
def State.unbindRequest (s : State) (r : Option Request) : State :=
  match r with
  | some q => (match q.hreg.bound with
    | some v => (s.modHandle q.hreg.h (fun o => o.unbind v)).sweep
    | none => s)
  | none => s

/-- `TIER` summarises the descriptors of the object's own map, or of all its shards' maps; a descriptor of zeros places no page (R48). -/
def Obj.retier (o : Obj) : Obj :=
  let ts := (o.maps.filter (fun m => m.2.1 == .current && (m.1 == o.home || o.e.shmode != 0))).flatMap (fun m => match m.2.2 with
    | .slices _ => [0]
    | .pages ds => (ds.filter (fun d => d != 0)).map descTier
    | .blocks bs => bs.map (fun b => b.tier.toNat)
    | .nothing => [])
  match ts with
  | [] => o
  | t :: r => o.mod (fun e => { e with tier := if r.all (fun x => x == t) then BitVec.ofNat 3 t else 5 })

/-- Publishes (R60, R61, R462): the working copy becomes current, an old version is retained while something needs it, `LOC` and
`TIER` follow the maps, `VALUE` rises by one. -/
def Obj.publish (o : Obj) : Obj :=
  let bump (x : Obj) : Obj := x.mod (fun e => { e with value := e.value + 1 })
  if !o.e.wmode then bump o
  else
    let old := o.e.value
    let hasWork := o.maps.any (fun m => m.2.1 == .working)
    let cur := o.maps.filter (fun m => m.2.1 == .current)
    let work := o.maps.filter (fun m => m.2.1 == .working)
    let kept := o.maps.filter (fun m => m.2.1 != .current && m.2.1 != .working)
    let kept := kept ++ cur.map (fun m => (m.1, Ver.kept old, m.2.2))
    let now := if hasWork then work.map (fun m => (m.1, Ver.current, m.2.2)) else cur
    let loc := match now.find? (fun m => m.1 == o.home) with
      | some (_, _, .slices b) => b
      | some (_, _, .pages _) => if hasWork && o.workLoc != 0 then o.workLoc else o.e.loc
      | _ => o.e.loc
    bump ((({ o with maps := now ++ kept, dirty := [], workLoc := 0 } : Obj).mod (fun e => { e with loc := loc })).retier)

/-- Copies `n` bytes of memory. -/
def State.copyBytes (s : State) (src dst n : Nat) : State := s.store dst (s.bytes src n)

/-- Makes sure that the working copy of a versioned object holds page `p` of package `q` as its own (R61). `none`: no page
is free for it. An in-place object needs none. -/
def State.touchPage (s : State) (o : Obj) (q p : Nat) : Option (State × Obj) :=
  if !o.e.wmode then some (s, o)
  else
    -- the first store after a PUB creates the working copy
    let o := if o.maps.any (fun m => m.2.1 == .working) then o
      else { o with maps := o.maps ++ (o.maps.filter (fun m => m.2.1 == .current)).map (fun m => (m.1, Ver.working, m.2.2)) }
    if o.dirty.contains (q, p) then some (s, o)
    else match findMap o.maps q .working with
      | some (.pages ds) =>
        (match s.freeRun q o.e.part.toNat 1, ds[p]? with
        | some f, some d =>
          let s := s.copyBytes (s.phys (if descTier d = 3 then field d 60 51 else q) (descAddr d)) (s.phys q f) 65536
          let o := { o with maps := setMap o.maps q .working (.pages (ds.set p (mkDesc 1 0 f false true))), dirty := o.dirty ++ [(q, p)] }
          some (s.putObj o, o)
        | _, _ => none)
      | some (.slices base) =>
        let len := o.e.storageBytes (o.e.shardOn q)
        let n := ceilDiv len 65536
        (match s.freeSlices o.e.part.toNat len with
        | some f =>
          let s := s.copyBytes (s.phys q base.toNat) (s.phys q f) len
          let o := { o with maps := setMap o.maps q .working (.slices (BitVec.ofNat 48 f)), dirty := o.dirty ++ (List.range n).map (fun i => (q, i)) }
          some (s.putObj o, o)
        | none => match s.freeRun q o.e.part.toNat (n + ceilDiv (8 * n) 65536) with
        | some f =>
          let s := s.copyBytes (s.phys q base.toNat) (s.phys q f) len
          let ds := (List.range n).map (fun i => mkDesc 1 0 (f + 65536 * i) false true)
          let o := { o with
            maps := setMap o.maps q .working (.pages ds), dirty := o.dirty ++ (List.range n).map (fun i => (q, i))
            workLoc := if q = o.home then BitVec.ofNat 48 (f + 65536 * n) else o.workLoc }
          some (s.putObj o, o)
        | none => none)
      | _ => none

/-! ### Sequences -/

/-- `VALUE` of a sequence or counter as a number. -/
def Obj.val (o : Obj) : Nat := o.e.value.toNat

/-- How many sequences' maps hold a block, present or not: its `REFCNT` (R71). -/
def State.refcnt (s : State) (home : Nat) (addr : BitVec 48) : Nat :=
  (s.objs.filter (fun o => o.home == home && o.maps.any (fun m =>
    match m.2.2 with | .blocks bs => bs.any (fun b => b.addr == addr) | _ => false))).length

/-- The blocks of a sequence's map. -/
def Obj.blockList (o : Obj) : List Block :=
  match findMap o.maps o.home .current with | some (.blocks bs) => bs | _ => []
/-- Writes the blocks of a sequence's map. -/
def Obj.setBlocks (o : Obj) (bs : List Block) : Obj := { o with maps := setMap o.maps o.home .current (.blocks bs) }
/-- The descriptor of a block with its `REFCNT` (R71). -/
def State.blockDesc (s : State) (o : Obj) (b : Block) : BitVec 64 :=
  BitVec.ofNat 16 (s.refcnt o.home b.addr) ++ (b.addr.extractLsb' 4 44) ++ b.tier ++ BitVec.ofBool b.valid

/-- The free storage of one block of a sequence (R498). -/
def State.freeBlock (s : State) (o : Obj) : Option Nat := s.freeRun o.home o.e.part.toNat (ceilDiv (16 * o.e.rowb) 65536)

/-- Allocates the blocks numbered in the list that the map does not hold (R498); `none`: no room for one of them. -/
def State.allocBlocks (s : State) (o : Obj) : List Nat → Option (State × Obj)
  | [] => some (s, o)
  | b :: bs =>
    if o.blockList.any (fun x => x.num == b) then s.allocBlocks o bs
    else match s.freeBlock o with
      | none => none
      | some f =>
        let o := (o.setBlocks (o.blockList ++ [⟨b, BitVec.ofNat 48 f, 1, true, true⟩])).retier
        (s.putObj o).allocBlocks o bs

/-- The blocks that slots `a` to `b - 1` lie in. -/
def blocksOf (a b : Nat) : List Nat := if a < b then (List.range ((b + 15) / 16 - a / 16)).map (fun i => a / 16 + i) else []

/-- Slots RESERVED by an owner. -/
def Obj.reservedBy (o : Obj) (w : Owner) (i : Nat) : Bool := o.resv.any (fun r => decide (r.lo ≤ i ∧ i < r.hi) && r.owner == w)
/-- The first slot of `a` to `b - 1` that is not RESERVED by an owner. -/
def Obj.firstUnreserved (o : Obj) (w : Owner) (a b : Nat) : Option Nat := (List.range (b - a)).findSome? (fun i => if o.reservedBy w (a + i) then none else some (a + i))

/-- Takes slots `a` to `b - 1` out of the reservations. -/
def cutResv (a b : Nat) : List Resv → List Resv
  | [] => []
  | r :: t =>
    (if r.lo < min r.hi a then [{ r with hi := min r.hi a }] else []) ++
    (if max r.lo b < r.hi then [{ r with lo := max r.lo b }] else []) ++ cutResv a b t

/-- Raises a committed length past the committed ranges that touch it, as far as the list's length allows (R76). -/
def raise (ds : List (Nat × Nat)) : Nat → Nat → Nat
  | 0, v => v
  | n + 1, v => match ds.find? (fun d => decide (d.1 ≤ v ∧ v < d.2)) with | some d => raise ds n d.2 | none => v

/-- Marks slots `a` to `b - 1` COMMITTED and raises `VALUE` (R75, R76). -/
def Obj.commit (o : Obj) (a b : Nat) : Obj :=
  let ds := o.done ++ [(a, b)]
  let v := raise ds ds.length o.val
  { o with
    resv := cutResv a b o.resv
    done := ds.filter (fun d => decide (v < d.2))
    e := { o.e with value := BitVec.ofNat 64 v } }

/-- Seals at the current `VALUE` (R82). -/
def Obj.sealNow (o : Obj) : Obj :=
  { o with resv := [], done := [], e := { o.e with sealedBit := true, next := BitVec.ofNat 32 o.val } }

/-- Pins a range of blocks (R331). -/
def Obj.pinBlocks (o : Obj) (lo hi : Nat) : Obj :=
  { o with blkPins := o.blkPins ++ [(lo, hi)], e := { o.e with pinCnt := o.e.pinCnt + 1 } }
/-- Releases one pin of a range of blocks. -/
def Obj.unpinBlocks (o : Obj) (lo hi : Nat) : Obj :=
  if o.blkPins.contains (lo, hi) then { o with blkPins := o.blkPins.erase (lo, hi), e := { o.e with pinCnt := o.e.pinCnt - 1 } } else o

/-- The blocks that a sequence's pins keep although its map names others by now (R331). -/
def Obj.oldBlocks (o : Obj) : List Block := o.spilled.flatMap (fun m => match m.2 with | .blocks bs => bs | _ => [])
/-- Whether a pin of a sequence that holds a block, or held it when it was pinned, covers it, of a destroyed sequence too (R50, R331). -/
def State.blockPinned (s : State) (home : Nat) (b : Block) : Bool :=
  (s.objs ++ s.ghosts).any (fun z => z.home == home && (z.blockList ++ z.oldBlocks).any (fun c => c.addr == b.addr && c.num == b.num) &&
    z.pins b.num)

/-- Makes the block of a slot private before the first store of a sequence that does not own it (R80). A block that the sequence has
pinned stays pinned for it (R331). -/
def State.privateBlock (s : State) (o : Obj) (b : Nat) : Option (State × Obj) :=
  match o.blockList.find? (fun x => x.num == b) with
  | none => none
  | some x =>
    if x.owned then some (s, o)
    else match s.freeBlock o with
      | none => none
      | some f =>
        let n := (min (o.forkLen - 16 * b) 16) * o.e.rowb
        let s := s.copyBytes (s.phys o.home x.addr.toNat) (s.phys o.home f) n
        let o := if o.pins b then { o with spilled := o.spilled ++ [(o.home, .blocks [x])] } else o
        let o := (o.setBlocks (o.blockList.map (fun y => if y.num == b then { y with addr := BitVec.ofNat 48 f, tier := 1, owned := true } else y))).retier
        some (s.putObj o, o)

/-- Marks the waiters whose target `VALUE` has reached as satisfied, in ascending order of target and then of registration
(R64, R77): what is left, and the satisfied ones in that order. -/
def Obj.wake (o : Obj) : Obj × List Waiter :=
  let hit := o.waiters.filter (fun w => decide (w.target.toNat ≤ o.val))
  let ins (l : List Waiter) (w : Waiter) : List Waiter :=
    l.takeWhile (fun x => decide (x.target.toNat ≤ w.target.toNat)) ++ [w] ++ l.dropWhile (fun x => decide (x.target.toNat ≤ w.target.toNat))
  ({ o with waiters := o.waiters.filter (fun w => decide (o.val < w.target.toNat)) }, hit.foldl ins [])

/-- Marks continuations satisfied in the order of the list (R77, R167). -/
def State.satisfy (s : State) : List Waiter → State
  | [] => s
  | w :: ws =>
    let (n, s) := s.freshId
    if 32 ≤ w.part then ({ s with sent := s.sent ++ [Sent.peerWake (w.part - 32) w.cont] }).satisfy ws
    else (s.modPart w.part (fun p => { p with conts := p.conts.map (fun c => if c.cid == w.cont then { c with satisfied := some n } else c) })).satisfy ws

/-- A window bound to a counter interrupts when `VALUE` first reaches its `WTGT`, which then is all ones (R474). -/
def State.interrupt (s : State) (h : BitVec 64) (old new : Nat) : State :=
  let hits (x : Window) : Bool := x.bound && x.bobj == h && x.wctl.extractLsb' 0 2 == 3#2 && decide (old < x.wtgt.toNat ∧ x.wtgt.toNat ≤ new)
  { s with
    sent := s.sent ++ s.parts.flatMap (fun p => (p.windows.toList.filter hits).map (fun x => Sent.msix p.cfg.id (field x.wctl 15 8)))
    parts := s.parts.map (fun p => { p with windows := p.windows.map (fun x => if hits x then { x with wtgt := BitVec.allOnes 64 } else x) }) }

/-- Writes an object whose `VALUE` may have risen, and satisfies its waiters. -/
def State.putAndWake (s : State) (o : Obj) : State :=
  let (o, ws) := o.wake
  let old := match s.obj? o.home o.num with | some x => x.val | none => 0
  let s := (s.putObj o).satisfy ws
  if o.e.typ = .counter then s.interrupt o.handle old o.val else s

end Sys2Proof.Machine
end

