-- ==== Sys2Proof/Machine/Tasks.lean ====
section
/-! DEFINITION. Tasks: records, allotments, nodes, and how a task starts, retires, is killed, is delivered to or waits. -/

namespace Sys2Proof.Machine

open Sys2Proof

/-! ### The launch nest record (R155) -/

/-- `ARG`. -/
def recArg (r : BitVec 512) : BitVec 32 := r.extractLsb' 480 32
/-- `NSUCC`. -/
def recNsucc (r : BitVec 512) : Nat := field r 471 464
/-- `SUCC`. -/
def recSucc (r : BitVec 512) : Nat := field r 463 448
/-- `PREDS`. -/
def recPreds (r : BitVec 512) : Nat := field r 447 432
/-- `NODE`. -/
def recNode (r : BitVec 512) : Nat := field r 431 416
/-- `CATCH`. -/
def recCatch (r : BitVec 512) : Nat := field r 415 400
/-- `SEED`. -/
def recSeed (r : BitVec 512) : BitVec 32 := r.extractLsb' 368 32
/-- Push and pop engine of allotted queue `i`. -/
def recBind (r : BitVec 512) (i : Nat) : EngineId × EngineId :=
  (engOfNum (field r (275 + 4 * i) (274 + 4 * i)), engOfNum (field r (273 + 4 * i) (272 + 4 * i)))
/-- `AK`. -/
def recAK (r : BitVec 512) : Nat := field r 271 269
/-- `AB`. -/
def recAB (r : BitVec 512) : Nat := field r 268 263
/-- `AT`. -/
def recAT (r : BitVec 512) : Nat := field r 262 257
/-- `AA`. -/
def recAA (r : BitVec 512) : Nat := field r 256 253
/-- `AQ`. -/
def recAQ (r : BitVec 512) : Nat := field r 252 248
/-- `CORE_MASK`. -/
def recMask (r : BitVec 512) : BitVec 4 := r.extractLsb' 243 4
/-- Tarns of the core set. -/
def recTarns (r : BitVec 512) : List Nat := (List.range (field r 242 234 + 1)).map (fun i => field r 233 224 + i)
/-- `WDOG`. -/
def recWdog (r : BitVec 512) : Nat := field r 214 210
/-- `AGE`. -/
def recAge (r : BitVec 512) : Nat := field r 209 206
/-- `SWT`. -/
def recSwt (r : BitVec 512) : Nat := field r 205 202
/-- `PRIO`. -/
def recPrio (r : BitVec 512) : Nat := field r 201 196
/-- `WALK`. -/
def recWalk (r : BitVec 512) : Nat := field r 195 194
/-- Rank of the iteration space. -/
def recRank (r : BitVec 512) : Nat := field r 193 192 + 1
/-- Extent of iteration dimension `d`, as written. -/
def recIt (r : BitVec 512) (d : Nat) : Nat := field r (143 + 16 * d) (128 + 16 * d)
/-- Extent of iteration dimension `d`; 1 at and above the rank. -/
def recExt (r : BitVec 512) (d : Nat) : Nat := if d < recRank r then recIt r d else 1
/-- Entry point of an engine. -/
def recEntry (r : BitVec 512) (e : EngineId) : BitVec 32 := BitVec.ofNat 32 (field r (79 + 16 * e.num) (64 + 16 * e.num))
/-- `CODE`. -/
def recCode (r : BitVec 512) : BitVec 64 := r.extractLsb' 0 64
/-- A pre-emptor record has `PRIO` 56 or above (R155). -/
def recPre (r : BitVec 512) : Bool := decide (56 ≤ recPrio r)
/-- The cores of the core set, in ascending order (R158). -/
def recCores (r : BitVec 512) : List Nat :=
  (recTarns r).flatMap (fun t => ((List.range 4).filter (fun k => (recMask r).getLsbD k)).map (fun k => 4 * t + k))

/-! ### Allotments (R153) -/

/-- The first number of a class's resources of a context. -/
def base (ctx : Bool) (ordinary reserved : Nat) : Nat := if ctx then reserved else ordinary

/-- Whether a queue is in the allotment. -/
def Task.hasQ (t : Task) (ctx : Bool) (q : Nat) : Bool := decide (base ctx 0 24 ≤ q ∧ q < base ctx 0 24 + t.aq)
/-- Whether an accumulator tile is in the allotment. -/
def Task.hasA (t : Task) (ctx : Bool) (a : Nat) : Bool := decide (base ctx 0 12 ≤ a ∧ a < base ctx 0 12 + t.aa)
/-- Whether a tile-table entry is in the allotment. -/
def Task.hasT (t : Task) (ctx : Bool) (i : Nat) : Bool := decide (base ctx 0 48 ≤ i ∧ i < base ctx 0 48 + t.at_)
/-- Whether a barrier is in the allotment. -/
def Task.hasB (t : Task) (ctx : Bool) (b : Nat) : Bool := decide (base ctx 0 40 ≤ b ∧ b < base ctx 0 40 + t.ab)
/-- Whether a bank is in the allotment. -/
def Task.hasK (t : Task) (ctx : Bool) (k : Nat) : Bool := decide (base ctx 0 7 ≤ k ∧ k < base ctx 0 7 + t.ak)
/-- The slice range of a context's tiles: first byte and the byte after the last (R153). -/
def sliceRange (ctx : Bool) : Nat × Nat := if ctx then (917504, 1048576) else (0, 917504)
/-- Push and pop engine of a queue of a task (R145). -/
def Task.binding (t : Task) (ctx : Bool) (q : Nat) : EngineId × EngineId := recBind t.record (q - base ctx 0 24)

/-! ### Records and the nodes -/

/-- Writes a record of kind EVENT, POISON or FREEZE, or lets its writer wait (R432). -/
def State.emit (s : State) (m : Nat) (r : FaultRec) : State :=
  if s.queueRoom m && !s.waitingRecs.any (fun x => x.1 == m) then (s.writeRec m r).2
  else { s with waitingRecs := s.waitingRecs ++ [(m, r)] }

/-- Writes the records that wait for mere `m`, as long as places are free. -/
def State.drain (s : State) (m : Nat) : List (Nat × FaultRec) → State
  | [] => s
  | (k, r) :: t =>
    if k = m ∧ s.queueRoom m then
      ({ (s.writeRec m r).2 with waitingRecs := (s.writeRec m r).2.waitingRecs.erase (k, r) }).drain m t
    else s.drain m t

/-- Writes a NODE_FAILED event to the home mere's queue and to its black box (R160, R433, R459). -/
def State.nodeFailed (s : State) (p node : Nat) : State :=
  let m := s.homeMere p
  let s := s.emit m { node := BitVec.ofNat 16 node, part := p, kind := .event, master := .walker, code := .nodeFailed }
  s.bbox m { payload := BitVec.ofNat 64 node, etype := 0x000E, ecode := Code.nodeFailed.val, part := p, svc := true }

/-- A node-table entry. -/
def Part.node (p : Part) (n : Nat) : Node := lookupD {} p.nodes n
/-- Writes a node-table entry. -/
def Part.setNode (p : Part) (n : Nat) (x : Node) : Part := { p with nodes := upsert p.nodes n x }
/-- A launch by number. -/
def Part.launch? (p : Part) (lid : Nat) : Option Launch := p.launches.find? (fun l => l.lid == lid)
/-- Applies a function to a launch. -/
def Part.modLaunch (p : Part) (lid : Nat) (f : Launch → Launch) : Part :=
  { p with launches := p.launches.map (fun l => if l.lid == lid then f l else l) }
/-- The launch that holds a node's entry. -/
def Part.holder (p : Part) (n : Nat) : Option Launch := p.launches.find? (fun l => decide (recNode l.record = n) && !l.failed)
/-- Puts a ready launch at the back of its level (R162). -/
def Part.ready (p : Part) (l : Launch) : Part :=
  { p with work := p.work ++ [{ isCont := false, id := l.lid, prio := recPrio l.record, level := recPrio l.record, age := recAge l.record }] }

/-- The cancellations that a node's end passes on: its entry is freed after its successors are updated, so one that it would give
itself leaves nothing (R161); one that comes back to it through other nodes finds it FREE (DESIGN CHOICE, log 146). -/
def cancels (n : Nat) (succ : List Nat) : List (Bool × Nat) := (succ.filter (fun m => m != n)).map (fun m => (true, m))

/-- Delivers completions (`false`) and cancellations (`true`) to nodes, and the cancellations that follow from them
(R160, R161): the partition, the nodes that failed by a surplus completion, the launches cancelled without running. A count that falls
below its 18 bits wraps (DESIGN CHOICE, log 146). -/
def Part.deliverNodes (p : Part) : Nat → List (Bool × Nat) → List Nat → List Launch → Part × List Nat × List Launch
  | 0, _, fs, cs => (p, fs, cs)
  | _, [], fs, cs => (p, fs, cs)
  | k + 1, (cancel, n) :: rest, fs, cs =>
    let x := p.node n
    let succs (l : Launch) : List (Bool × Nat) := cancels n l.succ
    match x.st, cancel with
    | .free, false => (p.setNode n { x with count := x.count - 1 }).deliverNodes k rest fs cs
    | .free, true => (p.setNode n { x with cancel := true }).deliverNodes k rest fs cs
    | .waiting, false =>
      let c := x.count - 1
      let p' := p.setNode n { x with count := c, st := if c = 0 then .ready else .waiting }
      (match p.holder n with
      | some l => if c = 0 then (p'.ready l).deliverNodes k rest fs cs else p'.deliverNodes k rest fs cs
      | none => p'.deliverNodes k rest fs cs)
    | .running, true =>
      (match p.holder n with
      | some l => (p.modLaunch l.lid (fun l => { l with cancelled := true })).deliverNodes k rest fs cs
      | none => p.deliverNodes k rest fs cs)
    | _, true =>
      (match p.holder n with
      | some l =>
        let p' := { p with launches := p.launches.filter (fun y => y.lid != l.lid), work := p.work.filter (fun w => w.isCont || w.id != l.lid) }
        (p'.setNode n {}).deliverNodes k (rest ++ succs l) fs (cs ++ [l])
      | none => p.deliverNodes k rest fs cs)
    | _, false =>
      -- a surplus completion fails the node
      (match p.holder n with
      | some l =>
        let p' := { p.modLaunch l.lid (fun l => { l with failed := true, next := none }) with
          work := p.work.filter (fun w => w.isCont || w.id != l.lid) }
        (p'.setNode n {}).deliverNodes k (rest ++ succs l) (fs ++ [n]) cs
      | none => p.deliverNodes k rest fs cs)

/-- Enough steps for every cancellation that can follow: each launch passes at most 255 on. -/
def Part.fuel (p : Part) (ws : List (Bool × Nat)) : Nat := 256 * (p.launches.length + 1) + ws.length

/-- Releases the binding a launch holds on its code object (R220). -/
def State.dropLaunch (s : State) (p : Nat) (l : Launch) : State :=
  (s.releaseHReg l.code).modPart p (fun x => { x with launches := x.launches.filter (fun y => y.lid != l.lid) })

/-- Whether a launch has run out: no iteration left, no task or continuation alive. -/
def Launch.spent (l : Launch) : Bool := l.next.isNone && l.alive == 0

/-- Delivers completions and cancellations to a partition's nodes, and writes the events of those that fail. A failed launch that
has run out leaves. -/
def State.deliverNodes (s : State) (p : Nat) (ws : List (Bool × Nat)) : State :=
  match s.part? p with
  | none => s
  | some x =>
    let (x', fs, cs) := x.deliverNodes (x.fuel ws) ws [] []
    let s := s.modPart p (fun _ => x')
    let s := cs.foldl (fun s l => s.releaseHReg l.code) s
    let s := fs.foldl (fun s n => s.nodeFailed p n) s
    (x'.launches.filter (fun l => l.failed && l.spent)).foldl (fun s l => s.dropLaunch p l) s

/-- Fails the node of a launch (R160): one event, its iterations left are discarded, its dependants are cancelled. Its
entry is released before a cancellation can come back to it on a cycle (DESIGN CHOICE, log 146). -/
def State.failLaunch (s : State) (p lid : Nat) (event : Bool) : State :=
  match s.part? p with
  | none => s
  | some x =>
    match x.launch? lid with
    | none => s
    | some l =>
      if recNode l.record = 0xFFFF ∨ l.failed then s
      else
        let n := recNode l.record
        let s := s.modPart p (fun x =>
          ({ x.modLaunch lid (fun l => { l with failed := true, next := none }) with
             work := x.work.filter (fun w => w.isCont || w.id != lid) }).setNode n {})
        let s := if event then s.nodeFailed p n else s
        s.deliverNodes p (cancels n l.succ)

/-- A task or continuation of a launch has ended: a launch that fills no node, or whose node failed, leaves when it is over. -/
def State.leaveLaunch (s : State) (p lid : Nat) : State :=
  let s := s.modPart p (fun x => x.modLaunch lid (fun l => { l with alive := l.alive - 1 }))
  match s.part? p with
  | none => s
  | some x =>
    match x.launch? lid with
    | none => s
    | some l => if l.spent && (decide (recNode l.record = 0xFFFF) || l.failed) then s.dropLaunch p l else s

/-! ### Ending a task -/

/-- Empties the resources of an allotment: queues, accumulators, tiles, banks (R137, R154, R439). -/
def Core.freeAllot (c : Core) (ctx : Bool) : Core :=
  let c := (List.range 32).foldl (fun c q => if decide (base ctx 0 24 ≤ q ∧ q < base ctx 24 32) then c.setQueue q [] else c) c
  let c := (List.range 16).foldl (fun c a => if decide (base ctx 0 12 ≤ a ∧ a < base ctx 12 16) && !(c.acc a).lent then c.setAcc a {} else c) c
  let c := (List.range 64).foldl (fun c i => if decide (base ctx 0 48 ≤ i ∧ i < base ctx 48 64) then c.setTile i { epoch := (c.tile i).epoch + 1 } else c) c
  let c := (List.range 8).foldl (fun c k => if decide (base ctx 0 7 ≤ k ∧ k < base ctx 7 8) then c.setBank k {} else c) c
  { c with kept := c.kept.filter (fun x => decide (base ctx 0 24 ≤ x.1 ∧ x.1 < base ctx 24 32) == false) }

/-- The group of a poisoned entry and the descriptor of that group; a single spoiled entry has its group's kept one (R438). -/
def QSlot.group? : QSlot → Option (Nat × Option Request)
  | .poison _ g r => some (g, r.filter (fun x => x.chunk.isNone))
  | _ => none

/-- The replay descriptors and fill sources that the resources of a context hold (R438, R463). -/
def Core.requests (c : Core) (ctx : Bool) : List (Option Request) :=
  ((List.range 64).filter (fun i => decide (base ctx 0 48 ≤ i ∧ i < base ctx 48 64))).map (fun i => (c.tile i).replay) ++
  ((List.range 8).filter (fun k => decide (base ctx 0 7 ≤ k ∧ k < base ctx 7 8))).map (fun k => (c.bank k).source) ++
  ((List.range 32).filter (fun q => decide (base ctx 0 24 ≤ q ∧ q < base ctx 24 32))).flatMap (fun q =>
    (((c.queue q).filterMap QSlot.group?).eraseDups).map (fun y => y.2)) ++
  (c.kept.filter (fun x => decide (base ctx 0 24 ≤ x.1 ∧ x.1 < base ctx 24 32))).map (fun x => some x.2)

/-- The unit of a scope that a core lies in (R187, R269). -/
def unitOf (scope : BitVec 3) (core : Nat) : Nat := match scope.toNat with | 0 => core | 1 => core / 4 | _ => core / 128

/-- What a save keeps when instances go back to their start: those in which an arrival of its task is open; an arrival whose phase has
completed is forgotten (R171, R269). -/
def Save.loseBars (v : Save) (gone : List BarInst) : Save :=
  let new := gone.filter (fun b => !v.gone.any (fun g => g.id == b.id))
  { v with
    gone := v.gone ++ new.filter (fun b => v.image.lastArr.any (fun a => a.inst == b.id && a.phase == b.phase))
    image := { v.image with lastArr := v.image.lastArr.filter (fun a => !new.any (fun b => b.id == a.inst && b.phase != a.phase)) } }

/-- Returns barrier instances that no running task holds to their start, and cores forget their arrivals there (R269). A save keeps what an
instance was while one of its arrivals is open in it (R171). The cores of a checkpoint are put back all at once before anything runs, so
their tasks count as running here (R452). -/
def State.sweepBars (s : State) : State :=
  let holds (b : BarId) (core : Nat) (c : Core) : Bool :=
    decide (unitOf b.scope core = b.unit) && (match (c.ctx b.ctx).task with
      | some t => t.part == b.part && t.hasB b.ctx b.num
      | none => false)
  let held (b : BarInst) : Bool := s.cores.any (fun c => holds b.id c.1 c.2) || s.saves.any (fun v => v.checkpoint && holds b.id v.core v.image)
  let bars := s.bars.filter held
  let gone := s.bars.filter (fun b => !held b)
  { s with
    bars := bars
    cores := s.cores.map (fun c => (c.1, { c.2 with lastArr := c.2.lastArr.filter (fun a => bars.any (fun b => b.id == a.inst)) }))
    saves := s.saves.map (fun v => v.loseBars gone) }

/-- The victim resumes when the pre-empting task of its core has ended (R170, R448, R459). -/
def State.resumeVictim (s : State) (core part : Nat) : State :=
  let s := s.modCore core (fun c => { c with frozen := c.preemptor.isSome })
  s.bbox (mereOf core) { etype := 0x0008, core := core, ctx := true, part := part }

/-- The first iteration of the tarn-blocked group of an iteration (R157). -/
def groupBase (idx : BitVec 64) : BitVec 64 := idx &&& ~~~0x10001#64

/-- Whether a task or continuation of a tarn-blocked group of a launch is still to retire (R158). -/
def State.groupAlive (s : State) (g : Nat × BitVec 64) : Bool :=
  let mine (t : Option Task) : Bool := match t with | some t => t.launch == g.1 && groupBase t.idx == g.2 | none => false
  s.cores.any (fun c => mine c.2.c0.task || mine c.2.c1.task ||
    (match c.2.preemptor with | some (false, id, idx) => id == g.1 && groupBase idx == g.2 | _ => false)) ||
  s.parts.any (fun p => p.conts.any (fun c => mine (some c.task))) ||
  s.saves.any (fun v => mine v.image.c0.task || mine v.image.c1.task)

/-- Frees the idle cores of tarn-blocked groups that have retired (R158). -/
def State.releaseHolds (s : State) : State :=
  let live (h : Option (Nat × BitVec 64)) : Option (Nat × BitVec 64) := h.filter s.groupAlive
  { s with cores := s.cores.map (fun c => (c.1, { c.2 with hold := live c.2.hold, holdP := live c.2.holdP })) }

/-- Releases one pin of a task's list (R331). -/
def State.unpinRange (s : State) (p : PinRange) : State :=
  let h : BitVec 64 := BitVec.ofNat 16 p.home ++ p.num ++ p.gen
  let s := (s.modHandle h (fun o => o.unpinBlocks p.lo p.hi)).sweep
  match p.prefixOf with
  | none => s
  | some (m, id) =>
    s.setMere m { s.mere m with px := (s.mere m).px.map (fun x => if x.id == id then { x with pins := x.pins - 1 } else x) }

/-- The binding of context 0's group ends on this core, and the tiles lent to it return empty (R383). -/
def Core.unbind (c : Core) : Core :=
  match c.group with
  | none => c
  | some _ => { (List.range 4).foldl (fun c i => if (c.acc (12 + i)).lent then c.setAcc (12 + i) {} else c) c with group := none }

/-- Ends a context's task (R137): the allotment, the tokens, the handle registers and their bindings go, and with
`keepPins` unset the pins too. Operations in flight run on. -/
def State.endTask (s : State) (core : Nat) (ctx keepPins : Bool) : State :=
  let c := s.core core
  let x := c.ctx ctx
  match x.task with
  | none => s
  | some t =>
    let s := x.h.toList.foldl (fun s r => s.releaseHReg r) s
    let s := (c.requests ctx).foldl (fun s r => s.unbindRequest r) s
    let s := if keepPins then s else t.pins.foldl (fun s p => s.unpinRange p) s
    let c := (s.core core).freeAllot ctx
    let c := if ctx then c else c.unbind
    let s := (s.setCore core (c.setCtx ctx {})).sweepBars
    if ctx then s.resumeVictim core t.part else s

/-- A task's entry values of s0 to s3 (R138). -/
def idxRegs (idx : BitVec 64) : List (Nat × BitVec 64) :=
  (List.range 4).map (fun d => (d, BitVec.ofNat 64 (field idx (16 * d + 15) (16 * d))))

/-- The catch continuation of a task (R168, R440). -/
def catchCont (t : Task) (cid core : Nat) (ctx : Bool) (code : Code) (eng : EngineId) (info pc : BitVec 64) (pins : List PinRange) : Cont where
  cid := cid
  task := { t with
    cont := true, catchRun := true, caught := true, pins := pins
    aq := recAQ t.record, aa := recAA t.record, at_ := recAT t.record, ab := recAB t.record, ak := recAK t.record }
  ctx := ctx
  tarn := tarnOf core
  pcs := [some (BitVec.ofNat 32 (recCatch t.record)), none, none, none]
  s := idxRegs t.idx ++ [(4, (recArg t.record).zeroExtend 64), (5, code.val.zeroExtend 64 ||| BitVec.ofNat 64 (eng.num * 0x10000) ||| (if ctx then 0x40000 else 0)), (6, info), (7, pc)]
  h := Vector.replicate 32 {}
  x := Vector.replicate 16 0
  gens := []
  satisfied := some 0
  enqueued := true

/-- Puts a continuation at the back of its record's level (R167). -/
def Part.enqueueCont (p : Part) (c : Cont) : Part :=
  { p with
    conts := p.conts.filter (fun x => x.cid != c.cid) ++ [{ c with enqueued := true }]
    work := p.work ++ [{ isCont := true, id := c.cid, prio := recPrio c.task.record, level := recPrio c.task.record, age := recAge c.task.record }] }

/-- What happens to reservations whose owner is gone (R82, R94): the objects sealed, and the waiters to tell. -/
def abandonResv (w : Owner) (sealIt : Bool) (o : Obj) : Obj × List Waiter :=
  if o.resv.any (fun r => r.owner == w) then
    if sealIt then
      let o := o.sealNow
      ({ o with waiters := o.waiters.filter (fun x => decide (x.target.toNat ≤ o.val)) },
       o.waiters.filter (fun x => decide (o.val < x.target.toNat)))
    else ({ o with resv := o.resv.map (fun r => if r.owner == w then { r with owner := .nobody } else r) }, [])
  else (o, [])

/-- Ends a registered continuation for good: its bindings, pins and reservations go (R278). Its reservations are left to
the caller's list of owners to abandon. -/
def State.dropCont (s : State) (p : Nat) (c : Cont) (event : Bool) : State :=
  let s := c.h.toList.foldl (fun s r => s.releaseHReg r) s
  let s := c.task.pins.foldl (fun s r => s.unpinRange r) s
  let s := s.modPart p (fun x => { x with conts := x.conts.filter (fun y => y.cid != c.cid), work := x.work.filter (fun w => !w.isCont || w.id != c.cid) })
  let s := s.failLaunch p c.task.launch event
  (s.leaveLaunch p c.task.launch).releaseHolds

/-- Delivers SEQ_SEALED or STALE_HANDLE to a waiter (R82, R278): its catch continuation starts, or its task is killed; another
package's waiter is told. The
second component is the owner whose reservations are then abandoned. -/
def State.deliverWaiter (s : State) (code : Code) (w : Waiter) : State × Option Owner :=
  if 32 ≤ w.part then ({ s with sent := s.sent ++ [.peerFault (BitVec.ofNat 10 (w.part - 32)) code] }, none)
  else match s.part? w.part with
  | none => (s, none)
  | some p =>
    match p.conts.find? (fun c => c.cid == w.cont) with
    | none => (s, none)
    | some c =>
      if c.task.caught ∨ recCatch c.task.record = 0xFFFF then (s.dropCont w.part c true, some (.task c.task.tid))
      else
        let s := c.h.toList.foldl (fun s r => s.releaseHReg r) s
        let pc : BitVec 64 := match c.pcs with | some a :: _ => (a - 1).zeroExtend 64 | _ => 0
        let k := { catchCont c.task c.cid 0 c.ctx code .c 0 pc c.task.pins with tarn := c.tarn }
        (s.modPart w.part (fun p => p.enqueueCont k), none)

/-- Abandons the reservations of the owners listed, under their partition's policy, and delivers SEQ_SEALED to the waiters
above a seal, in the order in which they came (DESIGN CHOICE, log 144); a waiter killed so adds its own reservations (R82, R94). -/
def State.abandonAll (s : State) (sealIt : Bool) : Nat → List Owner → State
  | 0, _ => s
  | _, [] => s
  | n + 1, w :: ws =>
    let rs := s.objs.map (abandonResv w sealIt)
    let s := { s with objs := rs.map (fun r => r.1) }
    let (s, more) := (rs.flatMap (fun r => r.2)).foldl
      (fun (a : State × List Owner) x =>
        let (s, o) := a.1.deliverWaiter .seqSealed x
        (s, match o with | some y => a.2 ++ [y] | none => a.2)) (s, [])
    s.abandonAll sealIt n (ws ++ more)

/-- Abandons an owner's reservations (R82, R91, R94). -/
def State.abandon (s : State) (p : Nat) (w : Owner) : State :=
  let sealIt := match s.part? p with | some x => x.cfg.sealAbandoned | none => true
  let n := (s.parts.map (fun x => x.conts.length)).foldl (· + ·) 1
  s.abandonAll sealIt n [w]

/-- Whether requests that a task has issued from a context still run; stores on their way without acknowledgement do not count
(R137). -/
def State.running (s : State) (core : Nat) (ctx : Bool) (tid : Nat) : Bool :=
  (s.opsOf tid).any (fun o => o.who.core == core && o.who.ctx == ctx && !o.fireForget)

/-- Stops the engines of a context whose task ends once its requests have run to completion (R439); a group that it is bound in ends at
once (R383). -/
def State.halt (s : State) (core : Nat) (ctx keepPins leaves : Bool) : State :=
  let s := if ctx then s else s.modCore core Core.unbind
  let x := (s.core core).ctx ctx
  let stop (e : Engine) : Engine := { e with st := .absent, stall := none, scWait := false, scGrant := none, heldP := 0, heldN := 0 }
  s.setCore core ((s.core core).setCtx ctx { x with c := stop x.c, l := stop x.l, m := stop x.m, v := stop x.v, dying := some (keepPins, leaves) })

/-- Ends a stopped task, at once or when the last of its requests has completed; its open reservations are abandoned then, unless a catch
continuation takes them on (R94, R439). -/
def State.stopTask (s : State) (core : Nat) (ctx keepPins leaves : Bool) (t : Task) : State :=
  if s.running core ctx t.tid then s.halt core ctx keepPins leaves
  else
    let s := s.endTask core ctx keepPins
    let s := if keepPins then s else s.abandon t.part (.task t.tid)
    if leaves then (s.leaveLaunch t.part t.launch).releaseHolds else s

/-- Ends the stopped task of a context whose requests have all completed (R439). -/
def State.reapCtx (s : State) (core : Nat) (ctx : Bool) : State :=
  let x := (s.core core).ctx ctx
  match x.dying, x.task with
  | some (keepPins, leaves), some t => if s.running core ctx t.tid then s else s.stopTask core ctx keepPins leaves t
  | _, _ => s

/-- Ends every stopped task whose requests have all completed. -/
def State.reap (s : State) : State := s.cores.foldl (fun s c => (s.reapCtx c.1 false).reapCtx c.1 true) s

/-- Kills a task (R439): its engines stop and its node fails; its resources, pins and reservations go once its requests have
completed. -/
def State.killTask (s : State) (core : Nat) (ctx event : Bool) : State :=
  match ((s.core core).ctx ctx).task with
  | none => s
  | some t =>
    if ((s.core core).ctx ctx).dying.isSome then s
    else
      let s := s.failLaunch t.part t.launch event
      s.stopTask core ctx false true t

/-- Retires a task (R137). Reservations still open are abandoned under the partition's policy (DESIGN CHOICE, log 87). -/
def State.retireTask (s : State) (core : Nat) (ctx : Bool) : State :=
  match ((s.core core).ctx ctx).task with
  | none => s
  | some t =>
    let s := s.endTask core ctx false
    let s := s.abandon t.part (.task t.tid)
    (s.leaveLaunch t.part t.launch).releaseHolds

/-- Delivers a fault to a task (R440): it ends, and its catch continuation is enqueued; without one it is killed. -/
def State.deliverTask (s : State) (core : Nat) (ctx : Bool) (r : FaultRec) : State :=
  match ((s.core core).ctx ctx).task with
  | none => s
  | some t =>
    if t.caught ∨ recCatch t.record = 0xFFFF then s.killTask core ctx true
    else
      let (cid, s) := s.freshId
      let s := s.stopTask core ctx true false t
      s.modPart t.part (fun p => p.enqueueCont (catchCont t cid core ctx r.code r.engine r.info (r.pc.zeroExtend 64) t.pins))

/-- The conditions of RETIRE (R137): L, M and V have ended and everything the task issued has completed; a signal held on a full queue
does not count. -/
def State.mayRetire (s : State) (w : EngRef) : Bool :=
  let x := s.ctx w
  let done (e : Engine) : Bool := match e.st with | .ended => true | _ => false
  done x.l && done x.m && done x.v &&
  (match x.task with
   | some t => (s.opsOf t.tid).all (fun o => o.fireForget)
   | none => false)

/-- Records a continuation of the task of a context and ends it (R166): C resumes at `pc`, the scalars of the live mask are
kept. -/
def State.recordCont (s : State) (w : EngRef) (pc : BitVec 32) (mask : BitVec 64) : Option (Cont × State) :=
  let x := s.ctx w
  match x.task with
  | none => none
  | some t =>
    let (cid, s) := s.freshId
    let at_ (e : Engine) : Option (BitVec 32) := if t.caught then none else some e.pc
    let c : Cont := {
      cid := cid
      task := { t with cont := true, catchRun := false }
      ctx := w.ctx
      tarn := tarnOf w.core
      pcs := [some pc, at_ x.l, at_ x.m, at_ x.v]
      s := ((List.range 64).filter (fun i => mask.getLsbD i)).map (fun i => (i, x.s.toList.getD i 0))
      h := x.h
      x := x.x
      gens := [x.c.g, x.l.g, x.m.g, x.v.g]
      satisfied := none
      enqueued := false }
    -- the bindings stay with the continuation: the context's handle registers are emptied before the task ends
    let s := s.setCtx w { x with h := Vector.replicate 32 {} }
    let s := s.endTask w.core w.ctx true
    some (c, s.modPart t.part (fun p => { p with conts := p.conts ++ [c] }))

/-! ### Starting a task -/

/-- The linear index of an iteration in row-major order (R138). -/
def linear (r : BitVec 512) (idx : BitVec 64) : Nat :=
  field idx 15 0 + recExt r 0 * (field idx 31 16 + recExt r 1 * (field idx 47 32 + recExt r 2 * field idx 63 48))

/-- An engine's generator state at task entry (R110, R138). -/
def seedG (r : BitVec 512) (idx : BitVec 64) (e : EngineId) : BitVec 64 :=
  let s := (recSeed r).zeroExtend 64 ^^^ (BitVec.ofNat 64 (linear r idx) <<< 32)
  let g := s ^^^ BitVec.ofNat 64 ((e.num + 1) * 0x9E3779B97F4A7C15)
  if g = 0 then 1 else g

/-- Writes scalars into a register file. -/
def setScalars (v : Vector (BitVec 64) 64) (l : List (Nat × BitVec 64)) : Vector (BitVec 64) 64 :=
  l.foldl (fun v x => v.set (x.1 % 64) x.2 (Nat.mod_lt _ (by decide))) v

/-- An engine at the start of its stream. -/
def startEngine (t : Task) (e : EngineId) (pc : Option (BitVec 32)) (g : Option (BitVec 64)) : Engine :=
  { pc := pc.getD 0, st := if pc.isSome then .running else .ended, g := g.getD (seedG t.record t.idx e) }

/-- The context of a task that starts (R138), or of a continuation (R167): every engine observes the registers it starts with. -/
def startCtx (t : Task) (pcs : List (Option (BitVec 32))) (sv : List (Nat × BitVec 64)) (h : Vector HReg 32) (x : Vector (BitVec 128) 16)
    (gens : List (BitVec 64)) : Ctx :=
  Ctx.open_
  { s := setScalars (Vector.replicate 64 0) sv
    h := h
    x := x
    c := startEngine t .c (pcs.getD 0 none) gens[0]?
    l := startEngine t .l (pcs.getD 1 none) gens[1]?
    m := startEngine t .m (pcs.getD 2 none) gens[2]?
    v := startEngine t .v (pcs.getD 3 none) gens[3]?
    task := some t }

/-- Starts a task in a context of a core, its resources emptied (R138). -/
def State.startTask (s : State) (core : Nat) (ctx : Bool) (x : Ctx) : State :=
  s.setCore core (((s.core core).freeAllot ctx).setCtx ctx x)

end Sys2Proof.Machine
end

