-- ==== Sys2Proof/Machine/Ops.lean ====
section
/-! DEFINITION. The shared operations of every instruction: fetching, taking a fault and returning from one, stalling, and
issuing with its checks, tokens, loop ends and signals. -/

namespace Sys2Proof.Machine

open Sys2Proof

/-! ### Fetching -/

/-- The storage bytes of an element of a resolved object, read from memory; the missing page or block otherwise. -/
def readSpot (s : State) (q : Nat) (e : Entry) (l : Layout) (p : Spot) (n : Nat) : Except Nat (List Byte) :=
  (List.range n).mapM (fun k => (l.at s q e (e.byteOff p k)).map (memByte s.mem))

/-- The version a binding of `v` names: the current one, or a retained one (R62, R462). -/
def Obj.verOf (o : Obj) (v : Option (BitVec 64)) : Ver :=
  match v with
  | none => .current
  | some n => if o.e.wmode && n != o.e.value then .kept n else .current

/-- Word `pc` of the code object of a task, at the version bound to it (R219, R220). -/
def State.codeWord (s : State) (t : Task) (pc : Nat) : Except Trap (BitVec 32) :=
  let h := recCode t.record
  match s.objOf? h with
  | none => .error { code := .staleHandle, handle := h }
  | some o =>
    if o.e.gen != hGen h || o.e.typ == .free then .error { code := .staleHandle, handle := h }
    else if s.away o.home then .error (trapAway h)
    else if o.e.ext0.toNat ≤ pc then .error { code := .bounds, handle := h, info := BitVec.ofNat 64 pc }
    else
      let p := o.e.elemSpot pc 0 0 0
      let page : BitVec 64 := BitVec.ofNat 64 (o.e.byteOff p 0 / 65536)
      match s.needSound o (o.e.byteOff p 0 / 65536) with
      | .error t => .error t
      | .ok _ =>
        let q := o.readPkg s p.shard
        match findMap o.maps q (o.verOf t.codeVer) with
        | none => .error { code := .missingObject, handle := h, info := page }
        | some l =>
          match readSpot s q o.e l p 4 with
          | .ok bs => .ok (BitVec.ofNat 32 (leNat bs))
          | .error pg => .error { code := .missingObject, handle := h, info := BitVec.ofNat 64 pg, paddr := o.e.loc + BitVec.ofNat 48 (8 * pg) }

/-- Word 0 at an engine's program counter and the word after it; a word that is not needed reads as 0. -/
def State.fetch (s : State) (w : EngRef) : Except Trap (BitVec 32 × BitVec 32) := do
  match s.task w with
  | none => .error { code := .illegalOp }
  | some t =>
    let pc := (s.eng w).pc.toNat
    let w0 ← s.codeWord t pc
    let op := (w0.extractLsb' 20 8).toNat
    if opAssigned op && opTwoWords op then
      let w1 ← s.codeWord t (pc + 1)
      return (w0, w1)
    else return (w0, 0)

/-- The words of an engine's current instruction; zeros where they cannot be fetched. -/
def State.fetched (s : State) (w : EngRef) : BitVec 32 × BitVec 32 := match s.fetch w with | .ok x => x | .error _ => (0, 0)

/-! ### Taking a fault and returning from it -/

/-- A fault record of an engine's current instruction (R430, R248). -/
def State.faultRec (s : State) (w : EngRef) (t : Trap) (kind : RecKind) : FaultRec :=
  let ws := match s.fetch w with
    | .ok x => x
    | .error _ => (match s.task w with
      | some k => (match s.codeWord k (s.eng w).pc.toNat with | .ok a => (a, 0) | .error _ => (0, 0))
      | none => (0, 0))
  -- a fault raised by an MNEST holds the nest position in place of any other detail (R431)
  let info := if w.eng = .m ∧ ws.1.extractLsb' 20 8 = 0x82#8 then (s.ctx w).npos else t.info
  { handle := t.handle, info := info, word0 := ws.1, word1 := ws.2, pc := (s.eng w).pc,
    node := match s.task w with | some k => BitVec.ofNat 16 (recNode k.record) | none => 0xFFFF#16
    core := w.core, engine := w.eng, ctx := w.ctx, part := s.partOf w, uclass := t.uclass, unit := t.unit, kind := kind,
    master := .engine, code := t.code, errst := t.errst, incons := t.incons, paddr := t.paddr }

/-- Gives back the tokens that a word's `WP` and `WN` took (R142), before those that have come since: a queue that is full again makes
its putter hold the signal. The engine goes on observing what they carried. -/
def Ctx.returnTokens (c : Ctx) (e : EngineId) (word0 : BitVec 32) : Ctx :=
  let c := if word0.getLsbD 31 then (if c.tokP e < 15 then c.setPredQ e (c.viewOf e :: c.predQ e)
    else c.setEng e.pred { c.eng e.pred with heldN := (c.eng e.pred).heldN + 1 }) else c
  if word0.getLsbD 30 then (if c.tokS e < 15 then c.setSuccQ e (c.viewOf e :: c.succQ e)
    else c.setEng e.succ { c.eng e.succ with heldP := (c.eng e.succ).heldP + 1 }) else c

/-- A faulting MNEST that had begun gives its tokens back and keeps its step (R376). -/
def State.leaveNest (s : State) (w : EngRef) (word0 : BitVec 32) : State :=
  let x := s.ctx w
  if w.eng = .m ∧ x.nestTok then s.setCtx w { x.returnTokens .m word0 with nestTok := false } else s

/-- Taking a precise fault (R8, R430, R434): a PRECISE record goes to the mere's fault queue, the engine stops at the
instruction and awaits the record's `SEQNO`. A RIGHTS of the partition check writes a FREEZE record instead, freezes the
engine, and kills the task (R444). `none`: the queue has no place, and the writer waits (R432). -/
def State.takeFault? (s : State) (w : EngRef) (t : Trap) : Option State :=
  let m := mereOf w.core
  if !s.queueRoom m then none
  else if t.freeze then
    let r := s.faultRec w t .freeze
    let s := (s.writeRec m r).2
    let ev : BbEvent := { payload := 0, core := w.core, ctx := w.ctx, part := r.part, engine := w.eng, ecode := t.code.val }
    let s := s.bbox m { ev with etype := 0x0004 }
    let s := s.killTask w.core w.ctx true
    some (s.bbox m { ev with etype := 0x0005 })
  else
    let (r, s) := s.writeRec m (s.faultRec w t .precise)
    some ((s.leaveNest w r.word0).modEng w (fun e => { e with st := .awaiting r, wdog := 0, stall := none, scWait := false, scGrant := none }))

/-- The bound of the watchdog in cycles (R143). -/
def State.wdogBound (s : State) (w : EngRef) : Nat :=
  match s.task w with | some t => 1024 * 2 ^ recWdog t.record | none => 1024

/-- Whether an engine of the context awaits a resolution. -/
def Ctx.awaits (x : Ctx) : Bool :=
  [x.c, x.l, x.m, x.v].any (fun e => match e.st with | .awaiting _ => true | _ => false)

/-- Whether a stall is a condition that the watchdog counts (R143). -/
def Stall.counted : Stall → Bool
  | .other => false
  | _ => true

/-- The fault of a stall that has passed its bound (R143, R431). -/
def Stall.trap (st : Stall) : Trap :=
  match st with
  | .token k => { code := .tokenStall, info := BitVec.ofNat 64 (16 * k) }
  | .heldSignal k => { code := .tokenStall, info := BitVec.ofNat 64 (1 + 16 * k) }
  | .push q _ => { code := .tokenStall, info := 2, uclass := .queue, unit := q }
  | .pop q _ => { code := .tokenStall, info := 3, uclass := .queue, unit := q }
  | .pendingPush q _ => { code := .tokenStall, info := 4, uclass := .queue, unit := q }
  | .tile t => { code := .tokenStall, info := 5, uclass := .tile, unit := t }
  | .barrier b => { code := .tokenStall, info := BitVec.ofNat 64 (6 + 256 * b) }
  | .bank k => { code := .tokenStall, info := 7, uclass := .bank, unit := k }
  | .other => { code := .tokenStall }

/-- A barrier instance; one that nothing has reached has no E, no arrivals and phase 0 (R269). -/
def State.bar (s : State) (id : BarId) : BarInst := (s.bars.find? (fun b => b.id == id)).getD ⟨id, none, 0, 0⟩
/-- Writes a barrier instance. -/
def State.setBar (s : State) (b : BarInst) : State := { s with bars := s.bars.filter (fun x => x.id != b.id) ++ [b] }
/-- A core's last arrival at a barrier number, if its phase is not completed (R269, R270). -/
def State.lastOpen (s : State) (core n : Nat) : Option Arrival :=
  ((s.core core).lastArr.find? (fun a => a.num == n)).filter (fun a => s.bars.any (fun b => b.id == a.inst && b.phase == a.phase))
/-- The instance of that arrival. -/
def State.openArrival (s : State) (core n : Nat) : Option BarId := (s.lastOpen core n).map (fun a => a.inst)
/-- Records a core's last arrival at a number, none where it has none (R269, R270). -/
def State.setArrival (s : State) (core n : Nat) (a : Option Arrival) : State :=
  s.modCore core (fun c => { c with lastArr := c.lastArr.filter (fun x => x.num != n) ++ a.toList })
/-- Takes arrivals away from an instance; one that has none left has no E (R8, R269). -/
def State.takeArrivals (s : State) (b : BarInst) (k : Nat) : State :=
  s.setBar { b with arrivals := b.arrivals - k, expect := if b.arrivals ≤ k then none else b.expect }

/-- What a faulting instruction that waits at a barrier or a rendezvous takes back: its own arrival (R8). -/
def State.withdraw (s : State) (w : EngRef) (st : Stall) : State :=
  match st, w.eng with
  | .barrier n, .c =>
    if !(s.eng w).arrived then s
    else match s.lastOpen w.core n with
      | some a => (s.takeArrivals (s.bar a.inst) 1).setArrival w.core n (if a.count ≤ 1 then none else some { a with count := a.count - 1 })
      | none => s
  | .barrier _, .m =>
    s.modCore w.core (fun c => match c.group with
      | some g => if g.bound then { c with group := some { g with ending := false } } else { c with group := none }
      | none => c)
  | _, _ => s

/-- An attempt to issue that finds a condition unmet: nothing visible happens, and the watchdog counts the cycles that pass on it
(R8, R143). -/
def State.stallAt (s : State) (w : EngRef) (st : Stall) : State := s.modEng w (fun e => { e with stall := some st })

/-- Taking a fault at issue; without a place in the queue the engine stalls, uncounted (R432). -/
def State.takeFault (s : State) (w : EngRef) (t : Trap) : State :=
  match s.takeFault? w t with
  | some s => s
  | none => s.stallAt w .other

/-- The return from a fault: the engine issues the faulting instruction afresh, its watchdog count at zero (R142, R173,
R436). -/
def State.reissue (s : State) (w : EngRef) : State :=
  s.modEng w (fun e => { e with st := .running, wdog := 0, stall := none, arrived := false })

/-! ### Ends of loops -/

/-- The end test of R262 after an instruction whose last word is at `last`: the loop stack and the next word. -/
def loopEnd : List LoopEnt → Nat → Nat → List LoopEnt × Nat
  | [], _, next => ([], next)
  | e :: t, last, next =>
    if e.stop = last then
      (if 1 < e.left then ({ e with left := e.left - 1 } :: t, e.start) else loopEnd t last (e.stop + 1))
    else (e :: t, next)

/-- Moves an engine past an instruction whose last word is at `last` (R219, R262). -/
def Engine.past (e : Engine) (last : Nat) : Engine :=
  let (ls, pc) := loopEnd e.loops last (last + 1)
  { e with loops := ls, pc := BitVec.ofNat 32 pc }

/-! ### Issuing -/

/-- What an instruction does once its tokens are there. -/
inductive Act where
  /-- It completes in this step. -/
  | done (s : State)
  /-- It completes in this step and transfers control. -/
  | goto (s : State) (pc : BitVec 32)
  /-- It has issued as operation `id`, which completes later and puts the signals then. -/
  | pend (s : State) (id : Nat) (k : OpKind)
  /-- It has issued a part of itself; the program counter stays (R375). -/
  | hold (s : State)
  /-- It waits. -/
  | stall (st : Stall)
  /-- It waits with an effect that stays: an arrival, a claim on the wheel. -/
  | stallKeep (s : State) (st : Stall)
  | trap (t : Trap)
  /-- It faults with a retained effect (R8). -/
  | trapKeep (s : State) (t : Trap)
  /-- It ends the task or the stream: its tokens are taken and nothing else is left to do. -/
  | leave (s : State)
  /-- The machine stops. -/
  | stop (f : Fault)

/-- A trap becomes the answer. -/
def Act.of (x : Except Trap Act) : Act := match x with | .ok a => a | .error t => .trap t

/-- Whether the power controller of a mere is within a slice of 1 µs in which it pauses issue (R24, R494). -/
def State.paused (s : State) (m : Nat) : Bool :=
  match (s.mere m).pausedAt with
  | some t => decide ((s.cycles - t).toNat < 2400)
  | none => false

/-- Whether an engine may issue now: it runs, it is not frozen, and issue is not paused (R169, R448, R491, R494). -/
def State.canIssue (s : State) (w : EngRef) : Bool :=
  (match (s.eng w).st with | .running => true | _ => false) && (w.ctx || !(s.core w.core).frozen) && !s.paused (mereOf w.core) &&
  (match s.ckpt with | .none => true | .waiting => true | _ => false) && !s.warmHold

/-- Whether a feature bit is accepted by the partition of an engine's task (R1, R485). -/
def State.accepts (s : State) (w : EngRef) (bit : Nat) : Bool :=
  bit == 0 || (match s.part? (s.partOf w) with | some p => p.featAccept.getLsbD bit | none => false)

/-- Takes the tokens and resets the stall of an instruction that issues (R140, R143). -/
def State.issued (s : State) (w : EngRef) (dp : Dep) : State :=
  let s := s.setCtx w ((s.ctx w).take w.eng dp)
  s.modEng w (fun e => { e with wdog := 0, stall := none, scWait := false, scGrant := none, arrived := false })

/-- Moves past the instruction of `len` words at an engine's program counter. -/
def State.pass (s : State) (w : EngRef) (len : Nat) : State := s.modEng w (fun e => e.past (e.pc.toNat + len - 1))

/-- Puts the signals of an instruction that completes at issue. -/
def State.signal (s : State) (w : EngRef) (dp : Dep) : State := s.setCtx w ((s.ctx w).signal w.eng dp.sp dp.sn)

/-- The granules an operation counts as at the streamer (R301). HSET and HPROBE, which its table leaves out, count as the other requests
done at their home do (DESIGN CHOICE, log 130). -/
def OpKind.granules : OpKind → Nat
  | .copy c => ceilDiv c.total 64
  | .bank _ ms _ _ => 16 * ms.length
  | .home _ _ => 1
  | .kv _ => 1
  | .update _ _ => 1
  | _ => 0

/-- An operation that an engine's current instruction issues. -/
def State.newOp (s : State) (w : EngRef) (id : Nat) (w0 w1 : BitVec 32) (dp : Dep) (k : OpKind) : Op :=
  { id := id, who := w, tid := s.tid w, part := s.partOf w
    launch := match s.task w with | some t => t.launch | none => 0
    node := match s.task w with | some t => BitVec.ofNat 16 (recNode t.record) | none => 0xFFFF#16
    swt := match s.task w with | some t => recSwt t.record | none => 1
    pc := (s.eng w).pc, word0 := w0, word1 := w1, sp := dp.sp, sn := dp.sn
    left := if w.eng = .l then k.granules else 0, kind := k }

/-- What follows from what an instruction does. -/
def State.conclude (s : State) (w : EngRef) (dp : Dep) (len : Nat) (a : Act) : Host.Outcome State Fault Refusal :=
  match a with
  | .done t => .next (((t.issued w dp).pass w len).signal w dp)
  | .goto t pc => .next (((t.issued w dp).modEng w (fun e => { e with pc := pc })).signal w dp)
  | .pend t id k => .next (((t.issued w dp).pass w len).addOp (s.newOp w id (s.fetched w).1 (s.fetched w).2 dp k))
  | .hold t => .next (t.issued w dp)
  | .stall st => .next (s.stallAt w st)
  | .stallKeep t st => .next (t.stallAt w st)
  | .trap t => .next (s.takeFault w t)
  | .trapKeep u t => .next ((u.takeFault? w t).getD (s.stallAt w .other))
  | .leave t => .next t
  | .stop f => .fault f

/-- The issue of an instruction by the engine whose turn it is: the checks of R235 in their order, the wait for tokens
(R140), then what the instruction does. `pre` holds the instruction's own checks of the encoding and of the allotment. -/
def issue (dp : Dep) (eng : Option EngineId) (feat len : Nat) (pre : EngRef → State → Option Trap) (body : EngRef → State → Act)
    (s : State) : Host.Outcome State Fault Refusal :=
  let w := s.turn
  let e := s.eng w
  if !s.canIssue w then .next s
  else if e.heldP ≠ 0 then .next (s.stallAt w (.heldSignal 2))
  else if e.heldN ≠ 0 then .next (s.stallAt w (.heldSignal 3))
  else if !s.accepts w feat then .next (s.takeFault w { code := .illegalOp })
  else if eng.isSome && eng != some w.eng then .next (s.takeFault w { code := .engineMismatch })
  else if len = 2 ∧ (e.loops.head?.map (fun l => l.stop)) = some e.pc.toNat then .next (s.takeFault w { code := .illegalEnc })
  else match pre w s with
    | some t => .next (s.takeFault w t)
    | none =>
      match (s.ctx w).tokenWait w.eng dp with
      | some st => .next (s.stallAt w st)
      | none => s.conclude w dp len (body w s)

/-- No check of its own. -/
def noPre (_ : EngRef) (_ : State) : Option Trap := none

/-- Whether an operation of the engine is still to write scalar `r` (R249, R297, R402). -/
def State.scalarBusy (s : State) (w : EngRef) (r : Nat) : Bool :=
  s.ops.any (fun o => o.who == w && o.tid == s.tid w &&
    (match o.kind with
     | .home (some d) _ => d.1 == r
     | .vres _ _ (some d) _ _ _ => d.1 == r
     | .kv k => k.st == some r
     | .update _ (.atom _ _ _ (some d)) => d == r
     | _ => false))

/-- Whether an L operation is still to write handle register `r` (R355). -/
def State.handleBusy (s : State) (w : EngRef) (r : Nat) : Bool :=
  s.ops.any (fun o => o.who == w && o.tid == s.tid w && (match o.kind with | .home _ (some d) => d.1 == r | _ => false))

/-- Waits until the scalars an instruction reads or writes are written by its own engine's earlier instructions. -/
def interlock (rs : List (BitVec 6)) (body : EngRef → State → Act) (w : EngRef) (s : State) : Act :=
  if rs.any (fun r => s.scalarBusy w r.toNat) then .stall .other else body w s

/-- Issues a request that is done at its home in this step and completes by HOME_REQUEST_COMPLETION (R250, R298). -/
def homeReq (s : State) (dst : Option (Nat × BitVec 64)) (hdst : Option (Nat × HReg)) : Act :=
  let (id, s) := s.freshId
  .pend s id (.home dst hdst)

end Sys2Proof.Machine
end

