-- ==== Sys2Proof/Machine/Flags.lean ====
section
/-! DEFINITION. The flags of `FPFLAGS` and how they are set, read and cleared. -/

namespace Sys2Proof.Machine

open Sys2Proof

/-- Flag bits (R118). -/
def fNV : BitVec 5 := 16
@[inherit_doc fNV]
def fDZ : BitVec 5 := 8
@[inherit_doc fNV]
def fOF : BitVec 5 := 4
@[inherit_doc fNV]
def fUF : BitVec 5 := 2
@[inherit_doc fNV]
def fNX : BitVec 5 := 1

/-- The flags of a rounded result that does not overflow (R116). -/
def roundFlags (inex tiny : Bool) : BitVec 5 := (if inex then fNX else 0) ||| (if inex && tiny then fUF else 0)

/-- The invalid flag of an operation. -/
def nvIf (b : Bool) : BitVec 5 := if b then fNV else 0

/-- Sets flags of an engine: they are sticky (R118). -/
def State.setFlags (s : State) (w : EngRef) (f : BitVec 5) : State := s.modEng w (fun e => { e with flags := e.flags ||| f })
/-- Clears the flags whose bits are 1 and ignores the bits above (R289). -/
def Engine.clearFlags (e : Engine) (v : BitVec 64) : Engine := { e with flags := e.flags &&& ~~~(v.extractLsb' 0 5) }

end Sys2Proof.Machine
end

