-- ==== Sys2Proof/Machine/Num.lean ====
section
/-! DEFINITION. Number formats: decoding, exact values, the one rounding of the extended format, overflow policies. -/

namespace Sys2Proof.Machine

open Sys2Proof

/-- What a format reserves (R97). -/
inductive Special where
  | infNan | nanOnly | none | int
deriving DecidableEq, Repr

/-- A numeric format (R96, R97, R100): exponent and fraction bits, bias, width. -/
structure NumFmt where
  e : Nat
  f : Nat
  bias : Nat
  w : Nat
  sp : Special
deriving DecidableEq, Repr

/-- The numeric format of a `FMT` code (R43, R96, R100). -/
def numFmt (c : Nat) : NumFmt :=
  match c with
  | 0 => ⟨8, 23, 127, 32, .infNan⟩
  | 1 => ⟨5, 10, 15, 16, .infNan⟩
  | 2 => ⟨8, 7, 127, 16, .infNan⟩
  | 3 => ⟨4, 3, 7, 8, .nanOnly⟩
  | 4 => ⟨5, 2, 15, 8, .infNan⟩
  | 5 => ⟨2, 3, 1, 6, .none⟩
  | 6 => ⟨3, 2, 3, 6, .none⟩
  | 7 => ⟨2, 1, 1, 4, .none⟩
  | 8 => ⟨0, 0, 0, 32, .int⟩
  | 9 => ⟨0, 0, 0, 8, .int⟩
  | _ => ⟨0, 0, 0, 4, .int⟩

/-- An exact value: a NaN, an infinity or a signed magnitude `n / d`; zero keeps its sign. -/
inductive Val where
  | nan
  | inf (neg : Bool)
  | fin (neg : Bool) (n d : Nat)
deriving DecidableEq, Repr

/-- The value of an encoding (R95, R97, R100). -/
def decodeVal (F : NumFmt) (x : Nat) : Val :=
  let x := x % 2 ^ F.w
  if F.sp = .int then
    (if x < 2 ^ (F.w - 1) then .fin false x 1 else .fin true (2 ^ F.w - x) 1)
  else
    let s := decide (2 ^ (F.w - 1) ≤ x)
    let E := x / 2 ^ F.f % 2 ^ F.e
    let m := x % 2 ^ F.f
    let top := decide (E = 2 ^ F.e - 1)
    if top && decide (F.sp = .infNan) then (if m = 0 then .inf s else .nan)
    else if top && decide (F.sp = .nanOnly) && decide (m = 2 ^ F.f - 1) then .nan
    else
      let E' := max E 1
      let M := if E = 0 then m else m + 2 ^ F.f
      -- M 2^(E' - bias - f)
      if F.bias + F.f ≤ E' then .fin s (M * 2 ^ (E' - F.bias - F.f)) 1 else .fin s M (2 ^ (F.bias + F.f - E'))

/-- The largest finite encoding without its sign (R96). -/
def maxCode (F : NumFmt) : Nat :=
  match F.sp with
  | .infNan => (2 ^ F.e - 1) * 2 ^ F.f - 1
  | .nanOnly => 2 ^ (F.w - 1) - 2
  | _ => 2 ^ (F.w - 1) - 1
/-- The infinity without its sign. -/
def infCode (F : NumFmt) : Nat := (2 ^ F.e - 1) * 2 ^ F.f
/-- The canonical NaN (R97). -/
def nanCode (F : NumFmt) : Nat :=
  match F.sp with
  | .infNan => (2 ^ F.e - 1) * 2 ^ F.f + 2 ^ (F.f - 1)
  | .nanOnly => 2 ^ (F.w - 1) - 1
  | _ => 0
/-- An encoding with its sign. -/
def withSign (F : NumFmt) (neg : Bool) (c : Nat) : Nat := if neg then c + 2 ^ (F.w - 1) else c

/-- floor(log2 (n / d)) of a positive magnitude. -/
def flog2 (n d : Nat) : Int :=
  let k : Int := (Nat.log2 n : Int) - (Nat.log2 d : Int)
  let ok := if 0 ≤ k then decide (d * 2 ^ k.toNat ≤ n) else decide (d ≤ n * 2 ^ (-k).toNat)
  if ok then k else k - 1

/-- `n / d` in units of `2 ^ k`: numerator and denominator. -/
def inUnits (n d : Nat) (k : Int) : Nat × Nat := if 0 ≤ k then (n, d * 2 ^ k.toNat) else (n * 2 ^ (-k).toNat, d)

/-- Whether a rounding mode goes to the next magnitude from a remainder `r / d` above `lo`, with the draw `q` (R107, R109). -/
def roundsUp (mode : Nat) (neg : Bool) (q lo r d : Nat) : Bool :=
  match mode with
  | 0 => decide (d < 2 * r) || (decide (2 * r = d) && decide (lo % 2 = 1))
  | 1 => false
  | 2 => !neg && decide (0 < r)
  | 3 => neg && decide (0 < r)
  | _ => decide (2 ^ 16 ≤ 2 ^ 16 * r / d + q)

/-- Rounds `n / d` to an integer number of units `2 ^ k`: the multiple and whether it is inexact. -/
def roundUnits (mode : Nat) (neg : Bool) (q n d : Nat) (k : Int) : Nat × Bool :=
  let (a, b) := inUnits n d k
  let lo := a / b
  let r := a % b
  (if roundsUp mode neg q lo r b then lo + 1 else lo, decide (r ≠ 0))

/-- A magnitude rounded once in the extended format (R497): its code, which counts on above the largest finite value, whether it
is inexact, and whether it is tiny (R116). -/
def roundMag (F : NumFmt) (mode : Nat) (neg : Bool) (q n d : Nat) : Nat × Bool × Bool :=
  if n = 0 then (0, false, false)
  else
    let emin : Int := 1 - (F.bias : Int)
    let E := flog2 n d
    let e := max E emin
    let (m, inex) := roundUnits mode neg q n d (e - F.f)
    let code := ((e + F.bias).toNat * 2 ^ F.f + m) - 2 ^ F.f
    -- tiny: the value rounded with no lower bound on the exponent stays below the smallest normal
    let tiny := decide (E < emin) &&
      (let (m', _) := roundUnits mode neg q n d (E - F.f)
       decide (E + 1 < emin) || decide (m' < 2 ^ (F.f + 1)))
    (code, inex, tiny)

/-- A result: its encoding, the flags it sets, whether FP_TRAP applies to it. -/
structure Res where
  code : Nat
  flags : BitVec 5 := 0
  trap : Bool := false
deriving DecidableEq, Repr

/-- An arithmetic result in FP32, FP16 or BF16: rounded once, overflow by R117. -/
def roundArith (F : NumFmt) (mode q : Nat) (v : Val) : Res :=
  match v with
  | .nan => { code := nanCode F }
  | .inf s => { code := withSign F s (infCode F) }
  | .fin s n d =>
    let (c, inex, tiny) := roundMag F mode s q n d
    if maxCode F < c then
      let toInf := match mode with | 0 => true | 1 => false | 2 => !s | 3 => s | _ => true
      { code := withSign F s (if toInf then infCode F else maxCode F), flags := fOF ||| fNX }
    else { code := withSign F s c, flags := roundFlags inex tiny }

/-- The result of an overflow under a policy (R112). -/
def overflow (F : NumFmt) (ovf : Nat) (neg : Bool) : Res :=
  match ovf with
  | 0 => { code := withSign F neg (maxCode F), flags := fOF ||| fNX }
  | 1 => (match F.sp with
    | .infNan => { code := withSign F neg (infCode F), flags := fOF ||| fNX }
    | .nanOnly => { code := nanCode F, flags := fOF ||| fNX ||| fNV }
    | _ => { code := withSign F neg (maxCode F), flags := fOF ||| fNX ||| fNV })
  | 2 => (match F.sp with
    | .infNan | .nanOnly => { code := nanCode F, flags := fOF ||| fNX }
    | _ => { code := withSign F neg (maxCode F), flags := fOF ||| fNX ||| fNV })
  | _ => { code := 0, trap := true }

/-- An integer beyond its range (R115). -/
def intOverflow (F : NumFmt) (ovf : Nat) (neg : Bool) : Res :=
  let e := if neg then 2 ^ (F.w - 1) else 2 ^ (F.w - 1) - 1
  match ovf with
  | 0 => { code := e, flags := fOF ||| fNX }
  | 3 => { code := 0, trap := true }
  | _ => { code := e, flags := fNV ||| fOF ||| fNX }

/-- A conversion into a format, or a result written in a format of a down-conversion (R111 to R116). -/
def roundConv (F : NumFmt) (mode ovf q : Nat) (v : Val) : Res :=
  if F.sp = .int then
    match v with
    | .nan => if ovf = 3 then { code := 0, trap := true } else { code := 0, flags := fNV }
    | .inf s => intOverflow F ovf s
    | .fin s n d =>
      let (m, inex) := roundUnits mode s q n d 0
      let lim := if s then 2 ^ (F.w - 1) else 2 ^ (F.w - 1) - 1
      if lim < m then intOverflow F ovf s
      else { code := if s && decide (m ≠ 0) then 2 ^ F.w - m else m, flags := if inex then fNX else 0 }
  else
    match v with
    | .nan =>
      if F.sp = .none then (if ovf = 3 then { code := 0, trap := true } else { code := maxCode F, flags := fNV })
      else { code := nanCode F }
    | .inf s => if F.sp = .infNan then { code := withSign F s (infCode F) } else overflow F ovf s
    | .fin s n d =>
      let (c, inex, tiny) := roundMag F mode s q n d
      if maxCode F < c then overflow F ovf s
      else { code := withSign F s c, flags := roundFlags inex tiny }

/-- A NaN source keeps its sign where R114 needs it: the sign bit of an encoding. -/
def signBit (F : NumFmt) (x : Nat) : Bool := decide (2 ^ (F.w - 1) ≤ x % 2 ^ F.w)

/-- Converts an encoding of one format to another (R111 to R116). -/
def convert (S D : NumFmt) (mode ovf q x : Nat) : Res :=
  let v := decodeVal S x
  let r := roundConv D mode ovf q v
  match v with
  | .nan => if D.sp = .none && !r.trap then { r with code := withSign D (signBit S x) r.code } else r
  | _ => r

/-! ### Exact arithmetic -/

/-- The sign-inverted value. -/
def Val.neg : Val → Val
  | .nan => .nan
  | .inf s => .inf (!s)
  | .fin s n d => .fin (!s) n d
/-- The exact product; 0 times an infinity is invalid (R117). -/
def Val.mul : Val → Val → Val × Bool
  | .nan, _ => (.nan, false)
  | _, .nan => (.nan, false)
  | .inf s, .inf t => (.inf (s != t), false)
  | .inf s, .fin t n _ => if n = 0 then (.nan, true) else (.inf (s != t), false)
  | .fin t n _, .inf s => if n = 0 then (.nan, true) else (.inf (s != t), false)
  | .fin s a b, .fin t c d => (.fin (s != t) (a * c) (b * d), false)
/-- The exact sum; opposite infinities are invalid (R117). A sum of terms of both signs that is exactly zero is +0, and -0 where the mode
rounds down, as in IEEE 754 (PRESUMED, log 148). -/
def Val.add (mode : Nat) : Val → Val → Val × Bool
  | .nan, _ => (.nan, false)
  | _, .nan => (.nan, false)
  | .inf s, .inf t => if s = t then (.inf s, false) else (.nan, true)
  | .inf s, .fin _ _ _ => (.inf s, false)
  | .fin _ _ _, .inf s => (.inf s, false)
  | .fin s a b, .fin t c d =>
    let x : Int := (if s then -((a * d : Nat) : Int) else ((a * d : Nat) : Int)) + (if t then -((c * b : Nat) : Int) else ((c * b : Nat) : Int))
    if x = 0 then (.fin (if a = 0 ∧ c = 0 ∧ s = t then s else decide (mode = 3)) 0 1, false)
    else (.fin (decide (x < 0)) x.natAbs (b * d), false)

/-- Order of two values that are no NaN: the sign of `x - y`, with -0 below +0. -/
def Val.lt (x y : Val) : Bool :=
  match x, y with
  | .inf s, .inf t => s && !t
  | .inf s, _ => s
  | _, .inf t => !t
  | .fin s a b, .fin t c d =>
    if s && !t then true
    else if !s && t then false
    else if s then decide (c * b < a * d) else decide (a * d < c * b)
  | _, _ => false
/-- Whether a value is a NaN. -/
def Val.isNan : Val → Bool
  | .nan => true
  | _ => false
/-- Numeric equality and order as a comparison sees them: -0 equals +0, a NaN compares with nothing (R98, R416). -/
def Val.cmpLt (x y : Val) : Bool :=
  match x, y with
  | .fin _ 0 _, .fin _ 0 _ => false
  | _, _ => !x.isNan && !y.isNan && x.lt y
/-! ### The generator (R110) -/

/-- One draw: the new state and its 16 bits. -/
def nextG (g : BitVec 64) : BitVec 64 :=
  let g := g ^^^ (g <<< 13)
  let g := g ^^^ (g >>> 7)
  g ^^^ (g <<< 17)
/-- The 16 bits of a draw. -/
def drawOf (g : BitVec 64) : Nat := field g 63 48

/-! ### Sums whose order is open (R122, R124, R125, R127, R132) -/

/-- A finite term as an integer multiple of `2 ^ (-k)`. -/
def toUnits (k : Nat) (v : Val) : Int :=
  match v with
  | .fin s n d => let x : Int := ((n * 2 ^ k / d : Nat) : Int); if s then -x else x
  | _ => 0
/-- An integer multiple of `2 ^ (-k)` as a value. -/
def ofUnits (k : Nat) (x : Int) : Val := .fin (decide (x < 0)) x.natAbs (2 ^ k)
/-- Whether a value is finite. -/
def Val.isFin : Val → Bool
  | .fin _ _ _ => true
  | _ => false

/-- One addition, rounded under its mode: the value it gives and the flags it sets (R117, R132). -/
def addOnce (F : NumFmt) (mode : Nat) (x y : Val) : Val × BitVec 5 :=
  let (v, inval) := Val.add mode x y
  let r := roundArith F mode 0 v
  (decodeVal F r.code, r.flags ||| nvIf inval)

/-- A sum in an order that the spec leaves open (R124, R132): two of the terms, which two is a free value, give way to their rounded
sum, until one value is left; `d` numbers the first free value and `step` is the distance to the next. Every order of two-term
additions is some choice, two terms leave no choice, and where every subset of the terms has a representable sum no addition
rounds (R125). `k` is fuel: the number of terms suffices. -/
def sumFree (F : NumFmt) (mode step : Nat) : Nat → Nat → List Val → Val × BitVec 5
  | _, _, [] => (.fin false 0 1, 0)
  | _, _, [x] => (x, 0)
  | 0, _, x :: _ => (x, 0)
  | k + 1, d, l =>
    let n := (Config.freeSum d).toNat
    let i := n % l.length
    let rest := l.eraseIdx i
    let j := n / l.length % rest.length
    let (v, f) := addOnce F mode (l.getD i .nan) (rest.getD j .nan)
    let (u, g) := sumFree F mode step k (d + step) (v :: rest.eraseIdx j)
    (u, f ||| g)

/-- One round of additions of neighbours: the values left and the flags set. -/
def addPairs (F : NumFmt) (mode : Nat) : List Val → List Val × BitVec 5
  | x :: y :: t =>
    let (v, f) := addOnce F mode x y
    let (l, g) := addPairs F mode t
    (v :: l, f ||| g)
  | l => (l, 0)
/-- A sum by rounds of additions of neighbours: the order in which no term goes through more roundings than the logarithm of their number.
`k` is fuel: the number of terms suffices. -/
def sumPairs (F : NumFmt) (mode : Nat) : Nat → List Val → Val × BitVec 5
  | _, [] => (.fin false 0 1, 0)
  | _, [x] => (x, 0)
  | 0, x :: _ => (x, 0)
  | k + 1, l =>
    let (l, f) := addPairs F mode l
    let (u, g) := sumPairs F mode k l
    (u, f ||| g)
/-- A sum that first adds terms of opposite signs, so that no sum on the way passes both of its terms, and then neighbours: it overflows
only where the whole sum does. `k` is fuel: the number of terms suffices. -/
def sumCancel (F : NumFmt) (mode : Nat) : Nat → List Val → Val × BitVec 5
  | 0, l => sumPairs F mode l.length l
  | k + 1, l =>
    match l.findIdx? (fun x => x.lt (.fin true 0 1)), l.findIdx? (fun x => Val.lt (.fin false 0 1) x) with
    | some i, some j =>
      let (v, f) := addOnce F mode (l.getD i .nan) (l.getD j .nan)
      let (u, g) := sumCancel F mode k (v :: (l.eraseIdx (max i j)).eraseIdx (min i j))
      (u, f ||| g)
    | _, _ => sumPairs F mode l.length l
/-- The exact sum of finite terms in units of 2^-149, which divides every value of the formats of V, rounded once. -/
def sumOnce (F : NumFmt) (mode : Nat) (ts : List Val) : Val × BitVec 5 :=
  let r := roundArith F mode 0 (ofUnits 149 ((ts.map (toUnits 149)).foldl (· + ·) 0))
  (decodeVal F r.code, r.flags)
/-- Whether a sum lies within the error of R132, in units of 2^-149. Terms that are not all finite bound nothing; a sum of finite terms that
is not finite has passed every bound. -/
def withinSum (F : NumFmt) (ts : List Val) (v : Val) : Bool :=
  let us := ts.map (toUnits 149)
  let err := (toUnits 149 v - us.foldl (· + ·) 0).natAbs
  let mag := us.foldl (fun a x => a + x.natAbs) 0
  !ts.all Val.isFin || v.isFin && decide (err * 2 ^ F.f ≤ (ts.length - 1) * (mag + 2 ^ (150 - F.bias - F.f) * 2 ^ F.f))
/-- A reduction's sum (R132): in an open order, each addition rounded under the mode. An order that leaves the error of R132, as one whose
sums overflow on the way, gives way to one that cancels first, and that one to the exact sum rounded once (DESIGN CHOICE, log 39). -/
def boundedSum (F : NumFmt) (mode d : Nat) (ts : List Val) : Val × BitVec 5 :=
  let r := sumFree F mode 1 ts.length d ts
  let c := sumCancel F mode ts.length ts
  if withinSum F ts r.1 then r else if withinSum F ts c.1 then c else sumOnce F mode ts

/-- A sum of exact products (R122): the value and whether it is invalid. Each product says whether it is one of 0 and an infinity. A
NaN makes the sum NaN, and so do opposite infinities; where both occur, the order decides about the flag (R117, R127). -/
def exactSum (k : Nat) (ts : List (Val × Bool)) (free : Bool) : Val × Bool :=
  let inval := ts.any (fun t => t.2)
  let nan := ts.any (fun t => t.1.isNan)
  let pinf := ts.any (fun t => t.1 == .inf false)
  let ninf := ts.any (fun t => t.1 == .inf true)
  if nan then (.nan, inval || (pinf && ninf && free))
  else if pinf && ninf then (.nan, true)
  else if pinf || ninf then (.inf ninf, false)
  else (ofUnits k (ts.foldl (fun t x => t + toUnits k x.1) 0), false)

end Sys2Proof.Machine
end

