-- ==== Sys2Proof/Machine/Operands.lean ====
section
/-! DEFINITION. Operand forms: immediates, tiles and their buffers, vector queues, banks, lanes and guards. -/

namespace Sys2Proof.Machine

open Sys2Proof

/-- Sign-extends a field to 64 bits. -/
def sx {n : Nat} (x : BitVec n) : BitVec 64 := x.signExtend 64
/-- Zero-extends a field to 64 bits. -/
def zx {n : Nat} (x : BitVec n) : BitVec 64 := x.zeroExtend 64

/-! ### Tiles -/

/-- The ALLOT check of tiles (R153). -/
def needTiles (ts : List Nat) (w : EngRef) (s : State) : Option Trap :=
  match s.task w with
  | none => some { code := .allot }
  | some t => (ts.find? (fun x => !t.hasT w.ctx x)).map (fun x => { code := .allot, uclass := .tile, unit := x })

/-- The fault code that a poisoned tile reports (R149, R438). -/
def poisonTrap (r : Option FaultRec) (cls : UnitClass) (u : Nat) : Trap :=
  match r with
  | some f => { code := f.code, info := f.info, handle := f.handle, uclass := cls, unit := u, errst := f.errst, incons := f.incons, paddr := f.paddr }
  | none => { code := .tileState, uclass := cls, unit := u }

/-- An instruction that reads a tile (R149): `none` where it may issue. -/
def tileRead (x : Tile) (t : Nat) : Option Act :=
  match x.st with
  | .empty => some (.trap { code := .tileState, uclass := .tile, unit := t })
  | .filling | .draining => some (.stall (.tile t))
  | .ready => none
  | .poisoned => some (.trap (poisonTrap x.fault .tile t))
/-- An instruction that writes a tile (R149). -/
def tileWrite (x : Tile) (t : Nat) : Option Act :=
  match x.st with
  | .empty | .ready => none
  | .filling | .draining => some (.stall (.tile t))
  | .poisoned => some (.trap (poisonTrap x.fault .tile t))

/-- Whether an issued instruction still reads a tile of a core (R316, R381). -/
def State.tileRead? (s : State) (core t : Nat) : Bool :=
  s.ops.any (fun o => match o.kind with
    | .mma _ _ reads _ _ _ => reads.contains (core, t)
    | .copy c => o.who.core == core && c.rowTile == some t && c.res.isNone
    | _ => false)

/-- A byte offset of a tile's buffer as a memory address, under its swizzle (R174, R180). -/
def tileAddr (core off : Nat) (swz : BitVec 3) (o : Nat) : Nat := sliceAddr core (off + swizzle swz o)

/-- `n` bytes of a tile from logical offset `o`. -/
def State.tileBytes (s : State) (core : Nat) (x : Tile) (o n : Nat) : List Byte :=
  if x.swz = 0 then s.bytes (sliceAddr core (x.off + o)) n
  else (List.range n).map (fun i => memByte s.mem (tileAddr core x.off x.swz (o + i)))

/-- Stores bytes at logical offsets of a buffer. -/
def storeTile (core off : Nat) (swz : BitVec 3) : State → Nat → List Byte → State
  | s, _, [] => s
  | s, o, b :: bs => storeTile core off swz (s.store (tileAddr core off swz o) [b]) (o + 1) bs

/-- Stores bytes at a logical offset of a buffer, in one piece where the buffer has no swizzle. -/
def State.putTile (s : State) (core off : Nat) (swz : BitVec 3) (o : Nat) (bs : List Byte) : State :=
  if swz = 0 then s.store (sliceAddr core (off + o)) bs else storeTile core off swz s o bs

/-- An interval of bytes cut where granules of 64 bytes end: a swizzle moves whole granules (R178). -/
def granulesOf (r : Nat × Nat) : List (Nat × Nat) :=
  (List.range (ceilDiv r.2 64 - r.1 / 64)).map (fun i => (max r.1 (64 * (r.1 / 64 + i)), min r.2 (64 * (r.1 / 64 + i + 1))))

/-- Where bytes of a buffer, intervals of its logical offsets, lie in the slice (R180). -/
def bufferSpans (off : Nat) (swz : BitVec 3) (rs : List (Nat × Nat)) : List (Nat × Nat) :=
  if swz = 0 then rs.map (fun r => (off + r.1, off + r.2))
  else (rs.flatMap granulesOf).map (fun g => (off + swizzle swz g.1, off + swizzle swz g.1 + (g.2 - g.1)))

/-- An operation whose access to a tile's buffer goes on after TSET has detached it, with bytes that a later access touches put on
record (R324). -/
def OpKind.crossing (k : OpKind) (rs : List (Nat × Nat)) : OpKind :=
  match k with
  | .copy c => .copy { c with crossed := c.crossed ++ rs }
  | .drain a ws f u => .drain a (ws.map (fun d => { d with crossed := d.crossed ++ rs })) f u
  | .kv c => .kv { c with crossed := c.crossed ++ rs }
  | k => k

/-- An access that issues now touches bytes of a core's slice through a tile's buffer: the core's operations in flight keep them on record
(R324). -/
def State.touch (s : State) (core : Nat) (rs : List (Nat × Nat)) : State :=
  { s with ops := s.ops.map (fun o => if o.who.core = core then { o with kind := o.kind.crossing rs } else o) }
/-- An access touches bytes of a tile, intervals of logical offsets. -/
def State.touchTile (s : State) (core t : Nat) (rs : List (Nat × Nat)) : State :=
  let x := (s.core core).tile t
  s.touch core (bufferSpans x.off x.swz rs)

/-- Whether a tile's buffer holds a word with an uncorrectable error (R443). -/
def State.tileBad (s : State) (core : Nat) (x : Tile) : Bool :=
  s.badWords.any (fun a => decide (sliceAddr core x.off ≤ a ∧ a < sliceAddr core (x.off + x.size)))

/-- Poisons a tile that an instruction reads and whose buffer holds such a word; the reader faults with it precisely. A replay
descriptor that the tile keeps stays (R438). -/
def eccTile (w : EngRef) (s : State) (core t : Nat) : Option Act :=
  let x := (s.core core).tile t
  if s.tileBad core x then
    let tr : Trap := { code := .eccUncorr, uclass := .tile, unit := t }
    let f := s.faultRec w tr .poison
    let s := s.modCore core (fun c => c.setTile t { x with st := .poisoned, fault := some f })
    some (.trapKeep s tr)
  else none

/-! ### Vector queues (R144 to R146, R230, R400) -/

/-- A source queue of an instruction: its number and whether it is a peek. -/
structure Src where
  q : Nat
  peek : Bool
deriving DecidableEq, Repr

/-- The ALLOT check of queues and the binding check, which ranks after it (R145, R153, R404). -/
def needQueues (qs : List Nat) (w : EngRef) (s : State) : Option Trap :=
  match s.task w with
  | none => some { code := .allot }
  | some t => (qs.find? (fun q => !t.hasQ w.ctx q)).map (fun q => { code := .allot, uclass := .queue, unit := q })

/-- Whether a queue is local: both bound engines are the same (R145). -/
def Task.isLocal (t : Task) (ctx : Bool) (q : Nat) : Bool := (t.binding ctx q).1 == (t.binding ctx q).2

/-- The distinct queues of a list of sources, popped unless every field that names it is a peek (R230). -/
def mergeSrcs : List Src → List Src
  | [] => []
  | x :: xs =>
    let r := mergeSrcs xs
    if r.any (fun y => y.q == x.q) then r.map (fun y => if y.q == x.q then { y with peek := y.peek && x.peek } else y) else x :: r

/-- What an entry in a queue holds; a pending push and a poisoned entry hold nothing. -/
def QSlot.bits? : QSlot → Option (BitVec 4096)
  | .entry e => some e
  | .refilled e _ => some e
  | _ => none

/-- The place a source reads. -/
inductive Got where
  | ok (e : BitVec 4096)
  | act (a : Act)

/-- Reads the oldest place of a queue (R146, R319, R404). -/
def readQueue (isLocal : Bool) (q : Nat) (l : List QSlot) : Got :=
  match l with
  | .entry e :: _ => .ok e
  | .refilled e _ :: _ => .ok e
  | .poison r _ _ :: _ => .act (.trap (poisonTrap (some r) .queue q))
  | .pending _ :: _ => .act (.stall (.pendingPush q 1))
  | [] => .act (if isLocal then .trap { code := .queueUnder, uclass := .queue, unit := q } else .stall (.pop q 1))

/-- Pops a queue unless it is peeked. -/
def Core.popSrcs (c : Core) (ss : List Src) : Core := ss.foldl (fun c x => if x.peek then c else c.setQueue x.q ((c.queue x.q).drop 1)) c
/-- Counts a pending push of operation `id` (R146, R402). -/
def Core.pushPending (c : Core) (q id : Nat) : Core := c.setQueue q (c.queue q ++ [.pending id])

/-- The queue checks of a V instruction in the order of R400 and R404, and its entries in the order of `ss`. `busy`: a guard mask or
scalar that it reads is still to be written, which it waits for before it looks at any entry. R400 has one wait for sources and channel
destinations; where several are unmet it is named by the first full destination, then by the first source (DESIGN CHOICE, log 150). -/
def queueIssue (w : EngRef) (s : State) (ss : List Src) (dests : List Nat) (busy : Bool) (k : List (BitVec 4096) → Core → Act) : Act :=
  match s.task w with
  | none => .trap { code := .allot }
  | some t =>
    let c := s.core w.core
    let m := mergeSrcs ss
    match ((m.map Src.q).find? (fun q => (t.binding w.ctx q).2 != w.eng)).or (dests.find? (fun d => (t.binding w.ctx d).1 != w.eng)) with
    | some q => .trap { code := .engineMismatch, uclass := .queue, unit := q }
    | none =>
      -- pops take effect before the pushes are counted
      let popped := c.popSrcs m
      let full (d : Nat) : Bool := decide (4 < (popped.queue d).length + (dests.filter (fun x => x == d)).length)
      match dests.find? (fun d => t.isLocal w.ctx d && full d) with
      | some d => .trap { code := .queueOver, uclass := .queue, unit := d }
      | none =>
        match m.find? (fun x => t.isLocal w.ctx x.q && (c.queue x.q).isEmpty) with
        | some x => .trap { code := .queueUnder, uclass := .queue, unit := x.q }
        | none =>
          match dests.find? (fun d => !t.isLocal w.ctx d && full d) with
          | some d => .stall (.push d (dests.filter (fun x => x == d)).length)
          | none =>
            -- every source waits before any poisoned entry is reported
            match m.findSome? (fun x => match readQueue (t.isLocal w.ctx x.q) x.q (c.queue x.q) with
                | .act (.stall st) => some st
                | _ => none) with
            | some st => .stall st
            | none =>
              if busy then .stall .other
              else match m.findSome? (fun x => match readQueue (t.isLocal w.ctx x.q) x.q (c.queue x.q) with
                  | .act a => some a
                  | .ok _ => none) with
              | some a => a
              | none =>
                k (ss.map (fun x => match readQueue (t.isLocal w.ctx x.q) x.q (c.queue x.q) with | .ok e => e | .act _ => 0)) popped

/-- Replaces the first place that waits for operation `id`. -/
def fillSlot (id : Nat) (v : QSlot) : List QSlot → List QSlot
  | [] => []
  | .pending n :: t => if n = id then v :: t else .pending n :: fillSlot id v t
  | x :: t => x :: fillSlot id v t

/-! ### Lanes and guards (R397 to R399) -/

/-- Lane `i` of width `w` of an entry. -/
def lane (e : BitVec 4096) (w i : Nat) : Nat := (e.toNat >>> (w * i)) % 2 ^ w
/-- Lanes of width `w` as an entry, lane 0 first. -/
def packLanes (w : Nat) : List Nat → Nat
  | [] => 0
  | x :: xs => x % 2 ^ w + 2 ^ w * packLanes w xs
/-- An entry from its lanes. -/
def entryOf (w : Nat) (ls : List Nat) : BitVec 4096 := BitVec.ofNat 4096 (packLanes w ls)
/-- The lanes of an entry. -/
def lanes (e : BitVec 4096) (w : Nat) : List Nat := (List.range (4096 / w)).map (lane e w)
/-- Whether a guard enables the lane of `b` bytes with number `i` (R398). -/
def enabled (g : BitVec 512) (b i : Nat) : Bool := !g.getLsbD (b * i)

/-- The 512 bytes of an entry, and an entry of bytes (R397). -/
def entryBytes (e : BitVec 4096) : List Byte := leBytes 512 e.toNat
@[inherit_doc entryBytes]
def bytesEntry (bs : List Byte) : BitVec 4096 := BitVec.ofNat 4096 (leNat bs)

/-! ### Banks (R339) -/

/-- What an expansion from a bank meets (R339): `none` where it may issue. -/
def bankRead (c : Core) (k : Nat) : Option Act :=
  let b := c.bank k
  match b.st with
  | .ready => none
  | .filling => some (.stall (.bank k))
  | .empty => some (.trap (match b.pending with
    | some r => poisonTrap (some r) .bank k
    | none => { code := .cbState, uclass := .bank, unit := k }))

/-- The expansion that reports a bank's pending code clears it (R339). -/
def Act.clearPending (a : Act) (s : State) (core k : Nat) : Act :=
  match a with
  | .trap t => if ((s.core core).bank k).pending.isSome then
      .trapKeep (s.modCore core (fun c => c.setBank k { c.bank k with pending := none })) t else .trap t
  | x => x

/-- Entry `j` of a bank. -/
def Bank.entry (b : Bank) (j : Nat) : Nat := (b.bits.toNat >>> (32 * j)) % 2 ^ 32

end Sys2Proof.Machine
end

