-- ==== Sys2Proof/Machine/Transfer.lean ====
section
/-! DEFINITION. Moving data between objects and tiles, queues and banks: shape records, layouts, resolution, reading and
storing boxes (R306 to R322). -/

namespace Sys2Proof.Machine

open Sys2Proof

/-! ### Shape records (R306, R308) -/

/-- Box extent of a shape record along a dimension. -/
def shBox (x : BitVec 128) (d : Nat) : Nat := field x (79 + 16 * d) (64 + 16 * d)
/-- `PITCH`. -/
def shPitch (x : BitVec 128) : Nat := field x 63 44
/-- The object index step along dimension 0: `STEP0` plus one. -/
def shStep (x : BitVec 128) : Nat := field x 43 40 + 1
/-- `RBR`. -/
def shRbr (x : BitVec 128) : Nat := field x 39 36
/-- `RBC`. -/
def shRbc (x : BitVec 128) : Nat := field x 35 32
/-- `CDIM`. -/
def shCdim (x : BitVec 128) : Nat := field x 31 29
/-- `PAD`. -/
def shPad (x : BitVec 128) : Nat := field x 28 27
/-- `VALID`. -/
def shValid (x : BitVec 128) : Bool := x.getLsbD 0

/-- Whether a shape record meets R308 against an object's attributes; whole bytes are asked of the blocks of a record that sets a
re-block geometry. -/
def shapeOk (e : Entry) (x : BitVec 128) : Bool :=
  let w := e.w
  let b := shBox x
  (List.range 4).all (fun d => decide (1 ≤ b d) && (decide (d < e.rk) || decide (b d = 1))) &&
  (decide (8 ≤ w) || decide (b 0 * w % 8 = 0)) &&
  decide (b 0 % e.scb 0 = 0 ∧ b 1 % e.scb 1 = 0) &&
  (decide (shStep x = 1) || (decide (8 ≤ w) && decide (e.scfmt = 0))) &&
  (decide (shPitch x = 0) || decide (b 0 * w / 8 ≤ shPitch x)) &&
  (decide (shCdim x = 0) || decide (shCdim x - 1 < e.rk)) &&
  decide (b 1 % 2 ^ shRbr x = 0 ∧ b 0 % 2 ^ shRbc x = 0) &&
  (decide (shRbr x = 0 ∧ shRbc x = 0) || decide (2 ^ shRbc x * w % 8 = 0)) &&
  (decide (shPad x = 0) || decide (e.typ ≠ .counter))

/-! ### Layouts (R311 to R313) -/

/-- The destination layouts (R309). -/
inductive Lay where
  | plain | tr | rb
deriving DecidableEq, Repr

/-- A box of an object in a layout; `nat` takes the natural pitch whatever the record holds (R340). -/
structure Geo where
  e : Entry
  x : BitVec 128
  lay : Lay
  nat : Bool
deriving DecidableEq, Repr

/-- Box extent. -/
def Geo.b (g : Geo) (d : Nat) : Nat := shBox g.x d
/-- Box extents that take the places of dimensions 0 and 1 in the tile. -/
def Geo.t0 (g : Geo) : Nat := if g.lay = .tr then g.b 1 else g.b 0
@[inherit_doc Geo.t0]
def Geo.t1 (g : Geo) : Nat := if g.lay = .tr then g.b 0 else g.b 1
/-- The natural row bytes N. -/
def Geo.n (g : Geo) : Nat := g.t0 * g.e.w / 8
/-- The row pitch P. -/
def Geo.p (g : Geo) : Nat := if g.nat || shPitch g.x == 0 then g.n else shPitch g.x
/-- The end E of the element region. -/
def Geo.elemEnd (g : Geo) : Nat := g.p * g.t1 * g.b 2 * g.b 3
/-- Where the scale region begins (R313). -/
def Geo.scaleBase (g : Geo) : Nat := roundUp g.elemEnd 64
/-- Scale blocks of the box along a dimension. -/
def Geo.sg (g : Geo) (d : Nat) : Nat := ceilDiv (g.b d) (g.e.scb d)
/-- The copy's total T (R313). -/
def Geo.total (g : Geo) : Nat :=
  if g.e.scfmt = 0 then g.elemEnd else g.scaleBase + g.sg 0 * g.sg 1 * g.sg 2 * g.sg 3 * scBytes g.e.scfmt
/-- The bit of the tile or entry stream at which a box position lies (R311, R312). -/
def Geo.bit (g : Geo) (e0 e1 e2 e3 : Nat) : Nat :=
  match g.lay with
  | .plain => 8 * g.p * (e1 + g.b 1 * (e2 + g.b 2 * e3)) + g.e.w * e0
  | .tr => 8 * g.p * (e0 + g.b 0 * (e2 + g.b 2 * e3)) + g.e.w * e1
  | .rb =>
    let r := 2 ^ shRbr g.x
    let c := 2 ^ shRbc g.x
    g.e.w * ((e2 + g.b 2 * e3) * (g.b 0 * g.b 1) + (e1 / r * (g.b 0 / c) + e0 / c) * (r * c) + e1 % r * c + e0 % c)
/-- The byte at which the scale of a scale block of the box lies (R313). -/
def Geo.scaleByte (g : Geo) (k0 k1 k2 k3 : Nat) : Nat :=
  let i := if g.lay = .tr then k1 + g.sg 1 * (k0 + g.sg 0 * (k2 + g.sg 2 * k3)) else k0 + g.sg 0 * (k1 + g.sg 1 * (k2 + g.sg 2 * k3))
  g.scaleBase + i * scBytes g.e.scfmt

/-- Tuples below four bounds, the first component fastest. -/
def tuples (n0 n1 n2 n3 : Nat) : List (Nat × Nat × Nat × Nat) :=
  (List.range n3).flatMap (fun d => (List.range n2).flatMap (fun c => (List.range n1).flatMap (fun b => (List.range n0).map (fun a => (a, b, c, d)))))
/-- The positions of the box. -/
def Geo.positions (g : Geo) : List (Nat × Nat × Nat × Nat) := tuples (g.b 0) (g.b 1) (g.b 2) (g.b 3)
/-- The scale blocks of the box; none for an unscaled object. -/
def Geo.scaleBlocks (g : Geo) : List (Nat × Nat × Nat × Nat) := if g.e.scfmt = 0 then [] else tuples (g.sg 0) (g.sg 1) (g.sg 2) (g.sg 3)

/-- `ROW` of a row-list entry (R320). -/
def rowOf (r : BitVec 64) : Nat := field r 31 0
/-- `LEN` of a row-list entry. -/
def lenOf (r : BitVec 64) : Nat := field r 47 32

/-- A box placed in an object: the index tuple, and the row list of a ragged copy. -/
structure Place where
  g : Geo
  ix : List Nat
  rows : Option (List (BitVec 64))

/-- The bytes of the tile or entry stream that a box takes up, first and past the last, of each row, block row and scale region: what lies
between rows of a wider pitch is no part of it (R311 to R313). -/
def Geo.spans (g : Geo) : List (Nat × Nat) :=
  let elems := if g.lay = .rb ∨ g.p = g.n then [(0, g.elemEnd)] else (List.range (g.t1 * g.b 2 * g.b 3)).map (fun r => (g.p * r, g.p * r + g.n))
  elems ++ (if g.e.scfmt = 0 then [] else [(g.scaleBase, g.total)])

/-- The bytes of the tile or entry stream of which the layout says two things, first and past the last: where a transposed copy's pitch is
below its row (R308 compares it with the plain row), the rows overlap, and the last ones reach past the end E of the element region
(DESIGN CHOICE, log 42). -/
def Geo.lap (g : Geo) : List (Nat × Nat) :=
  let rows := g.t1 * g.b 2 * g.b 3
  if g.lay = .tr ∧ g.p < g.n then
    (if 2 ≤ rows then [(g.p, g.p * (rows - 2) + g.n)] else []) ++ [(g.elemEnd, g.p * (rows - 1) + g.n)]
  else []

/-- Entry `r` of the row list. -/
def Place.row (p : Place) (r : Nat) : BitVec 64 := match p.rows with | some rs => rs.getD r 0 | none => 0
/-- The object index of a box position (R311, R320, R396). -/
def Place.at (p : Place) (e : Nat × Nat × Nat × Nat) : Nat × Nat × Nat × Nat :=
  let i := fun d => p.ix.getD d 0
  (i 0 + shStep p.g.x * e.1, match p.rows with | some _ => rowOf (p.row e.2.1) | none => i 1 + e.2.1, i 2 + e.2.2.1, i 3 + e.2.2.2)
/-- Component `d` of an index. -/
def comp (t : Nat × Nat × Nat × Nat) (d : Nat) : Nat := match d with | 0 => t.1 | 1 => t.2.1 | 2 => t.2.2.1 | _ => t.2.2.2
/-- Whether an index lies within the extents. -/
def Entry.has (e : Entry) (t : Nat × Nat × Nat × Nat) : Bool := (List.range e.rk).all (fun d => decide (comp t d < e.ext d))
/-- The linear index of an element, dimension 0 fastest. -/
def Entry.linear (e : Entry) (t : Nat × Nat × Nat × Nat) : Nat := t.1 + e.ext 0 * (t.2.1 + e.ext 1 * (t.2.2.1 + e.ext 2 * t.2.2.2))
/-- The pad mode in force: a ragged copy always pads (R314, R320). -/
def Place.pad (p : Place) : Nat := if p.rows.isSome && shPad p.g.x == 0 then 1 else shPad p.g.x
/-- Whether a box position is read or stored rather than padded or skipped (R314, R320). -/
def Place.touches (p : Place) (e : Nat × Nat × Nat × Nat) : Bool :=
  p.g.e.has (p.at e) && (p.rows.isNone || decide (e.1 < lenOf (p.row e.2.1)))

/-- Whether a box position lies past a SEQUENCE's slots, which are never padded (R314). -/
def Place.overSlot (p : Place) (e : Nat × Nat × Nat × Nat) : Bool :=
  decide (p.g.e.typ = .sequence) && decide (p.g.e.capacity ≤ comp (p.at e) p.g.e.rank.toNat) &&
  (p.rows.isNone || decide (e.1 < lenOf (p.row e.2.1)))

/-- The pad value of an element (R314). -/
def padElem (fmt : BitVec 5) (pad : Nat) : Nat :=
  if pad = 2 then
    (match fmt.toNat with
    | 0 => 0xFF800000 | 1 => 0xFC00 | 2 => 0xFF80 | 3 => 0xFE | 4 => 0xFC
    | 5 => 0x3F | 6 => 0x3F | 7 => 0xF | 8 => 0x80000000 | 9 => 0x80 | 10 => 0x8 | _ => 0)
  else 0
/-- The pad value of a scale: 1.0 (R314). -/
def padScale (f : BitVec 2) : Nat := if f = 1 then 0x7F else 0x7F0000

/-! ### Bits of objects -/

/-- The value of `w` bits at a spot of an object. -/
def readBits (s : State) (q : Nat) (e : Entry) (l : Layout) (p : Spot) (w : Nat) : Nat :=
  match readSpot s q e l p (ceilDiv (p.bit % 8 + w) 8) with
  | .ok bs => (leNat bs >>> (p.bit % 8)) % 2 ^ w
  | .error _ => 0

/-- Stores `w` bits at a spot of an object on package `q`. -/
def writeBits (s : State) (q : Nat) (e : Entry) (l : Layout) (p : Spot) (w v : Nat) : State :=
  let k := p.bit % 8
  let n := ceilDiv (k + w) 8
  let old := match readSpot s q e l p n with | .ok bs => leNat bs | .error _ => 0
  let new := old ^^^ ((old ^^^ (v <<< k)) &&& ((2 ^ w - 1) <<< k))
  (List.range n).foldl (fun s i =>
    match l.at s q e (e.byteOff p i) with
    | .ok a => s.store a [BitVec.ofNat 8 (new >>> (8 * i))]
    | .error _ => s) s

/-- The spot of the element at an index. -/
def Entry.spot (e : Entry) (t : Nat × Nat × Nat × Nat) : Spot := e.elemSpot t.1 t.2.1 t.2.2.1 t.2.2.2
/-- The object index of the first element of a scale block of the box. -/
def Place.scaleAt (p : Place) (k : Nat × Nat × Nat × Nat) : Nat × Nat × Nat × Nat :=
  p.at (k.1 * p.g.e.scb 0, k.2.1 * p.g.e.scb 1, k.2.2.1, k.2.2.2)
/-- The spot of the scale of the element at an index. -/
def Entry.sspot (e : Entry) (t : Nat × Nat × Nat × Nat) : Spot := e.scaleSpot t.1 t.2.1 t.2.2.1 t.2.2.2

/-- What a copy in puts at its destination: bit position, width and value, in order (R311 to R314). `at_` gives the package and the map of
each shard; `can` says which spots can be read, and a spot that cannot leaves its bits alone (R354). -/
def Place.gatherBy (p : Place) (s : State) (at_ : Nat → Nat × Layout) (can : Spot → Bool) : List (Nat × Nat × Nat) :=
  let e := p.g.e
  (p.g.positions.filterMap (fun t =>
    let b := p.g.bit t.1 t.2.1 t.2.2.1 t.2.2.2
    if p.touches t then
      let sp := e.spot (p.at t)
      if can sp then some (b, e.w, readBits s (at_ sp.shard).1 e (at_ sp.shard).2 sp e.w) else none
    else if p.pad = 0 || p.overSlot t then none else some (b, e.w, padElem e.fmt p.pad))) ++
  p.g.scaleBlocks.filterMap (fun k =>
    let b := 8 * p.g.scaleByte k.1 k.2.1 k.2.2.1 k.2.2.2
    let w := 8 * scBytes e.scfmt
    if e.has (p.scaleAt k) then
      let sp := e.sspot (p.scaleAt k)
      if can sp then some (b, w, readBits s (at_ sp.shard).1 e (at_ sp.shard).2 sp w) else none
    else if p.pad = 0 then none else some (b, w, padScale e.scfmt))
/-- The same of a box that lies on one package. -/
def Place.gather (p : Place) (s : State) (q : Nat) (l : Layout) (can : Spot → Bool) : List (Nat × Nat × Nat) :=
  p.gatherBy s (fun _ => (q, l)) can

/-- Puts gathered bits over a little-endian number. -/
def overlay (old : Nat) (ws : List (Nat × Nat × Nat)) : Nat :=
  let mask := ws.foldl (fun m w => m ||| ((2 ^ w.2.1 - 1) <<< w.1)) 0
  let val := ws.foldl (fun v w => v ||| (w.2.2 <<< w.1)) 0
  old ^^^ ((old ^^^ val) &&& mask)

/-- Bytes that a copy puts at its destination, with free values where its layout says two things. -/
def State.lapFree (s : State) (g : Geo) (bs : List Byte) : State × List Byte :=
  if g.lap.isEmpty then (s, bs)
  else
    let (n, s) := s.draw bs.length
    (s, (bs.zipIdx).map (fun p => if g.lap.any (fun r => decide (r.1 ≤ p.2 ∧ p.2 < r.2)) then (Config.freeSum (n + p.2)).extractLsb' 0 8 else p.1))
/-- Bytes of its tile's buffer that a copy in reaches at most: its total, and what rows that overlap reach past it. -/
def Geo.reach (g : Geo) (size : Nat) : Nat := g.lap.foldl (fun n r => max n (min r.2 size)) g.total

/-- What a copy out stores: the spot, width and value of each piece, taken from the bytes of the tile or entries. -/
def Place.scatter (p : Place) (data : Nat) : List (Spot × Nat × Nat) :=
  let e := p.g.e
  (p.g.positions.filter p.touches).map (fun t => (e.spot (p.at t), e.w, (data >>> p.g.bit t.1 t.2.1 t.2.2.1 t.2.2.2) % 2 ^ e.w)) ++
  (p.g.scaleBlocks.filter (fun k => e.has (p.scaleAt k))).map (fun k =>
    (e.sspot (p.scaleAt k), 8 * scBytes e.scfmt, (data >>> (8 * p.g.scaleByte k.1 k.2.1 k.2.2.1 k.2.2.2)) % 2 ^ (8 * scBytes e.scfmt)))

/-- Stores pieces on every package of a resolution. -/
def storePieces (s : State) (r : Resolved) (ws : List (Spot × Nat × Nat)) : State :=
  r.maps.foldl (fun s m => ws.foldl (fun s w => writeBits s m.1 r.e m.2 w.1 w.2.1 w.2.2) s) s

/-- The storage offsets at the two ends of every piece a box touches. -/
def Place.offsets (p : Place) : List Nat :=
  let e := p.g.e
  let ends (sp : Spot) (w : Nat) : List Nat := [e.byteOff sp 0, e.byteOff sp ((sp.bit % 8 + w - 1) / 8)]
  ((p.g.positions.filter p.touches).flatMap (fun t => ends (e.spot (p.at t)) e.w)) ++
  ((p.g.scaleBlocks.filter (fun k => e.has (p.scaleAt k))).flatMap (fun k => ends (e.sspot (p.scaleAt k)) (8 * scBytes e.scfmt)))

/-- The pages, or blocks of a SEQUENCE, of storage offsets. -/
def Entry.units (e : Entry) (offs : List Nat) : List Nat :=
  (offs.map (fun o => if e.typ = .sequence then o / (16 * e.rowb) else o / 65536)).eraseDups
/-- The first storage offset of a page or block. -/
def Entry.unitOff (e : Entry) (u : Nat) : Nat := if e.typ = .sequence then u * (16 * e.rowb) else u * 65536

/-! ### The directions of a copy -/

/-- The layout of a copy (R309). -/
def CopyKind.lay : CopyKind → Lay
  | .cpinTr | .cpqTr | .cpragTr => .tr
  | .cpinRb | .cpqRb => .rb
  | _ => .plain
/-- Whether a copy stores to an object. -/
def CopyKind.stores : CopyKind → Bool
  | .cpout | .cpoutFf | .cpqo | .cppeer | .cppeerFf | .radd | .raddFf => true
  | _ => false
/-- Whether it is a reduction (R349). -/
def CopyKind.reduces : CopyKind → Bool
  | .radd | .raddFf => true
  | _ => false
/-- Whether it stores without waiting for acknowledgement (R321). -/
def CopyKind.ff : CopyKind → Bool
  | .cpoutFf | .cppeerFf | .raddFf => true
  | _ => false
/-- Whether it gathers the rows of a row tile (R320). -/
def CopyKind.rag : CopyKind → Bool
  | .cprag | .cpragTr => true
  | _ => false
/-- Whether its other end is a queue (R319). -/
def CopyKind.queue : CopyKind → Bool
  | .cpq | .cpqTr | .cpqRb | .cpqo => true
  | _ => false
/-- Whether its destination is a bank (R340). -/
def CopyKind.bank : CopyKind → Bool
  | .cbfill _ => true
  | _ => false

/-- The box of a request over an object's attributes. -/
def Request.geo (r : Request) (e : Entry) : Geo := ⟨e, r.shape, r.kind.lay, r.kind.bank⟩
/-- The placed box of a request. -/
def Request.place (r : Request) (e : Entry) : Place :=
  ⟨r.geo e, r.idx.map BitVec.toNat, if r.kind.rag then some r.rows else none⟩

/-- Whether the box of a request lies within one shard (R54, R315): every index along the sharded axis that the object has. -/
def Request.oneShard (r : Request) (e : Entry) : Bool :=
  let ax := e.shaxis.toNat
  if e.shmode = 0 ∨ (r.kind.rag ∧ ax = 1) then true
  else
    let i := (r.idx.getD ax 0).toNat
    let step := if ax = 0 then shStep r.shape else 1
    let ns := ((List.range (shBox r.shape ax)).map (fun k => i + step * k)).filter (fun n => decide (n < e.ext ax))
    ns.all (fun n => e.shardOf n == e.shardOf (ns.headD 0))

/-- The shard that a request's box lies in. -/
def Request.shard (r : Request) (e : Entry) : Nat :=
  if e.shmode = 0 then 0
  else if r.kind.rag ∧ e.shaxis.toNat = 1 then e.shardOf (rowOf (r.rows.headD 0))
  else e.shardOf (min (r.idx.getD e.shaxis.toNat 0).toNat (e.ext e.shaxis.toNat - 1))

/-- The scale and size conditions of R315 that R322 checks again. -/
def Request.aligned (r : Request) (e : Entry) (size : Nat) : Bool :=
  let i (d : Nat) : Nat := (r.idx.getD d 0).toNat
  decide (i 0 % e.scb 0 = 0) && (r.kind.rag || decide (i 1 % e.scb 1 = 0)) && (decide (8 ≤ e.w) || decide (i 0 * e.w % 8 = 0)) &&
  (decide (r.kind.lay ≠ .tr) || (decide (e.scfmt = 0) || decide (e.scb 0 = 128 ∧ e.scb 1 = 128)) && decide (shBox r.shape 1 * e.w % 8 = 0)) &&
  decide ((r.geo e).total ≤ size)

/-- The geometry that a copy checks at issue against the attributes its handle register caches (R315, R319, R320, R340). -/
def Request.geometry (r : Request) (size : Nat) (rowSize : Option Nat) : Bool :=
  let e := r.hreg.e
  let t := (r.geo e).total
  shValid r.shape && shapeOk e r.shape && r.aligned e size &&
  (decide (r.kind.lay ≠ .rb) || decide (shPitch r.shape = 0)) &&
  (!r.kind.queue || decide (1 ≤ t ∧ t ≤ 2048)) &&
  ((!r.kind.queue && !r.kind.rag && !r.kind.bank) || decide (e.scfmt = 0)) &&
  (match rowSize with | some n => decide (8 * shBox r.shape 1 ≤ n) | none => true) &&
  (!r.kind.bank || decide (t % 4 = 0 ∧ 4 ≤ t ∧ t ≤ 1024))

/-! ### Resolution (R67, R68, R316 to R322) -/

/-- Whether an object's scales serve a contraction along dimension `d` (R58). -/
def Entry.serves (e : Entry) (d : Nat) : Bool := decide (e.scaxis = 0 ∨ e.scaxis = 3 ∨ (e.scaxis = 1 ∧ d = 0) ∨ (e.scaxis = 2 ∧ d = 1))

/-- The object, or the alternate view, that serves the contraction a request declares (R58). -/
def State.view (s : State) (o : Obj) (cdim : Nat) : Except Trap Obj :=
  if cdim = 0 ∨ o.e.serves (cdim - 1) then .ok o
  else
    match s.obj? o.home o.e.altObj with
    | some a =>
      if o.e.altObj ≠ 0 ∧ a.e.gen = o.e.altGen ∧ a.e.typ ≠ .free ∧ !o.e.altStale ∧ a.e.serves (cdim - 1) then .ok a
      else .error { code := .missingView, handle := o.handle }
    | none => .error { code := .missingView, handle := o.handle }

/-- The limit of the slot dimension for an access: `VALUE` for a read, the capacity for a store (R69, R78). -/
def Obj.slotLimit (o : Obj) (store : Bool) : Nat := if store then o.e.capacity else o.val

/-- The bounds check of a request (R69, R78, R314, R320, R396): the index to report when it fails. -/
def Request.bounds (r : Request) (o : Obj) : Option (BitVec 64) :=
  let e := o.e
  let p := r.place e
  let seq := decide (e.typ = .sequence)
  let slot := e.rank.toNat
  let lim (d : Nat) : Nat := if seq && d == slot then o.slotLimit r.kind.stores else e.ext d
  -- whether dimension d of a position's index is checked: padding lifts the check of every dimension but the slots'
  let checked (d : Nat) : Bool := decide (d < e.rk) && (p.pad == 0 || (seq && d == slot))
  let tell (t : Nat × Nat × Nat × Nat) : BitVec 64 := if seq then BitVec.ofNat 64 (comp t slot) else BitVec.ofNat 64 (e.linear t)
  let wide := (List.range e.rk).any (fun d => !(r.kind.rag && d == 1) && decide (2 ^ 32 ≤ p.ix.getD d 0))
  if wide then some (tell (p.at (0, 0, 0, 0)))
  else
    match (if r.kind.rag then (List.range (shBox r.shape 1)).find? (fun k =>
        let w := p.row k
        decide (field w 63 48 ≠ 0 ∨ shBox r.shape 0 < lenOf w) ||
        (if e.rk = 1 then decide (rowOf w ≠ 0) else decide (lim 1 ≤ rowOf w))) else none) with
    | some k => some (tell (p.at (0, k, 0, 0)))
    | none =>
      -- the last position along each dimension decides; the first failing one is looked for only then
      let last (d : Nat) : Nat := comp (p.at (shBox r.shape 0 - 1, shBox r.shape 1 - 1, shBox r.shape 2 - 1, shBox r.shape 3 - 1)) d
      let rowsEnd : Bool := !r.kind.rag || (seq && slot == 0 && (List.range (shBox r.shape 1)).any (fun k =>
        decide (0 < lenOf (p.row k)) && decide (lim 0 ≤ p.ix.getD 0 0 + shStep r.shape * (lenOf (p.row k) - 1))))
      let bad := (List.range 4).any (fun d =>
        checked d && !(r.kind.rag && d == 1) && decide (lim d ≤ last d) && (!(r.kind.rag && d == 0) || rowsEnd))
      if bad then
        let out (t : Nat × Nat × Nat × Nat) : Bool :=
          (p.rows.isNone || decide (t.1 < lenOf (p.row t.2.1))) && (List.range 4).any (fun d => checked d && decide (lim d ≤ comp (p.at t) d))
        some (tell (p.at ((p.g.positions.find? out).getD (0, 0, 0, 0))))
      else none

/-- The slots that the box of a request reaches, in ascending order. -/
def Request.slots (r : Request) (e : Entry) : List Nat :=
  let d := e.rank.toNat
  if r.kind.rag ∧ d = 1 then r.rows.map rowOf
  else
    let i := (r.idx.getD d 0).toNat
    (List.range (shBox r.shape d)).map (fun k => i + (if d = 0 then shStep r.shape else 1) * k)

/-- The packages that a request's pieces lie on: of a read one, of a store the home's or the shard's and every replica's
(R53, R55, R56). Replicas of an entry that is sharded as well are not looked at (DESIGN CHOICE, log 134). -/
def Obj.pkgs (s : State) (o : Obj) (store : Bool) (shard : Nat) : List Nat :=
  if o.e.shmode ≠ 0 then [o.e.shardPkg o.home shard]
  else if store then (o.home :: o.e.replicas).eraseDups
  else [o.readPkg s shard]

/-- A missing page or block (R49, R431). `LOC` places the map for every shard (DESIGN CHOICE, log 145). -/
def State.missing (s : State) (o : Obj) (v : Ver) (u : Nat) : Trap :=
  { code := .missingObject, handle := o.handle, info := BitVec.ofNat 64 u
    -- where a retained version's map lies is not said
    paddr := match v with | .kept _ => (Config.outside s.fresh).extractLsb' 0 48 | _ => o.e.loc + BitVec.ofNat 48 (8 * u) }

/-- Looks a version's maps up and checks that every page or block of the offsets is present (R49). -/
def State.locate (s : State) (o : Obj) (v : Ver) (offs : List Nat) : List Nat → Except Trap (List (Nat × Layout))
  | [] => .ok []
  | q :: qs =>
    match findMap o.maps q v with
    | none => .error (s.missing o v 0)
    | some l => do
      match (o.e.units offs).find? (fun u => match l.at s q o.e (o.e.unitOff u) with | .ok _ => false | .error _ => true) with
      | some u => throw (s.missing o v u)
      | none => return (q, l) :: (← s.locate o v offs qs)

/-- Gives the stores of a request storage of their own: pages of the working copy (R61) and private blocks (R80).
Where no page is free the store faults MISSING_OBJECT (DESIGN CHOICE, log 17). -/
def State.own (s : State) (o : Obj) : List (Nat × Nat) → Except Trap (State × Obj)
  | [] => .ok (s, o)
  | (q, u) :: rest =>
    match (if o.e.typ = .sequence then s.privateBlock o u else s.touchPage o q u) with
    | some (s, o) => s.own o rest
    | none => .error (s.missing o .working u)

/-- The checks of a request at its home in the order of R67, with `OBJ_TYPE` before the rights bits (R275): the object that
serves it, the request's own object. -/
def State.checkRequest (s : State) (part tid : Nat) (r : Request) : Except Trap (Obj × Obj) := do
  let o ← s.resolve part r.hreg.h
  let k := r.kind
  let fmtOk := o.e.typ == .tensor && (o.e.fmt == 0 || o.e.fmt == 8) && o.e.scfmt == 0
  need (if k.reduces then fmtOk else o.e.typ == .tensor || o.e.typ == .sequence) { code := .objType, handle := o.handle }
  o.needRights (if !k.stores then [.read] else if o.e.typ = .sequence then [.append] else [.write])
  if k.stores then need (o.e.rwin == k.reduces) { code := .rights, handle := o.handle }
  match r.bounds o with
  | some i => throw { code := .bounds, handle := o.handle, info := i }
  | none => pure ()
  if k.stores ∧ o.e.typ = .sequence then
    match (r.slots o.e).find? (fun i => !o.reservedBy (.task tid) i) with
    | some i => throw { code := .seqOrder, handle := o.handle, info := BitVec.ofNat 64 i }
    | none => pure ()
  let a ← s.view o (shCdim r.shape)
  let first := ((a.e.units (r.place a.e).offsets).head?).getD 0
  s.needSound o first
  s.needSound a first
  return (a, o)

/-- Resolves a request (R68, R206, R316, R317): the state after the storage its stores need was made, and what it resolved to. The box is
asked to lie within one shard of the object that the request names, not again of an alternate view that serves it and is sharded
otherwise, which R54 leaves open (DESIGN CHOICE, log 133). A package out of reach that holds a replica is no matter of the resolution: the
home drops it when its lock is not acknowledged (R57). -/
def State.resolveCopy (s : State) (part tid : Nat) (r : Request) (size : Nat) : Except Trap (State × Resolved) := do
  let (a, o) ← s.checkRequest part tid r
  if a.num ≠ o.num then
    need (r.aligned a.e (if r.kind.queue then roundUp (r.geo r.hreg.e).total 512 else size)) { code := .copyGeom, handle := o.handle }
  let rowShards := r.rows.map (fun w => a.e.shardOf (rowOf w))
  need (!(r.kind.rag && a.e.shmode ≠ 0 && a.e.shaxis = 1) || rowShards.all (fun x => x == rowShards.headD 0)) { code := .copyGeom, handle := o.handle }
  let offs := (r.place a.e).offsets
  let qs := a.pkgs s r.kind.stores (r.shard a.e)
  -- a package that holds a shard may be out of reach while the home is not (R215, R477)
  need (a.e.shmode == 0 || !qs.any s.away) (trapAway o.handle)
  let pinned := decide (0 < a.pagePins) || (a.e.typ == .sequence &&
    a.blockList.any (fun b => (a.e.units offs).contains b.num && s.blockPinned a.home b))
  if r.kind.stores then
    let ver := fun (o : Obj) => if o.e.wmode && o.maps.any (fun m => m.2.1 == .working) then Ver.working else Ver.current
    let _ ← s.locate a (ver a) offs qs
    let (s, a) ← s.own a (qs.flatMap (fun q => (a.e.units offs).map (fun u => (q, u))))
    let maps ← s.locate a (ver a) offs qs
    return (s, ⟨a.home, a.num, a.e, maps, pinned, a.e.wmode⟩)
  else
    let v := if a.num = o.num then o.verOf r.hreg.bound else .current
    let maps ← s.locate a v offs qs
    return (s, ⟨a.home, a.num, a.e, maps, pinned, false⟩)

/-- A physical address of a resolution that R174 does not populate. -/
def State.hole (s : State) (r : Request) (x : Resolved) : Option Nat :=
  let offs := (r.place x.e).offsets
  x.maps.findSome? (fun m =>
    (x.e.units offs).findSome? (fun u => match m.2.at s m.1 x.e (x.e.unitOff u) with
      | .ok a => if populated a then none else some a
      | .error _ => none))

/-! ### Poisoning (R68, R319, R324, R339, R444) -/

/-- The record of an asynchronous access (R429, R430). -/
def Op.poisonRec (o : Op) (t : Trap) (cls : UnitClass) (unit : Nat) (detach : Bool) : FaultRec :=
  { handle := t.handle, info := t.info, word0 := o.word0, word1 := o.word1, pc := o.pc, node := o.node
    core := o.who.core, engine := o.who.eng, ctx := o.who.ctx, part := o.part, uclass := cls, unit := unit, kind := .poison,
    master := .streamer, code := t.code, errst := t.errst, incons := t.incons, detach := detach, paddr := t.paddr }

/-- The unit a copy names at its core. -/
def CopyKind.cls (k : CopyKind) : UnitClass := if k.queue then .queue else if k.bank then .bank else .tile

/-- Whether TSET or the end of the task has detached a copy from its tile (R324). -/
def State.detached (s : State) (o : Op) (c : CopyOp) : Bool :=
  !s.alive o || (c.req.kind.cls == .tile && ((s.core o.who.core).tile c.unit).epoch != c.epoch)

/-- Turns the places that wait for an operation into poisoned ones, which keep its request (R319, R438). -/
def poisonSlots (id : Nat) (f : FaultRec) (r : Option Request) : List QSlot → List QSlot
  | [] => []
  | .pending n :: t => (if n = id then .poison f id r else .pending n) :: poisonSlots id f r t
  | x :: t => x :: poisonSlots id f r t

/-- A reduction that its home will not apply gives the contributions that it carries back: each goes on by itself, and completes or fails as
if it had not met this one (R211, R216). -/
def State.unmerge (s : State) (id : Nat) : State :=
  { s with ops := s.ops.map (fun (o : Op) => match o.kind with
      | .copy c => if c.mergedInto = some id then { o with kind := .copy { c with mergedInto := none } } else o
      | _ => o) }

/-- The asynchronous access of a copy faults (R68): its tile, entries or bank take the fault, a record is written, and the copy ends
with its signals put. A partition check freezes a master and kills (R444). -/
def State.poisonCopy (s : State) (o : Op) (c : CopyOp) (t : Trap) : State :=
  let core := o.who.core
  let m := mereOf core
  let s := s.unmerge o.id
  if t.freeze then
    let s := s.dropOp o.id
    let away := hHome t.handle ≠ s.package.toNat
    let r : FaultRec := { o.poisonRec t .none 0 false with kind := .freeze, master := if away then .streamer else .engine }
    let s := s.emit m r
    let ev : BbEvent := { core := core, ctx := o.who.ctx, part := o.part, engine := o.who.eng, ecode := t.code.val }
    let s := s.bbox m { ev with etype := 0x0004, payload := if away then 1 else 0 }
    if away then
      let s := s.setTarn (tarnOf core) { s.tarn (tarnOf core) with frozen := true }
      (List.range 4).foldl (fun s k => [false, true].foldl (fun s x =>
        s.killTask (4 * tarnOf core + k) x true) s) s
    else if s.alive o then (s.killTask core o.who.ctx true).bbox m { ev with etype := 0x0005 }
    else s
  else
    let det := s.detached o c
    let r := o.poisonRec t c.req.kind.cls c.unit (det && c.req.kind.cls == .tile)
    let s :=
      if det then s
      else match c.req.kind.cls with
        | .tile => ((s.bindRequest c.req).unbindRequest ((s.core core).tile c.unit).replay).modCore core (fun k => k.setTile c.unit { k.tile c.unit with st := .poisoned, fault := some r, replay := some c.req })
        | .queue =>
          -- a group that a replay poisons again takes its descriptor back; a copy out of a queue has no place that would hold one (R463)
          let s := if c.req.kind.stores then s
            else if !c.again then s.bindRequest c.req
            else if c.req.chunk.isSome then s
            else s.modCore core (fun k => { k with kept := k.kept.erase (c.unit, c.req) })
          s.modCore core (fun k => k.setQueue c.unit (poisonSlots o.id r (some c.req) (k.queue c.unit)))
        | .bank => s.modCore core (fun k => k.setBank c.unit { k.bank c.unit with st := .empty, pending := some r })
        | .none => s
    (s.emit m r).finish o

end Sys2Proof.Machine
end

