-- ==== Sys2Proof/Machine/Copy.lean ====
section
/-! DEFINITION. The copies, codebook fills and reductions of the stream engine, their resolution and completion, and the streamer
(R297 to R302, R309 to R322, R340, R349). -/

namespace Sys2Proof.Machine

open Sys2Proof

/-! ### What a request touches (R299) -/

/-- The objects that an access may reach, and the interval of indices in each dimension. -/
structure Access where
  hs : List (BitVec 64)
  box : List (Nat × Nat)
deriving DecidableEq, Repr

/-- The indices that a copy touches of its object; the rows of a ragged copy count as all. -/
def Request.box (r : Request) : List (Nat × Nat) := (List.range 4).map (fun d =>
    if r.kind.rag ∧ d = 1 then (0, 2 ^ 32)
    else
      let i := (r.idx.getD d 0).toNat
      (i, i + (if d = 0 then shStep r.shape else 1) * (shBox r.shape d - 1)))

/-- The handle of what a request has resolved to. -/
def Resolved.handle (r : Resolved) : BitVec 64 := BitVec.ofNat 16 r.home ++ r.num ++ r.e.gen
/-- The object that a copy has resolved to; before that the named one, and the alternate that may serve a declared contraction
(R58). -/
def State.serving (s : State) (c : CopyOp) : List (BitVec 64) :=
  match c.res with
  | some r => [r.handle]
  | none =>
    c.req.hreg.h :: (if shCdim c.req.shape = 0 then [] else match s.objOf? c.req.hreg.h with
      | some x => if x.e.altObj = 0 then [] else [BitVec.ofNat 16 x.home ++ x.e.altObj ++ x.e.altGen]
      | none => [])

/-- Whether two accesses touch one element. -/
def Access.clash (a b : Access) : Bool :=
  a.hs.any b.hs.contains && (a.box.zip b.box).all (fun p => decide (p.1.1 ≤ p.2.2 ∧ p.2.1 ≤ p.1.2))

/-- The indices of one element. -/
def atBox (t : Nat × Nat × Nat × Nat) : List (Nat × Nat) := [(t.1, t.1), (t.2.1, t.2.1), (t.2.2.1, t.2.2.1), (t.2.2.2, t.2.2.2)]
/-- The element at a linear index, dimension 0 fastest. -/
def Entry.unlinear (e : Entry) (n : Nat) : Nat × Nat × Nat × Nat :=
  (n % e.ext 0, n / e.ext 0 % e.ext 1, n / (e.ext 0 * e.ext 1) % e.ext 2, n / (e.ext 0 * e.ext 1 * e.ext 2))

/-- What an operation in flight touches of an object. -/
def State.access (s : State) (o : Op) : Option Access :=
  match o.kind with
  | .copy c => some ⟨s.serving c, c.req.box⟩
  | .repl c _ => some ⟨s.serving c, c.req.box⟩
  | .bank _ _ none h => some ⟨[h], (List.range 4).map (fun _ => (0, 2 ^ 64))⟩
  | .update r (.atom n _ _ _) => some ⟨[r.handle], atBox (r.e.unlinear n)⟩
  | _ => none

/-- Whether an incomplete operation of a context touches what an access touches (R299). -/
def State.clashes (s : State) (w : EngRef) (tid : Nat) (before : Op → Bool) (a : Access) : Bool :=
  s.ops.any (fun o => o.who.core == w.core && o.who.ctx == w.ctx && o.tid == tid && before o &&
    (match s.access o with | some b => a.clash b | none => false))

/-- The rows of a bank matrix, first byte and the byte after the last (R181). -/
def matrixRows (base : Nat) : List (Nat × Nat) := (List.range 16).map (fun q => (base + 1024 * q, base + 1024 * q + 64))

/-- Intervals of a core's slice as memory addresses. -/
def inSlice (core : Nat) (rs : List (Nat × Nat)) : List (Nat × Nat) := rs.map (fun r => (sliceAddr core r.1, sliceAddr core r.2))
/-- The box of a copy over the attributes of what serves it, as far as that is known. -/
def CopyOp.geo (c : CopyOp) : Geo := c.req.geo (match c.res with | some r => r.e | none => c.req.hreg.e)

/-- The bytes of slices that an operation in flight reaches through its tile's buffer or as bank commands. -/
def Op.buffers (o : Op) : List (Nat × Nat) :=
  match o.kind with
  | .copy c => if c.req.kind.queue || c.req.kind.bank || !c.data.isEmpty then [] else inSlice o.who.core (bufferSpans c.off c.swz c.geo.spans)
  | .kv k => if k.abandoned || (k.cmd != .get && k.cmd != .list) then [] else inSlice o.who.core (bufferSpans k.off k.swz [(0, k.max)])
  | .bank _ ms _ _ => ms.flatMap matrixRows
  | _ => []

/-- Whether two lists of intervals share a byte. -/
def overlap (a b : List (Nat × Nat)) : Bool := a.any (fun x => b.any (fun y => decide (x.1 < y.2 ∧ y.1 < x.2)))

/-- Whether TSET has detached an operation from the tile that it names (R324). -/
def State.looseTile (s : State) (o : Op) : Bool :=
  let loose (t ep : Nat) : Bool := ((s.core o.who.core).tile t).epoch != ep
  match o.kind with
  | .copy c => c.req.kind.cls == .tile && loose c.unit c.epoch
  | .kv k => loose k.tile k.epoch
  | .bank _ _ (some (t, ep)) _ => loose t ep
  | _ => false

/-- Whether an incomplete operation of a context reaches bytes of slices through a tile that it still holds (R299, R324). -/
def State.bytesBusy (s : State) (w : EngRef) (tid : Nat) (before : Op → Bool) (rs : List (Nat × Nat)) : Bool :=
  s.ops.any (fun x => x.who.core == w.core && x.who.ctx == w.ctx && x.tid == tid && before x && !s.looseTile x && overlap x.buffers rs)
/-- Whether an earlier request of an engine's context has still to reach bytes that it reads now of a tile of its core (R194, R299). -/
def State.tileLate (s : State) (w : EngRef) (t : Nat) (rs : List (Nat × Nat)) : Bool :=
  let x := (s.core w.core).tile t
  s.bytesBusy w (s.tid w) (fun _ => true) (inSlice w.core (bufferSpans x.off x.swz rs))

/-- Whether an earlier operation of its context keeps an operation back, by an element of an object or a byte of a tile that both
touch (R299). -/
def State.heldBack (s : State) (o : Op) : Bool :=
  (match s.access o with | some a => s.clashes o.who o.tid (fun x => decide (x.id < o.id)) a | none => false) ||
  s.bytesBusy o.who o.tid (fun x => decide (x.id < o.id)) o.buffers

/-- Whether an operation accesses memory: what a release, and a push into a channel queue, wait for (R194, R196, R201). A store without
acknowledgement is ordered by neither (R216). -/
def Op.accesses (o : Op) : Bool :=
  match o.kind with
  | .copy c => !c.req.kind.ff
  | .repl c _ => !c.req.kind.ff
  | .update _ _ => true
  | .bank _ _ _ _ => true
  | .kv k => !k.abandoned
  | .drain _ _ _ _ => true
  | .mma _ _ _ _ _ _ => true
  | .aload _ _ _ => true
  | _ => false

/-- Whether accesses of an engine that a predicate picks are still to be performed. -/
def State.accessesLeft (s : State) (w : EngRef) (tid : Nat) (before : Op → Bool) : Bool :=
  s.ops.any (fun o => o.who == w && o.tid == tid && before o && o.accesses)

/-- Whether an operation is a copy that has issued and not resolved, or an atomic that waits for its locks' release. -/
def Op.unresolved (o : Op) : Bool := match o.kind with | .copy c => c.res.isNone | .update _ _ => true | _ => false
/-- Whether a request of an engine that a predicate picks is still to resolve. An engine's requests resolve in the order in which its streamer
queue carries them, so that a slot's read acquires before what follows it (R193, R194, R205). -/
def State.unresolved (s : State) (w : EngRef) (tid : Nat) (before : Op → Bool) : Bool :=
  s.ops.any (fun o => o.who == w && o.tid == tid && before o && o.unresolved)

/-- Whether the context has 32 operations of L that count against R299. -/
def State.atLimit (s : State) (w : EngRef) : Bool :=
  decide (32 ≤ (s.ops.filter (fun o => o.who.core == w.core && o.who.ctx == w.ctx && o.tid == s.tid w &&
    (match o.kind with | .copy _ => true | .repl _ _ => true | .bank _ _ _ _ => true | .kv _ => true | _ => false))).length)

/-! ### Resolution (R316, R68) -/

/-- Whether the streamer of an operation's tarn is frozen (R444). -/
def State.streamFrozen (s : State) (o : Op) : Bool := (s.tarn (tarnOf o.who.core)).frozen

/-- Words of the bytes of a buffer, by offset, that hold an uncorrectable error. -/
def State.badIn (s : State) (as_ : List Nat) : Option Nat := s.badWords.find? (fun w => as_.any (fun a => decide (w ≤ a ∧ a < w + 8)))

/-- The memory addresses that a box of an object touches on one package. -/
def State.touched (s : State) (r : Request) (x : Resolved) : List Nat :=
  x.maps.flatMap (fun m => ((r.place x.e).offsets).filterMap (fun o => match m.2.at s m.1 x.e o with | .ok a => some a | .error _ => none))

/-- What the poisoned copy leaves in its buffer, of the object with attributes `e` whose shards lie where `at_` says: every byte holds its old
value or the value the copy would have written, and a byte that a missing piece would have reached, or a slot that is not committed, keeps
its old value (R354). -/
def State.partialFill (s : State) (o : Op) (c : CopyOp) (e : Entry) (at_ : Nat → Option (Nat × Layout)) : State :=
  let width (sp : Spot) : Nat := if e.typ = .tensor ∧ e.elemBytes sp.shard ≤ sp.base then 8 * scBytes e.scfmt else e.w
  let can (sp : Spot) : Bool := match at_ sp.shard with
    | some m => (match readSpot s m.1 e m.2 sp (ceilDiv (sp.bit % 8 + width sp) 8) with | .ok _ => true | .error _ => false) &&
        (e.typ != .sequence || decide (sp.base / max e.rowb 1 < e.value.toNat))
    | none => false
  let map (k : Nat) : Nat × Layout := (at_ k).getD (0, .nothing)
  let p := c.req.place e
  let got := p.gatherBy s map can
  let bits (ws : List (Nat × Nat × Nat)) : Nat := overlay 0 (ws.map (fun w => (w.1, w.2.1, 2 ^ w.2.1 - 1)))
  let all := bits (p.gatherBy s map (fun _ => true))
  let lost := all ^^^ bits got
  let core := o.who.core
  let t : Tile := { off := c.off, size := c.size, swz := c.swz }
  let n := min ((c.req.geo e).reach c.size) c.size
  let old := s.tileBytes core t 0 n
  let (s, new) := s.lapFree (c.req.geo e) (leBytes n (overlay (leNat old) got))
  let (k, s) := s.draw n
  let mix := ((old.zip new).zipIdx).map (fun p => if (lost >>> (8 * p.2)) % 256 = 0 && Config.freeBit (k + p.2) then p.1.2 else p.1.1)
  s.putTile core c.off c.swz 0 mix

/-- The same of a copy that has not resolved: by the map that its resolution looks at. A handle or a view that serves nothing would have
written nothing. -/
def State.partialNamed (s : State) (o : Op) (c : CopyOp) : State :=
  let h := c.req.hreg.h
  match s.objOf? h with
  | none => s
  | some x =>
    match (if x.e.gen = hGen h ∧ x.e.typ ≠ .free then s.view x (shCdim c.req.shape) else .error { code := .staleHandle }) with
    | .error _ => s
    | .ok a =>
      let v := if a.num = x.num then x.verOf c.req.hreg.bound else .current
      s.partialFill o c a.e (fun k => (findMap a.maps (a.readPkg s k) v).map (fun l => (a.readPkg s k, l)))
/-- The same of a copy that has resolved: by what it resolved to. -/
def State.partialAt (s : State) (o : Op) (c : CopyOp) (r : Resolved) : State :=
  match r.maps with
  | [] => s
  | m :: _ => s.partialFill o c r.e (fun _ => some m)

/-- The resolution of a store without acknowledgement whose home cannot be reached: it leaves its tile all the same, and fails (R52,
R477). -/
def Request.nowhere (r : Request) : Resolved :=
  { home := hHome r.hreg.h, num := hObj r.hreg.h, e := { r.hreg.e with gen := hGen r.hreg.h }, maps := [] }

/-- The handle unit resolves an operation, or its access faults. The size, and what the streamer counts, are those of the view that
serves it (R301, R322). -/
def resolveOne (s : State) (o : Op) (c : CopyOp) : Host.Outcome State Fault Refusal :=
  let goes (s : State) (r : Resolved) (n : Nat) : State :=
    let c := { c with res := some r, total := n }
    s.putOp { o with left := if o.left = 0 then 0 else (OpKind.copy c).granules, kind := .copy c }
  if c.res.isSome || s.streamFrozen o then .next s
  else match s.resolveCopy o.part o.tid c.req c.size with
    | .error t =>
      if c.req.kind.ff ∧ t = trapAway c.req.hreg.h then .next (goes s c.req.nowhere c.total)
      else
        let s := if c.req.kind.cls == .tile && !c.req.kind.stores && !s.detached o c && !t.freeze then s.partialNamed o c else s
        .next (s.poisonCopy o c t)
    | .ok (s', r) =>
      match s'.hole c.req r with
      | some a => .fault (.unpopulated a)
      | none => .next (goes s' r (c.req.geo r.e).total)

/-- Whether the resolution of a store gives its sequence a private block, which rewrites a block descriptor (R80). -/
def State.privatizes (s : State) (part tid : Nat) (r : Request) : Bool :=
  r.kind.stores && (match s.checkRequest part tid r with
    | .ok (a, _) => a.e.typ == .sequence && a.blockList.any (fun b => !b.owned && (a.e.units (r.place a.e).offsets).contains b.num)
    | .error _ => false)

/-- Whether an operation stands behind another in its engine's queue, or is that one. -/
def Op.behind (x o : Op) : Bool := x.who == o.who && x.tid == o.tid && decide (o.id ≤ x.id)

/-- Whether an operation in flight will make a block private as it resolves. -/
def State.makesPrivate (s : State) (o : Op) : Bool :=
  match o.kind with | .copy c => c.res.isNone && s.privatizes o.part o.tid c.req | _ => false
/-- Of requests in the order of their issue, the one to resolve next: the first behind no store of its queue that makes a block private, whose
descriptor waits for the requests of the other queues; where every queue has come to such a store, the oldest (R205). -/
def State.nextToSettle (s : State) (os : List Op) : Option Op :=
  match os.find? (fun o => !os.any (fun x => o.behind x && s.makesPrivate x)) with
  | some o => some o
  | none => os.head?
/-- Resolves requests one by one. `k` is fuel: their number suffices. -/
def State.settleAll : Nat → List Op → State → State
  | 0, _, s => s
  | k + 1, os, s =>
    match s.nextToSettle os with
    | none => s
    | some o =>
      let s := match s.op? o.id with
        | some p => (match p.kind with
          | .copy c => (match resolveOne s p c with | .next s => s | _ => s)
          | _ => s)
        | none => s
      State.settleAll k (os.filter (fun x => x.id != o.id)) s

/-- A marker: the requests that have issued, of those that a predicate picks, resolve with the old mapping, ahead of the change, of each queue
in its order (R205, R206). A store that makes a block private stands behind a marker of its own: what the other queues carry ahead of it
resolves first. Of two queues that have both come to such a store, the older one's goes first, and what the other queue carries behind its own
resolves after both (DESIGN CHOICE, log 142). -/
def State.settle (s : State) (ahead : Op → Bool) : State :=
  let os := s.ops.filter (fun o => o.unresolved && ahead o)
  State.settleAll os.length os s

/-- COPY_RESOLUTION of an operation. The descriptor of a private block enters at a marker: every request that is not behind the store
resolves with the old one (R205). -/
def resolveOp (s : State) (o : Op) (c : CopyOp) : Host.Outcome State Fault Refusal :=
  if c.res.isSome || s.streamFrozen o then .next s
  else resolveOne (if s.privatizes o.part o.tid c.req then s.settle (fun x => !x.behind o) else s) o c

/-- Stores that have issued when a PUB takes effect are ordered by nothing against it: they have resolved with the working copy it
publishes, after what their queues carry ahead of them, and each of their words then lands there or in the next one (R280). -/
def State.settleStores (s : State) (h : BitVec 64) : State :=
  let store (o : Op) : Bool := match o.kind with | .copy c => c.res.isNone && c.req.hreg.h == h && c.req.kind.stores | _ => false
  s.settle (fun x => s.ops.any (fun o => store o && o.behind x))

/-- Finds a copy by number. -/
def withCopy (s : State) (op : Nat) (k : Op → CopyOp → Host.Outcome State Fault Refusal) : Host.Outcome State Fault Refusal :=
  match s.op? op with
  | some o => (match o.kind with | .copy c => k o c | _ => .next s)
  | none => .next s

/-- COPY_RESOLUTION: of an engine's copies the oldest resolves first (R205, R206). -/
def execCopyResolution (op : Nat) (s : State) : Host.Outcome State Fault Refusal :=
  withCopy s op (fun o c => if s.unresolved o.who o.tid (fun x => decide (x.id < o.id)) then .next s else resolveOp s o c)

/-! ### Issue (R315, R316, R319, R340, R353) -/

/-- The ALLOT check of banks (R153). -/
def needBank (k : Nat) (w : EngRef) (s : State) : Option Trap :=
  match s.task w with
  | none => some { code := .allot }
  | some t => if t.hasK w.ctx k then none else some { code := .allot, uclass := .bank, unit := k }

/-- The sharding and route checks of R315, which pass when the entry cannot be supplied. -/
def State.routeOk (s : State) (w : EngRef) (r : Request) : Bool :=
  match s.resolve (s.partOf w) r.hreg.h with
  | .error _ => true
  | .ok o =>
    let home := o.e.shardPkg o.home (r.shard o.e)
    r.oneShard o.e &&
    (match r.kind with
     | .cpout | .cpoutFf => home == s.package.toNat
     | .cppeer | .cppeerFf => home != s.package.toNat
     | _ => true)

/-- Whether an expansion that has issued still reads a bank (R343). -/
def State.bankBusy (s : State) (core k : Nat) : Bool :=
  s.ops.any (fun o => o.who.core == core && (match o.kind with
    | .mma _ _ _ bs _ _ => bs.contains k
    | .vres _ _ _ _ (some b) _ => b == k
    | _ => false))

/-- The checks and the change of state of the unit that a copy names, made at issue: the operation to start, or what else
happens. A CPQ or CPQO that meets both the outstanding limit and a full or empty channel waits at the limit, which the watchdog does not count
(R143, R297; DESIGN CHOICE, log 150). -/
def copyUnit (w : EngRef) (s : State) (r : Request) (u : Nat) (t : Task) : Except Act (State × CopyOp) :=
  let c := s.core w.core
  let n := ceilDiv (r.geo r.hreg.e).total 512
  let total := (r.geo r.hreg.e).total
  match r.kind with
  | .cpq | .cpqTr | .cpqRb =>
    let (push, _) := t.binding w.ctx u
    let full := decide (4 < (c.queue u).length + n)
    if push ≠ w.eng then .error (.trap { code := .engineMismatch, uclass := .queue, unit := u })
    else if t.isLocal w.ctx u && full then .error (.trap { code := .queueOver, uclass := .queue, unit := u })
    else if s.atLimit w then .error (.stall .other)
    else if full then .error (.stall (.push u n))
    else .ok (s, { req := r, unit := u, total := total })
  | .cpqo =>
    let (_, pop) := t.binding w.ctx u
    let have_ := c.queue u
    let src := have_.take n
    if pop ≠ w.eng then .error (.trap { code := .engineMismatch, uclass := .queue, unit := u })
    else if t.isLocal w.ctx u && decide (have_.length < n) then .error (.trap { code := .queueUnder, uclass := .queue, unit := u })
    else if s.atLimit w then .error (.stall .other)
    else if have_.length < n then .error (.stall (.pop u n))
    else if src.any (fun x => match x with | .pending _ => true | _ => false) then .error (.stall (.pendingPush u n))
    else match src.findSome? (fun x => match x with | .poison f _ _ => some f | _ => none) with
      | some f => .error (.trap (poisonTrap (some f) .queue u))
      | none =>
        let bytes := (src.filterMap QSlot.bits?).flatMap entryBytes
        if s.unresolved w t.tid (fun _ => true) then .error (.stall .other)
        -- it resolves before it pops, and its handle-unit faults are precise
        else match (if s.privatizes t.part t.tid r then s.settle (fun _ => true) else s).resolveCopy t.part t.tid r 2048 with
        | .error tr => .error (.trap tr)
        | .ok (s', res) =>
          match s'.hole r res with
          | some a => .error (.stop (.unpopulated a))
          | none =>
            .ok (s'.modCore w.core (fun c => c.setQueue u ((c.queue u).drop n)),
                 { req := r, unit := u, total := (r.geo res.e).total, data := bytes.take (r.geo res.e).total, res := some res })
  | .cbfill _ =>
    let b := c.bank u
    if s.atLimit w then .error (.stall .other)
    else if b.st = .filling ∨ s.bankBusy w.core u then .error (.stall .other)
    else
      let s := (s.unbindRequest b.source).bindRequest r
      .ok (s.modCore w.core (fun c => c.setBank u { b with st := .filling, pending := none, source := some r, written := false }),
           { req := r, unit := u, total := total })
  | .cpout | .cpoutFf | .cppeer | .cppeerFf | .radd | .raddFf =>
    let x := c.tile u
    match tileRead x u with
    | some a => .error a
    | none =>
      if s.atLimit w then .error (.stall .other)
      else match eccTile w s w.core u with
        | some a => .error a
        | none =>
          .ok (s.modCore w.core (fun c => c.setTile u { x with st := .draining }),
               { req := r, unit := u, epoch := x.epoch, off := x.off, size := x.size, swz := x.swz, total := total })
  | .cpin | .cpinTr | .cpinRb | .cprag | .cpragTr =>
    let x := c.tile u
    match tileWrite x u with
    | some a => .error a
    | none =>
      if s.atLimit w || s.tileRead? w.core u then .error (.stall .other)
      else
        .ok (s.modCore w.core (fun c => c.setTile u { x with st := .filling, fault := none }),
             { req := r, unit := u, epoch := x.epoch, off := x.off, size := x.size, swz := x.swz, total := total })

/-- The row tile of a ragged copy: its list, read under R149. -/
def rowList (w : EngRef) (s : State) (rt n : Nat) : Except Act (List (BitVec 64)) :=
  let x := (s.core w.core).tile rt
  match tileRead x rt with
  | some a => .error a
  | none =>
    match eccTile w s w.core rt with
    | some a => .error a
    | none =>
      -- the read comes after what a slot's read ahead of it acquires (R194)
      if s.unresolved w (s.tid w) (fun _ => true) || s.tileLate w rt [(0, 8 * n)] then .error (.stall .other)
      else .ok ((List.range n).map (fun i => BitVec.ofNat 64 (leNat (s.tileBytes w.core x (8 * i) 8))))

/-- The request that a copy makes with the values of its registers at issue, the indices of dimensions at or above the rank ignored
(R224); a ragged copy's rows are added to it. Of an OPIN that is not ordered before it, it takes the binding (R283; DESIGN CHOICE, log 120). -/
def copyRequest (dp : Dep) (kind : CopyKind) (q : CopyArgs) (w : EngRef) (s : State) : Request where
  kind := kind
  pc := (s.eng w).pc
  word0 := (s.fetched w).1
  word1 := (s.fetched w).2
  hreg := s.hreg w q.h
  idx := [s.sval w dp q.i0, if kind.rag then 0 else s.sval w dp q.i1, s.sval w dp q.i2, s.sval w dp q.i3].take (s.hreg w q.h).e.rk
  shape := s.xreg w q.xs
  scope := q.sc

/-- A copy once its tokens are there. -/
def copyAct (dp : Dep) (kind : CopyKind) (u : Nat) (q : CopyArgs) (w : EngRef) (s : State) : Act :=
  let r := copyRequest dp kind q w s
  let c := s.core w.core
  let size := if kind.queue then 2048 else if kind.bank then 1024 else (c.tile u).size
  let rowSize := if kind.rag then some (c.tile q.i1.toNat).size else none
  if s.handleBusy w q.h.toNat then .stall .other
  else if r.hreg.h = 0 then .trap { code := .staleHandle }
  else if !(r.geometry size rowSize && s.routeOk w r) then .trap { code := .copyGeom, handle := r.hreg.h }
  else match s.task w with
    | none => .trap { code := .allot }
    | some t =>
      match (if kind.rag then rowList w s q.i1.toNat (shBox r.shape 1) else .ok []) with
      | .error a => a
      | .ok rows =>
        match copyUnit w s { r with rows := rows } u t with
        | .error a => a
        | .ok (s, op) =>
          let (id, s) := s.freshId
          let n := ceilDiv op.total 512
          let s := if kind.queue && !kind.stores then s.modCore w.core (fun c => (List.range n).foldl (fun c _ => c.pushPending u id) c)
            else if kind.cls == .tile then s.touchTile w.core u (r.geo r.hreg.e).spans
            else s
          let s := if kind.rag then s.touchTile w.core q.i1.toNat [(0, 8 * shBox r.shape 1)] else s
          .pend s id (.copy { op with rowTile := if kind.rag then some q.i1.toNat else none })

/-- A copy instruction of format S (R310). -/
def copyOp (dp : Dep) (kind : CopyKind) (q : CopyArgs) (s : State) : Host.Outcome State Fault Refusal :=
  let u := q.tq.toNat
  let pre : EngRef → State → Option Trap :=
    if kind.queue then needQueues [u] else if kind.bank then needBank u
    else needTiles (if kind.rag then [u, q.i1.toNat] else [u])
  let rs := if kind.rag then [q.i0, q.i2, q.i3] else [q.i0, q.i1, q.i2, q.i3]
  let feat := if kind.bank then 1 else if kind.reduces then 6 else 0
  issue dp (some .l) feat 2 pre (interlock rs (copyAct dp kind u q)) s

def execCpin (dp : Dep) (q : CopyArgs) (s : State) : Host.Outcome State Fault Refusal := copyOp dp .cpin q s
def execCpinTr (dp : Dep) (q : CopyArgs) (s : State) : Host.Outcome State Fault Refusal := copyOp dp .cpinTr q s
def execCpinRb (dp : Dep) (q : CopyArgs) (s : State) : Host.Outcome State Fault Refusal := copyOp dp .cpinRb q s
def execCpq (dp : Dep) (q : CopyArgs) (s : State) : Host.Outcome State Fault Refusal := copyOp dp .cpq q s
def execCpqTr (dp : Dep) (q : CopyArgs) (s : State) : Host.Outcome State Fault Refusal := copyOp dp .cpqTr q s
def execCpqRb (dp : Dep) (q : CopyArgs) (s : State) : Host.Outcome State Fault Refusal := copyOp dp .cpqRb q s
def execCpout (dp : Dep) (q : CopyArgs) (s : State) : Host.Outcome State Fault Refusal := copyOp dp .cpout q s
def execCpoutFf (dp : Dep) (q : CopyArgs) (s : State) : Host.Outcome State Fault Refusal := copyOp dp .cpoutFf q s
def execCpqo (dp : Dep) (q : CopyArgs) (s : State) : Host.Outcome State Fault Refusal := copyOp dp .cpqo q s
def execCprag (dp : Dep) (q : CopyArgs) (s : State) : Host.Outcome State Fault Refusal := copyOp dp .cprag q s
def execCpragTr (dp : Dep) (q : CopyArgs) (s : State) : Host.Outcome State Fault Refusal := copyOp dp .cpragTr q s
def execCppeer (dp : Dep) (q : CopyArgs) (s : State) : Host.Outcome State Fault Refusal := copyOp dp .cppeer q s
def execCppeerFf (dp : Dep) (q : CopyArgs) (s : State) : Host.Outcome State Fault Refusal := copyOp dp .cppeerFf q s
def execRadd (dp : Dep) (q : CopyArgs) (s : State) : Host.Outcome State Fault Refusal := copyOp dp .radd q s
def execRaddFf (dp : Dep) (q : CopyArgs) (s : State) : Host.Outcome State Fault Refusal := copyOp dp .raddFf q s
def execCbfillF32 (dp : Dep) (q : CopyArgs) (s : State) : Host.Outcome State Fault Refusal := copyOp dp (.cbfill 0) q s
def execCbfillBf16 (dp : Dep) (q : CopyArgs) (s : State) : Host.Outcome State Fault Refusal := copyOp dp (.cbfill 1) q s
def execCbfillF16 (dp : Dep) (q : CopyArgs) (s : State) : Host.Outcome State Fault Refusal := copyOp dp (.cbfill 2) q s
def execCbfillE4m3 (dp : Dep) (q : CopyArgs) (s : State) : Host.Outcome State Fault Refusal := copyOp dp (.cbfill 3) q s
def execCbfillE5m2 (dp : Dep) (q : CopyArgs) (s : State) : Host.Outcome State Fault Refusal := copyOp dp (.cbfill 4) q s

/-! ### Completion (R298, R316, R317, R340, R362) -/

/-- The content tag that a copy leaves (R362). -/
def CopyKind.tag (k : CopyKind) (e : Entry) : Tag :=
  let r := if e.scfmt = 0 then 0 else e.scbR
  let c := if e.scfmt = 0 then 0 else e.scbC
  if k.lay = .tr then ⟨e.fmt, e.scfmt, c, r, false⟩ else ⟨e.fmt, e.scfmt, r, c, k.lay == .rb⟩

/-- The error state of an object (R443). -/
def State.setErr (s : State) (home : Nat) (num : BitVec 40) (gen : BitVec 8) : State :=
  s.modObj home num (fun o => if o.e.gen = gen then o.mod (fun e => { e with err := true }) else o)

/-- The storage bytes that an update writes. -/
def Update.offs (u : Update) (e : Entry) : List Nat :=
  match u with
  | .raw off bs _ => (List.range bs.length).map (fun i => off + i)
  | .pub => []
  | .atom n _ _ _ => (List.range 4).map (e.byteOff (e.spot (e.unlinear n)))
  | .peerAtom n _ _ _ _ => (List.range 4).map (e.byteOff (e.spot (e.unlinear n)))

/-- The slice bytes that an operation reaches: its buffer, its bank matrices, and what it has resolved to there. -/
def State.reach (s : State) (o : Op) : List (Nat × Nat) :=
  let objs (c : CopyOp) : List (Nat × Nat) := match c.res with
    | some r => ((s.touched c.req r).filter (fun a => decide (a < 0x40000000))).map (fun a => (a, a + 1))
    | none => []
  o.buffers ++ (match o.kind with
    | .copy c => objs c
    | .store c => objs c
    | .repl c _ => objs c
    | .update r u =>
      r.maps.flatMap (fun m => (u.offs r.e).filterMap (fun o => match m.2.at s m.1 r.e o with
        | .ok a => if a < 0x40000000 then some (a, a + 1) else none
        | .error _ => none))
    | _ => [])

/-- Whether an operation is a bank transform. -/
def Op.isBank (o : Op) : Bool := match o.kind with | .bank _ _ _ _ => true | _ => false

/-- Whether a request that the streamer issued before this one is still on its way to a bank that both reach (R183). -/
def State.bankOrder (s : State) (o : Op) : Bool :=
  s.ops.any (fun x => x.id != o.id && tarnOf x.who.core == tarnOf o.who.core && (x.isBank || o.isBank) && x.left == 0 && decide (0 < x.seq) &&
    (decide (x.seq < o.seq) || (x.seq == o.seq && decide (x.id < o.id))) && !s.heldBack x && overlap (s.reach x) (s.reach o))

/-- Whether the home of a resolution, or of its shard, can no longer be reached (R477). A replica that cannot is dropped at its lock
(R57). -/
def State.lost (s : State) (r : Resolved) : Bool := s.away r.home || (r.e.shmode != 0 && r.maps.any (fun m => s.away m.1))

/-- Whether a copy's data may move now: resolved, granted, and not behind a conflicting request, a lock or a merge. -/
def State.mayMove (s : State) (o : Op) (c : CopyOp) : Bool :=
  c.res.isSome && o.left == 0 && !s.heldBack o && !s.bankOrder o && !s.streamFrozen o &&
  (match c.mergedInto with | some id => (s.op? id).isNone | none => true) &&
  (match c.res with
   | some r => (match s.obj? r.home r.num with
     | some x => x.locks.all (fun k => !r.maps.any (fun m => m.1 == k.1))
     | none => true)
   | none => false)

/-- The bytes that a detached access writes from logical offset `at_` of its buffer on: one that a later access has touched too may keep
its value (R324). -/
def State.mixDetached (s : State) (off : Nat) (swz : BitVec 3) (at_ : Nat) (crossed : List (Nat × Nat)) (old new : List Byte) : State × List Byte :=
  let (n, s) := s.draw new.length
  let covered (i : Nat) : Bool := crossed.any (fun r => decide (r.1 ≤ off + swizzle swz (at_ + i) ∧ off + swizzle swz (at_ + i) < r.2))
  (s, ((old.zip new).zipIdx).map (fun p => if covered p.2 && Config.freeBit (n + p.2) then p.1.1 else p.1.2))

/-- The end of a copy into a tile, a queue or a bank: the data moves and the destination becomes ready. -/
def landCopy (s : State) (o : Op) (c : CopyOp) (r : Resolved) : Host.Outcome State Fault Refusal :=
  let core := o.who.core
  match s.badIn (s.touched c.req r), r.maps with
  | some a, _ =>
    let s := if c.req.kind.cls == .tile && !s.detached o c then s.partialAt o c r else s
    .next ((s.setErr r.home r.num r.e.gen).poisonCopy o c { code := .eccUncorr, handle := c.req.hreg.h, paddr := BitVec.ofNat 48 a })
  | none, [] => .next s
  | none, (q, l) :: _ =>
    let ws := (c.req.place r.e).gather s q l (fun _ => true)
    let det := s.detached o c
    match c.req.kind with
    | .cpq | .cpqTr | .cpqRb =>
      -- bytes of a row between N and P, which nothing states, are free; those beyond T are zero
      let (n, s) := s.draw c.total
      let gap := if (c.req.geo r.e).p = (c.req.geo r.e).n then 0
        else leNat ((List.range c.total).map (fun k => (Config.freeSum (n + k)).extractLsb' 0 8))
      let (s, v) := if (c.req.geo r.e).lap.isEmpty then (s, overlay gap ws)
        else let (s, bs) := s.lapFree (c.req.geo r.e) (leBytes (512 * ceilDiv c.total 512) (overlay gap ws)); (s, leNat bs)
      let js := match c.req.chunk with | some j => [j] | none => List.range (ceilDiv c.total 512)
      let put (j : Nat) : QSlot :=
        let b := BitVec.ofNat 4096 (v >>> (4096 * j))
        -- what a replay writes keeps the descriptor of its group (R438)
        if c.again then .refilled b { c.req with chunk := some j } else .entry b
      let s := if det then s else s.modCore core (fun k => k.setQueue c.unit (js.foldl (fun l j => fillSlot o.id (put j) l) (k.queue c.unit)))
      .next (s.finish o)
    | .cbfill f =>
      let s := if det then s else s.modCore core (fun k => k.setBank c.unit { k.bank c.unit with
        bits := BitVec.ofNat 8192 (overlay 0 ws), st := .ready, fmt := f, count := c.total / 4, pending := none })
      .next (s.finish o)
    | _ =>
      let t : Tile := { off := c.off, size := c.size, swz := c.swz }
      let n := (c.req.geo r.e).reach c.size
      let old := s.tileBytes core t 0 n
      let (s, new) := s.lapFree (c.req.geo r.e) (leBytes n (overlay (leNat old) ws))
      if det then
        -- a task that has ended holds no buffer any more
        if s.alive o then
          let (s, mixed) := s.mixDetached c.off c.swz 0 c.crossed old new
          .next ((s.putTile core c.off c.swz 0 mixed).finish o)
        else .next (s.finish o)
      else
        let s := s.putTile core c.off c.swz 0 new
        .next ((s.modCore core (fun k => k.setTile c.unit { k.tile c.unit with st := .ready, tag := some (c.req.kind.tag r.e) })).finish o)

/-- Whether a copy into a channel queue waits for earlier accesses of its engine before it writes its entries (R201). -/
def State.pushWaits (s : State) (o : Op) (c : CopyOp) : Bool :=
  c.req.kind.queue && (match s.task o.who with
    | some t => !t.isLocal o.who.ctx c.unit && s.accessesLeft o.who o.tid (fun x => decide (x.id < o.id))
    | none => false)

def execCopyInCompletion (op : Nat) (s : State) : Host.Outcome State Fault Refusal :=
  withCopy s op (fun o c =>
    match c.res with
    | some r =>
      if c.req.kind.stores || c.req.kind.bank then .next s
      else if s.lost r then
        .next ((if c.req.kind.cls == .tile && !s.detached o c then s.partialAt o c r else s).poisonCopy o c (trapAway c.req.hreg.h))
      else if !s.mayMove o c || s.pushWaits o c then .next s
      else landCopy s o c r
    | none => .next s)

def execCbfillCompletion (op : Nat) (s : State) : Host.Outcome State Fault Refusal :=
  withCopy s op (fun o c =>
    match c.res with
    | some r =>
      if !c.req.kind.bank then .next s
      else if s.lost r then .next (s.poisonCopy o c (trapAway c.req.hreg.h))
      else if !s.mayMove o c then .next s
      else landCopy s o c r
    | none => .next s)

/-- The data a copy out stores: what it popped or read out, or what its tile holds when it completes, a released
DRAINING tile too (R154; DESIGN CHOICE, log 122). -/
def CopyOp.bytes (c : CopyOp) (s : State) (core : Nat) : List Byte :=
  if c.req.kind.queue || !c.data.isEmpty then c.data
  else s.tileBytes core { off := c.off, size := c.size, swz := c.swz } 0 c.total

/-- Whether the buffer that a copy out reads holds a word with an uncorrectable error (R443). -/
def CopyOp.spoilt (c : CopyOp) (s : State) (core : Nat) : Bool :=
  !c.req.kind.queue && c.data.isEmpty && s.tileBad core { off := c.off, size := c.size, swz := c.swz }

/-- The sum that a reduction leaves in an element (R211, R349). -/
def reduceOne (int : Bool) (x v : Nat) : Nat :=
  if int then (x + v) % 2 ^ 32
  else
    let F := numFmt 0
    (roundArith F 0 0 (Val.add 0 (decodeVal F x) (decodeVal F v)).1).code

/-- A store to an object sets `ALT_STALE` in both views (R59). -/
def State.staleViews (s : State) (home : Nat) (num : BitVec 40) (gen : BitVec 8) : State :=
  match s.obj? home num with
  | some x =>
    let stale (o : Obj) : Obj := o.mod (fun e => { e with altStale := true })
    if x.e.gen = gen ∧ x.e.altObj ≠ 0 then (s.modObj home num stale).modObj home x.e.altObj stale else s
  | none => s

/-- The object whose working copy a PUB has published since a store resolved to it (R280). -/
def State.published (s : State) (r : Resolved) : Option Obj :=
  match s.obj? r.home r.num with
  | some x => if r.work ∧ x.e.gen = r.e.gen ∧ x.e.value ≠ r.e.value then some x else none
  | none => none

/-- The storage bytes that pieces lie in. -/
def pieceOffs (e : Entry) (ws : List (Spot × Nat × Nat)) : List Nat :=
  ws.flatMap (fun w => (List.range (ceilDiv (w.1.bit % 8 + w.2.1) 8)).map (e.byteOff w.1))

/-- Stores pieces, each on the layout that `l` picks for an aligned 8-byte word of the storage. -/
def storeWords (s : State) (q : Nat) (e : Entry) (l : Nat → Layout) (ws : List (Spot × Nat × Nat)) : State :=
  ws.foldl (fun s w =>
    let k := w.1.bit % 8
    (List.range (ceilDiv (k + w.2.1) 8)).foldl (fun s i =>
      let o := e.byteOff w.1 i
      match (l (o / 8)).at s q e o with
      | .ok a =>
        let old := (memByte s.mem a).toNat
        let mask := ((2 ^ w.2.1 - 1) <<< k >>> (8 * i)) % 256
        s.store a [BitVec.ofNat 8 (old ^^^ ((old ^^^ (w.2.2 <<< k >>> (8 * i))) &&& mask))]
      | .error _ => s) s) s

/-- The pieces that a copy or a reduction leaves on a package: a reduction adds to what is there (R211, R349). -/
def reduced (s : State) (reduces : Bool) (q : Nat) (e : Entry) (l : Nat → Layout) (w : Spot × Nat × Nat) : Spot × Nat × Nat :=
  if reduces then (w.1, w.2.1, reduceOne (e.fmt == 8) (readBits s q e (l (e.byteOff w.1 0 / 8)) w.1 w.2.1) w.2.2) else w

/-- Stores the pieces of a copy out on the packages of its resolution. After a PUB each aligned 8-byte word lands in the version it
made current or in the next working copy (R280); where that has no storage left, in the former. -/
def storeData (s : State) (reduces : Bool) (r : Resolved) (ws : List (Spot × Nat × Nat)) : State :=
  let plain (s : State) : State :=
    if reduces then
      r.maps.foldl (fun s m => ws.foldl (fun s w =>
        let x := reduced s true m.1 r.e (fun _ => m.2) w
        writeBits s m.1 r.e m.2 x.1 x.2.1 x.2.2) s) s
    else storePieces s r ws
  match s.published r with
  | none => plain s
  | some x =>
    match s.own x (r.maps.flatMap (fun m => (r.e.units (pieceOffs r.e ws)).map (fun u => (m.1, u)))) with
    | .error _ => plain s
    | .ok (s, x) =>
      let (n, s) := s.draw ((r.maps.map (fun m => r.e.storageBytes (r.e.shardOn m.1))).foldl max 0 / 8 + 1)
      r.maps.foldl (fun s m =>
        let next := (findMap x.maps m.1 .working).getD m.2
        let l := fun k => if Config.freeBit (n + k) then next else m.2
        ws.foldl (fun s w => storeWords s m.1 r.e l [reduced s reduces m.1 r.e l w]) s) s

/-- Stores the pieces of a copy out at its home and at every replica, and marks the views (R59). -/
def storeCopy (s : State) (core : Nat) (c : CopyOp) (r : Resolved) : State :=
  let s := storeData s c.req.kind.reduces r ((c.req.place r.e).scatter (leNat (c.bytes s core)))
  s.staleViews r.home r.num r.e.gen

/-- A tile whose copy out has ended is READY again (R148). -/
def State.tileDrained (s : State) (o : Op) (c : CopyOp) : State :=
  if c.req.kind.queue || s.detached o c then s
  else s.modCore o.who.core (fun k => k.setTile c.unit { k.tile c.unit with st := .ready })

/-- Locks every copy of a replicated object for an operation (R56). -/
def State.lock (s : State) (r : Resolved) (id : Nat) : State :=
  s.modObj r.home r.num (fun x => { x with locks := x.locks ++ (r.maps.map (fun m => (m.1, id))) })
/-- Releases the locks of an operation. -/
def State.unlock (s : State) (home : Nat) (num : BitVec 40) (id : Nat) : State :=
  s.modObj home num (fun x => { x with locks := x.locks.filter (fun k => k.2 != id) })
/-- The packages of an object that an operation has locked. -/
def State.lockedBy (s : State) (home : Nat) (num : BitVec 40) (id : Nat) : List Nat :=
  match s.obj? home num with | some x => (x.locks.filter (fun k => k.2 == id)).map (fun k => k.1) | none => []

def execCopyOutCompletion (op : Nat) (s : State) : Host.Outcome State Fault Refusal :=
  withCopy s op (fun o c =>
    match c.res with
    | none => .next s
    | some r =>
      if !c.req.kind.stores then .next s
      else if s.lost r && !c.req.kind.ff then .next (s.poisonCopy o c (trapAway c.req.hreg.h))
      else if !s.mayMove o c then .next s
      else if c.mergedInto.isSome then .next ((s.tileDrained o c).finish o)
      -- a word of its tile that has gone bad since its issue poisons the tile (R443)
      else if c.spoilt s o.who.core then .next (s.poisonCopy o c { code := .eccUncorr })
      else if c.req.kind.ff then
        -- every byte has left the tile: the instruction completes, and its store is still on its way
        let c' := { c with data := c.bytes s o.who.core }
        let s := (s.tileDrained o c).finish o
        .next (s.addOp { o with sp := false, sn := false, kind := .store c' })
      else if 1 < r.maps.length then
        -- a replicated store first locks every copy (R56)
        .next ((s.lock r o.id).putOp { o with kind := .repl { c with data := c.bytes s o.who.core } (r.maps.map (fun m => m.1)) })
      else .next (((storeCopy s o.who.core c r).tileDrained o c).finish o))

/-- The commit of a replicated store: every copy that is still locked is updated, and the locks are released (R56). -/
def commitCopy (op : Nat) (s : State) : Host.Outcome State Fault Refusal :=
  match s.op? op with
  | some o => (match o.kind with
    | .repl c pkgs =>
      (match c.res with
       | some r =>
         if s.away r.home then .next ((s.unlock r.home r.num o.id).poisonCopy o c (trapAway c.req.hreg.h))
         -- a copy that does not answer holds the update up until its lock times out (R57)
         else if pkgs.any s.away then .next s
         else
           let s := storeCopy s o.who.core c { r with maps := r.maps.filter (fun m => pkgs.contains m.1) }
           .next (((s.unlock r.home r.num o.id).tileDrained o c).finish o)
       | none => .next s)
    | .store c =>
      (match c.res with
       | some r =>
         let pkgs := s.lockedBy r.home r.num o.id
         if pkgs.isEmpty || pkgs.any s.away then .next s
         else .next (((storeCopy s o.who.core c { r with maps := r.maps.filter (fun m => pkgs.contains m.1) }).unlock r.home r.num o.id).dropOp o.id)
       | none => .next s)
    | _ => .next s)
  | none => .next s

/-- Takes a package out of the replica list (R57). -/
def Entry.dropReplica (e : Entry) (pkg : BitVec 10) : Entry :=
  let rs := e.replicas.filter (fun p => p != pkg.toNat)
  let at_ (i : Nat) : BitVec 10 := BitVec.ofNat 10 (rs.getD i 0)
  { e with repn := BitVec.ofNat 3 rs.length, reps := at_ 0 ++ at_ 1 ++ at_ 2 ++ at_ 3 }

/-- What becomes of an operation when a package leaves an object's replicas: it stores there no more, and a read that had resolved
there is served from the home (R57, R208). -/
def Op.redirect (o : Op) (x : Obj) (pkg : Nat) : Op :=
  let mine (r : Resolved) : Bool := r.home == x.home && r.num == x.num && r.e.gen == x.e.gen
  let keep (r : Resolved) : Resolved := { r with maps := r.maps.filter (fun m => m.1 != pkg) }
  match o.kind with
  | .repl c pkgs => (match c.res with
    | some r => if mine r then { o with kind := .repl { c with res := some (keep r) } (pkgs.filter (fun p => p != pkg)) } else o
    | none => o)
  | .store c => (match c.res with | some r => if mine r then { o with kind := .store { c with res := some (keep r) } } else o | none => o)
  | .update r u => if mine r then { o with kind := .update (keep r) u } else o
  | .copy c => (match c.res with
    | some r =>
      if !mine r then o
      else if c.req.kind.stores then { o with kind := .copy { c with res := some (keep r) } }
      else if r.maps.any (fun m => m.1 == pkg) then
        let l := findMap x.maps x.home (x.verOf (if x.handle = c.req.hreg.h then c.req.hreg.bound else none))
        { o with kind := .copy { c with res := l.map (fun l => { r with maps := [(x.home, l)] }) } }
      else o
    | none => o)
  | _ => o

/-- A package leaves an object's replicas, behind markers, and the update goes on without it (R57, R205). -/
def State.dropReplica (s : State) (x : Obj) (pkg : BitVec 10) : State :=
  let s := s.settle (fun _ => true)
  let s := s.modObj x.home x.num (fun x => { x with
    e := x.e.dropReplica pkg
    maps := x.maps.filter (fun m => m.1 != pkg.toNat)
    locks := x.locks.filter (fun k => k.1 != pkg.toNat) })
  let x' := (s.obj? x.home x.num).getD x
  { s with ops := s.ops.map (fun (o : Op) => o.redirect x' pkg.toNat) }
/-- The home abandons the update at a replica that has not acknowledged, and the object manager is told (R57). -/
def State.abandonReplica (s : State) (x : Obj) (pkg : BitVec 10) : State :=
  (s.dropReplica x pkg).emit (s.homeMere x.e.part.toNat) { handle := x.handle, part := x.e.part.toNat, kind := .event, master := .service,
                                                             code := .replicaDropped, core := s.homeMere x.e.part.toNat }

def execReplicaLockTimeout (hd : BitVec 64) (pkg : BitVec 10) (s : State) : Host.Outcome State Fault Refusal :=
  match s.objOf? hd with
  | none => .next s
  | some x =>
    if x.e.gen ≠ hGen hd ∨ pkg.toNat = x.home ∨ !x.locks.any (fun k => k.1 == pkg.toNat) then .next s
    else .next (s.abandonReplica x pkg)

/-! ### Stores without acknowledgement (R52, R216, R321) -/

/-- Whether a store that reaches its home fails (R52); one whose home could not be reached when it resolved has no place to go. -/
def State.storeFails (s : State) (c : CopyOp) (r : Resolved) : Bool :=
  r.maps.isEmpty || s.lost r || (s.badIn (s.touched c.req r)).isSome ||
  (match s.obj? r.home r.num with | some x => x.e.err || x.e.gen != r.e.gen || x.e.typ == .free | none => true)

/-- Finds a store in flight by number. -/
def withStore (s : State) (op : Nat) (k : Op → CopyOp → Resolved → Host.Outcome State Fault Refusal) : Host.Outcome State Fault Refusal :=
  match s.op? op with
  | some o => (match o.kind with
    | .store c => (match c.res with | some r => k o c r | none => .next s)
    | _ => .next s)
  | none => .next s

def execStoreAck (op : Nat) (s : State) : Host.Outcome State Fault Refusal :=
  withStore s op (fun o c r =>
    let locked := match s.obj? r.home r.num with | some x => !x.locks.isEmpty | none => false
    if s.storeFails c r || locked || s.bankOrder o then .next s
    -- REPLICATED_COMMIT ends the update of a replicated object (R56)
    else if 1 < r.maps.length then .next (s.lock r o.id)
    else .next ((storeCopy s o.who.core c r).dropOp o.id))

def execStoreFailure (op : Nat) (s : State) : Host.Outcome State Fault Refusal :=
  withStore s op (fun o c r =>
    if !s.storeFails c r then .next s
    else
      let s := (((s.unmerge o.id).dropOp o.id).unlock r.home r.num o.id).setErr r.home r.num r.e.gen
      if o.quiet then .next s
      else .next ((s.emit (mereOf o.who.core) { o.poisonRec { code := .storeFailed, handle := c.req.hreg.h } .none 0 false with kind := .event }).failLaunch
        o.part o.launch true))

/-! ### Merging reductions (R211) -/

/-- Whether two FP32 contributions may meet: a sum that overflows although neither is infinite would leave the error of R132 at the home. -/
def meets (int : Bool) (x v : Nat) : Bool :=
  let fin (y : Nat) : Bool := (decodeVal (numFmt 0) y).isFin
  int || !fin x || !fin v || fin (reduceOne false x v)

/-- REDUCTION_MERGE: the contributions of two reductions to the same elements meet, and the first carries both (R211). -/
def execReductionMerge (op op2 : Nat) (s : State) : Host.Outcome State Fault Refusal :=
  withCopy s op (fun a ca => withCopy s op2 (fun b cb =>
    match ca.res, cb.res with
    | some ra, some rb =>
      let pa := ca.req.place ra.e
      let pb := cb.req.place rb.e
      let wa := pa.scatter (leNat (ca.bytes s a.who.core))
      let wb := pb.scatter (leNat (cb.bytes s b.who.core))
      if a.id = b.id ∨ !ca.req.kind.reduces ∨ !cb.req.kind.reduces ∨ ca.mergedInto.isSome ∨ cb.mergedInto.isSome ∨ ra ≠ rb ∨
         ca.spoilt s a.who.core ∨ cb.spoilt s b.who.core ∨
         wa.map (fun w => w.1) ≠ wb.map (fun w => w.1) ∨ !(wa.zip wb).all (fun x => meets (ra.e.fmt == 8) x.1.2.2 x.2.2.2) then .next s
      else
        let int := ra.e.fmt == 8
        let at_ := (pa.g.positions.filter pa.touches).map (fun t => pa.g.bit t.1 t.2.1 t.2.2.1 t.2.2.2)
        let ws := ((wa.zip wb).zip at_).map (fun x => (x.2, 32, reduceOne int x.1.1.2.2 x.1.2.2.2))
        let data := leBytes ca.total (overlay (leNat (ca.bytes s a.who.core)) ws)
        .next ((s.putOp { a with kind := .copy { ca with data := data } }).putOp { b with kind := .copy { cb with mergedInto := some a.id } })
    | _, _ => .next s))

/-! ### Granting (R301, R302) -/

/-- The requester that an operation belongs to: core of the tarn and context. -/
def Op.requester (o : Op) : Nat := 2 * (o.who.core % 4) + (if o.who.ctx then 1 else 0)
/-- Whether an operation waits for granules of a tarn's streamer. -/
def Op.pendingAt (o : Op) (tarn : Nat) : Bool :=
  o.who.eng == .l && tarnOf o.who.core == tarn && decide (0 < o.left) && (match o.kind with | .copy c => c.res.isSome | _ => true)

/-- Grants up to `n` granules to the pending operations of a requester, the oldest first; `k` is the place of the grant in the order of
all. -/
def grantTo (tarn r k : Nat) : Nat → List Op → List Op
  | _, [] => []
  | n, o :: os =>
    if o.pendingAt tarn && o.requester == r then
      let g := min n o.left
      { o with left := o.left - g, seq := if 0 < g then k else o.seq } :: grantTo tarn r k (n - g) os
    else o :: grantTo tarn r k n os

/-- STREAMER_GRANT_ROUND. The place that opens a round moves on by one at every round, also at one that grants nothing (DESIGN CHOICE,
log 137). -/
def execStreamerGrantRound (tarn : Nat) (s : State) : Host.Outcome State Fault Refusal :=
  let x := s.tarn tarn
  if x.frozen then .next s
  else
    let first := (x.cursor + 1) % 8
    let s := s.setTarn tarn { x with cursor := first, rounds := x.rounds + 1 }
    .next ((List.range 8).foldl (fun s i =>
      let r := (first + i) % 8
      match s.ops.find? (fun o => o.pendingAt tarn && o.requester == r) with
      | some o => { s with ops := grantTo tarn r (8 * x.rounds + i + 1) o.swt s.ops }
      | none => s) s)

end Sys2Proof.Machine
end

