-- ==== Sys2Proof/Machine/Sched.lean ====
section
/-! DEFINITION. The walker and the scheduler: reading records, walk orders, and handing work out. -/

namespace Sys2Proof.Machine

open Sys2Proof

/-! ### Walk orders (R157) -/

/-- Four 16-bit indices. -/
def packIdx (i0 i1 i2 i3 : Nat) : BitVec 64 := BitVec.ofNat 64 (i0 + 65536 * (i1 + 65536 * (i2 + 65536 * i3)))

/-- The even bits of a Morton code: bit 2j becomes bit j. -/
def evenBits : Nat → Nat → Nat
  | 0, _ => 0
  | n + 1, x => x % 2 + 2 * evenBits n (x / 4)

/-- The side, a power of two, that covers both inner extents. -/
def mortonBits (r : BitVec 512) : Nat := Nat.log2 (2 * max (recExt r 0) (recExt r 1) - 1)

/-- Positions of a walk order, with those outside the extents; tarn-blocked order counts groups. -/
def walkLen (r : BitVec 512) : Nat :=
  let outer := recExt r 2 * recExt r 3
  match recWalk r with
  | 2 => 4 ^ mortonBits r * outer
  | 3 => ceilDiv (recExt r 0) 2 * ceilDiv (recExt r 1) 2 * outer
  | _ => recExt r 0 * recExt r 1 * outer

/-- The indices at a position of a walk order; for tarn-blocked order the first of the group. -/
def walkAt (r : BitVec 512) (k : Nat) : Nat × Nat × Nat × Nat :=
  let n0 := recExt r 0
  let n1 := recExt r 1
  let n2 := recExt r 2
  let n3 := recExt r 3
  match recWalk r with
  | 0 => (k % n0, k / n0 % n1, k / (n0 * n1) % n2, k / (n0 * n1 * n2))
  | 1 =>
    -- the highest dimension below rank fastest; the extents above rank are 1
    (k / (n3 * n2 * n1), k / (n3 * n2) % n1, k / n3 % n2, k % n3)
  | 2 =>
    let z := 4 ^ mortonBits r
    let c := k % z
    (evenBits 16 c, evenBits 16 (c / 2), k / z % n2, k / z / n2)
  | _ =>
    let g0 := ceilDiv n0 2
    let g1 := ceilDiv n1 2
    (2 * (k % g0), 2 * (k / g0 % g1), k / (g0 * g1) % n2, k / (g0 * g1 * n2))

/-- The first position from `k` on that lies within the extents; `fuel` positions are looked at. -/
def walkNext (r : BitVec 512) : Nat → Nat → Option Nat
  | 0, _ => none
  | n + 1, k =>
    if walkLen r ≤ k then none
    else
      let (i0, i1, _, _) := walkAt r k
      if i0 < recExt r 0 ∧ i1 < recExt r 1 then some k else walkNext r n (k + 1)

/-! ### Reading a record (R155, R156) -/

/-- The conditions of R156 that the record alone shows. -/
def recShape (r : BitVec 512) : Bool :=
  let pre := recPre r
  decide (field r 479 472 = 0 ∧ field r 247 247 = 0 ∧ field r 223 215 = 0) &&
  (List.range 4).all (fun d => if d < recRank r then decide (1 ≤ recIt r d) else decide (recIt r d = 0)) &&
  decide (recSwt r ≠ 0 ∧ recWdog r ≤ 20 ∧ recMask r ≠ 0) &&
  (decide (recWalk r ≠ 3) || decide (recMask r = 15)) &&
  (decide (recWalk r < 2) || decide (2 ≤ recRank r)) &&
  decide (recAQ r ≤ (if pre then 8 else 24) ∧ recAA r ≤ (if pre then 4 else 12) ∧ recAT r ≤ (if pre then 16 else 48) ∧
    recAB r ≤ (if pre then 8 else 40) ∧ recAK r ≤ (if pre then 1 else 7)) &&
  (List.range 24).all (fun i => decide (i < recAQ r) || decide (field r (275 + 4 * i) (272 + 4 * i) = 0)) &&
  decide (recNode r < 4096 ∨ recNode r = 0xFFFF) && decide (recSucc r + recNsucc r ≤ 16384)

/-- The successors a record lists, as the edge list stands now (R159). -/
def Part.succs (p : Part) (r : BitVec 512) : List Nat :=
  ((List.range (recNsucc r)).filter (fun i => decide (recSucc r + i < 16384))).map (fun i => (lookupD 0 p.edges (recSucc r + i)).toNat)

/-- What the walker makes of a record. -/
inductive RecFate where
  | run (code : HReg)
  /-- Invalid: the code to report, and whether its node fails. -/
  | bad (code : Code) (failNode : Bool)
  /-- Its node is cancelled already (R161). -/
  | cancelled
  /-- The home of its code object cannot be reached (R156). -/
  | hold
deriving DecidableEq, Repr

/-- Judges a record for a partition (R156, R161, R220): an entry that another record holds first, then a cancel flag, then the
conditions of R156, its code object last (the order is a DESIGN CHOICE, log 121). -/
def State.judge (s : State) (p : Part) (r : BitVec 512) : RecFate :=
  let bad := RecFate.bad .launchInvalid true
  let named := decide (recNode r < 4096)
  let x := p.node (recNode r)
  if named ∧ x.st ≠ .free then .bad .launchInvalid false
  else if named ∧ x.cancel then .cancelled
  else if !recShape r then bad
  else if !(recTarns r).all p.cfg.tarns.contains then bad
  else if recPrio r < p.cfg.prioLo ∨ p.cfg.prioHi < recPrio r then bad
  else if !(p.succs r).all (fun n => decide (n < 4096)) then bad
  else if named ∧ (BitVec.ofNat 18 (recPreds r) + x.count).msb then bad
  else match s.resolve p.cfg.id (recCode r) with
    | .error t => if t.code = .missingObject then .hold else .bad t.code true
    | .ok o =>
      if !s.sound o then .bad .missingObject true
      else if o.e.typ ≠ .tensor ∨ o.e.rank ≠ 0 ∨ o.e.fmt ≠ 8 ∨ !o.e.grants .execute then bad
      else if [EngineId.c, .l, .m, .v].any (fun e => decide (o.e.ext0.toNat ≤ (recEntry r e).toNat)) then bad
      else .run { h := recCode r, e := o.e, pinned := !o.e.wmode, bound := if o.e.wmode then some o.e.value else none }

/-- Reports a record the walker discards, and fails its node (R156, R160, R433). A LAUNCH_INVALID record names no handle, whichever of
its conditions fails, its CODE object's type, rank, format and EXECUTE among them (DESIGN CHOICE, log 131). -/
def State.refuseRec (s : State) (p : Part) (r : BitVec 512) (slot : BitVec 64) (code : Code) (failNode incons : Bool) : State :=
  let s := s.emit p.homeMere { incons := incons, info := slot, handle := if code = .launchInvalid then 0 else recCode r,
                               node := BitVec.ofNat 16 (recNode r), part := p.cfg.id, kind := .event, master := .walker, code := code }
  if failNode ∧ recNode r < 4096 then
    let s := s.nodeFailed p.cfg.id (recNode r)
    let s := s.modPart p.cfg.id (fun x => x.setNode (recNode r) {})
    s.deliverNodes p.cfg.id (cancels (recNode r) ((p.succs r).filter (fun n => decide (n < 4096))))
  else s

/-- The walker takes a record that it has judged (R157, R159, R161, R162). `false`: it holds the record. -/
def State.takeRec (s : State) (pid : Nat) (r : BitVec 512) (slot : BitVec 64) (spawned : Bool) : State × Bool :=
  match s.part? pid with
  | none => (s, true)
  | some p =>
    match s.judge p r with
    | .hold => (s, false)
    | .bad code fails => (s.refuseRec p r slot code fails (code == .missingObject), true)
    | .cancelled =>
      let s := s.modPart pid (fun x => x.setNode (recNode r) {})
      (s.deliverNodes pid (cancels (recNode r) ((p.succs r).filter (fun n => decide (n < 4096)))), true)
    | .run code =>
      let (lid, s) := s.freshId
      let s := match code.bound with
        | some v => s.modHandle code.h (fun o => o.bind v)
        | none => s.modHandle code.h (fun o => o.pin)
      let l : Launch := { lid := lid, record := r, slot := slot, spawned := spawned, code := code, succ := p.succs r,
                          next := walkNext r (walkLen r) 0, alive := 0, failed := false, cancelled := false }
      let count := BitVec.ofNat 18 (recPreds r) + (p.node (recNode r)).count
      let go := recNode r = 0xFFFF ∨ count = 0
      (s.modPart pid (fun x =>
        let x := { x with launches := x.launches ++ [l] }
        let x := if recNode r = 0xFFFF then x else x.setNode (recNode r) { count := count, cancel := false, st := if count = 0 then .ready else .waiting }
        if go then x.ready l else x), true)

/-- Records from SPAWN whose last iteration has not been handed out (R286). -/
def Part.spawned (p : Part) : Nat := (p.launches.filter (fun l => l.spawned && l.next.isSome)).length + (p.held.filter (fun h => h.1 == 8)).length
/-- Records read from launch queues whose last iteration has not been handed out (R467). -/
def Part.fromQueues (p : Part) : Nat := (p.launches.filter (fun l => !l.spawned && l.next.isSome)).length

/-! ### Handing work out (R158, R162, R164) -/

/-- Lent accumulator tiles of a core (R379). -/
def Core.lentCount (c : Core) : Nat := ((List.range 16).filter (fun a => (c.acc a).lent)).length

/-- Whether a core is free for a record (R158, R382). -/
def State.freeFor (s : State) (core : Nat) (r : BitVec 512) : Bool :=
  let c := s.core core
  if recPre r then c.c1.task.isNone && c.preemptor.isNone && c.holdP.isNone && decide (recAA r + c.lentCount ≤ 4 ∨ c.lentCount = 0)
  else c.c0.task.isNone && c.hold.isNone

/-- The cores that a continuation may start on: those of the tarn that recorded it (R167), a pre-emptor's only where they are in its core
set (R164). -/
def Cont.cores (c : Cont) : List Nat :=
  ((List.range 4).map (fun k => 4 * c.tarn + k)).filter (fun k => !recPre c.task.record || (recCores c.task.record).contains k)

/-- The cores that a piece of work would start on: none when it has to wait. -/
def State.coresFor (s : State) (p : Part) (w : Work) : List Nat :=
  if w.isCont then
    match p.conts.find? (fun c => c.cid == w.id) with
    | some c => (c.cores.filter (fun k => s.freeFor k c.task.record)).take 1
    | none => []
  else match p.launch? w.id with
    | none => []
    | some l =>
      if recWalk l.record = 3 then
        (match (recTarns l.record).find? (fun t => (List.range 4).all (fun k => s.freeFor (4 * t + k) l.record)) with
        | some t => (List.range 4).map (fun k => 4 * t + k)
        | none => [])
      else ((recCores l.record).filter (fun k => s.freeFor k l.record)).take 1

/-- The work of a level in the order of the round robin: the one served last comes last (R162). -/
def Part.atLevel (p : Part) (lv : Nat) : List Work :=
  let ws := p.work.filter (fun w => w.level == lv)
  ws.filter (fun w => !w.served) ++ ws.filter (fun w => w.served)

/-- The work that is served next: the highest level that has work for a free core, and within it the first in the round robin. -/
def State.pickWork (s : State) (p : Part) : Option (Work × List Nat) :=
  (List.range 64).reverse.findSome? (fun lv =>
    (p.atLevel lv).findSome? (fun w => let cs := s.coresFor p w; if cs.isEmpty then none else some (w, cs)))

/-- The task of an iteration of a launch. -/
def Launch.task (l : Launch) (p : Nat) (tid : Nat) (idx : BitVec 64) : Task where
  tid := tid
  launch := l.lid
  record := l.record
  part := p
  idx := idx
  codeVer := l.code.bound
  aq := recAQ l.record
  aa := recAA l.record
  at_ := recAT l.record
  ab := recAB l.record
  ak := recAK l.record
  cont := false
  catchRun := false
  caught := false
  pins := []

/-- A task's context at the start of an iteration (R138). -/
def entryCtx (t : Task) : Ctx :=
  startCtx t ([EngineId.c, .l, .m, .v].map (fun e => some (recEntry t.record e)))
    (idxRegs t.idx ++ [(4, (recArg t.record).zeroExtend 64)]) (Vector.replicate 32 {}) (Vector.replicate 16 0) []

/-- A continuation's context (R166 to R168). -/
def contCtx (c : Cont) : Ctx := startCtx c.task c.pcs c.s c.h c.x c.gens

/-- Starts an iteration or a continuation in a context of a core. -/
def State.startWork (s : State) (pid core : Nat) (ctx isCont : Bool) (id : Nat) (idx : BitVec 64) : State :=
  match s.part? pid with
  | none => s
  | some p =>
    if isCont then
      match p.conts.find? (fun c => c.cid == id) with
      | none => s
      | some c =>
        let s := s.modPart pid (fun x => { x with conts := x.conts.filter (fun y => y.cid != id) })
        s.startTask core ctx (contCtx c)
    else match p.launch? id with
      | none => s
      | some l =>
        let (tid, s) := s.freshId
        let t := l.task pid tid idx
        s.startTask core ctx (entryCtx t)

/-- Starts ordinary work at once; pre-emptor work freezes the victim and starts by PREEMPTOR_START (R169, R448). -/
def State.placeWork (s : State) (pid core : Nat) (pre isCont : Bool) (id prio : Nat) (idx : BitVec 64) : State :=
  if pre then
    let s := s.modCore core (fun c => { c with preemptor := some (isCont, id, idx), frozen := true })
    s.bbox (mereOf core) { payload := BitVec.ofNat 64 prio, etype := 0x0007, core := core, ctx := true, part := pid }
  else s.startWork pid core false isCont id idx

/-- Hands out the next iteration, group or continuation of a piece of work (R158, R162, R163). -/
def State.handOut (s : State) (pid : Nat) (w : Work) (cores : List Nat) : State :=
  match s.part? pid with
  | none => s
  | some p =>
    let rest := (p.work.filter (fun x => !(x.isCont == w.isCont && x.id == w.id))).map
      (fun x => if x.level == w.level || x.level == w.prio then { x with served := false } else x)
    if w.isCont then
      match p.conts.find? (fun c => c.cid == w.id), cores with
      | some c, core :: _ => (s.modPart pid (fun x => { x with work := rest })).placeWork pid core (recPre c.task.record) true w.id w.prio 0
      | _, _ => s
    else match p.launch? w.id with
      | none => s
      | some l =>
        match l.next with
        | none => s
        | some k =>
          let r := l.record
          let (i0, i1, i2, i3) := walkAt r k
          let nx := walkNext r (walkLen r) (k + 1)
          let its : List (Nat × BitVec 64) :=
            if recWalk r = 3 then
              (List.range 4).filterMap (fun j =>
                let a := i0 + j % 2
                let b := i1 + j / 2
                if a < recExt r 0 ∧ b < recExt r 1 then some (cores.getD j 0, packIdx a b i2 i3) else none)
            else [(cores.headD 0, packIdx i0 i1 i2 i3)]
          let s := s.modPart pid (fun x =>
            let x := x.modLaunch l.lid (fun y => { y with next := nx, alive := y.alive + its.length })
            let x := { x with work := if nx.isSome then rest ++ [{ w with level := w.prio, served := true }] else rest }
            if recNode r = 0xFFFF then x else x.setNode (recNode r) { x.node (recNode r) with st := .running })
          let s := its.foldl (fun s it => s.placeWork pid it.1 (recPre r) false l.lid w.prio it.2) s
          -- a core whose iteration lies outside the extents stays idle until the group retires
          if recWalk r = 3 then
            let g := some (l.lid, groupBase (packIdx i0 i1 i2 i3))
            (cores.filter (fun c => !its.any (fun it => it.1 == c))).foldl
              (fun s c => s.modCore c (fun x => if recPre r then { x with holdP := g } else { x with hold := g })) s
          else s

/-- Enqueues a satisfied continuation (R167). -/
def State.enqueueCont (s : State) (pid cid : Nat) : State :=
  match s.part? pid with
  | none => s
  | some p =>
    match p.conts.find? (fun c => c.cid == cid && c.satisfied.isSome && !c.enqueued) with
    | some c => s.modPart pid (fun x => x.enqueueCont c)
    | none => s

/-- Whether work of a context class waits, at or above a level, whose core set holds a core (R287). -/
def Part.otherWork (p : Part) (ctx : Bool) (level core : Nat) : Bool :=
  p.work.any (fun w =>
    decide (level ≤ w.level) &&
    (if w.isCont then
      (match p.conts.find? (fun c => c.cid == w.id) with
       | some c => c.ctx == ctx && c.cores.contains core
       | none => false)
     else (match p.launch? w.id with
       | some l => recPre l.record == ctx && (recCores l.record).contains core
       | none => false)))

end Sys2Proof.Machine
end

