-- ==== Sys2Proof/Machine/Control.lean ====
section
/-! DEFINITION. The control engine's instructions (13_control_isa), and NOP and NOP.END, which every engine has (R136). -/

namespace Sys2Proof.Machine

open Sys2Proof

/-! ### Shared forms -/

/-- An instruction of C that writes one scalar from others: it waits for the scalars it reads and writes (R249, R250). -/
def aluOp (dp : Dep) (d : BitVec 6) (rs : List (BitVec 6)) (f : EngRef → State → BitVec 64) (s : State) : Host.Outcome State Fault Refusal :=
  issue dp (some .c) 0 1 noPre (interlock (d :: rs) (fun w s => .done (s.setS w d (f w s)))) s

/-- Format A arithmetic: d := f(a, b) (R252). -/
def aluAB (dp : Dep) (d a b : BitVec 6) (f : BitVec 64 → BitVec 64 → BitVec 64) (s : State) : Host.Outcome State Fault Refusal :=
  aluOp dp d [a, b] (fun w s => f (s.sval w dp a) (s.sval w dp b)) s

/-- Arithmetic of one scalar: d := f(a) (R252). -/
def aluA (dp : Dep) (d a : BitVec 6) (f : BitVec 64 → BitVec 64) (s : State) : Host.Outcome State Fault Refusal :=
  aluOp dp d [a] (fun w s => f (s.sval w dp a)) s

/-- Leading zero bits (R252). -/
def clz64 (x : BitVec 64) : BitVec 64 := if x = 0 then 64 else BitVec.ofNat 64 (63 - Nat.log2 x.toNat)
/-- One bits (R252). -/
def popc64 (x : BitVec 64) : BitVec 64 := BitVec.ofNat 64 ((List.range 64).filter (fun i => x.getLsbD i)).length
/-- Sign-extends the low `n` bits (R252). -/
def sextLow (x : BitVec 64) (n : Nat) : BitVec 64 := (x <<< (64 - n)).sshiftRight (64 - n)
/-- The high half of the signed product (R252). -/
def mulHigh (a b : BitVec 64) : BitVec 64 := (a.signExtend 128 * b.signExtend 128).extractLsb' 64 64
/-- The high half of the unsigned product (R252). -/
def mulHighU (a b : BitVec 64) : BitVec 64 := (a.zeroExtend 128 * b.zeroExtend 128).extractLsb' 64 64
/-- Unsigned quotient; 2^64 - 1 by zero (R253). -/
def divU (a b : BitVec 64) : BitVec 64 := if b = 0 then BitVec.allOnes 64 else BitVec.ofNat 64 (a.toNat / b.toNat)
/-- Unsigned remainder; the dividend by zero (R253). -/
def remU (a b : BitVec 64) : BitVec 64 := if b = 0 then a else BitVec.ofNat 64 (a.toNat % b.toNat)
/-- Signed quotient, toward zero; -1 by zero (R253). -/
def divS (a b : BitVec 64) : BitVec 64 := if b = 0 then BitVec.allOnes 64 else BitVec.ofInt 64 (a.toInt.tdiv b.toInt)
/-- Signed remainder with the dividend's sign; the dividend by zero (R253). -/
def remS (a b : BitVec 64) : BitVec 64 := if b = 0 then a else BitVec.ofInt 64 (a.toInt.tmod b.toInt)
/-- Smaller as signed. -/
def minS (a b : BitVec 64) : BitVec 64 := if a.slt b then a else b
/-- Larger as signed. -/
def maxS (a b : BitVec 64) : BitVec 64 := if a.slt b then b else a
/-- Smaller as unsigned. -/
def minU (a b : BitVec 64) : BitVec 64 := if a.ult b then a else b
/-- Larger as unsigned. -/
def maxU (a b : BitVec 64) : BitVec 64 := if a.ult b then b else a
/-- The shift count of a register: its low six bits. -/
def sh6 (b : BitVec 64) : Nat := (b.extractLsb' 0 6).toNat

/-! ### NOP and NOP.END (R136) -/

/-- Whether an operation is an atomic (R347). -/
def Op.isAtomic (o : Op) : Bool := let n := (o.word0.extractLsb' 20 8).toNat; decide (0x69 ≤ n ∧ n ≤ 0x6D)

/-- Whether an operation of the engine still has a register to write; an atomic does not count (R136). -/
def State.writesPending (s : State) (w : EngRef) : Bool :=
  s.ops.any (fun o => o.who == w && o.tid == s.tid w &&
    (match o.kind with
     | .home d h => !o.isAtomic && (d.isSome || h.isSome)
     | .vres _ m d _ _ _ => m.isSome || d.isSome
     | _ => false))

/-- RETIRE (R137, R266): it waits for the task's work, then the task ends. -/
def retireAct (w : EngRef) (s : State) : Act := if s.mayRetire w then .leave (s.retireTask w.core w.ctx) else .stall .other

def execNop (dp : Dep) (s : State) : Host.Outcome State Fault Refusal :=
  issue dp none 0 1 noPre (fun w s => if s.writesPending w then .stall .other else .done s) s

/-- Ends the bound group of a core's M when all four cores have asked for it and no partner reads its tiles (R383). -/
def groupEnd (w : EngRef) (s : State) : Option Act :=
  let c := s.core w.core
  match c.group with
  | none => none
  | some g =>
    if !g.bound then none
    else
      let base := 4 * tarnOf w.core
      let four := (List.range 4).map (fun k => base + k)
      -- each core asks; when the last asks, all four groups end
      let s' := s.modCore w.core (fun c => { c with group := some { g with ending := true } })
      let all := four.all (fun k => match (s'.core k).group with | some x => x.ending | none => false)
      let read := s.ops.any (fun o => match o.kind with | .mma _ _ rs _ _ _ => rs.any (fun r => four.contains r.1 && o.who.core != r.1) | _ => false)
      if all && !read then
        -- a core that has not yet passed its own end finds the group gone and marked as ended
        some (.hold (four.foldl (fun s k => s.modCore k (fun c =>
          { (List.range 4).foldl (fun c i => if (c.acc (12 + i)).lent then c.setAcc (12 + i) {} else c) c with group := none })) s'))
      else some (.stallKeep (s'.modEng w (fun e => { e with arrived := true })) (.barrier 0))

/-- The end of an engine's stream: it stands at the word after NOP.END, where a continuation resumes it (R136, R166). -/
def endStream (w : EngRef) (s : State) : Act := .goto (s.modEng w (fun e => { e with st := .ended })) ((s.eng w).pc + 1)

def execNopEnd (dp : Dep) (s : State) : Host.Outcome State Fault Refusal :=
  issue dp none 0 1 noPre (fun w s =>
    if s.writesPending w then .stall .other
    else match w.eng with
      | .c => retireAct w s
      | .m =>
        (match if w.ctx then none else groupEnd w s with
        | some (.hold t) => endStream w t
        | some a => a
        | none => endStream w s)
      | _ => endStream w s) s

/-! ### Arithmetic (R252, R253) -/

def execAdd (dp : Dep) (d a b : BitVec 6) (s : State) : Host.Outcome State Fault Refusal := aluAB dp d a b (· + ·) s
def execSub (dp : Dep) (d a b : BitVec 6) (s : State) : Host.Outcome State Fault Refusal := aluAB dp d a b (· - ·) s
def execMul (dp : Dep) (d a b : BitVec 6) (s : State) : Host.Outcome State Fault Refusal := aluAB dp d a b (· * ·) s
def execMulh (dp : Dep) (d a b : BitVec 6) (s : State) : Host.Outcome State Fault Refusal := aluAB dp d a b mulHigh s
def execMulhu (dp : Dep) (d a b : BitVec 6) (s : State) : Host.Outcome State Fault Refusal := aluAB dp d a b mulHighU s
def execDivu (dp : Dep) (d a b : BitVec 6) (s : State) : Host.Outcome State Fault Refusal := aluAB dp d a b divU s
def execDivs (dp : Dep) (d a b : BitVec 6) (s : State) : Host.Outcome State Fault Refusal := aluAB dp d a b divS s
def execRemu (dp : Dep) (d a b : BitVec 6) (s : State) : Host.Outcome State Fault Refusal := aluAB dp d a b remU s
def execRems (dp : Dep) (d a b : BitVec 6) (s : State) : Host.Outcome State Fault Refusal := aluAB dp d a b remS s
def execAnd (dp : Dep) (d a b : BitVec 6) (s : State) : Host.Outcome State Fault Refusal := aluAB dp d a b (· &&& ·) s
def execOr (dp : Dep) (d a b : BitVec 6) (s : State) : Host.Outcome State Fault Refusal := aluAB dp d a b (· ||| ·) s
def execXor (dp : Dep) (d a b : BitVec 6) (s : State) : Host.Outcome State Fault Refusal := aluAB dp d a b (· ^^^ ·) s
def execAndn (dp : Dep) (d a b : BitVec 6) (s : State) : Host.Outcome State Fault Refusal := aluAB dp d a b (fun a b => a &&& ~~~b) s
def execShl (dp : Dep) (d a b : BitVec 6) (s : State) : Host.Outcome State Fault Refusal := aluAB dp d a b (fun a b => a <<< sh6 b) s
def execShr (dp : Dep) (d a b : BitVec 6) (s : State) : Host.Outcome State Fault Refusal := aluAB dp d a b (fun a b => a >>> sh6 b) s
def execSar (dp : Dep) (d a b : BitVec 6) (s : State) : Host.Outcome State Fault Refusal := aluAB dp d a b (fun a b => a.sshiftRight (sh6 b)) s
def execRotl (dp : Dep) (d a b : BitVec 6) (s : State) : Host.Outcome State Fault Refusal := aluAB dp d a b (fun a b => a.rotateLeft (sh6 b)) s
def execMin (dp : Dep) (d a b : BitVec 6) (s : State) : Host.Outcome State Fault Refusal := aluAB dp d a b minS s
def execMinu (dp : Dep) (d a b : BitVec 6) (s : State) : Host.Outcome State Fault Refusal := aluAB dp d a b minU s
def execMax (dp : Dep) (d a b : BitVec 6) (s : State) : Host.Outcome State Fault Refusal := aluAB dp d a b maxS s
def execMaxu (dp : Dep) (d a b : BitVec 6) (s : State) : Host.Outcome State Fault Refusal := aluAB dp d a b maxU s
def execAddi (dp : Dep) (d a : BitVec 6) (i : BitVec 8) (s : State) : Host.Outcome State Fault Refusal := aluA dp d a (fun x => x + sx i) s
def execAndi (dp : Dep) (d a : BitVec 6) (i : BitVec 8) (s : State) : Host.Outcome State Fault Refusal := aluA dp d a (fun x => x &&& zx i) s
def execOri (dp : Dep) (d a : BitVec 6) (i : BitVec 8) (s : State) : Host.Outcome State Fault Refusal := aluA dp d a (fun x => x ||| zx i) s
def execXori (dp : Dep) (d a : BitVec 6) (i : BitVec 8) (s : State) : Host.Outcome State Fault Refusal := aluA dp d a (fun x => x ^^^ zx i) s
def execShli (dp : Dep) (d a : BitVec 6) (i : BitVec 6) (s : State) : Host.Outcome State Fault Refusal := aluA dp d a (fun x => x <<< i.toNat) s
def execShri (dp : Dep) (d a : BitVec 6) (i : BitVec 6) (s : State) : Host.Outcome State Fault Refusal := aluA dp d a (fun x => x >>> i.toNat) s
def execSari (dp : Dep) (d a : BitVec 6) (i : BitVec 6) (s : State) : Host.Outcome State Fault Refusal := aluA dp d a (fun x => x.sshiftRight i.toNat) s
def execRotli (dp : Dep) (d a : BitVec 6) (i : BitVec 6) (s : State) : Host.Outcome State Fault Refusal := aluA dp d a (fun x => x.rotateLeft i.toNat) s
def execClz (dp : Dep) (d a : BitVec 6) (s : State) : Host.Outcome State Fault Refusal := aluA dp d a clz64 s
def execPopc (dp : Dep) (d a : BitVec 6) (s : State) : Host.Outcome State Fault Refusal := aluA dp d a popc64 s
def execSext (dp : Dep) (d a : BitVec 6) (n : BitVec 8) (s : State) : Host.Outcome State Fault Refusal := aluA dp d a (fun x => sextLow x n.toNat) s

/-! ### Constants, predicates and select (R254 to R257) -/

def execLi (dp : Dep) (d : BitVec 6) (imm : BitVec 14) (s : State) : Host.Outcome State Fault Refusal := aluOp dp d [] (fun _ _ => sx imm) s
def execLui (dp : Dep) (d : BitVec 6) (imm : BitVec 14) (s : State) : Host.Outcome State Fault Refusal :=
  aluOp dp d [d] (fun w s => (s.sval w dp d <<< 14) ||| zx imm) s

/-- The comparison of a condition code (R255). -/
def cmpCond (c : BitVec 2) (a b : BitVec 64) : Bool :=
  match c.toNat with
  | 0 => a == b
  | 1 => a.slt b
  | 2 => a.ult b
  | _ => (a &&& b) != 0

def execCmp (dp : Dep) (d : BitVec 3) (a b : BitVec 6) (cond : BitVec 2) (s : State) : Host.Outcome State Fault Refusal :=
  issue dp (some .c) 0 1 noPre (interlock [a, b] (fun w s =>
    .done (s.modEng w (fun e => e.setPred d (cmpCond cond (s.sval w dp a) (s.sval w dp b)))))) s
def execCmpi (dp : Dep) (d : BitVec 3) (a : BitVec 6) (cond : BitVec 2) (imm : BitVec 6) (s : State) : Host.Outcome State Fault Refusal :=
  issue dp (some .c) 0 1 noPre (interlock [a] (fun w s =>
    .done (s.modEng w (fun e => e.setPred d (cmpCond cond (s.sval w dp a) (if cond.toNat < 2 then sx imm else zx imm)))))) s
def execPlog (dp : Dep) (d a b : BitVec 3) (f : BitVec 2) (s : State) : Host.Outcome State Fault Refusal :=
  issue dp (some .c) 0 1 noPre (fun w s =>
    let x := (s.eng w).pred a
    let y := (s.eng w).pred b
    let r := match f.toNat with | 0 => x && y | 1 => x || y | 2 => x != y | _ => x && !y
    .done (s.modEng w (fun e => e.setPred d r))) s
def execSel (dp : Dep) (d a b : BitVec 6) (p : BitVec 3) (n : Bool) (s : State) : Host.Outcome State Fault Refusal :=
  issue dp (some .c) 0 2 noPre (interlock [d, a, b] (fun w s =>
    .done (s.setS w d (if (s.eng w).pred p != n then s.sval w dp a else s.sval w dp b)))) s

/-! ### Transfers (R258 to R260, R263) -/

/-- Pops the loop entries whose range does not contain a transfer's target (R263). -/
def popLoops (target : Nat) : List LoopEnt → List LoopEnt
  | [] => []
  | e :: t => if e.start ≤ target ∧ target ≤ e.stop then e :: t else popLoops target t

/-- The fault of a transfer to no word of the code object, the first element that fails being its target (R259, R260, R431). -/
def targetTrap (w : EngRef) (s : State) (info : BitVec 64) : Trap :=
  { code := .bounds, handle := match s.task w with | some t => recCode t.record | none => 0, info := info }

/-- The program counter at a word. No code object has a word 2^32 - 1 or beyond, and a target there faults at its fetch (R219, R260). -/
def pcAt (n : Nat) : BitVec 32 := BitVec.ofNat 32 (min n (2 ^ 32 - 1))

/-- A taken transfer from word `w` by a signed offset: a target below word 0 faults (R260); `pops` for BR and JMP (R263). -/
def transfer (w : EngRef) (s : State) (off : BitVec 16) (pops : Bool) : Act :=
  let t : Int := ((s.eng w).pc.toNat : Int) + off.toInt
  if t < 0 then .trap (targetTrap w s (BitVec.ofInt 64 t))
  else
    let s := if pops then s.modEng w (fun e => { e with loops := popLoops t.toNat e.loops }) else s
    .goto s (pcAt t.toNat)

def execBr (dp : Dep) (p : BitVec 3) (n : Bool) (off : BitVec 16) (s : State) : Host.Outcome State Fault Refusal :=
  issue dp (some .c) 0 1 noPre (fun w s => if (s.eng w).pred p != n then transfer w s off true else .done s) s
def execJmp (dp : Dep) (off : BitVec 16) (s : State) : Host.Outcome State Fault Refusal :=
  issue dp (some .c) 0 1 noPre (fun w s => transfer w s off true) s
def execCall (dp : Dep) (off : BitVec 16) (s : State) : Host.Outcome State Fault Refusal :=
  issue dp (some .c) 0 1 noPre (interlock [31] (fun w s =>
    match transfer w s off false with
    | .goto t pc => .goto (t.setS w 31 (zx ((s.eng w).pc + 1))) pc
    | a => a)) s
def execRet (dp : Dep) (s : State) : Host.Outcome State Fault Refusal :=
  issue dp (some .c) 0 1 noPre (interlock [31] (fun w s =>
    let v := s.sval w dp 31
    if 2 ^ 32 ≤ v.toNat then .trap (targetTrap w s v) else .goto s (v.extractLsb' 0 32))) s

/-! ### Hardware loops (R261, R262, R265, R295) -/

/-- LOOP on an engine. -/
def loopOp (dp : Dep) (eng : EngineId) (d : BitVec 6) (n : BitVec 14) (s : State) : Host.Outcome State Fault Refusal :=
  issue dp (some eng) 0 1 noPre (interlock [d] (fun w s =>
    let e := s.eng w
    let p := e.pc.toNat
    let stop := p + n.toNat
    let c := (s.sval w dp d).toNat
    if c = 0 then
      let (ls, pc) := loopEnd e.loops stop (stop + 1)
      .goto (s.modEng w (fun e => { e with loops := ls })) (pcAt pc)
    else if e.loops.length = 4 then .trap { code := .loopDepth }
    else if (match e.loops.head? with | some t => decide (t.stop < stop) | none => false) then .trap { code := .illegalEnc }
    else .goto (s.modEng w (fun e => { e with loops := ⟨p + 1, stop, c⟩ :: e.loops })) (BitVec.ofNat 32 (p + 1)))) s

def execLoopC (dp : Dep) (d : BitVec 6) (n : BitVec 14) (s : State) : Host.Outcome State Fault Refusal := loopOp dp .c d n s

/-! ### Retirement and spills (R266, R267, R184 to R186, R296) -/

def execRetire (dp : Dep) (s : State) : Host.Outcome State Fault Refusal := issue dp (some .c) 0 1 noPre retireAct s

/-- The lowest eligible unit of storage for a group of spill slots (R185, R296). -/
def spillUnit (c : Core) (ctx : Bool) (t : Task) (taken : List Backing) : Option (Nat → Backing) :=
  let qs := (List.range 32).filter (fun q => decide (base ctx 0 24 ≤ q ∧ q < base ctx 24 32) && !t.hasQ ctx q)
  let q := (qs.flatMap (fun q => (List.range 4).map (fun e => Backing.queueEntry q e))).find? (fun b => !taken.contains b)
  match q with
  | some b => some (fun _ => b)
  | none =>
    let as_ := (List.range 16).filter (fun a => decide (base ctx 0 12 ≤ a ∧ a < base ctx 12 16) && !t.hasA ctx a && !(c.acc a).lent)
    let col := (as_.flatMap (fun a => (List.range 64).map (fun k => Backing.accColumn a k))).find? (fun b => !taken.contains b)
    col.map (fun b => fun _ => b)

def execPark (dp : Dep) (d slot : BitVec 6) (s : State) : Host.Outcome State Fault Refusal :=
  issue dp (some .c) 0 1 noPre (interlock [d] (fun w s =>
    let x := s.ctx w
    let n := slot.toNat
    let grp := n / 32
    let put (x : Ctx) : Act := .done (s.setCtx w { x with spill := upsert x.spill n (s.sval w dp d) })
    if x.spill.any (fun y => y.1 == n) || x.backing.any (fun b => b.1 == grp) then put x
    else match x.task with
      | none => .trap { code := .parkFull }
      | some t =>
        match spillUnit (s.core w.core) w.ctx t (x.backing.map (fun b => b.2)) with
        | none => .trap { code := .parkFull }
        | some f =>
          let b := f grp
          -- a queue entry backs both groups; a column that backs the other one stays in place
          let other := 1 - grp
          put { x with backing := x.backing ++ [(grp, b)] ++ (match b with
            | .queueEntry _ _ => if x.backing.any (fun y => y.1 == other) then [] else [(other, b)]
            | .accColumn _ _ => []) })) s
def execUnpark (dp : Dep) (d slot : BitVec 6) (s : State) : Host.Outcome State Fault Refusal :=
  aluOp dp d [] (fun w s => lookupD 0 (s.ctx w).spill slot.toNat) s

/-! ### Barriers (R268 to R272) -/

/-- The ALLOT check of a barrier (R153). -/
def needBar (n : BitVec 6) (w : EngRef) (s : State) : Option Trap :=
  match s.task w with
  | none => some { code := .allot }
  | some t => if t.hasB w.ctx n.toNat then none else some { code := .allot }

/-- The instance a core's barrier of a scope belongs to (R269). -/
def State.barId (s : State) (w : EngRef) (n : BitVec 6) (sc : BitVec 3) : BarId := ⟨s.partOf w, w.ctx, sc, unitOf sc w.core, n.toNat⟩

/-- An arrival (R270). -/
def arrive (dp : Dep) (w : EngRef) (s : State) (n a : BitVec 6) (sc : BitVec 3) : Except Trap State :=
  let v := ((s.sval w dp a).extractLsb' 0 8).toNat
  let id := s.barId w n sc
  let b := s.bar id
  if v = 0 then .error { code := .barCount }
  else if (match s.openArrival w.core n.toNat with | some o => o != id | none => false) then .error { code := .barCount }
  else if b.arrivals ≠ 0 ∧ b.expect ≠ some v then .error { code := .barCount }
  else
    let k := b.arrivals + 1
    let s := s.setArrival w.core n.toNat (some ⟨n.toNat, id, b.phase, ((s.lastOpen w.core n.toNat).map (fun a => a.count)).getD 0 + 1⟩)
    .ok (s.setBar (if k = v then { b with expect := some v, arrivals := 0, phase := b.phase + 1 } else { b with expect := some v, arrivals := k }))

/-- Whether a wait at a barrier instance has to wait (R270). -/
def State.barWaits (s : State) (w : EngRef) (n : BitVec 6) (sc : BitVec 3) : Bool :=
  match s.openArrival w.core n.toNat with
  | some id => id.scope == sc
  | none => false

def execBara (dp : Dep) (n a : BitVec 6) (sc : BitVec 3) (s : State) : Host.Outcome State Fault Refusal :=
  issue dp (some .c) 0 1 (needBar n) (interlock [a] (fun w s => Act.of ((arrive dp w s n a sc).map Act.done))) s
def execBarw (dp : Dep) (n : BitVec 6) (sc : BitVec 3) (s : State) : Host.Outcome State Fault Refusal :=
  issue dp (some .c) 0 1 (needBar n) (fun w s => if s.barWaits w n sc then .stall (.barrier n.toNat) else .done s) s
def execBaraw (dp : Dep) (n a : BitVec 6) (sc : BitVec 3) (s : State) : Host.Outcome State Fault Refusal :=
  issue dp (some .c) 0 1 (needBar n) (interlock [a] (fun w s =>
    if (s.eng w).arrived then (if s.barWaits w n sc then .stall (.barrier n.toNat) else .done s)
    else Act.of ((arrive dp w s n a sc).map (fun t =>
      if t.barWaits w n sc then .stallKeep (t.modEng w (fun e => { e with arrived := true })) (.barrier n.toNat) else .done t)))) s

/-! ### Counters, waits, publishing and pinning (R273 to R283) -/

/-- An SC access waits until the wheel has chosen it, and is performed at that position, which its core then has used (R202 to R204).
One that cannot be performed at the position waits for the next. -/
def wheel (w : EngRef) (s : State) (k : State → Act) : Act :=
  match (s.eng w).scGrant with
  | some t =>
    if t = s.cycles then k (s.modCore w.core (fun c => { c with lastSc := some t }))
    else .stallKeep (s.modEng w (fun e => { e with scWait := true, scGrant := none })) .other
  | none => .stallKeep (s.modEng w (fun e => { e with scWait := true })) .other

/-- `SC_SCOPE`: an SC access to an object of another package, or with a replica there (R204). -/
def Obj.needLocal (s : State) (o : Obj) : Except Trap Unit :=
  need (o.home == s.package.toNat && o.e.replicas.all (fun p => p == s.package.toNat)) { code := .scScope, handle := o.handle }

/-- The add of a CADD to a COUNTER (R63, R273). -/
def counterAdd (o : Obj) (v : BitVec 64) : Except Trap Obj :=
  if v.toInt < 0 ∨ 2 ^ 64 ≤ o.val + v.toNat then .error { code := .counterRange, handle := o.handle }
  else .ok { o with e := { o.e with value := o.e.value + v } }

/-- CADD and CADD.SC. R67 gives COUNTER_RANGE no place: it comes where BOUNDS does, before MISSING_OBJECT (DESIGN CHOICE, log 117). -/
def caddOp (dp : Dep) (feat : Nat) (sc : Bool) (n : BitVec 5) (a : BitVec 6) (s : State) : Host.Outcome State Fault Refusal :=
  issue dp (some .c) feat 1 noPre (interlock [a] (fun w s => Act.of do
    let o ← s.resolve (s.partOf w) (s.hval w dp n).h
    o.needType [.counter]
    o.needRights [.write]
    if sc then o.needLocal s
    let o' ← counterAdd o (s.sval w dp a)
    s.needSound o
    -- an SC access completes before its engine issues again (R203)
    return if sc then wheel w s (fun s => .done (s.putAndWake o')) else homeReq (s.putAndWake o') none none)) s

def execCadd (dp : Dep) (n : BitVec 5) (a : BitVec 6) (_sc : BitVec 3) (s : State) : Host.Outcome State Fault Refusal := caddOp dp 0 false n a s
def execCaddSc (dp : Dep) (n : BitVec 5) (a : BitVec 6) (_sc : BitVec 3) (s : State) : Host.Outcome State Fault Refusal := caddOp dp 7 true n a s

/-- CWAITX and SUB: the task ends in a continuation that a `VALUE` at or above the target enqueues (R276, R277). -/
def waitOp (dp : Dep) (types : List ObjType) (n : BitVec 5) (a b : BitVec 6) (s : State) : Host.Outcome State Fault Refusal :=
  issue dp (some .c) 0 1 noPre (interlock [a, b] (fun w s =>
    if !s.mayRetire w then .stall .other
    else Act.of do
      let p := s.partOf w
      let o ← s.resolve p (s.hval w dp n).h
      o.needType types
      o.needRights [.read]
      let target := s.sval w dp a
      need (o.e.typ != .sequence || decide (target.toNat ≤ o.e.capacity)) { code := .bounds, handle := o.handle, info := target }
      s.needSound o
      match s.recordCont w ((s.eng w).pc + 1) (s.sval w dp b) with
      | none => return .stall .other
      | some (c, s) =>
        let s := s.modObj o.home o.num (fun o => { o with waiters := o.waiters ++ [⟨target, p, c.cid⟩] })
        match s.obj? o.home o.num with
        | none => return .leave s
        | some o' =>
          if target.toNat ≤ o'.val then return .leave ((s.putAndWake o').enqueueCont p c.cid)
          else if o'.e.typ = .sequence ∧ o'.e.sealedBit then
            let s := s.putObj { o' with waiters := o'.waiters.filter (fun x => x.cont != c.cid) }
            let (s, own) := s.deliverWaiter .seqSealed ⟨target, p, c.cid⟩
            return .leave (match own with | some y => s.abandon p y | none => s)
          else return .leave s)) s

def execCwaitx (dp : Dep) (n : BitVec 5) (a b : BitVec 6) (s : State) : Host.Outcome State Fault Refusal := waitOp dp [.counter, .sequence] n a b s
def execSubSubscribe (dp : Dep) (n : BitVec 5) (a b : BitVec 6) (s : State) : Host.Outcome State Fault Refusal := waitOp dp [.tensor] n a b s

/-- A PUB takes effect: stores in flight are settled, the increment and the change of version are seen, waiters wake (R60, R61, R280). -/
def State.publish (s : State) (o : Obj) : State :=
  let s := s.settleStores o.handle
  (s.putAndWake ((s.obj? o.home o.num).getD o).publish).sweep

/-- The copies of an object that a PUB commits at: the home's, and every replica's (R279). -/
def Obj.copies (s : State) (o : Obj) : List (Nat × Layout) := (o.pkgs s true 0).filterMap (fun q => (findMap o.maps q .current).map (fun l => (q, l)))

/-- PUB. At a replicated object the home first locks every copy, and REPLICATED_COMMIT publishes (R56, R279). -/
def execPub (dp : Dep) (n : BitVec 5) (_sc : BitVec 3) (s : State) : Host.Outcome State Fault Refusal :=
  issue dp (some .c) 0 1 noPre (fun w s => Act.of do
    let o ← s.resolveFor (s.partOf w) (s.hval w dp n).h [.tensor] [.publish]
    if !o.locks.isEmpty then return .stall .other
    else if 1 < (o.copies s).length then
      let (id, s) := s.freshId
      let r : Resolved := { home := o.home, num := o.num, e := o.e, maps := o.copies s, work := o.e.wmode }
      return .pend (s.lock r id) id (.update r .pub)
    else return homeReq (s.publish o) none none) s

/-- OPIN. It names the handle that C observes. Where L has loaded the register since, that load releases the binding at once, and only
the scalar is written (DESIGN CHOICE, log 128). -/
def execOpin (dp : Dep) (n : BitVec 5) (d : BitVec 6) (s : State) : Host.Outcome State Fault Refusal :=
  issue dp (some .c) 0 1 noPre (interlock [d] (fun w s => Act.of do
    let r := s.hval w dp n
    let held := s.hreg w n
    -- the binding the register holds is released in the same step (R281), before PIN_CNT is looked at (DESIGN CHOICE, log 147)
    let s := s.releaseHReg held
    let o ← s.resolve (s.partOf w) r.h
    o.needType [.tensor]
    o.needRights [.pin]
    need (decide (o.e.pinCnt < 65535)) { code := .bounds, handle := r.h }
    s.needSound o
    let v := o.e.value
    let s := if held.h = r.h then
        (s.putObj (if o.e.wmode then o.bind v else o.pin)).setH w n { held with pinned := !o.e.wmode, bound := if o.e.wmode then some v else none }
      else s.setH w n { held with pinned := false, bound := none }
    return homeReq s (some (d.toNat, v)) none)) s

def execOunpin (dp : Dep) (n : BitVec 5) (s : State) : Host.Outcome State Fault Refusal :=
  issue dp (some .c) 0 1 noPre (fun w s =>
    let r := s.hreg w n
    homeReq ((s.releaseHReg r).setH w n { r with pinned := false, bound := none }) none none) s

/-! ### Allotment release (R154, R284, R391) -/

/-- The operations of a task that still write a resource that a predicate names. -/
def State.writersOf (s : State) (core tid : Nat) (hit : Op → Bool) : List Op := s.ops.filter (fun o => o.who.core == core && o.tid == tid && hit o)

/-- Gives back what an instruction took at issue: its pops to the queues still allotted, G where nothing drew since, an accumulator that it
zeroed where nothing has written it since (R8, R110, R154, R403). -/
def State.giveBack (s : State) (w : EngRef) (u : Undo) (allotted : Nat → Bool) : State :=
  let s := s.modCore w.core (fun c => u.pops.foldl (fun c p => if allotted p.1 then c.setQueue p.1 (p.2 :: c.queue p.1) else c) c)
  let s := s.modEng w (fun e => if e.g = u.after then { e with g := u.before } else e)
  match u.acc with
  | none => s
  | some (a, x) =>
    let writes (o : Op) : Bool := o.who.core == w.core && (match o.kind with
      | .mma d _ _ _ _ _ => d == a
      | .aload d _ _ => d == a
      | _ => false)
    if (s.core w.core).acc a = x.zeroed ∧ !s.ops.any writes then s.modCore w.core (fun c => c.setAcc a x) else s

/-- What an operation that faults after all gives back (R8, R154, R403): its pending pushes, what it took at issue, the states of the tiles
it was to write. -/
def State.undo (s : State) (o : Op) (allotted : Nat → Bool) : State :=
  match o.kind with
  | .vres _ _ _ _ _ u =>
    let s := s.modCore o.who.core (fun c => { c with queues := c.queues.map (fun l => l.filter (fun x => x != .pending o.id)) })
    s.giveBack o.who u allotted
  | .drain _ ws _ u =>
    let s := s.modCore o.who.core (fun c => ws.foldl (fun c x => if (c.tile x.tile).epoch = x.epoch then c.setTile x.tile { c.tile x.tile with st := x.was } else c) c)
    s.giveBack o.who u allotted
  | .adrq _ _ _ _ u => s.giveBack o.who u allotted
  | _ => s

/-- What is left of an operation behind the faulting one when resources are released: it completes without its writes there
(R154). -/
def Op.without (o : Op) (hit : Op → Bool) (gone : Nat → Bool) : Op :=
  if !hit o then o
  else match o.kind with
    | .vres ps m d f b u => { o with kind := .vres (ps.filter (fun p => !gone p.1)) m d f b u }
    | .drain a ws f u => { o with kind := .drain a (ws.filter (fun x => !gone x.tile)) f u }
    | .adrq a q _ f u => { o with kind := .adrq a q [] f u }
    | _ => { o with kind := .home none none }

/-- Takes the issued writes to released resources back: each engine stands at its earliest one and faults ALLOT there, and the later
ones complete without them (R154). -/
def State.discard (s : State) (hit : List Op) (gone allotted : Nat → Bool) : Option State :=
  [EngineId.l, .m, .v].foldl (fun (acc : Option State) e =>
    match acc with
    | none => none
    | some s =>
      match hit.find? (fun o => o.who.eng == e) with
      | none => some s
      | some o =>
        let s := (s.dropOp o.id).undo o allotted
        let s := { s with ops := s.ops.map (fun (x : Op) => x.without (fun y => y.who == o.who && hit.any (fun z => z.id == y.id)) gone) }
        -- it takes no token after all (R142), and a constituent's MNEST stands at the constituent's step (R376)
        let s := s.modEng o.who (fun x => { x with pc := o.pc })
        let s := s.setCtx o.who ((s.ctx o.who).returnTokens o.who.eng o.word0)
        let s := match o.kind with
          | .mma _ _ _ _ _ (some n) => s.setCtx o.who { s.ctx o.who with npos := n, nestTok := false }
          | _ => s
        s.takeFault? o.who { code := .allot }) (some s)

/-- QREL, AREL and TREL: the highest `n` resources of a class leave the allotment. -/
def relOp (dp : Dep) (n : BitVec 14) (count : Task → Nat) (lower : Task → Nat → Task) (first : Bool → Nat) (free : Core → Nat → Core)
    (hit : Core → Nat → Op → Bool) (held : Core → Nat → List (Option Request)) (s : State) : Host.Outcome State Fault Refusal :=
  issue dp (some .c) 0 1 noPre (fun w s =>
    match s.task w with
    | none => .trap { code := .allot }
    | some t =>
      let have_ := count t
      if have_ < n.toNat then .trap { code := .allot }
      else
        let gone := (List.range n.toNat).map (fun i => first w.ctx + have_ - 1 - i)
        let c := s.core w.core
        let s := (gone.flatMap (held c)).foldl (fun s r => s.unbindRequest r) s
        let writers := s.writersOf w.core t.tid (fun o => gone.any (fun g => hit c g o))
        let s := s.modCore w.core (fun c => gone.foldl free c)
        let t' := lower t (have_ - n.toNat)
        let s := s.setCtx w { s.ctx w with task := some t' }
        match s.discard writers gone.contains (t'.hasQ w.ctx) with
        | some s => .done s
        | none => .stall .other) s

/-- The replay descriptors of a queue's poisoned entries. -/
def queueRequests (l : List QSlot) : List (Option Request) :=
  ((l.filterMap QSlot.group?).eraseDups).map (fun y => y.2)

def execQrel (dp : Dep) (n : BitVec 14) (s : State) : Host.Outcome State Fault Refusal :=
  relOp dp n (fun t => t.aq) (fun t k => { t with aq := k }) (fun ctx => base ctx 0 24) (fun c q => { c.setQueue q [] with kept := c.kept.filter (fun x => x.1 != q) })
    (fun _ q o => match o.kind with
      | .vres ps _ _ _ _ _ => ps.any (fun p => p.1 == q)
      | .adrq _ d _ _ _ => d == q
      | .copy c => (match c.req.kind with | .cpq | .cpqTr | .cpqRb => c.unit == q | _ => false)
      | _ => false)
    (fun c q => queueRequests (c.queue q) ++ (c.kept.filter (fun x => x.1 == q)).map (fun x => some x.2)) s
def execArel (dp : Dep) (n : BitVec 14) (s : State) : Host.Outcome State Fault Refusal :=
  relOp dp n (fun t => t.aa) (fun t k => { t with aa := k }) (fun ctx => base ctx 0 12) (fun c a => c.setAcc a {})
    (fun _ a o => match o.kind with
      | .mma d _ _ _ _ _ => d == a
      | .aload d _ _ => d == a
      | _ => false)
    (fun _ _ => []) s
def execTrel (dp : Dep) (n : BitVec 14) (s : State) : Host.Outcome State Fault Refusal :=
  relOp dp n (fun t => t.at_) (fun t k => { t with at_ := k }) (fun ctx => base ctx 0 48)
    (fun c i => c.setTile i { epoch := (c.tile i).epoch + 1 })
    (fun x i o =>
      -- an access that TSET has detached no longer writes the entry (R324)
      let now := (x.tile i).epoch
      match o.kind with
      | .drain _ ws _ _ => ws.any (fun x => x.tile == i && x.epoch == now)
      | .copy c => (match c.req.kind with | .cpin | .cpinTr | .cpinRb | .cprag | .cpragTr => c.unit == i && c.epoch == now | _ => false)
      | .bank _ _ (some t) _ => t.1 == i && t.2 == now
      | .kv k => (match k.cmd with | .get | .list => k.tile == i && k.epoch == now | _ => false)
      | _ => false)
    (fun c i => [(c.tile i).replay]) s

/-! ### Tasks (R285 to R287) -/

def execSpawn (dp : Dep) (d a : BitVec 6) (arg nsel : Bool) (nnum : BitVec 16) (s : State) : Host.Outcome State Fault Refusal :=
  issue dp (some .c) 0 2 (needTiles [d.toNat]) (interlock [a] (fun w s =>
    let x := (s.core w.core).tile d.toNat
    match tileRead x d.toNat with
    | some r => r
    | none =>
      match eccTile w s w.core d.toNat with
      | some r => r
      | none =>
        if x.size < 64 then .trap { code := .bounds, uclass := .tile, unit := d.toNat }
        else
          let r := BitVec.ofNat 512 (leNat (s.tileBytes w.core x 0 64))
          let r := if arg then (s.sval w dp a).extractLsb' 0 32 ++ r.extractLsb' 0 480 else r
          let r := if nsel then r.extractLsb' 432 80 ++ nnum ++ r.extractLsb' 0 416 else r
          match s.part? (s.partOf w) with
          | none => .trap { code := .rights }
          | some p =>
            if recPrio r < p.cfg.prioLo ∨ p.cfg.prioHi < recPrio r then .trap { code := .rights }
            else if 1024 ≤ p.spawned || s.takeover.contains (mereOf w.core) then .stall .other
            else
              let (s, took) := s.takeRec p.cfg.id r (BitVec.allOnes 64) true
              let s := if took then s else s.modPart p.cfg.id (fun x => { x with held := x.held ++ [(8, 0, r)] })
              homeReq s none none)) s

def execYield (dp : Dep) (s : State) : Host.Outcome State Fault Refusal :=
  issue dp (some .c) 0 1 noPre (fun w s =>
    match s.task w, s.part? (s.partOf w) with
    | some t, some p =>
      -- it looks once, and then waits like a CWAITX
      if !(s.eng w).arrived && !p.otherWork w.ctx (recPrio t.record) w.core then .done s
      else if !s.mayRetire w then .stallKeep (s.modEng w (fun e => { e with arrived := true })) .other
      else match s.recordCont w ((s.eng w).pc + 1) (BitVec.allOnes 64) with
        | none => .stall .other
        | some (c, s) => .leave (s.modPart p.cfg.id (fun x => x.enqueueCont { c with satisfied := some 0 }))
    | _, _ => .done s) s

/-! ### System instructions (R288 to R293) -/

/-- TRAP waits for its tokens and faults; a RESUME completes it (R288). -/
def execTrap (dp : Dep) (code : BitVec 14) (s : State) : Host.Outcome State Fault Refusal :=
  issue dp (some .c) 0 1 noPre (fun _ _ => .trap { code := .swTrap, info := zx code }) s

/-- `TASK_INFO` (R291). -/
def taskInfo (t : Task) (ctx : Bool) : BitVec 64 :=
  0#16 ++ BitVec.ofNat 16 (recNode t.record) ++ BitVec.ofNat 5 t.part ++ BitVec.ofBool ctx ++ BitVec.ofBool t.cont ++ BitVec.ofBool t.catchRun ++
  BitVec.ofNat 6 (recPrio t.record) ++ BitVec.ofNat 4 (recSwt t.record) ++ 0#14

/-- The contents of a system register (R290). Of the sticky flags it shows those of the instructions that have completed by now, ordered
before it or not (R292; DESIGN CHOICE, log 119). -/
def sysValue (w : EngRef) (s : State) (reg : BitVec 14) : BitVec 64 :=
  match reg.toNat with
  | 0 => Config.devId
  | 1 => 0#38 ++ s.package ++ 0#6 ++ BitVec.ofNat 10 w.core
  | 2 => s.cycles
  | 3 => (match s.task w with | some t => taskInfo t w.ctx | none => 0)
  | 0x10 => zx (s.ctx w).m.flags
  | _ => zx (s.ctx w).v.flags

def execSysrd (dp : Dep) (d : BitVec 6) (reg : BitVec 14) (s : State) : Host.Outcome State Fault Refusal :=
  aluOp dp d [] (fun w s => sysValue w s reg) s
def execSyswr (dp : Dep) (d : BitVec 6) (reg : BitVec 14) (s : State) : Host.Outcome State Fault Refusal :=
  issue dp (some .c) 0 1 noPre (interlock [d] (fun w s =>
    let v := s.sval w dp d
    match reg.toNat with
    | 0x10 => .done (s.modEng { w with eng := .m } (fun e => e.clearFlags v))
    | 0x11 => .done (s.modEng { w with eng := .v } (fun e => e.clearFlags v))
    | _ => .trap { code := .rights })) s
def execBbox (dp : Dep) (a : BitVec 6) (tag : BitVec 8) (s : State) : Host.Outcome State Fault Refusal :=
  issue dp (some .c) 0 1 noPre (interlock [a] (fun w s =>
    let m := mereOf w.core
    let soon := match (s.core w.core).bboxAt with | some t => decide ((s.cycles - t).toNat < 1024) | none => false
    if soon then .done (s.setMere m { s.mere m with bboxDrops := satInc (s.mere m).bboxDrops })
    else
      let s := s.bbox m { payload := s.sval w dp a, etype := 0x000D, core := w.core, ctx := w.ctx, part := s.partOf w, tag := tag, engine := w.eng }
      .done (s.modCore w.core (fun c => { c with bboxAt := some s.cycles })))) s

end Sys2Proof.Machine
end

