-- ==== Sys2Proof/Machine/Stream.lean ====
section
/-! DEFINITION. The stream engine's instructions besides the copies: shape records, tiles, handle registers, sequences, the prefix
table, banks, atomics, key-value commands and hints (R303 to R308, R323 to R352). -/

namespace Sys2Proof.Machine

open Sys2Proof

/-- A partition's task of an engine: the identity that resolves and owns. -/
def withTask (w : EngRef) (s : State) (k : Task → Act) : Act :=
  match s.task w with
  | some t => k t
  | none => .trap { code := .allot }

/-- An instruction that acts on the object of a handle register: it waits for loads of the registers it names, and the null handle
faults (R355, R499). -/
def onHandle (hs : List (BitVec 5)) (body : EngRef → State → Act) (w : EngRef) (s : State) : Act :=
  if hs.any (fun h => s.handleBusy w h.toNat) then .stall .other
  else match hs.find? (fun h => (s.hreg w h).h = 0) with
    | some _ => .trap { code := .staleHandle }
    | none => body w s

/-- A request that is done at its home as it issues waits for the requests that its engine's queue carries ahead of it to resolve (R194,
R205). -/
def inOrder (body : EngRef → State → Act) (w : EngRef) (s : State) : Act :=
  if s.unresolved w (s.tid w) (fun _ => true) then .stall .other else body w s

/-! ### Shape records (R307, R308) -/

/-- The format fields of a shape record written one by one. -/
def mkShape (b0 b1 b2 b3 pitch step0 rbr rbc cdim pad : Nat) : BitVec 128 :=
  BitVec.ofNat 16 b3 ++ BitVec.ofNat 16 b2 ++ BitVec.ofNat 16 b1 ++ BitVec.ofNat 16 b0 ++ BitVec.ofNat 20 pitch ++ BitVec.ofNat 4 step0 ++
  BitVec.ofNat 4 rbr ++ BitVec.ofNat 4 rbc ++ BitVec.ofNat 3 cdim ++ BitVec.ofNat 2 pad ++ 0#26 ++ 1#1

/-- Writes a shape record that passes R308, and faults SHAPE_ALIGN otherwise. -/
def setShape (w : EngRef) (s : State) (xs : BitVec 4) (h : BitVec 5) (ok : Bool) (x : BitVec 128) : Act :=
  if ok && shapeOk (s.hreg w h).e x then .done (s.setX w xs x) else .trap { code := .shapeAlign, handle := (s.hreg w h).h }

def execShp (dp : Dep) (xs : BitVec 4) (h : BitVec 5) (i0 i1 i2 : BitVec 6) (s : State) : Host.Outcome State Fault Refusal :=
  issue dp (some .l) 0 2 noPre (interlock [i0, i1, i2] (onHandle [h] (fun w s =>
    let v (i : BitVec 6) : Nat := field (s.sval w dp i) 15 0
    setShape w s xs h true (mkShape (v i0) (v i1) (v i2) 1 0 0 0 0 0 0)))) s

def execShpx (dp : Dep) (xs : BitVec 4) (h : BitVec 5) (i0 i1 i2 : BitVec 6) (s : State) : Host.Outcome State Fault Refusal :=
  issue dp (some .l) 0 2 noPre (interlock [i0, i1, i2] (onHandle [h] (fun w s =>
    let x := s.xreg w xs
    let b3 := (s.sval w dp i0).toNat
    let pitch := (s.sval w dp i1).toNat
    let step := (s.sval w dp i2).toNat
    let ok := shValid x && decide (1 ≤ b3 ∧ b3 ≤ 65535 ∧ pitch < 2 ^ 20 ∧ 1 ≤ step ∧ step ≤ 16)
    setShape w s xs h ok (mkShape (shBox x 0) (shBox x 1) (shBox x 2) b3 pitch (step - 1) (shRbr x) (shRbc x) (shCdim x) (shPad x))))) s

def execShpo (dp : Dep) (xs : BitVec 4) (h : BitVec 5) (pad : BitVec 2) (cdim : BitVec 3) (s : State) : Host.Outcome State Fault Refusal :=
  issue dp (some .l) 0 2 noPre (onHandle [h] (fun w s =>
    let x := s.xreg w xs
    setShape w s xs h (shValid x)
      (mkShape (shBox x 0) (shBox x 1) (shBox x 2) (shBox x 3) (shPitch x) (shStep x - 1) (shRbr x) (shRbc x) cdim.toNat pad.toNat))) s

def execShps (dp : Dep) (xs : BitVec 4) (h : BitVec 5) (rbr rbc : BitVec 4) (s : State) : Host.Outcome State Fault Refusal :=
  issue dp (some .l) 0 2 noPre (onHandle [h] (fun w s =>
    let x := s.xreg w xs
    setShape w s xs h (shValid x)
      (mkShape (shBox x 0) (shBox x 1) (shBox x 2) (shBox x 3) (shPitch x) (shStep x - 1) rbr.toNat rbc.toNat (shCdim x) (shPad x)))) s

/-! ### The tile table (R323 to R325) -/

/-- The fault of TSET's range (R323). -/
def tsetTrap (w : EngRef) (s : State) (off size : Nat) (swz : BitVec 3) (t : Nat) : Option Trap :=
  let r := sliceRange w.ctx
  let carve := (s.core w.core).carve
  let carved := (List.range 16).any (fun j => carve.getLsbD j && decide (off < (j + 1) * 65536 ∧ j * 65536 < off + size))
  if off < r.1 ∨ r.2 < off + size ∨ carved then some { code := .allot, uclass := .tile, unit := t }
  else if off % 64 ≠ 0 ∨ size % 64 ≠ 0 ∨ size < 64 ∨ (swz ≠ 0 ∧ off % 1024 ≠ 0) then some { code := .copyGeom, uclass := .tile, unit := t }
  else none

/-- A tile-table entry that TSET has emptied: what was in flight on it is detached (R324). -/
def Tile.cleared (x : Tile) : Tile := { x with st := .empty, tag := none, fault := none, replay := none, epoch := x.epoch + 1 }

def execTset (dp : Dep) (d a b : BitVec 6) (swz : BitVec 3) (s : State) : Host.Outcome State Fault Refusal :=
  issue dp (some .l) 0 2 (needTiles [d.toNat]) (interlock [a, b] (fun w s =>
    let off := (s.sval w dp a).toNat
    let size := (s.sval w dp b).toNat
    match tsetTrap w s off size swz d.toNat with
    | some t => .trap t
    | none =>
      let x := (s.core w.core).tile d.toNat
      .done ((s.unbindRequest x.replay).modCore w.core (fun c => c.setTile d.toNat { x.cleared with off := off, size := size, swz := swz })))) s

def execTsetClr (dp : Dep) (d : BitVec 6) (s : State) : Host.Outcome State Fault Refusal :=
  issue dp (some .l) 0 2 (needTiles [d.toNat]) (fun w s =>
    let x := (s.core w.core).tile d.toNat
    .done ((s.unbindRequest x.replay).modCore w.core (fun c => c.setTile d.toNat x.cleared))) s

def execTsetRdy (dp : Dep) (d : BitVec 6) (s : State) : Host.Outcome State Fault Refusal :=
  issue dp (some .l) 0 2 (needTiles [d.toNat]) (fun w s =>
    let x := (s.core w.core).tile d.toNat
    match x.st with
    | .empty => .done (s.modCore w.core (fun c => c.setTile d.toNat { x with st := .ready, tag := none }))
    | .ready => .done s
    | _ => .trap { code := .tileState, uclass := .tile, unit := d.toNat }) s

/-- `STATE` of TSTAT. -/
def TileSt.num : TileSt → Nat
  | .empty => 0 | .filling => 1 | .ready => 2 | .draining => 3 | .poisoned => 4

/-- The word TSTAT writes (R325). -/
def Tile.status (x : Tile) : BitVec 64 :=
  (match x.st, x.fault with | .poisoned, some f => f.code.val | _, _ => 0) ++ 0#2 ++ BitVec.ofNat 14 (x.size / 64) ++ 0#6 ++ BitVec.ofNat 20 x.off ++
  x.swz ++ BitVec.ofNat 3 x.st.num

def execTstat (dp : Dep) (d a : BitVec 6) (s : State) : Host.Outcome State Fault Refusal :=
  issue dp (some .l) 0 1 (needTiles [a.toNat]) (interlock [d] (fun w s =>
    .done (s.setS w d ((s.core w.core).tile a.toNat).status))) s

/-! ### Handle registers (R303 to R305) -/

/-- Loads a handle with a lookup that reads no page (R303). -/
def loadHandle (w : EngRef) (s : State) (d : BitVec 5) (h : BitVec 64) : Act :=
  if h = 0 then homeReq s none (some (d.toNat, {}))
  else match s.resolve (s.partOf w) h with
    | .error t => .trap t
    | .ok o =>
      if !s.sound o then .trap { code := .missingObject, handle := h, incons := true }
      else homeReq s none (some (d.toNat, { h := h, e := o.e }))

def execHset (dp : Dep) (d : BitVec 5) (a : BitVec 6) (s : State) : Host.Outcome State Fault Refusal :=
  issue dp (some .l) 0 1 noPre (interlock [a] (fun w s =>
    if s.handleBusy w d.toNat then .stall .other else loadHandle w s d (s.sval w dp a))) s

def execHsetImport (dp : Dep) (d : BitVec 5) (b : BitVec 6) (s : State) : Host.Outcome State Fault Refusal :=
  issue dp (some .l) 0 1 noPre (fun w s =>
    if s.handleBusy w d.toNat then .stall .other
    else withTask w s (fun t =>
      match s.codeWord t (2 * b.toNat), s.codeWord t (2 * b.toNat + 1) with
      | .ok lo, .ok hi => loadHandle w s d (hi ++ lo)
      | .error e, _ => .trap e
      | _, .error e => .trap e)) s

/-- The words HGET reads (R304). -/
def HReg.read (r : HReg) (f : BitVec 2) : BitVec 64 :=
  if r.h = 0 then 0
  else match f.toNat with
    | 0 => r.h
    | 1 => r.bound.getD 0
    | _ => 0#48 ++ BitVec.ofBool (r.pinned || r.bound.isSome) ++ r.e.rights ++ r.e.fmt ++ r.e.rank ++ r.e.typ.val

def execHget (dp : Dep) (d : BitVec 6) (h : BitVec 5) (f : BitVec 2) (s : State) : Host.Outcome State Fault Refusal :=
  issue dp (some .l) 0 1 noPre (interlock [d] (fun w s =>
    if s.handleBusy w h.toNat then .stall .other else .done (s.setS w d ((s.hreg w h).read f)))) s

/-- Whether a page or block of an object is pinned, and its presence and tier (R305). -/
def State.probe (s : State) (o : Obj) (v : Ver) (t : Nat × Nat × Nat × Nat) : Bool × Bool × Nat :=
  let sp := o.e.spot t
  let off := o.e.byteOff sp 0
  match findMap o.maps (o.readPkg s sp.shard) v with
  | some (.slices _) => (decide (0 < o.pagePins), true, 0)
  | some (.pages ds) =>
    (match ds[off / 65536]? with
     | some d => (decide (0 < o.pagePins) || d.getLsbD 1, descValid d, descTier d)
     | none => (decide (0 < o.pagePins), false, 0))
  | some (.blocks bs) =>
    let b := off / (16 * o.e.rowb)
    (match bs.find? (fun x => x.num == b) with
     | some x => (s.blockPinned o.home x, x.valid, x.tier.toNat)
     | none => (o.blkPins.any (fun p => decide (p.1 ≤ b ∧ b < p.2)), false, 0))
  | _ => (false, false, 0)

def execHprobe (dp : Dep) (d : BitVec 6) (h : BitVec 5) (i0 i1 i2 i3 : BitVec 6) (s : State) : Host.Outcome State Fault Refusal :=
  issue dp (some .l) 0 2 noPre (interlock [d, i0, i1, i2, i3] (onHandle [h] (fun w s =>
    let r := s.hreg w h
    match s.resolve (s.partOf w) r.h with
    | .error t => if t.code = .missingObject then homeReq s (some (d.toNat, 64)) none else .trap t
    | .ok o => Act.of do
      o.needType [.tensor, .sequence]
      o.needRights [.read]
      let i (x : BitVec 6) (k : Nat) : Nat := if k < o.e.rk then (s.sval w dp x).toNat else 0
      let t := (i i0 0, i i1 1, i i2 2, i i3 3)
      need (o.e.has t) { code := .bounds, handle := r.h,
                         info := if o.e.typ = .sequence then BitVec.ofNat 64 (comp t o.e.rank.toNat) else BitVec.ofNat 64 (o.e.linear t) }
      let (pin, here, tier) := s.probe o (o.verOf r.bound) t
      return homeReq s (some (d.toNat, 0#58 ++ BitVec.ofBool o.e.altStale ++ BitVec.ofBool pin ++ BitVec.ofBool here ++ BitVec.ofNat 3 tier)) none))) s

/-! ### Sequences (R326 to R331) -/

/-- A sequence instruction: resolved before it completes, its faults precise. -/
def onSequence (h : BitVec 5) (rights : List Right) (k : EngRef → State → Task → Obj → Except Trap Act) : EngRef → State → Act :=
  onHandle [h] (inOrder (fun w s => withTask w s (fun t => Act.of do
    let o ← s.resolve t.part (s.hreg w h).h
    o.needType [.sequence]
    o.needRights rights
    k w s t o)))

/-- SQRES of `n` slots by an owner (R73, R498): the state, and the first slot reserved. -/
def reserve (s : State) (o : Obj) (n : Nat) (w : Owner) : Except Trap State := do
  let next := o.e.next.toNat
  need (decide (1 ≤ n ∧ n ≤ 65536)) { code := .bounds, handle := o.handle, info := BitVec.ofNat 64 next }
  need (decide (next + n ≤ o.e.capacity)) { code := .bounds, handle := o.handle, info := BitVec.ofNat 64 o.e.capacity }
  need (!o.e.sealedBit) { code := .seqSealed, handle := o.handle, info := BitVec.ofNat 64 next }
  s.needSound o (next / 16)
  match s.allocBlocks o (blocksOf next (next + n)) with
  | none => throw { code := .noSpace, handle := o.handle }
  | some (s, o) => return s.putObj { o with resv := o.resv ++ [⟨next, next + n, w⟩], e := { o.e with next := BitVec.ofNat 32 (next + n) } }

def execSqres (dp : Dep) (d : BitVec 6) (h : BitVec 5) (i0 : BitVec 6) (s : State) : Host.Outcome State Fault Refusal :=
  issue dp (some .l) 2 2 noPre (interlock [d, i0] (onSequence h [.append] (fun w s t o => do
    let s' ← reserve s o (s.sval w dp i0).toNat (.task t.tid)
    return homeReq s' (some (d.toNat, zx o.e.next)) none))) s

/-- Commits slots that an owner has reserved (R75, R76). -/
def commitSlots (s : State) (o : Obj) (a b : Nat) (w : Owner) : Except Trap State := do
  need (!o.e.sealedBit) { code := .seqSealed, handle := o.handle, info := BitVec.ofNat 64 a }
  match o.firstUnreserved w a b with
  | some i => throw { code := .seqOrder, handle := o.handle, info := BitVec.ofNat 64 i }
  | none =>
    s.needSound o (a / 16)
    return s.putAndWake (o.commit a b)

/-- Whether a copy of the task that names a slot of a range is still to store there, one without acknowledgement among them, from whichever
core it issued, since no slot is written once it is COMMITTED (R75, R78, R328). -/
def State.slotsBusy (s : State) (w : EngRef) (o : Obj) (a b : Nat) : Bool :=
  let names (c : CopyOp) : Bool :=
    c.req.hreg.h == o.handle && (match (c.req.box)[o.e.rank.toNat]? with | some p => decide (p.1 < b ∧ a ≤ p.2) | none => false)
  s.ops.any (fun x => x.tid == s.tid w &&
    (match x.kind with
     | .copy c => names c
     | .store c => names c
     | .repl c _ => names c
     | _ => false))

def execSqcmt (dp : Dep) (h : BitVec 5) (i0 i1 : BitVec 6) (_sc : BitVec 3) (s : State) : Host.Outcome State Fault Refusal :=
  issue dp (some .l) 2 2 noPre (interlock [i0, i1] (onSequence h [.append] (fun w s t o => do
    let a := (s.sval w dp i0).toNat
    let b := (s.sval w dp i1).toNat
    need (decide (a ≤ b ∧ b ≤ o.e.capacity)) { code := .bounds, handle := o.handle, info := BitVec.ofNat 64 (if b ≤ o.e.capacity then a else o.e.capacity) }
    if a = b then return homeReq s none none
    -- a release comes after the engine's earlier accesses (R194, R196)
    else if s.slotsBusy w o a b || s.accessesLeft w t.tid (fun _ => true) then return .stall .other
    else
      let s' ← commitSlots s o a b (.task t.tid)
      return homeReq s' none none))) s

def execSqlen (dp : Dep) (d : BitVec 6) (h : BitVec 5) (f : BitVec 2) (s : State) : Host.Outcome State Fault Refusal :=
  issue dp (some .l) 2 1 noPre (interlock [d] (onSequence h [.read] (fun _ s _ o => do
    s.needSound o
    let v : BitVec 64 := match f.toNat with
      | 0 => o.e.value
      | 1 => zx o.e.next
      | 2 => BitVec.ofNat 64 o.e.capacity
      | _ => if o.e.sealedBit then 1 else 0
    return homeReq s (some (d.toNat, v)) none))) s

/-- The lowest FREE object number of a partition's ranges on a package (R41, R330). -/
def State.freeNumber (s : State) (p home : Nat) : Option (BitVec 40) :=
  match s.part? p with
  | none => none
  | some x =>
    let used (n : Nat) : Bool := match s.obj? home (BitVec.ofNat 40 n) with | some o => o.e.typ != .free | none => false
    let ranges := x.cfg.ranges
    -- at most one number per object of the table is in use, and 0 names none, so that many candidates of each range suffice
    let cands := ranges.flatMap (fun r => (List.range (min (r.2 + 1 - r.1) (s.objs.length + 2))).map (fun i => r.1 + i))
    (cands.filter (fun n => decide (n ≠ 0) && !used n)).foldl (fun (m : Option Nat) n => match m with | some k => some (min k n) | none => some n) none
      |>.map (BitVec.ofNat 40)

/-- Puts a new object into a FREE entry, which keeps its generation (R40). -/
def State.createObj (s : State) (o : Obj) : State × Obj :=
  match s.obj? o.home o.num with
  | some f =>
    let o := { o with e := { o.e with gen := if f.e.gen = 0 then 1 else f.e.gen } }
    (s.putObj o, o)
  | none =>
    let o := { o with e := { o.e with gen := 1 } }
    ({ s with objs := s.objs ++ [o] }, o)

/-- Writes the extent of a dimension. -/
def Entry.setExt (e : Entry) (d : Nat) (n : Nat) : Entry :=
  match d with
  | 0 => { e with ext0 := BitVec.ofNat 32 n }
  | 1 => { e with ext1 := BitVec.ofNat 32 n }
  | 2 => { e with ext2 := BitVec.ofNat 32 n }
  | _ => { e with ext3 := BitVec.ofNat 32 n }

/-- SQFORK at length `len` into a new sequence of capacity `cap` (R79, R330). -/
def fork (s : State) (o : Obj) (len cap : Nat) : Except Trap (State × Obj) := do
  let bad (i : Nat) : Trap := { code := .bounds, handle := o.handle, info := BitVec.ofNat 64 i }
  need (decide (cap % 16 = 0 ∧ 16 ≤ cap ∧ cap ≤ 2 ^ 32 - 16)) (bad cap)
  need (decide (len ≤ o.val ∧ len ≤ cap)) (bad (min o.val cap))
  let shared := o.blockList.filter (fun b => decide (b.num < ceilDiv len 16))
  let full := shared.find? (fun b => decide (65535 ≤ s.refcnt o.home b.addr))
  need full.isNone (bad (match full with | some b => 16 * b.num | none => 0))
  s.needSound o
  match s.freeNumber o.e.part.toNat o.home, s.freeRun o.home o.e.part.toNat (ceilDiv (cap / 16 * 8) 65536) with
  | some n, some f =>
    let t : BitVec 3 := match shared with | [] => 1 | b :: bs => if bs.all (fun x => x.tier == b.tier) then b.tier else 5
    let e : Entry := { o.e.setExt o.e.rank.toNat cap with
      value := BitVec.ofNat 64 len, next := BitVec.ofNat 32 len, pinCnt := 0, sealedBit := false, err := false, loc := BitVec.ofNat 48 f, tier := t }
    return s.createObj { home := o.home, num := n, e := e, forkLen := len
                         maps := [(o.home, .current, .blocks (shared.map (fun b => { b with owned := false })))] }
  | _, _ => throw { code := .noSpace, handle := o.handle }

def execSqfork (dp : Dep) (e h : BitVec 5) (i0 i1 : BitVec 6) (s : State) : Host.Outcome State Fault Refusal :=
  issue dp (some .l) 2 2 noPre (interlock [i0, i1] (fun w s =>
    if s.handleBusy w e.toNat || s.takeover.contains (mereOf w.core) then .stall .other
    else onSequence h [.read] (fun w s _ o => do
      let (s', n) ← fork s o (s.sval w dp i0).toNat (s.sval w dp i1).toNat
      return homeReq s' none (some (e.toNat, { h := n.handle, e := n.e }))) w s)) s

/-- Adds a pin to the task's list (R331). -/
def State.addPin (s : State) (w : EngRef) (p : PinRange) : State :=
  let x := s.ctx w
  s.setCtx w { x with task := x.task.map (fun t => { t with pins := p :: t.pins }) }

def execSqpin (dp : Dep) (h : BitVec 5) (i0 i1 : BitVec 6) (s : State) : Host.Outcome State Fault Refusal :=
  issue dp (some .l) 2 2 noPre (interlock [i0, i1] (onSequence h [.pin] (fun w s t o => do
    let a := (s.sval w dp i0).toNat
    let b := (s.sval w dp i1).toNat
    need (decide (a < b ∧ b ≤ o.val)) { code := .bounds, handle := o.handle, info := BitVec.ofNat 64 (if a < b then o.val else a) }
    need (decide (o.e.pinCnt < 65535 ∧ t.pins.length < 16)) { code := .bounds, handle := o.handle, info := BitVec.ofNat 64 a }
    s.needSound o (a / 16)
    let (lo, hi) := (a / 16, ceilDiv b 16)
    return homeReq ((s.putObj (o.pinBlocks lo hi)).addPin w ⟨o.home, o.num, o.e.gen, lo, hi, none⟩) none none))) s

def execSqunpin (dp : Dep) (h : BitVec 5) (i0 i1 : BitVec 6) (s : State) : Host.Outcome State Fault Refusal :=
  issue dp (some .l) 2 2 noPre (interlock [i0, i1] (onSequence h [] (fun w s t o => do
    let (lo, hi) := ((s.sval w dp i0).toNat / 16, ceilDiv (s.sval w dp i1).toNat 16)
    s.needSound o lo
    match t.pins.find? (fun p => p.home == o.home && p.num == o.num && p.gen == o.e.gen && p.lo == lo && p.hi == hi) with
    | none => return homeReq s none none
    | some p =>
      let x := s.ctx w
      let s := s.setCtx w { x with task := some { t with pins := t.pins.erase p } }
      return homeReq (s.unpinRange p) none none))) s

/-! ### The prefix table (R83 to R87, R332 to R337) -/

/-- One step of the chained hash over the 16 tokens of block `j` (R84). -/
def hashStep (h : BitVec 32) (j : Nat) (ts : List (BitVec 32)) : BitVec 32 :=
  let b := (ts.zipIdx).foldl (fun b t => b ^^^ t.1.rotateLeft (2 * t.2)) (0#32)
  h.rotateLeft 7 ^^^ b ^^^ BitVec.ofNat 32 j

/-- Tokens of a tile's buffer from byte `o`. -/
def tokensAt (s : State) (core : Nat) (x : Tile) (o n : Nat) : List (BitVec 32) :=
  (List.range n).map (fun i => BitVec.ofNat 32 (leNat (s.tileBytes core x (o + 4 * i) 4)))

/-- A tile that an instruction of L reads once its tokens are there. -/
def readTile (w : EngRef) (s : State) (t : Nat) (k : Tile → Act) : Act :=
  let x := (s.core w.core).tile t
  match tileRead x t with
  | some a => a
  | none =>
    match eccTile w s w.core t with
    | some a => a
    | none => k x

def execPxhash (dp : Dep) (d a b j o : BitVec 6) (s : State) : Host.Outcome State Fault Refusal :=
  issue dp (some .l) 2 2 (needTiles [b.toNat]) (interlock [d, a, j, o] (fun w s =>
    readTile w s b.toNat (fun x =>
      let off := (s.sval w dp o).toNat
      if off % 4 ≠ 0 ∨ x.size < off + 64 then
        .trap { code := .bounds, info := BitVec.ofNat 64 (if off % 4 ≠ 0 then off / 4 else max (off / 4) (x.size / 4)), uclass := .tile, unit := b.toNat }
      -- the read comes after what a slot's read ahead of it acquires (R194)
      else if s.unresolved w (s.tid w) (fun _ => true) || s.tileLate w b.toNat [(off, off + 64)] then .stall .other
      else
        let h := hashStep ((s.sval w dp a).extractLsb' 0 32) (field (s.sval w dp j) 31 0) (tokensAt s w.core x off 16)
        .done ((s.touchTile w.core b.toNat [(off, off + 64)]).setS w d (zx h))))) s

/-- The hashes H[1] to H[n] of blocks of tokens. -/
def hashes (h : BitVec 32) (j : Nat) : List (List (BitVec 32)) → List (BitVec 32)
  | [] => []
  | b :: bs => let x := hashStep h j b; x :: hashes x (j + 1) bs

/-- The object of a handle that is not stale. -/
def State.live? (s : State) (h : BitVec 64) : Option Obj :=
  match s.objOf? h with
  | some o => if o.e.gen = hGen h ∧ o.e.typ ≠ .free ∧ hObj h ≠ 0 then some o else none
  | none => none

/-- Elements 0 to `n - 1` of a 32-bit object, in linear order, or the page that is missing. -/
def State.words (s : State) (o : Obj) (n : Nat) : Except Trap (List (BitVec 32)) :=
  (List.range n).mapM (fun i =>
    let sp := o.e.spot (o.e.unlinear i)
    let q := o.readPkg s sp.shard
    match findMap o.maps q .current with
    | none => .error (s.missing o .current 0)
    | some l =>
      match readSpot s q o.e l sp 4 with
      | .ok bs => .ok (BitVec.ofNat 32 (leNat bs))
      | .error p => .error (s.missing o .current p))

/-- What a search of the prefix table ends in. -/
inductive Found where
  | none
  | hit (count : Nat) (x : PxEntry) (seq : Obj)
  | bad (t : Trap)
  /-- A replica that it reads is locked (R57), or an earlier request of its context to the elements that it reads is on its way (R299). -/
  | wait

/-- Whether a lock keeps reads of an object of this package away (R57). -/
def Obj.lockedHere (s : State) (o : Obj) : Bool := o.locks.any (fun k => k.1 == s.package.toNat || k.1 == o.home)

/-- Looks for the longest match among (count, entry number) pairs in the order of R335; stale entries go. An object whose `ERR` is 1
faults (R49). A pin count at 65,535, that of the sequence or of the entry, faults BOUNDS as SQPIN's does (DESIGN CHOICE, log 118). -/
def pxSearch (w : EngRef) (s : State) (m part : Nat) (pins : Nat) (tokens : List (BitVec 32)) (hs : List (BitVec 32)) : List (Nat × Nat) → State × Found
  | [] => (s, .none)
  | (c, n) :: rest =>
    match (s.mere m).px.find? (fun x => x.num == n && x.part == part && x.count == c && some x.key == hs[c - 1]?) with
    | none => pxSearch w s m part pins tokens hs rest
    | some x =>
      match s.live? x.seqH, s.live? x.tokH with
      | some sq, some tk =>
        if !tk.e.grants .read then (s, .bad { code := .rights, handle := x.tokH })
        else if tk.lockedHere s || s.clashes w (s.tid w) (fun _ => true) ⟨[x.tokH], List.replicate 4 (0, 2 ^ 64)⟩ then (s, .wait)
        else match (s.needSound tk).bind (fun _ => s.words tk (16 * c)) with
          | .error t => (s, .bad t)
          | .ok ws =>
            if ws ≠ tokens.take (16 * c) then pxSearch w s m part pins tokens hs rest
            else if !sq.e.grants .pin then (s, .bad { code := .rights, handle := x.seqH })
            else if 16 ≤ pins ∨ 65535 ≤ sq.e.pinCnt ∨ x.pins = 0xFFFF then (s, .bad { code := .bounds, handle := x.seqH })
            else match s.needSound sq with
              | .error t => (s, .bad t)
              | .ok _ => (s, .hit c x sq)
      | _, _ =>
        let s := s.setMere m { s.mere m with px := (s.mere m).px.filter (fun y => y.num != n) }
        pxSearch w s m part pins tokens hs rest

def execPxfind (dp : Dep) (d a b : BitVec 6) (e : BitVec 5) (s : State) : Host.Outcome State Fault Refusal :=
  issue dp (some .l) 2 2 (needTiles [b.toNat]) (interlock [d, a] (fun w s =>
    if s.handleBusy w e.toNat || s.unresolved w (s.tid w) (fun _ => true) then .stall .other
    else withTask w s (fun t =>
      readTile w s b.toNat (fun x =>
        let j := (s.sval w dp a).toNat
        if 65535 < j ∨ x.size < 64 * j then .trap { code := .bounds, info := BitVec.ofNat 64 (x.size / 4), uclass := .tile, unit := b.toNat }
        else if s.tileLate w b.toNat [(0, 64 * j)] then .stall .other
        else
          let m := mereOf w.core
          let tokens := tokensAt s w.core x 0 (16 * j)
          let hs := hashes 0 1 ((List.range j).map (fun i => (tokens.drop (16 * i)).take 16))
          let order := ((List.range j).reverse).flatMap (fun c => (List.range 64).map (fun n => (c + 1, n)))
          match pxSearch w s m t.part t.pins.length tokens hs order with
          | (s', .bad tr) => .trapKeep s' tr
          | (s', .wait) => .stallKeep s' .other
          | (s', .none) => homeReq (s'.touchTile w.core b.toNat [(0, 64 * j)]) (some (d.toNat, 0)) (some (e.toNat, {}))
          | (s', .hit c px sq) =>
            let s' := ((s'.touchTile w.core b.toNat [(0, 64 * j)]).putObj (sq.pinBlocks 0 c)).addPin w ⟨sq.home, sq.num, sq.e.gen, 0, c, some (m, px.id)⟩
            let y := s'.mere m
            let s' := s'.setMere m { y with
              pxStamp := y.pxStamp + 1
              px := y.px.map (fun z => if z.id == px.id then { z with pins := z.pins + 1, stamp := y.pxStamp + 1 } else z) }
            let sq' := (s'.live? px.seqH).getD sq
            homeReq s' (some (d.toNat, BitVec.ofNat 64 c)) (some (e.toNat, { h := px.seqH, e := sq'.e })))))) s

/-- The place of a new entry (R87, R357): a free number within the quota, or the partition's unpinned entry with the oldest stamp. -/
def pxPlace (px : List PxEntry) (part quota : Nat) : Option Nat :=
  let mine := px.filter (fun x => x.part == part)
  let free := (List.range 64).find? (fun n => !px.any (fun x => x.num == n))
  let oldest := (mine.filter (fun x => x.pins == 0)).foldl (fun (m : Option PxEntry) x =>
    match m with | some y => if x.stamp.toNat < y.stamp.toNat then some x else some y | none => some x) none
  match free, oldest with
  | some n, some x => some (if mine.length < quota then n else x.num)
  | some n, none => if mine.length < quota then some n else none
  | none, some x => some x.num
  | none, none => none

/-- The checks of PXINS on its two objects, each rank of R67 and R275 over both before the next; an object whose home cannot be reached is
asked nothing, and faults last (R477). -/
def pxObjects (h : BitVec 64) (c : Nat) (ra rb : Except Trap Obj) : Except Trap (Obj × Obj) := do
  let early (r : Except Trap Obj) : Except Trap Unit := match r with
    | .error t => need (t.code == .missingObject) t
    | .ok _ => .ok ()
  let on (r : Except Trap Obj) (k : Obj → Except Trap Unit) : Except Trap Unit := match r with
    | .ok o => k o
    | .error _ => .ok ()
  early ra
  early rb
  on ra (fun o => o.needType [.sequence])
  on rb (fun k => need (k.e.typ == .tensor && k.e.fmt == 8) { code := .objType, handle := k.handle })
  on ra (fun o => o.needRights [.read])
  on rb (fun k => k.needRights [.read])
  need (decide (1 ≤ c ∧ c ≤ 65535)) { code := .bounds, handle := h }
  on ra (fun o => need (decide (16 * c ≤ o.val)) { code := .bounds, handle := o.handle, info := o.e.value })
  on rb (fun k => need (decide (16 * c ≤ k.e.elems)) { code := .bounds, handle := k.handle, info := BitVec.ofNat 64 k.e.elems })
  let o ← ra
  let k ← rb
  return (o, k)

def execPxins (dp : Dep) (d : BitVec 6) (a b : BitVec 5) (j k : BitVec 6) (s : State) : Host.Outcome State Fault Refusal :=
  issue dp (some .l) 2 2 noPre (interlock [d, j, k] (onHandle [a, b] (inOrder (fun w s => withTask w s (fun t => Act.of do
    let c := (s.sval w dp j).toNat
    let key := (s.sval w dp k).extractLsb' 0 32
    let (o, tk) ← pxObjects (s.hreg w a).h c (s.resolve t.part (s.hreg w a).h) (s.resolve t.part (s.hreg w b).h)
    s.needSound o
    s.needSound tk
    let m := mereOf w.core
    let y := s.mere m
    let quota := match s.part? t.part with | some p => p.cfg.pxQuota | none => 0
    match y.px.find? (fun x => x.part == t.part && x.key == key && x.count == c && x.seqH == o.handle) with
    | some x =>
      let s := s.setMere m { y with pxStamp := y.pxStamp + 1, px := y.px.map (fun z => if z.id == x.id then { z with stamp := y.pxStamp + 1 } else z) }
      return homeReq s (some (d.toNat, BitVec.ofNat 64 x.num)) none
    | none =>
      match pxPlace y.px t.part quota with
      | none => return homeReq s (some (d.toNat, BitVec.allOnes 64)) none
      | some n =>
        let (id, s) := s.freshId
        let x : PxEntry := { num := n, id := id, part := t.part, key := key, count := c, seqH := o.handle, tokH := tk.handle, pins := 0, stamp := y.pxStamp + 1 }
        let s := s.setMere m { s.mere m with pxStamp := y.pxStamp + 1, px := y.px.filter (fun z => z.num != n) ++ [x] }
        return homeReq s (some (d.toNat, BitVec.ofNat 64 n)) none))))) s

def execPxdel (dp : Dep) (d a b : BitVec 6) (s : State) : Host.Outcome State Fault Refusal :=
  issue dp (some .l) 2 2 noPre (interlock [d, a, b] (fun w s =>
    let m := mereOf w.core
    let y := s.mere m
    let hit (x : PxEntry) : Bool := x.part == s.partOf w && x.key == (s.sval w dp a).extractLsb' 0 32 && decide (x.count = (s.sval w dp b).toNat)
    homeReq (s.setMere m { y with px := y.px.filter (fun x => !hit x) }) (some (d.toNat, BitVec.ofNat 64 (y.px.filter hit).length)) none)) s

/-! ### Codebook banks (R338 to R343) -/

/-- CBSET of a variant (R341). -/
def cbsetOp (dp : Dep) (fmt : BitVec 3) (d : BitVec 3) (a b : BitVec 6) (s : State) : Host.Outcome State Fault Refusal :=
  issue dp (some .l) 1 1 (needBank d.toNat) (interlock [a, b] (fun w s =>
    let x := (s.core w.core).bank d.toNat
    let i := (s.sval w dp b).toNat
    if 256 ≤ i then .trap { code := .bounds, info := s.sval w dp b, uclass := .bank, unit := d.toNat }
    else if x.st = .filling ∨ s.bankBusy w.core d.toNat then .stall .other
    else
      let fresh := decide (x.st = .empty ∨ x.fmt ≠ fmt)
      let old := if fresh then 0 else x.bits
      let v : BitVec 8192 := ((s.sval w dp a).extractLsb' 0 32).zeroExtend 8192
      let bits := (old &&& ~~~(((BitVec.allOnes 32).zeroExtend 8192) <<< (32 * i))) ||| (v <<< (32 * i))
      let count := if fresh then i + 1 else max x.count (i + 1)
      .done (s.modCore w.core (fun c => c.setBank d.toNat { x with bits := bits, st := .ready, fmt := fmt, count := count, pending := none, written := true })))) s

def execCbsetF32 (dp : Dep) (d : BitVec 3) (a b : BitVec 6) (s : State) : Host.Outcome State Fault Refusal := cbsetOp dp 0 d a b s
def execCbsetBf16 (dp : Dep) (d : BitVec 3) (a b : BitVec 6) (s : State) : Host.Outcome State Fault Refusal := cbsetOp dp 1 d a b s
def execCbsetF16 (dp : Dep) (d : BitVec 3) (a b : BitVec 6) (s : State) : Host.Outcome State Fault Refusal := cbsetOp dp 2 d a b s
def execCbsetE4m3 (dp : Dep) (d : BitVec 3) (a b : BitVec 6) (s : State) : Host.Outcome State Fault Refusal := cbsetOp dp 3 d a b s
def execCbsetE5m2 (dp : Dep) (d : BitVec 3) (a b : BitVec 6) (s : State) : Host.Outcome State Fault Refusal := cbsetOp dp 4 d a b s

def execCbinv (dp : Dep) (d : BitVec 3) (s : State) : Host.Outcome State Fault Refusal :=
  issue dp (some .l) 1 1 (needBank d.toNat) (fun w s =>
    let x := (s.core w.core).bank d.toNat
    if x.st = .filling ∨ s.bankBusy w.core d.toNat then .stall .other
    else .done ((s.unbindRequest x.source).modCore w.core (fun c => c.setBank d.toNat {}))) s

/-! ### Bank transforms (R181 to R183, R345, R346) -/

/-- The 256 words of a bank matrix, word (q, w) at index 16 q + w (R181). -/
def matrixWords (s : State) (base : Nat) : List (List Byte) :=
  (List.range 256).map (fun j => s.bytes (base + 1024 * (j / 16) + 4 * (j % 16)) 4)

/-- The digits of a word number, reversed: `n` digits of base `2 ^ k`. -/
def revDigits (k : Nat) : Nat → Nat → Nat
  | 0, _ => 0
  | n + 1, j => (j % 2 ^ k) * 2 ^ (k * n) + revDigits k n (j / 2 ^ k)

/-- Where word `j` of a matrix comes from under a command (R182); `none`: it becomes 0. -/
def bankSource (cmd j : Nat) : Option Nat :=
  let q := j / 16
  let w := j % 16
  match cmd with
  | 0 => none
  | 1 => some (16 * w + q)
  | 2 => some (revDigits 1 8 j)
  | 3 => some (revDigits 2 4 j)
  | 4 => some (16 * q + Nat.xor w q)
  -- BLK exchanges two 2-bit digits of the word number, so that it is its own inverse
  | _ => some (16 * (4 * (q / 4) + w / 4) + (4 * (q % 4) + w % 4))

/-- A command on the bank matrix at an address (R182, R183). -/
def bankCommand (s : State) (cmd base : Nat) : State :=
  let ws := matrixWords s base
  (List.range 256).foldl (fun s j =>
    s.store (base + 1024 * (j / 16) + 4 * (j % 16)) (match bankSource cmd j with | some k => ws.getD k [] | none => [0, 0, 0, 0])) s

/-- The offsets of the `m` matrices of a base (R346). -/
def matrixOffs (base m : Nat) : List Nat := (List.range m).map (fun i => base + 64 * (i % 16) + 16384 * (i / 16))

/-- Whether a slice offset may be a base of bank matrices (R346). -/
def baseOk (o : Nat) : Bool := decide (o % 64 = 0 ∧ o / 1024 % 16 = 0)

/-- The 64 KiB pages of storage that matrices at these offsets lie in. -/
def matrixPages (offs : List Nat) : List Nat := (offs.flatMap (fun o => [o / 65536, (o + 15 * 1024 + 63) / 65536])).eraseDups

def execBkx (dp : Dep) (t : BitVec 6) (cmd : BitVec 4) (i0 i1 : BitVec 6) (s : State) : Host.Outcome State Fault Refusal :=
  issue dp (some .l) 4 2 (needTiles [t.toNat]) (interlock [i0, i1] (fun w s =>
    let x := (s.core w.core).tile t.toNat
    let base := x.off + (s.sval w dp i0).toNat
    let m := (s.sval w dp i1).toNat
    let offs := matrixOffs base (min m 256)
    if m ≠ 0 ∧ (256 < m ∨ !baseOk base ∨ offs.any (fun o => decide (x.off + x.size < o + 15 * 1024 + 64))) then
      .trap { code := .copyGeom, uclass := .tile, unit := t.toNat }
    else match tileWrite x t.toNat with
      | some a => a
      | none =>
        if m = 0 then .done s
        else if s.atLimit w || s.tileRead? w.core t.toNat then .stall .other
        else match (if cmd.toNat = 0 then none else eccTile w s w.core t.toNat) with
        | some a => a
        | none =>
          let (id, s) := s.freshId
          .pend ((s.touch w.core (offs.flatMap matrixRows)).modCore w.core (fun c => c.setTile t.toNat { x with st := .filling })) id
            (.bank cmd (offs.map (sliceAddr w.core)) (some (t.toNat, x.epoch)) 0))) s

/-- The package whose slices a handle form of BKX acts on: the home, or of a sharded object this one where it holds a shard and else that of
shard 0 (DESIGN CHOICE, log 149). -/
def Obj.bankPkg (s : State) (o : Obj) : Nat :=
  if o.e.shmode = 0 then o.home
  else if o.e.shbase.toNat ≤ s.package.toNat ∧ s.package.toNat < o.e.shbase.toNat + o.e.shards then s.package.toNat
  else o.e.shbase.toNat

/-- Whether the object of a handle form has storage in slices that the base of the matrices does not suit (R346, R353); the check passes
when its entry cannot be supplied. -/
def State.badBase (s : State) (p : Nat) (h : BitVec 64) (base : Nat) : Bool :=
  match s.resolve p h with
  | .ok o => (match findMap o.maps (o.bankPkg s) .current with | some (.slices b) => !baseOk (b.toNat + base) | _ => false)
  | .error _ => false

/-- The handle form of BKX. The addresses of its matrices are settled at issue: words that a PUB finds still on their way land in the version
that it makes current, never in the next working copy (DESIGN CHOICE, log 41). Of a versioned object the base must suit the storage of the
current version at the issue checks and that of the working copy once it resolves (DESIGN CHOICE, log 149). -/
def execBkxHandle (dp : Dep) (h : BitVec 5) (cmd : BitVec 4) (i0 i1 : BitVec 6) (_sc : BitVec 3) (s : State) : Host.Outcome State Fault Refusal :=
  issue dp (some .l) 4 2 noPre (interlock [i0, i1] (onHandle [h] (fun w s => withTask w s (fun t =>
    let m := (s.sval w dp i1).toNat
    let base := (s.sval w dp i0).toNat
    -- the issue checks come first, then the waits, then the resolution (R353)
    if 256 < m ∨ (m ≠ 0 ∧ s.badBase t.part (s.hreg w h).h base) then .trap { code := .copyGeom, handle := (s.hreg w h).h }
    else if (m ≠ 0 ∧ s.atLimit w) ∨ s.unresolved w t.tid (fun _ => true) then .stall .other
    else Act.of do
      let o ← s.resolve t.part (s.hreg w h).h
      o.needType [.tensor]
      o.needRights [.write]
      need (!o.e.rwin) { code := .rights, handle := o.handle }
      let q := o.bankPkg s
      let offs := matrixOffs base m
      match offs.find? (fun x => decide (o.e.storageBytes (o.e.shardOn q) < x + 15 * 1024 + 64)) with
      | some x => throw { code := .bounds, handle := o.handle, info := BitVec.ofNat 64 (x * 8 / max o.e.w 1) }
      | none => pure ()
      s.needSound o (base / 65536)
      match findMap o.maps q .current with
      | some (.slices _) =>
        if m = 0 then return homeReq s none none
        else
          -- storage of its own at every copy that the commands reach (R56, R61)
          let (s, o) ← s.own o (((if o.e.shmode = 0 then o.home :: o.e.replicas else [q]).eraseDups).flatMap (fun q => (matrixPages offs).map (fun u => (q, u))))
          match findMap o.maps q (if o.e.wmode then .working else .current) with
          | some (.slices b) => do
            need (baseOk (b.toNat + base)) { code := .copyGeom, handle := o.handle }
            let (id, s) := s.freshId
            return .pend s id (.bank cmd (offs.map (fun x => s.phys q (b.toNat + x))) none o.handle)
          | _ => throw (s.missing o .working (base / 65536))
      | _ => throw (s.missing o .current (base / 65536)))))) s

/-- The object of a handle form's commands. -/
def State.bankObj (s : State) (h : BitVec 64) : Option Obj := if h = 0 then none else s.live? h

/-- A command at the home's bank, with the views marked (R59, R183); `pkgs` are the replicas updated with it (R56). -/
def State.bankServe (s : State) (cmd base : Nat) (h : BitVec 64) (pkgs : List Nat) : State :=
  let s := bankCommand s cmd base
  match s.bankObj h with
  | none => s
  | some o =>
    -- the version whose slices of the home hold the matrix
    let hit := o.maps.findSome? (fun m => match m.2.2 with
      | .slices b => if m.1 = o.home ∧ s.phys o.home b.toNat ≤ base ∧ base < s.phys o.home b.toNat + o.e.storageBytes 0 then some (m.2.1, b) else none
      | _ => none)
    let s := match hit with
      | some (ver, b) => pkgs.foldl (fun s q => match findMap o.maps q ver with
        | some l => (List.range 1024).foldl (fun s k =>
            let at_ := 1024 * (k / 64) + k % 64
            match l.at s q o.e (base - s.phys o.home b.toNat + at_) with
            | .ok a => s.store a [memByte s.mem (base + at_)]
            | .error _ => s) s
        | none => s) s
      | none => s
    s.staleViews o.home o.num o.e.gen

/-- Moves an operation past the command it has been served: the last one completes it and makes its tile READY (R298, R345). -/
def State.bankNext (s : State) (o : Op) (cmd : BitVec 4) (rest : List Nat) (t : Option (Nat × Nat)) (h : BitVec 64) : State :=
  if !rest.isEmpty then s.putOp { o with kind := .bank cmd rest t h }
  else
    let s := match t with
      | some (i, ep) => if ((s.core o.who.core).tile i).epoch = ep ∧ s.alive o then
          s.modCore o.who.core (fun c => c.setTile i { c.tile i with st := .ready }) else s
      | none => s
    s.finish o

/-- A bank command that meets a word of its tile with an uncorrectable error poisons the tile and ends the operation (R443). -/
def State.poisonBank (s : State) (o : Op) (i ep : Nat) : State :=
  let x := (s.core o.who.core).tile i
  let here := x.epoch == ep && s.alive o
  let r := o.poisonRec { code := .eccUncorr } .tile i (!here)
  let s := if here then
      (s.unbindRequest x.replay).modCore o.who.core (fun c => c.setTile i { x with st := .poisoned, fault := some r, replay := none })
    else s
  (s.emit (mereOf o.who.core) r).finish o
/-- Whether a command reads a word of a bank matrix that has an uncorrectable error: ZERO reads none. -/
def State.badMatrix (s : State) (cmd base : Nat) : Bool :=
  decide (cmd ≠ 0) && s.badWords.any (fun b => (matrixRows base).any (fun r => decide (r.1 < b + 8 ∧ b < r.2)))

/-- BANK_COMMAND_SERVED: the bank serves the operation's next command, in the order in which the streamer issued its requests; the last
one completes it (R183, R298). A command on a replicated object locks every copy first, and REPLICATED_COMMIT performs it (R56). A command of a tile poisons it
where it reads a word in error (R443). -/
def execBankCommandServed (op : Nat) (s : State) : Host.Outcome State Fault Refusal :=
  match s.op? op with
  | some o => (match o.kind with
    | .bank cmd (a :: rest) t h =>
      if decide (0 < o.left) || s.streamFrozen o || s.heldBack o || s.bankOrder o || s.unresolved o.who o.tid (fun x => decide (x.id < o.id)) then .next s
      else
        let dead := match t with | some _ => !s.alive o | none => false
        (match s.bankObj h with
        | some x =>
          if !x.locks.isEmpty then .next s
          else if x.e.repn ≠ 0 ∧ x.e.shmode = 0 then
            .next (s.modObj x.home x.num (fun x => { x with locks := (x.home :: x.e.replicas).eraseDups.map (fun q => (q, o.id)) }))
          else .next ((s.bankServe cmd.toNat a h []).bankNext o cmd rest t h)
        | none =>
          match t.filter (fun _ => !dead && s.badMatrix cmd.toNat a) with
          | some (i, ep) => .next (s.poisonBank o i ep)
          | none => .next ((if dead then s else bankCommand s cmd.toNat a).bankNext o cmd rest t h))
    | _ => .next s)
  | none => .next s

/-- REPLICATED_COMMIT of a bank command that holds its locks. -/
def bankCommit (op : Nat) (s : State) : State :=
  match s.op? op with
  | some o => (match o.kind with
    | .bank cmd (a :: rest) t h =>
      (match s.bankObj h with
      | some x =>
        let pkgs := s.lockedBy x.home x.num o.id
        if pkgs.isEmpty || pkgs.any s.away then s
        else ((s.bankServe cmd.toNat a h (pkgs.filter (fun q => q != x.home))).unlock x.home x.num o.id).bankNext o cmd rest t h
      | none => s)
    | _ => s)
  | none => s

/-! ### Atomics (R209, R210, R347, R348) -/

/-- Smaller or larger of two FP32 values: -0 below +0, a NaN gives the canonical NaN (R98, R348). -/
def fpPick (larger : Bool) (x v : BitVec 32) : BitVec 32 :=
  let F := numFmt 0
  let a := decodeVal F x.toNat
  let b := decodeVal F v.toNat
  if a.isNan || b.isNan then BitVec.ofNat 32 (nanCode F)
  else if larger then (if a.lt b then v else x) else (if b.lt a then v else x)

/-- The new value of an atomic, or none where a compare fails. -/
def AtomKind.apply (k : AtomKind) (int : Bool) (x v : BitVec 32) : Option (BitVec 32) :=
  match k with
  | .add => some (BitVec.ofNat 32 (reduceOne int x.toNat v.toNat))
  | .min => some (if int then (if v.slt x then v else x) else fpPick false x v)
  | .max => some (if int then (if x.slt v then v else x) else fpPick true x v)
  | .xch => some v
  | .cas n => if x = v then some n else none

/-- Where an atomic on an element acts: its home's storage first, then every replica's, given storage of their own (R56, R61). -/
def State.atomPlace (s : State) (o : Obj) (n : Nat) : Except Trap (State × Resolved) := do
  let e := o.e
  let sp := e.spot (e.unlinear n)
  let qs := o.pkgs s true sp.shard
  let offs := [e.byteOff sp 0]
  let ver := fun (o : Obj) => if o.e.wmode && o.maps.any (fun m => m.2.1 == .working) then Ver.working else Ver.current
  let _ ← s.locate o (ver o) offs qs
  let (s, o) ← s.own o (qs.flatMap (fun q => (e.units offs).map (fun u => (q, u))))
  let maps ← s.locate o (ver o) offs qs
  return (s, { home := o.home, num := o.num, e := o.e, maps := maps, work := o.e.wmode })

/-- Performs an atomic where it acts: the state after its write, and the old value (R209, R348). -/
def State.performAtom (s : State) (r : Resolved) (n : Nat) (k : AtomKind) (v : BitVec 32) : State × BitVec 32 :=
  match r.maps with
  | [] => (s, 0)
  | (q, l) :: _ =>
    let sp := r.e.spot (r.e.unlinear n)
    let x := BitVec.ofNat 32 (readBits s q r.e l sp 32)
    match k.apply (r.e.fmt == 8) x v with
    | none => (s, x)
    | some y => ((r.maps.foldl (fun s m => writeBits s m.1 r.e m.2 sp 32 y.toNat) s).staleViews r.home r.num r.e.gen, x)

/-- An atomic at its home, in one step: the old value, and the state after its write. -/
def State.atomic (s : State) (o : Obj) (n : Nat) (k : AtomKind) (v : BitVec 32) : Except Trap (State × BitVec 32) := do
  let (s, r) ← s.atomPlace o n
  return s.performAtom r n k v

/-- The old value as a scalar takes it (R348). -/
def oldValue (e : Entry) (x : BitVec 32) : BitVec 64 := if e.fmt = 8 then x.signExtend 64 else x.zeroExtend 64

/-- A physical address of a storage byte that R174 does not populate, at a copy of a resolution. -/
def Resolved.hole (r : Resolved) (s : State) (off : Nat) : Option Nat :=
  r.maps.findSome? (fun m => match m.2.at s m.1 r.e off with | .ok a => if populated a then none else some a | .error _ => none)

/-- An atomic instruction. -/
def atomOp (dp : Dep) (q : AtomArgs) (rs : List (BitVec 6)) (k : EngRef → State → AtomKind) (s : State) : Host.Outcome State Fault Refusal :=
  let sc := decide (q.ord = 4)
  issue dp (some .l) (if q.ord = 4 then 7 else 0) 2 noPre (interlock (q.d :: q.i0 :: q.i1 :: rs) (onHandle [q.h] (inOrder (fun w s => withTask w s (fun t => Act.of do
    let o ← s.resolve t.part (s.hreg w q.h).h
    need (o.e.typ == .tensor && (o.e.fmt == 8 || o.e.fmt == 0) && o.e.scfmt == 0) { code := .objType, handle := o.handle }
    o.needRights (if q.d = 0 then [.write] else [.write, .read])
    need (!o.e.rwin) { code := .rights, handle := o.handle }
    if sc then o.needLocal s
    let n := (s.sval w dp q.i0).toNat
    need (decide (n < o.e.elems)) { code := .bounds, handle := o.handle, info := BitVec.ofNat 64 n }
    let at_ := o.e.unlinear n
    s.needSound o (((o.e.units [o.e.byteOff (o.e.spot at_) 0]).head?).getD 0)
    -- a release comes after the engine's earlier accesses (R194, R196, R210)
    let releases := decide (q.ord = 2 ∨ q.ord = 3 ∨ q.ord = 4)
    if !o.locks.isEmpty || s.clashes w t.tid (fun _ => true) ⟨[o.handle], atBox at_⟩ || (releases && s.accessesLeft w t.tid (fun _ => true)) then
      return .stall .other
    else
      let v := (s.sval w dp q.i1).extractLsb' 0 32
      let (s', r) ← s.atomPlace o n
      match r.hole s' (r.e.byteOff (r.e.spot at_) 0) with
      | some a => return .stop (.unpopulated a)
      | none =>
        -- an SC access completes before its engine issues again (R203)
        if sc then return wheel w s (fun u => match u.atomic o n (k w s) v with
          | .ok (u, x) => .done (if q.d = 0 then u else u.setS w q.d (oldValue o.e x))
          | .error t => .trap t)
        else if 1 < r.maps.length then
          -- the home locks every copy, and REPLICATED_COMMIT performs it (R56)
          let (id, s') := s'.freshId
          return .pend (s'.lock r id) id (.update r (.atom n (k w s) v (if q.d = 0 then none else some q.d.toNat)))
        else
          let (s', x) := s'.performAtom r n (k w s) v
          return homeReq s' (if q.d = 0 then none else some (q.d.toNat, oldValue o.e x)) none))))) s

def execAadd (dp : Dep) (q : AtomArgs) (s : State) : Host.Outcome State Fault Refusal := atomOp dp q [] (fun _ _ => .add) s
def execAmin (dp : Dep) (q : AtomArgs) (s : State) : Host.Outcome State Fault Refusal := atomOp dp q [] (fun _ _ => .min) s
def execAmax (dp : Dep) (q : AtomArgs) (s : State) : Host.Outcome State Fault Refusal := atomOp dp q [] (fun _ _ => .max) s
def execAxch (dp : Dep) (q : AtomArgs) (s : State) : Host.Outcome State Fault Refusal := atomOp dp q [] (fun _ _ => .xch) s
def execAcas (dp : Dep) (q : AtomArgs) (i2 : BitVec 6) (_ford : BitVec 3) (s : State) : Host.Outcome State Fault Refusal :=
  atomOp dp q [i2] (fun w s => .cas ((s.sval w dp i2).extractLsb' 0 32)) s

/-! ### Updates of replicated objects by atomics, windows and other packages (R56, R57) -/

/-- Stores storage bytes at every copy of an object, and marks its views (R59). -/
def State.storeRaw (s : State) (o : Obj) (ms : List (Nat × Layout)) (off : Nat) (bs : List Byte) : State :=
  let s := ms.foldl (fun s m => (bs.zipIdx).foldl (fun s b =>
    match m.2.at s m.1 o.e (off + b.2) with | .ok a => s.store a [b.1] | .error _ => s) s) s
  let stale (o : Obj) : Obj := o.mod (fun e => { e with altStale := true })
  if o.e.altObj = 0 then s else (s.modObj o.home o.num stale).modObj o.home o.e.altObj stale

/-- Answers another package. -/
def State.answer (s : State) (src : BitVec 10) (bytes : List Byte) : State := { s with sent := s.sent ++ [.peerData src bytes] }

/-- An update that no engine issued begins: the home locks every copy (R56). -/
def State.startUpdate (s : State) (r : Resolved) (u : Update) : State :=
  let (id, s) := s.freshId
  (s.lock r id).addOp { id := id, who := ⟨0, false, .c⟩, tid := id, part := r.e.part.toNat, launch := id, node := 0xFFFF, swt := 1, pc := 0, word0 := 0
                        word1 := 0, sp := false, sn := false, left := 0, kind := .update r u }

/-- An update takes effect at the copies that its home still locks; an atomic's destination is then written by, and a PUB completes by,
HOME_REQUEST_COMPLETION. -/
def State.performUpdate (s : State) (o : Op) (r : Resolved) (u : Update) : State :=
  match u with
  | .atom n k v dst =>
    let (s, x) := s.performAtom r n k v
    s.putOp { o with kind := .home (dst.map (fun d => (d, oldValue r.e x))) none }
  | .peerAtom n k v src answers =>
    let (s, x) := s.performAtom r n k v
    (s.answer src (if answers then leBytes 4 x.toNat else [])).dropOp o.id
  | .raw off bs src =>
    let s := (s.storeRaw { home := r.home, num := r.num, e := r.e } r.maps off bs).dropOp o.id
    match src with | some p => s.answer p [] | none => s
  | .pub =>
    let s := match s.obj? r.home r.num with | some x => if x.e.gen = r.e.gen then s.publish x else s | none => s
    s.putOp { o with kind := .home none none }

/-- An update whose home can no longer be reached ends without effect: an atomic with a POISON record that names no unit, its destination
as it was (R477; DESIGN CHOICE, log 139). -/
def State.failUpdate (s : State) (o : Op) (r : Resolved) : State :=
  if s.alive o then (s.emit (mereOf o.who.core) (o.poisonRec (trapAway r.handle) .none 0 false)).finish o else s.dropOp o.id

/-- REPLICATED_COMMIT of such an update: it waits for every copy that is locked, and the locks are then released. -/
def commitUpdate (s : State) (o : Op) (r : Resolved) (u : Update) : State :=
  let pkgs : List Nat := match s.obj? r.home r.num with
    | some x => if x.e.gen = r.e.gen then s.lockedBy r.home r.num o.id else r.maps.map (fun m => m.1)
    | none => r.maps.map (fun m => m.1)
  if s.away r.home then (s.unlock r.home r.num o.id).failUpdate o r
  else if pkgs.any s.away then s
  else (s.performUpdate o { r with maps := r.maps.filter (fun m => pkgs.contains m.1) } u).unlock r.home r.num o.id

/-- REPLICATED_COMMIT: an update that holds its locks is made at every copy, and the locks are released (R56). -/
def execReplicatedCommit (op : Nat) (s : State) : Host.Outcome State Fault Refusal :=
  match s.op? op with
  | some o => (match o.kind with
    | .bank _ _ _ _ => .next (bankCommit op s)
    | .update r u => .next (commitUpdate s o r u)
    | _ => commitCopy op s)
  | none => .next s

/-! ### Key-value commands (R350, R351, R479) -/

/-- The namespace slot of a partition that a COUNTER's handle names, if the binding is in force. -/
def Part.nsSlot (p : Part) (h : BitVec 64) : Option Nat := (List.range 64).find? (fun n => match p.ns.toList[n]? with | some x => x.bound && !x.unbinding && x.bobj == h | none => false)

/-- A key-value command: `reads` for KVPUT's tile, `writes` for the tile of KVGET and KVLIST. -/
def kvOp (dp : Dep) (q : KvArgs) (cmd : KvCmd) (tile reads : Bool) (rights : List Right) (s : State) : Host.Outcome State Fault Refusal :=
  let t := q.t.toNat
  issue dp (some .l) 3 2 (if tile then needTiles [t] else noPre) (interlock [q.i0, q.i1, q.i2, q.st] (onHandle [q.h] (fun w s => withTask w s (fun k =>
    let x := (s.core w.core).tile t
    match (if !tile then none else if reads then tileRead x t else tileWrite x t) with
    | some a => a
    | none =>
      let flying := (s.ops.filter (fun o => match o.kind with | .kv c => c.part == k.part | _ => false)).length
      let n := (s.sval w dp q.i0).toNat
      if s.atLimit w || decide (256 ≤ flying) || (tile && !reads && s.tileRead? w.core t) || (tile && reads && s.tileLate w t [(0, min n x.size)]) ||
        s.unresolved w k.tid (fun _ => true) then .stall .other
      else match (if tile && reads then eccTile w s w.core t else none) with
      | some a => a
      | none => Act.of do
        let o ← s.resolve k.part (s.hreg w q.h).h
        let p := s.part? k.part
        match p.bind (fun p => p.nsSlot o.handle) with
        | none => throw { code := .objType, handle := o.handle }
        | some slot =>
          need (o.e.typ == .counter) { code := .objType, handle := o.handle }
          o.needRights rights
          need (!tile || (decide (n ≤ x.size) && (cmd != .put || decide (n ≠ 0)))) { code := .bounds, handle := o.handle, uclass := .tile, unit := t }
          s.needSound o
          let key := (leBytes 8 (s.sval w dp q.i1).toNat ++ leBytes 8 (s.sval w dp q.i2).toNat).take (q.klen.toNat + 1)
          let data := if cmd = .put then s.tileBytes w.core x 0 n else []
          let (id, s) := s.freshId
          let s := if tile then
              (s.touchTile w.core t [(0, n)]).modCore w.core (fun c => c.setTile t { x with st := if reads then .draining else .filling })
            else s
          let s := { s with sent := s.sent ++ [.kvCommand id] }
          return .pend s id (.kv { cmd := cmd, part := k.part, slot := slot, counter := o.handle, tile := t, epoch := x.epoch, off := x.off, swz := x.swz
                                   max := n, st := if q.st = 0 then none else some q.st.toNat, key := key, data := data }))))) s

def execKvput (dp : Dep) (q : KvArgs) (s : State) : Host.Outcome State Fault Refusal := kvOp dp q .put true true [.write] s
def execKvget (dp : Dep) (q : KvArgs) (s : State) : Host.Outcome State Fault Refusal := kvOp dp q .get true false [.read] s
def execKvdel (dp : Dep) (q : KvArgs) (s : State) : Host.Outcome State Fault Refusal := kvOp dp q .del false false [.write] s
def execKvexist (dp : Dep) (q : KvArgs) (s : State) : Host.Outcome State Fault Refusal := kvOp dp q .exist false false [.read] s
def execKvlist (dp : Dep) (q : KvArgs) (s : State) : Host.Outcome State Fault Refusal := kvOp dp q .list true false [.read] s

/-! ### Residency hints (R352) -/

/-- A hint: its checks, and no effect that a program could rely on. -/
def hintOp (dp : Dep) (q : CopyArgs) (s : State) : Host.Outcome State Fault Refusal :=
  issue dp (some .l) 8 2 noPre (interlock [q.i0, q.i1, q.i2, q.i3] (onHandle [q.h] (fun w s =>
    match s.resolve (s.partOf w) (s.hreg w q.h).h with
    | .error t => if t.code = .missingObject then .done s else .trap t
    | .ok o => Act.of do
      o.needType [.tensor, .sequence]
      o.needRights [.read]
      return .done s))) s

def execPromo (dp : Dep) (q : CopyArgs) (_tier : BitVec 3) (s : State) : Host.Outcome State Fault Refusal := hintOp dp q s
def execDemo (dp : Dep) (q : CopyArgs) (_tier : BitVec 3) (s : State) : Host.Outcome State Fault Refusal := hintOp dp q s

def execLoopL (dp : Dep) (d : BitVec 6) (n : BitVec 14) (s : State) : Host.Outcome State Fault Refusal := loopOp dp .l d n s

/-! ### Completion at the home (R250, R298) -/

/-- HOME_REQUEST_COMPLETION: a destination is written and the signals are put. Loading a handle register releases the binding it
held (R303). -/
def execHomeRequestCompletion (op : Nat) (s : State) : Host.Outcome State Fault Refusal :=
  match s.op? op with
  | some o => (match o.kind with
    | .home d h =>
      if 0 < o.left then .next s
      else if !s.alive o then .next (s.finish o)
      else
        let s := match d with | some (r, v) => s.setS o.who (BitVec.ofNat 6 r) v | none => s
        let s := match h with
          | some (r, v) => (s.releaseHReg (s.hreg o.who (BitVec.ofNat 5 r))).setH o.who (BitVec.ofNat 5 r) v
          | none => s
        .next (s.finish o)
    | _ => .next s)
  | none => .next s

end Sys2Proof.Machine
end

