-- ==== Sys2Proof/Machine/Host.lean ====
section
/-! DEFINITION. The host's side: a partition's registers, launch queues, windows and their accesses, namespace bindings, connections
and key-value completions (R88 to R91, R351, R465 to R480, R484, R495). -/

namespace Sys2Proof.Machine

open Sys2Proof

/-! ### Features (R484, R485) -/

/-- A write of a word of `FEAT_ACCEPT`: taken in whole, or ignored in whole. -/
def Part.writeFeat (p : Part) (word : Nat) (val : BitVec 64) : Part :=
  let offered : BitVec 64 := if word = 0 then BitVec.ofNat 64 Config.featOffer else 0
  if p.flock ∨ val &&& ~~~offered ≠ 0 ∨ (word = 0 ∧ !val.getLsbD 0) then p
  else
    let mask : BitVec 256 := (BitVec.allOnes 64).zeroExtend 256 <<< (64 * word)
    { p with featAccept := (p.featAccept &&& ~~~mask) ||| (val.zeroExtend 256 <<< (64 * word)) }

def execFeatAccept (p : Nat) (word : BitVec 2) (val : BitVec 64) (s : State) : Host.Outcome State Fault Refusal :=
  .next (s.modPart p (fun x => x.writeFeat word.toNat val))
def execFlock (p : Nat) (s : State) : Host.Outcome State Fault Refusal := .next (s.modPart p (fun x => { x with flock := true }))

/-! ### Launch queues (R467) -/

/-- Records held from a queue that is bound anew stay with the walker. -/
def Part.detachQueue (p : Part) (i : Nat) : Part := { p with held := p.held.map (fun h => if h.1 = i then (9, h.2) else h) }

/-- Writes `LQH` and `LQCUR` of a queue. -/
def Part.setQueue (p : Part) (i : Nat) (h : BitVec 64) : Part :=
  { p.detachQueue i with
    lqh := p.lqh.set (i % 8) h (Nat.mod_lt _ (by decide))
    lqcur := if h = 0 then p.lqcur else p.lqcur.set (i % 8) 0 (Nat.mod_lt _ (by decide)) }

/-- A handle written to `LQH` i: bound, or refused. -/
def State.bindQueue (s : State) (p i : Nat) (h : BitVec 64) : State :=
  if h = 0 then s.modPart p (fun x => { x.setQueue i 0 with lqbad := false })
  else match s.resolve p h with
    | .ok o =>
      if o.e.typ = .sequence ∧ o.e.part.toNat = p ∧ o.e.grants .read ∧ o.e.rowb = 64 then
        s.modPart p (fun x => { x.setQueue i h with lqbad := false })
      else s.modPart p (fun x => { x.setQueue i 0 with lqbad := true })
    | .error _ => s.modPart p (fun x => { x.setQueue i 0 with lqbad := true })

def execLaunchQueueBind (p : Nat) (i : BitVec 3) (hd : BitVec 64) (s : State) : Host.Outcome State Fault Refusal := .next (s.bindQueue p i.toNat hd)
def execLaunchQueueUnbind (p : Nat) (i : BitVec 3) (s : State) : Host.Outcome State Fault Refusal := .next (s.bindQueue p i.toNat 0)

/-! ### Edges (R466) -/

def execEdgeWrite (p : Nat) (i : BitVec 14) (val : BitVec 16) (s : State) : Host.Outcome State Fault Refusal :=
  .next (s.modPart p (fun x => { x with edges := upsert x.edges i.toNat val }))

/-! ### Windows (R88, R91, R470, R471, R495) -/

/-- A window of a partition. -/
def Part.win (p : Part) (w : BitVec 5) : Window := p.windows[w.toNat]'(bv5_lt w)
/-- Writes a window of a partition. -/
def State.setWin (s : State) (p : Nat) (w : BitVec 5) (x : Window) : State :=
  s.modPart p (fun y => { y with windows := y.windows.set w.toNat x (bv5_lt w) })
/-- `KIND` of `WCTL`. -/
def Window.kind (x : Window) : BitVec 2 := x.wctl.extractLsb' 0 2
/-- `RID` of `WCTL`. -/
def Window.rid (x : Window) : BitVec 16 := x.wctl.extractLsb' 48 16
/-- The implemented fields of a value written to `WCTL`. -/
def wctlOf (v : BitVec 64) : BitVec 64 := v &&& 0xFFFF00000000FF03#64

/-- Unbinds a window: what the binding holds is released, and its reservation is abandoned (R91, R471). -/
def State.unbindWin (s : State) (p : Nat) (w : BitVec 5) (x : Window) : State :=
  if !x.bound then s
  else
    let s := match x.kind.toNat with
      | 2 => (match x.bver with
        | some v => (s.modHandle x.bobj (fun o => o.unbind v)).sweep
        | none => (s.modHandle x.bobj (fun o => o.unpin)).sweep)
      | _ => s
    let s := s.setWin p w { x with bound := false, closed := false, bobj := 0, bver := none, slot := none }
    if x.slot.isSome then s.abandon p (.window p w.toNat) else s

/-- What a binding of an object would hold, or none where it is refused (R471). A `PIN_CNT` that is full refuses one that would pin (DESIGN
CHOICE, log 138). -/
def State.bindingOf (s : State) (p : Nat) (x : Window) (kind : Nat) : Option (State × Window) :=
  match s.resolve p x.wobj with
  | .error _ => none
  | .ok o =>
    if o.e.part.toNat ≠ p then none
    else match kind, o.e.typ with
      | 1, .sequence =>
        if o.e.grants .append ∧ o.e.capacity * o.e.rowb ≤ 2 ^ 34 then some (s, { x with wcur := BitVec.ofNat 64 (o.e.next.toNat * o.e.rowb) }) else none
      | 2, .tensor =>
        if !o.e.grants .pin ∨ 65535 ≤ o.e.pinCnt then none
        else if o.e.wmode then some (s.putObj (o.bind o.e.value), { x with bver := some o.e.value })
        else some (s.putObj o.pin, x)
      | 3, .counter => if o.e.grants .read then some (s, x) else none
      | _, _ => none

/-- A write of `WCTL` (R91, R471, R495). Without feature 9 a `KIND` of 01 or 11 is refused: a binding write that would keep or reopen the
binding leaves the window as it is, another one unbinds it first as any other does (DEDUCED, log 79). -/
def State.writeWctl (s : State) (p : Nat) (w : BitVec 5) (val : BitVec 64) : State :=
  match s.part? p with
  | none => s
  | some y =>
    let x := y.win w
    let v := wctlOf val
    let kind := (val.extractLsb' 0 2).toNat
    let same := decide (x.bound ∧ x.kind.toNat = kind ∧ x.wobj = x.bobj)
    if kind = 0 then
      let s := s.unbindWin p w x
      (match s.part? p with | some y => s.setWin p w { y.win w with wctl := v, closed := false } | none => s)
    else if same ∧ (!x.closed ∨ kind = 1) ∧ kind ≠ 2 ∧ !y.featAccept.getLsbD 9 then s.setWin p w { x with badbind := true }
    else if same ∧ x.closed ∧ kind = 1 then
      -- the cursor returns to byte 0 of the slot that the window still holds
      let cur := match x.slot, s.objOf? x.bobj with | some i, some o => BitVec.ofNat 64 (i * o.e.rowb) | _, _ => x.wcur
      s.setWin p w { x with wctl := v, closed := false, wcur := cur, badbind := false }
    else if same ∧ !x.closed then s.setWin p w { x with wctl := v, badbind := false }
    else
      let s := s.unbindWin p w x
      let x := match s.part? p with | some y => y.win w | none => x
      match (if kind ≠ 2 ∧ !y.featAccept.getLsbD 9 then none else s.bindingOf p x kind) with
      | some (s, x) => s.setWin p w { x with wctl := v, bound := true, badbind := false, bobj := x.wobj, closed := false, slot := none }
      | none => s.setWin p w { x with wctl := v, badbind := true, closed := false }

def execWindowBind (p : Nat) (w : BitVec 5) (val : BitVec 64) (s : State) : Host.Outcome State Fault Refusal := .next (s.writeWctl p w val)
def execWindowUnbind (p : Nat) (w : BitVec 5) (val : BitVec 64) (s : State) : Host.Outcome State Fault Refusal := .next (s.writeWctl p w val)
def execWindowReopen (p : Nat) (w : BitVec 5) (val : BitVec 64) (s : State) : Host.Outcome State Fault Refusal := .next (s.writeWctl p w val)
def execWindowRidChange (p : Nat) (w : BitVec 5) (val : BitVec 64) (s : State) : Host.Outcome State Fault Refusal := .next (s.writeWctl p w val)

/-- A requester is unfrozen by the window whose drop froze it (R445, R459). -/
def State.unfreeze (s : State) (p : Nat) (w : BitVec 5) : State :=
  match s.part? p with
  | none => s
  | some y =>
    let x := y.win w
    if !x.frozen then s
    else (s.setWin p w { x with frozen := false }).bbox y.homeMere
      { payload := 3#64 ||| (zx x.frid <<< 16), etype := 0x0005, part := p, svc := true }

def execRequesterUnfreeze (p : Nat) (w : BitVec 5) (s : State) : Host.Outcome State Fault Refusal := .next (s.unfreeze p w)

/-- A write of `WTGT`: a target already reached interrupts at once (R474). -/
def State.writeWtgt (s : State) (p : Nat) (w : BitVec 5) (val : BitVec 64) : State :=
  match s.part? p with
  | none => s
  | some y =>
    let x := y.win w
    let reached := match s.objOf? x.bobj with | some o => decide (x.bound ∧ x.kind = 3 ∧ o.e.gen = hGen x.bobj ∧ val.toNat ≤ o.val) | none => false
    if reached then
      { s.setWin p w { x with wtgt := BitVec.allOnes 64 } with sent := s.sent ++ [.msix p (field x.wctl 15 8)] }
    else s.setWin p w { x with wtgt := val }

def execWtgtWrite (p : Nat) (w : BitVec 5) (val : BitVec 64) (s : State) : Host.Outcome State Fault Refusal := .next (s.writeWtgt p w val)

/-! ### Accesses through windows (R89, R90, R469, R472 to R475) -/

/-- Whether a requester is frozen, and every request of its to the package is unsupported (R444). -/
def State.ridFrozen (s : State) (rid : BitVec 16) : Bool := s.parts.any (fun p => p.windows.toList.any (fun x => x.frozen && x.frid == rid))

/-- Whether accesses are held back, by a checkpoint or in a warm reset (R491, R494). -/
def State.hostHeld (s : State) : Bool := s.warmHold || (match s.ckpt with | .none => false | .waiting => false | _ => true)

/-- An access that receives Unsupported Request. -/
def State.unsupported (s : State) (x : Ingress) : State := { s with sent := s.sent ++ [.unsupported x.part x.win.toNat x.rid] }

/-- Where an access falls in BAR2, of 256 GiB on each port: window w has 16 GiB at offset (w mod 16) × 16 GiB of port ⌊w/16⌋ (R469).
The access is given by a window and an offset from the start of its aperture; none where it lies past BAR2. -/
def inBar2 (x : Ingress) : Option Ingress :=
  let at_ := (x.win.toNat % 16) * 2 ^ 34 + x.off
  if at_ < 2 ^ 38 then some { x with win := BitVec.ofNat 5 (16 * (x.win.toNat / 16) + at_ / 2 ^ 34), off := at_ % 2 ^ 34 } else none

/-- An access that no checkpoint or warm reset holds back, at the window it falls in (R469, R491, R494). -/
def atWindow (x : Ingress) (s : State) (k : Ingress → Host.Outcome State Fault Refusal) : Host.Outcome State Fault Refusal :=
  if s.hostHeld then .next s
  else match inBar2 x with
    | some y => k y
    | none => .next (s.unsupported x)

/-- The window that takes an access: bound, of that kind, by its requester, which is not frozen (R469). -/
def State.winOf (s : State) (x : Ingress) (kind : BitVec 2) : Option Window :=
  match s.part? x.part with
  | none => none
  | some p =>
    let y := p.win x.win
    if y.bound ∧ y.kind = kind ∧ y.rid = x.rid ∧ !s.ridFrozen x.rid then some y else none

/-- Marks a dropped write. -/
def State.dropped (s : State) (x : Ingress) : State :=
  match s.part? x.part with
  | some p => s.setWin x.part x.win { p.win x.win with dropped := true }
  | none => s

/-- A write from the bound requester that R90 drops: the window closes, the requester is frozen and a FREEZE record is written. -/
def State.closeWin (s : State) (x : Ingress) (y : Window) (code : Code) (info : Nat) : State :=
  let s := s.setWin x.part x.win { y with dropped := true, closed := true, frozen := true, frid := x.rid }
  let m := s.homeMere x.part
  let s := s.emit m { handle := y.bobj, info := BitVec.ofNat 64 info, rid := x.rid, part := x.part, kind := .freeze, master := .requester, code := code }
  s.bbox m { payload := 3#64 ||| (zx x.rid <<< 16), etype := 0x0004, ecode := code.val, part := x.part, svc := true }

/-- Stores bytes into slots of a sequence from a byte position on: pieces that lie within one slot each. -/
def storeSlots (s : State) (o : Obj) : Nat → List Byte → State
  | _, [] => s
  | p, b :: bs =>
    let s := match findMap o.maps o.home .current with
      | some l => (match l.at s o.home o.e p with | .ok a => s.store a [b] | .error _ => s)
      | none => s
    storeSlots s o (p + 1) bs

/-- Gives a window's stores blocks of their own (R80). -/
def State.ownBlocks (s : State) (o : Obj) : List Nat → Option (State × Obj)
  | [] => some (s, o)
  | b :: bs => match s.privateBlock o b with | some (s, o) => s.ownBlocks o bs | none => none

/-- A write to a sequence window at its cursor: slots reserved, bytes stored, full slots committed (R88 to R90).
A write of no byte leaves what the window holds as it is. A slot that cannot be reserved reports SEQ_ORDER before the capacity BOUNDS
(DESIGN CHOICE, log 81), and no free page for a private block
closes the window with NO_SPACE (DESIGN CHOICE, log 17). -/
def State.acceptSlots (s : State) (x : Ingress) (y : Window) (o : Obj) : State :=
  let rb := o.e.rowb
  let cur := y.wcur.toNat
  let fin := cur + x.bytes.length
  let next := o.e.next.toNat
  let me : Owner := .window x.part x.win.toNat
  -- the slots that the write reserves: those whose first byte it holds, without one that the window still holds (R91)
  let a := match y.slot with | some i => i + 1 | none => ceilDiv cur rb
  let b := ceilDiv fin rb
  let starts := decide (a < b ∧ a < o.e.capacity)
  let holds := match y.slot with | some i => o.reservedBy me i | none => true
  if (starts && (decide (a ≠ next) || o.e.sealedBit)) || !holds then s.closeWin x y .seqOrder a
  else if o.e.capacity * rb < fin then s.closeWin x y .bounds o.e.capacity
  else match (if starts then s.allocBlocks o (blocksOf a b) else some (s, o)) with
    | none => s.closeWin x y .noSpace 0
    | some (s1, o) =>
      let blocks := blocksOf (cur / rb) (ceilDiv fin rb)
      if blocks.any (fun k => match findMap o.maps o.home .current with
          | some l => (match l.at s1 o.home o.e (k * (16 * rb)) with | .ok _ => false | .error _ => true)
          | none => true) then s
      else
        -- the descriptor of a private block enters at a marker (R205)
        let s1 := if o.blockList.any (fun b => !b.owned && blocks.contains b.num) then s1.settle (fun _ => true) else s1
        match s1.ownBlocks ((s1.obj? o.home o.num).getD o) blocks with
        | none => s.closeWin x y .noSpace 0
        | some (s, o) =>
          let s := storeSlots s o cur x.bytes
          let o := if starts then { o with resv := o.resv ++ [⟨a, b, me⟩], e := { o.e with next := BitVec.ofNat 32 b } } else o
          let full := fin / rb
          let o := if cur / rb < full then o.commit (cur / rb) full else o
          let s := s.setWin x.part x.win { y with wcur := BitVec.ofNat 64 fin, slot := if x.bytes.isEmpty then y.slot else if fin % rb = 0 then none else some full }
          s.putAndWake o

/-- INGRESS_SEQUENCE_WRITE (R89, R90, R472). -/
def execIngressSequenceWrite (x : Ingress) (s : State) : Host.Outcome State Fault Refusal :=
  atWindow x s (fun x =>
    match s.winOf x 1 with
    | none =>
      -- a write from any other requester is dropped as well
      .next (match s.part? x.part with
        | some p => if (p.win x.win).bound ∧ (p.win x.win).kind = 1 ∧ (p.win x.win).rid ≠ x.rid then (s.dropped x).unsupported x else s.unsupported x
        | none => s.unsupported x)
    | some y =>
      match s.resolve x.part y.bobj with
      | .error _ => .next (s.dropped x)
      | .ok o =>
        let cur := y.wcur.toNat
        if y.closed || o.e.rowb = 0 || o.e.err || !s.sound o then .next (s.dropped x)
        else if x.ro ∨ x.off ≠ cur % 2 ^ 34 then .next (s.closeWin x y .seqOrder (cur / o.e.rowb))
        else .next (s.acceptSlots x y o))

/-- The shard of an object whose storage a window of this package reaches (R53, R473). -/
def State.winShard (s : State) (e : Entry) : Nat := if e.shmode = 0 then 0 else s.package.toNat - e.shbase.toNat

/-- The packages and version that a host or peer store reaches, and the state with storage of its own (R56, R61). -/
def State.storeSpots (s : State) (o : Obj) (off n : Nat) : Option (State × Obj × List (Nat × Layout)) :=
  let offs := [off, off + n - 1]
  let us := (List.range ((off + n - 1) / 65536 + 1 - off / 65536)).map (fun i => off / 65536 + i)
  let qs := o.pkgs s true (s.winShard o.e)
  let ver (o : Obj) : Ver := if o.e.wmode && o.maps.any (fun m => m.2.1 == .working) then .working else .current
  match s.locate o (ver o) (offs ++ us.map (fun u => u * 65536)) qs with
  | .error _ => none
  | .ok _ => match s.own o (qs.flatMap (fun q => us.map (fun u => (q, u)))) with
    | .error _ => none
    | .ok (s, o) => (match s.locate o (ver o) offs qs with | .ok ms => some (s, o, ms) | .error _ => none)

/-- What storage spots of an object come to as a resolution. -/
def Obj.resolution (o : Obj) (ms : List (Nat × Layout)) : Resolved := { home := o.home, num := o.num, e := o.e, maps := ms, work := o.e.wmode }

/-- A store of storage bytes that no engine issued: at once where the object has one copy, else as an update that locks every copy first
(R56). Another package that sent it is answered when it is done. -/
def State.hostStore (s : State) (o : Obj) (ms : List (Nat × Layout)) (off : Nat) (bs : List Byte) (src : Option (BitVec 10)) : State :=
  if 1 < ms.length then s.startUpdate (o.resolution ms) (.raw off bs src)
  else
    let s := s.storeRaw o ms off bs
    match src with | some p => s.answer p [] | none => s

/-- INGRESS_TENSOR_WRITE: in place, or into the working copy (R473). A write to an object whose ERR is 1 is dropped and sets DROPPED
(DESIGN CHOICE, log 81). -/
def execIngressTensorWrite (x : Ingress) (s : State) : Host.Outcome State Fault Refusal :=
  atWindow x s (fun x =>
    match s.winOf x 2 with
    | none => .next (s.unsupported x)
    | some y =>
      match s.resolve x.part y.bobj with
      | .error _ => .next (s.dropped x)
      | .ok o =>
        if !o.e.grants .write ∨ o.e.rwin ∨ o.e.err ∨ !s.sound o ∨ o.e.storageBytes (s.winShard o.e) < x.off + x.bytes.length then .next (s.dropped x)
        else if x.bytes.isEmpty ∨ !o.locks.isEmpty then .next s
        else match s.storeSpots o x.off x.bytes.length with
          | some (s, o, ms) => .next (s.hostStore o ms x.off x.bytes none)
          | none => .next s)

/-- Storage bytes of a version of an object as this package reads them. -/
def State.readRaw (s : State) (o : Obj) (v : Ver) (off n : Nat) : Option (List Byte) :=
  let q := o.readPkg s (s.winShard o.e)
  match findMap o.maps q v with
  | none => none
  | some l => ((List.range n).mapM (fun i => (l.at s q o.e (off + i)).map (memByte s.mem))).toOption

/-- INGRESS_TENSOR_READ: the bound version of a versioned object (R473). A read of an object whose ERR is 1 answers Unsupported Request
(DESIGN CHOICE, log 81). -/
def execIngressTensorRead (x : Ingress) (n : Nat) (s : State) : Host.Outcome State Fault Refusal :=
  atWindow x s (fun x =>
    match s.winOf x 2 with
    | none => .next (s.unsupported x)
    | some y =>
      match s.resolve x.part y.bobj with
      | .error _ => .next ((s.dropped x).unsupported x)
      | .ok o =>
        if o.e.storageBytes (s.winShard o.e) < x.off + n ∨ !o.e.grants .read ∨ o.e.err ∨ !s.sound o then .next ((s.dropped x).unsupported x)
        else if !o.locks.isEmpty then .next s
        else match s.readRaw o (o.verOf y.bver) x.off n with
          | some bs => .next { s with sent := s.sent ++ [.readData x.part x.win.toNat bs] }
          | none => .next s)

/-- INGRESS_COUNTER_WRITE: an add as CADD makes it (R474). -/
def execIngressCounterWrite (x : Ingress) (s : State) : Host.Outcome State Fault Refusal :=
  atWindow x s (fun x =>
    match s.winOf x 3 with
    | none => .next (s.unsupported x)
    | some y =>
      if x.off ≠ 0 ∨ x.bytes.length ≠ 8 then .next (s.unsupported x)
      else match s.resolve x.part y.bobj with
        | .error _ => .next (s.dropped x)
        | .ok o =>
          if !o.e.grants .write then .next (s.dropped x)
          else match counterAdd o (BitVec.ofNat 64 (leNat x.bytes)) with
            | .ok o => .next (s.putAndWake o)
            | .error _ => .next (s.dropped x))

/-- INGRESS_COUNTER_READ (R474). -/
def execIngressCounterRead (x : Ingress) (s : State) : Host.Outcome State Fault Refusal :=
  atWindow x s (fun x =>
    match s.winOf x 3 with
    | none => .next (s.unsupported x)
    | some y =>
      match s.resolve x.part y.bobj with
      | .ok o => if x.off ≠ 0 then .next (s.unsupported x) else .next { s with sent := s.sent ++ [.readData x.part x.win.toNat (leBytes 8 o.val)] }
      | .error _ => .next (s.unsupported x))

/-- INGRESS_UNSUPPORTED: the access is answered as an Unsupported Request; a write that another requester makes to a sequence window is
dropped (R90, R469). -/
def execIngressUnsupported (x : Ingress) (s : State) : Host.Outcome State Fault Refusal :=
  let x := (inBar2 x).getD x
  .next (match s.part? x.part with
    | some p =>
      let y := p.win x.win
      if y.bound ∧ y.kind = 1 ∧ y.rid ≠ x.rid ∧ !x.bytes.isEmpty then (s.dropped x).unsupported x else s.unsupported x
    | none => s.unsupported x)

/-! ### Namespaces and connections (R479, R480) -/

/-- A namespace binding slot of a partition. -/
def Part.nsAt (p : Part) (n : BitVec 6) : Namespace := p.ns[n.toNat]'(bv6_lt n)
/-- Writes a namespace binding slot. -/
def State.setNs (s : State) (p : Nat) (n : BitVec 6) (x : Namespace) : State := s.modPart p (fun y => { y with ns := y.ns.set n.toNat x (bv6_lt n) })

/-- Whether the configuration object defines a connection (R480). -/
def Part.hasConn (p : Part) (c : Nat) : Bool := p.cfg.conns.any (fun x => x.num.toNat == c)

/-- Whether a handle names a COUNTER that a namespace can be bound to. -/
def State.nsCounter (s : State) (p : Nat) (h : BitVec 64) : Bool :=
  match s.resolve p h with
  | .ok o => decide (o.e.typ = .counter ∧ o.e.part.toNat = p) && o.e.grants .read && o.e.grants .write
  | .error _ => false

/-- `NSCTL` written with `BIND` 1. -/
def State.bindNs (s : State) (p : Nat) (n : BitVec 6) (val : BitVec 64) (kv : Bool) : State :=
  match s.part? p with
  | none => s
  | some y =>
    let x := y.nsAt n
    let v := val &&& 0xFFFFFFFF000F0001#64
    let elsewhere := (List.range 64).any (fun k => k != n.toNat && (match y.ns.toList[k]? with | some z => z.bound && z.bobj == x.nsobj | none => false))
    if s.nsCounter p x.nsobj ∧ !elsewhere ∧ y.hasConn (field val 19 16) ∧ kv then
      s.setNs p n { x with nsctl := v, bound := true, unbinding := false, badbind := false, bobj := x.nsobj }
    else s.setNs p n { x with nsctl := v, badbind := true }

/-- Key-value commands in flight that were sent through a partition's slot while it was bound to a counter. -/
def State.kvFlying (s : State) (p slot : Nat) (h : BitVec 64) : Bool :=
  s.ops.any (fun o => match o.kind with | .kv k => k.part == p && k.slot == slot && k.counter == h && !k.abandoned | _ => false)

/-- A slot that unbinds is unbound once its last command has ended. -/
def State.settleNs (s : State) (p slot : Nat) : State :=
  s.modPart p (fun y => { y with ns := (y.ns.toList.zipIdx.foldl (fun (v : Vector Namespace 64) x =>
    if h : x.2 < 64 then
      (if x.2 = slot ∧ x.1.unbinding ∧ !s.kvFlying p slot x.1.bobj then v.set x.2 { x.1 with bound := false, unbinding := false, bobj := 0 } h else v)
    else v) y.ns) })

/-- `NSCTL` written with `BIND` 0: `NSID` and `CONN` take what is written. -/
def State.unbindNs (s : State) (p : Nat) (n : BitVec 6) (val : BitVec 64) : State :=
  match s.part? p with
  | none => s
  | some y =>
    let x := y.nsAt n
    let s := s.setNs p n { x with nsctl := val &&& 0xFFFFFFFF000F0000#64, unbinding := x.bound }
    s.settleNs p n.toNat

def execNamespaceBind (p : Nat) (n : BitVec 6) (val : BitVec 64) (kv : Bool) (s : State) : Host.Outcome State Fault Refusal := .next (s.bindNs p n val kv)
def execNamespaceUnbind (p : Nat) (n : BitVec 6) (s : State) : Host.Outcome State Fault Refusal :=
  .next (s.unbindNs p n (match s.part? p with | some y => (y.nsAt n).nsctl | none => 0))
def execNvmeofConnect (p : Nat) (conn : BitVec 4) (s : State) : Host.Outcome State Fault Refusal :=
  .next (s.modPart p (fun y => if y.hasConn conn.toNat then { y with links := y.links ||| (1#16 <<< conn.toNat) } else y))
def execConnectionLost (p : Nat) (conn : BitVec 4) (s : State) : Host.Outcome State Fault Refusal :=
  .next (s.modPart p (fun y => { y with links := y.links &&& ~~~(1#16 <<< conn.toNat) }))

/-! ### Key-value completions (R351, R479) -/

/-- One more completion of a namespace: the COUNTER that its command was sent through counts it. -/
def State.countKv (s : State) (h : BitVec 64) : State :=
  match s.objOf? h with
  | some o => if o.e.gen = hGen h ∧ o.e.typ = .counter then (match counterAdd o 1 with | .ok o => s.putAndWake o | .error _ => s) else s
  | none => s

/-- The end of a key-value command: `data` is what it writes to its tile, `status` its status word. -/
def State.endKv (s : State) (o : Op) (k : KvOp) (data : List Byte) (status : BitVec 64) : State :=
  let core := o.who.core
  let reads := decide (k.cmd = .get ∨ k.cmd = .list)
  let s :=
    if !s.alive o then s
    else
      let x := (s.core core).tile k.tile
      let here := decide (x.epoch = k.epoch)
      let s :=
        if !reads ∨ data.isEmpty then s
        else if here then s.putTile core k.off k.swz 0 data
        else
          let t : Tile := { off := k.off, size := data.length, swz := k.swz }
          let (s, mixed) := s.mixDetached k.off k.swz 0 k.crossed (s.tileBytes core t 0 data.length) data
          s.putTile core k.off k.swz 0 mixed
      let s := if here ∧ (reads ∨ k.cmd = .put) then
          s.modCore core (fun c => c.setTile k.tile { c.tile k.tile with st := .ready, tag := if reads then none else (c.tile k.tile).tag })
        else s
      match k.st with | some r => s.setS o.who (BitVec.ofNat 6 r) status | none => s
  ((s.finish o).countKv k.counter).settleNs k.part k.slot

/-- KV_COMPLETION: the status is written and the data lands (R350, R351). -/
def execKvCompletion (op : Nat) (nvst : BitVec 16) (len : BitVec 32) (data : List (BitVec 8)) (s : State) : Host.Outcome State Fault Refusal :=
  match s.op? op with
  | some o => (match o.kind with
    | .kv k =>
      if k.abandoned then .next (s.dropOp op)
      -- data for a tile waits for earlier accesses to its bytes (R299)
      else if 0 < o.left || s.heldBack o then .next s
      else
        let bytes := if k.cmd = .get ∨ k.cmd = .list then data.take k.max else []
        let n : BitVec 32 := match k.cmd with | .get => len | .list => BitVec.ofNat 32 bytes.length | _ => 0
        .next (s.endKv o k bytes (0#16 ++ nvst ++ n))
    | _ => .next s)
  | none => .next s

/-- KV_TIMEOUT: the command ends with `XPORT` set (R479). -/
def execKvTimeout (op : Nat) (s : State) : Host.Outcome State Fault Refusal :=
  match s.op? op with
  | some o => (match o.kind with
    | .kv k =>
      if k.abandoned then .next (s.dropOp op)
      else if 0 < o.left then .next s
      else .next (s.endKv o k [] (1#64 <<< 48))
    | _ => .next s)
  | none => .next s

/-! ### Registers (R465, R470, R480) -/

/-- A write of a partition's register other than `PCTL`: `WOBJ` and `NSOBJ` take their value, `WSTAT` clears its W1C bits, and a register
with an event of its own acts as that event; RO and reserved places ignore the write. -/
def State.writeReg (s : State) (p off : Nat) (val : BitVec 64) : State :=
  if 0x20 ≤ off ∧ off < 0x40 then s.modPart p (fun x => x.writeFeat (off / 8 - 4) val)
  else if 0x80 ≤ off ∧ off < 0x100 then (if off % 16 = 0 then s.bindQueue p ((off - 0x80) / 16) val else s)
  else if 0x100 ≤ off ∧ off < 0x900 then
    let w : BitVec 5 := BitVec.ofNat 5 ((off - 0x100) / 0x40)
    match (off - 0x100) % 0x40, s.part? p with
    | 0x00, _ => s.writeWctl p w val
    | 0x08, some y => s.setWin p w { y.win w with wobj := val }
    | 0x18, some y =>
      let s := if val.getLsbD 3 then s.setWin p w { y.win w with dropped := false } else s
      if val.getLsbD 2 then s.unfreeze p w else s
    | 0x20, _ => s.writeWtgt p w val
    | _, _ => s
  else if 0x1000 ≤ off ∧ off < 0x9000 then s.modPart p (fun x => { x with edges := upsert x.edges ((off - 0x1000) / 2) (val.extractLsb' 0 16) })
  else if 0x9000 ≤ off ∧ off < 0xA000 then
    let n : BitVec 6 := BitVec.ofNat 6 ((off - 0x9000) / 0x40)
    match (off - 0x9000) % 0x40, s.part? p with
    | 0x00, _ =>
      -- whether the namespace reports the Key Value command set is the target's answer
      if val.getLsbD 0 then (let (k, s) := s.draw 1; s.bindNs p n val (Config.freeBit k)) else s.unbindNs p n val
    | 0x08, some y => s.setNs p n { y.nsAt n with nsobj := val }
    | _, _ => s
  else s

/-- `WSTAT` of a window (R470). -/
def Window.wstat (x : Window) : BitVec 64 :=
  0#59 ++ BitVec.ofBool x.badbind ++ BitVec.ofBool x.dropped ++ BitVec.ofBool x.frozen ++ BitVec.ofBool x.closed ++ BitVec.ofBool x.bound
/-- `NSSTAT` of a namespace binding (R480). -/
def Part.nsstat (p : Part) (x : Namespace) : BitVec 64 :=
  0#61 ++ BitVec.ofBool (p.links.getLsbD (field x.nsctl 19 16)) ++ BitVec.ofBool x.badbind ++ BitVec.ofBool x.bound

/-- What a read of a partition's register gives (R465, R467, R470, R480): write-only and reserved fields read as zero (R6). An edge
list entry reads at its even offset. -/
def Part.readReg (p : Part) (off : Nat) : BitVec 64 :=
  if off < 0x20 then (if off = 0 then BitVec.ofNat 64 Config.featOffer else 0)
  else if off < 0x40 then (if off % 8 = 0 then p.featAccept.extractLsb' (64 * (off / 8 - 4)) 64 else 0)
  else if off = 0x40 then 0#58 ++ BitVec.ofBool p.rstBusy ++ 0#3 ++ BitVec.ofBool p.lqbad ++ BitVec.ofBool p.flock
  else if 0x80 ≤ off ∧ off < 0x100 then
    (match off % 16 with
     | 0 => p.lqh.toList.getD ((off - 0x80) / 16) 0
     | 8 => p.lqcur.toList.getD ((off - 0x80) / 16) 0
     | _ => 0)
  else if 0x100 ≤ off ∧ off < 0x900 then
    let x := p.win (BitVec.ofNat 5 ((off - 0x100) / 0x40))
    (match (off - 0x100) % 0x40 with
     | 0x00 => x.wctl
     | 0x08 => x.wobj
     | 0x10 => x.wcur
     | 0x18 => x.wstat
     | 0x20 => x.wtgt
     | _ => 0)
  else if 0x1000 ≤ off ∧ off < 0x9000 then
    (if off % 2 = 0 then ((p.edges.find? (fun e => e.1 == (off - 0x1000) / 2)).elim 0 (fun e => e.2)).zeroExtend 64 else 0)
  else if 0x9000 ≤ off ∧ off < 0xA000 then
    let x := p.nsAt (BitVec.ofNat 6 ((off - 0x9000) / 0x40))
    (match (off - 0x9000) % 0x40 with
     | 0x00 => x.nsctl
     | 0x08 => x.nsobj
     | 0x10 => p.nsstat x
     | _ => 0)
  else 0

end Sys2Proof.Machine
end

