-- ==== Sys2Proof/Machine/Walk.lean ====
section
/-! DEFINITION. What happens to tasks outside their instructions: reading records, handing work out, ageing, completing nodes, the
watchdog, held signals and the wheel (R141, R143, R156 to R170, R202, R203). -/

namespace Sys2Proof.Machine

open Sys2Proof

/-! ### Time -/

/-- Whether an engine's stall counts now: not while it is frozen, paused or held by a checkpoint, nor while an engine of its context
awaits a resolution (R143, R434, R492, R494). -/
def State.counts (s : State) (w : EngRef) : Bool :=
  s.canIssue w && !(s.ctx w).awaits && (match (s.eng w).stall with | some st => st.counted | none => false)

/-- The engines of a core. -/
def enginesOf (core : Nat) : List EngRef :=
  [false, true].flatMap (fun x => [EngineId.c, .l, .m, .v].map (fun e => ⟨core, x, e⟩))
/-- The engines of the package: of a core context 0's before context 1's, of a context C, L, M, V (R173). The order of contexts and of
cores is no rule's: faults of one cycle enter a mere's queue in it (DESIGN CHOICE, log 132). -/
def State.engines (s : State) : List EngRef := s.cores.flatMap (fun c => enginesOf c.1)

/-- Whether the condition of a stall certainly still holds. -/
def State.stalled (s : State) (w : EngRef) (st : Stall) : Bool :=
  let x := s.ctx w
  let c := s.core w.core
  match st with
  | .token k => if k = 0 then decide (x.tokP w.eng = 0) else decide (x.tokS w.eng = 0)
  | .heldSignal _ => decide ((s.eng w).heldP ≠ 0 ∨ (s.eng w).heldN ≠ 0)
  | .push q n => decide (4 < (c.queue q).length + n)
  | .pop q n => decide ((c.queue q).length < n)
  | .pendingPush q n => ((c.queue q).take n).any (fun x => match x with | .pending _ => true | _ => false)
  | .tile t => (match (c.tile t).st with | .filling => true | .draining => true | _ => false)
  | .barrier n => (match w.eng with | .c => (s.openArrival w.core n).isSome | _ => (s.eng w).arrived)
  | .bank k => (match (c.bank k).st with | .filling => true | _ => false)
  | .other => false

/-- The stall that an engine waits out and that the watchdog counts. -/
def State.waitsOut (s : State) (w : EngRef) : Option Stall := (s.eng w).stall.filter (fun st => s.counts w && s.stalled w st)

/-- `n` cycles pass: the wheel and `CYCLES` advance, and every stall that an engine waits out is longer (R143, R202). -/
def State.tick (s : State) (n : Nat) : State :=
  let s := s.engines.foldl (fun s w => if (s.waitsOut w).isSome then s.modEng w (fun e => { e with wdog := e.wdog + n }) else s) s
  { s with cycles := s.cycles + BitVec.ofNat 64 n }

/-- Cycles until an engine's count passes its bound, if it waits on (R143). -/
def State.dueIn (s : State) (w : EngRef) : Option Nat :=
  if (s.waitsOut w).isSome ∧ (s.eng w).wdog ≤ s.wdogBound w then some (s.wdogBound w + 1 - (s.eng w).wdog) else none

/-- The stall of an engine whose count has passed its bound: it has faulted, and where the queue had no place its record is still to be
written, whatever has become of the stall and of the other engines of its context since (R143, R173, R432). -/
def State.overdue (s : State) (w : EngRef) : Option Stall :=
  if s.canIssue w ∧ s.wdogBound w < (s.eng w).wdog then (s.eng w).stall.filter Stall.counted else none

/-- TOKEN_STALL of an engine at the stall it has waited on for too long; without a place in the fault queue it goes on waiting (R143,
R432). -/
def State.stallFault (s : State) (w : EngRef) (st : Stall) : State := ((s.withdraw w st).takeFault? w st.trap).getD s

/-- Every engine of the list whose count has passed its bound now faults TOKEN_STALL, in the order of the list, also beside another one
of its context (R143, R173). -/
def State.expire (s : State) (es : List EngRef) : State :=
  (es.filterMap (fun w => (s.overdue w).map (fun st => (w, st)))).foldl (fun s x => s.stallFault x.1 x.2) s

/-- `n` cycles pass, and each engine that comes to pass its bound in them faults in its cycle, which stops the counts of its context
(R143, R173, R434). Each of the first argument's rounds ends with such a fault. -/
def elapseIn : Nat → Nat → State → State
  | 0, n, s => s.tick n
  | k + 1, n, s =>
    match (s.engines.filterMap s.dueIn).min? with
    | some d => if d ≤ n then elapseIn k (n - d) ((s.tick d).expire s.engines) else (s.tick n).expire s.engines
    | none => (s.tick n).expire s.engines
@[inherit_doc elapseIn]
def State.elapse (s : State) (n : Nat) : State := elapseIn (s.engines.length + 1) n s

/-! ### The walker -/

/-- Whether the walker of a partition works: not during a reset or a checkpoint (R483, R491). -/
def State.walks (s : State) (p : Part) : Bool :=
  !p.rstBusy && (match s.ckpt with | .none => true | .waiting => true | _ => false) && !s.warmHold

/-- The sequence bound to a launch queue that has a committed record to read (R92, R467). -/
def State.launchSeq (s : State) (p : Part) (i : Nat) : Option Obj :=
  let h := p.lqh.toList.getD i 0
  match s.objOf? h with
  | some o =>
    if h ≠ 0 ∧ o.e.gen = hGen h ∧ o.e.typ = .sequence ∧ s.sound o ∧ !o.e.err ∧ !s.away o.home ∧ (p.lqcur.toList.getD i 0).toNat < o.val ∧
       !p.held.any (fun x => x.1 == i) then some o else none
  | none => none

/-- Moves `LQCUR` of a launch queue to the slot after the one read. -/
def Part.advance (p : Part) (i : Nat) : Part :=
  { p with lqcur := p.lqcur.set (i % 8) (p.lqcur.toList.getD (i % 8) 0 + 1) (Nat.mod_lt _ (by decide)), rr := (i + 1) % 8 }

/-- Takes a record that was read or held; a held one stays held while its code's home cannot be reached. -/
def State.settleRec (s : State) (pid i : Nat) (slot : BitVec 64) (r : BitVec 512) : State :=
  let (s, took) := s.takeRec pid r slot (i == 8)
  if took then s.modPart pid (fun x => if 8 ≤ i then x else x.advance i)
  else s.modPart pid (fun x => { x with held := x.held ++ [(i, slot.toNat, r)], rr := if 8 ≤ i then x.rr else (i + 1) % 8 })

/-- WALKER_READ_RECORD: the next record of the round robin over the launch queues (R157, R467, R484). -/
def execWalkerReadRecord (p : Nat) (s : State) : Host.Outcome State Fault Refusal :=
  match s.part? p with
  | none => .next s
  | some x =>
    if !x.flock || !s.walks x || decide (4096 ≤ x.fromQueues) then .next s
    else match (List.range 8).findSome? (fun j => let i := (x.rr + j) % 8; (s.launchSeq x i).map (fun o => (i, o))) with
      | none => .next s
      | some (i, o) =>
        let slot := x.lqcur.toList.getD i 0
        match findMap o.maps o.home .current with
        | none => .next s
        | some l =>
          match readSpot s o.home o.e l ⟨0, slot.toNat * o.e.rowb, 0⟩ 64 with
          | .error _ => .next s
          | .ok bs => .next (s.settleRec p i slot (BitVec.ofNat 512 (leNat bs)))

/-- WALKER_UNREACHABLE_TIMEOUT: the oldest held record is reported with MISSING_OBJECT and discarded (R156). -/
def execWalkerUnreachableTimeout (p : Nat) (s : State) : Host.Outcome State Fault Refusal :=
  match s.part? p with
  | none => .next s
  | some x =>
    match x.held with
    | [] => .next s
    | (i, slot, r) :: rest =>
      if !s.away (hHome (recCode r)) then .next s
      else
        let s := s.modPart p (fun x => if 8 ≤ i then { x with held := rest } else { x.advance i with held := rest, rr := x.rr })
        let free := recNode r = 0xFFFF ∨ (x.node (recNode r)).st = .free
        .next (s.refuseRec x r (if i = 8 then BitVec.allOnes 64 else BitVec.ofNat 64 slot) .missingObject (decide free) false)

/-- HOME_REACHABLE: requests to the package succeed again, and the records held for it are taken (R156, R477). -/
def execHomeReachable (pkg : BitVec 10) (s : State) : Host.Outcome State Fault Refusal :=
  let s := { s with unreachable := s.unreachable.filter (fun q => q != pkg.toNat) }
  .next (s.parts.foldl (fun s p =>
    (p.held.filter (fun h => hHome (recCode h.2.2) == pkg.toNat)).foldl (fun s h =>
      let s := s.modPart p.cfg.id (fun x => { x with held := x.held.filter (fun y => y != h) })
      s.settleRec p.cfg.id h.1 (if h.1 = 8 then BitVec.allOnes 64 else BitVec.ofNat 64 h.2.1) h.2.2) s) s)

/-- HOME_UNREACHABLE (R477). -/
def execHomeUnreachable (pkg : BitVec 10) (s : State) : Host.Outcome State Fault Refusal :=
  .next { s with unreachable := s.unreachable.filter (fun q => q != pkg.toNat) ++ [pkg.toNat] }

/-! ### Handing out (R158, R162 to R164, R167, R169, R448) -/

/-- TASK_DISPATCH: cores whose stopped tasks' requests have completed are free (R439), and the scheduler serves the highest level that
has work for a free core. -/
def execTaskDispatch (p : Nat) (s : State) : Host.Outcome State Fault Refusal :=
  match s.part? p with
  | none => .next s
  | some x =>
    if !s.walks x then .next s
    else
      let s := s.reap
      match s.part? p with
      | none => .next s
      | some x =>
        match s.pickWork x with
        | some (w, cs) => .next (s.handOut p w cs)
        | none => .next s

/-- The partition that holds a core's tarn (R481). -/
def State.partAt (s : State) (core : Nat) : Option Part := s.parts.find? (fun p => p.cfg.tarns.contains (tarnOf core))

/-- PREEMPTOR_START: the victim has frozen, and the task handed to the core starts in context 1. -/
def execPreemptorStart (core : Nat) (s : State) : Host.Outcome State Fault Refusal :=
  match (s.core core).preemptor, s.partAt core with
  | some (isCont, id, idx), some p =>
    if (s.core core).c1.task.isSome || !s.walks p then .next s
    else
      let s := s.modCore core (fun c => { c with preemptor := none })
      let s := s.startWork p.cfg.id core true isCont id idx
      .next (if (s.core core).c1.task.isSome then s else s.modCore core (fun c => { c with frozen := false }))
  | _, _ => .next s

/-- AGING_STEP: work item `k` below level 55 rises one level and joins the back of its queue (R163). -/
def execAgingStep (p : Nat) (k : Nat) (s : State) : Host.Outcome State Fault Refusal :=
  .next (s.modPart p (fun x =>
    match x.work[k]? with
    | some w => if w.age < 15 ∧ w.level < 55 then { x with work := x.work.eraseIdx k ++ [{ w with level := w.level + 1, served := false }] } else x
    | none => x))

/-- CONTINUATION_ENQUEUE (R167). -/
def execContinuationEnqueue (p : Nat) (k : Nat) (s : State) : Host.Outcome State Fault Refusal := .next (s.enqueueCont p k)

/-- Whether a launch's tasks have retired and its unacknowledged stores are acknowledged (R160). -/
def State.launchDone (s : State) (p : Nat) (l : Launch) : Bool :=
  l.spent && !s.ops.any (fun o => o.part == p && o.launch == l.lid && o.fireForget)

/-- NODE_COMPLETE: completions, or cancellations of a cancelled node, go to the successors, and the entry is FREE (R160, R161). -/
def execNodeComplete (p : Nat) (n : Nat) (s : State) : Host.Outcome State Fault Refusal :=
  match s.part? p with
  | none => .next s
  | some x =>
    match x.holder n with
    | none => .next s
    | some l =>
      if n = 0xFFFF || !s.launchDone p l then .next s
      else
        let s := s.deliverNodes p (l.succ.map (fun m => (l.cancelled, m)))
        -- a surplus completion that it gave itself has failed it already
        match (s.part? p).bind (fun x => x.launch? l.lid) with
        | some y => if y.failed then .next s else .next ((s.modPart p (fun x => x.setNode n {})).dropLaunch p l)
        | none => .next s

/-! ### Stalls, held signals and the wheel -/

/-- WATCHDOG_EXPIRY: the cycles pass after which an engine's count is past its bound, and it faults TOKEN_STALL, with every engine whose
count passes its bound by then (R143, R173). -/
def execWatchdogExpiry (e : EngRef) (s : State) : Host.Outcome State Fault Refusal :=
  if (s.waitsOut e).isSome then .next (s.elapse (s.wdogBound e + 1 - (s.eng e).wdog)) else .next s

/-- HELD_SIGNAL_ACCEPT: a queue with room takes one held signal (R141). -/
def execHeldSignalAccept (e : EngRef) (s : State) : Host.Outcome State Fault Refusal :=
  let x := s.ctx e
  let g := x.eng e.eng
  if 0 < g.heldP ∧ x.tokS e.eng.pred < 15 then
    .next (s.setCtx e ((x.sendS e.eng.pred).setEng e.eng { g with heldP := g.heldP - 1 }))
  else if 0 < g.heldN ∧ x.tokP e.eng.succ < 15 then
    .next (s.setCtx e ((x.sendP e.eng.succ).setEng e.eng { g with heldN := g.heldN - 1 }))
  else .next s

/-- The SC access that a core's position serves first: context 1 before 0, C before L (R203). -/
def State.scFirst (s : State) (core : Nat) : Option EngRef :=
  [⟨core, true, .c⟩, ⟨core, true, .l⟩, ⟨core, false, .c⟩, ⟨core, false, .l⟩].find? (fun w => s.canIssue w && (s.eng w).scWait && (s.eng w).scGrant.isNone)

/-- Cycles from now to a core's next position, one it has not used (R202). -/
def State.toPosition (s : State) (core : Nat) : Nat :=
  let d := ((BitVec.ofNat 64 core - s.cycles).toNat) % 1024
  if (s.core core).lastSc = some (s.cycles + BitVec.ofNat 64 d) then d + 1024 else d

/-- Whether an access of a core has been chosen at this cycle and has not been performed yet. -/
def State.scChosen (s : State) (core : Nat) : Bool := (enginesOf core).any (fun w => (s.eng w).scGrant == some s.cycles)

/-- WHEEL_SC_CHOICE: at the core's next position one waiting access is chosen, is stamped and is performed next. It takes the position
when it takes effect: one that faults takes none (R204). -/
def execWheelScChoice (core : Nat) (s : State) : Host.Outcome State Fault Refusal :=
  let s := if (s.scFirst core).isSome ∧ !s.scChosen core then s.elapse (s.toPosition core) else s
  match s.scFirst core with
  | none => .next s
  | some w =>
    if s.scChosen core || s.toPosition core != 0 then .next s
    else
      let s := s.modEng w (fun e => { e with scGrant := some s.cycles })
      .next { s with agenda := .turn w :: s.agenda }

end Sys2Proof.Machine
end

