-- ==== Sys2Proof/Machine/Resolve.lean ====
section
/-! DEFINITION. The resolutions of precise faults and the replays they start (R435 to R442), the fault queue's consumer index (R432),
and soft errors (R443). -/

namespace Sys2Proof.Machine

open Sys2Proof

/-! ### Replays (R438) -/

/-- Issues a recorded request again for a context: it takes no token and puts none, and counts against R299. -/
def State.replay (s : State) (w : EngRef) (c : CopyOp) : Nat × State :=
  let (id, s) := s.freshId
  let l : EngRef := w.at .l
  let o := s.newOp l id c.req.word0 c.req.word1 ⟨false, false, false, false⟩ (.copy c)
  (id, s.addOp { o with pc := c.req.pc })

/-- The copy that a recorded request is again, at a tile of a core. -/
def Tile.copyOf (x : Tile) (u : Nat) (r : Request) : CopyOp :=
  { req := r, unit := u, epoch := x.epoch, off := x.off, size := x.size, swz := x.swz, total := (r.geo r.hreg.e).total }

/-- Replays the request of a POISONED tile; none where it keeps no descriptor. -/
def State.replayTile (s : State) (w : EngRef) (u : Nat) : Option State :=
  let x := (s.core w.core).tile u
  match x.st, x.replay with
  | .poisoned, some r =>
    let s := ((s.touchTile w.core u (r.geo r.hreg.e).spans).replay w (x.copyOf u r)).2
    some (s.modCore w.core (fun c => c.setTile u { x with st := if r.kind.stores then .draining else .filling, fault := none }))
  | _, _ => none

/-- Puts the places of a poisoned entry group back to pending pushes of an operation. -/
def pendGroup (g id : Nat) : List QSlot → List QSlot
  | [] => []
  | .poison f k r :: t => (if k = g then .pending id else .poison f k r) :: pendGroup g id t
  | x :: t => x :: pendGroup g id t

/-- Replays the request of the oldest poisoned entry group of a queue. -/
def State.replayQueue (s : State) (w : EngRef) (q : Nat) : Option State :=
  match ((s.core w.core).queue q).findSome? (fun x => match x with | .poison _ g (some r) => some (g, r) | _ => none) with
  | some (g, r) =>
    let (id, s) := s.replay w { req := r, unit := q, total := (r.geo r.hreg.e).total, again := true }
    some (s.modCore w.core (fun c => { c.setQueue q (pendGroup g id (c.queue q)) with kept := if r.chunk.isSome then c.kept else c.kept ++ [(q, r)] }))
  | none => none

/-- Replays the fill source of an EMPTY bank. -/
def State.replayBank (s : State) (w : EngRef) (k : Nat) : Option State :=
  let b := (s.core w.core).bank k
  match b.st, b.source with
  | .empty, some r =>
    let s := (s.replay w { req := r, unit := k, total := (r.geo r.hreg.e).total }).2
    some (s.modCore w.core (fun c => c.setBank k { b with st := .filling, pending := none }))
  | _, _ => none

/-- The replay that a RETRY of a record runs first. A tile of a bound group's core may be the one reported (R380). -/
def State.replayFor (s : State) (w : EngRef) (f : FaultRec) : State :=
  match f.uclass with
  | .none => s
  | .queue => (s.replayQueue w f.unit).getD s
  | .bank => (s.replayBank w f.unit).getD s
  | .tile =>
    let near : List Nat := w.core :: (match (s.core w.core).group with
      | some g => if g.bound then (List.range 4).map (fun i => 4 * tarnOf w.core + i) else []
      | none => [])
    (near.findSome? (fun k => s.replayTile { w with core := k } f.unit)).getD s

/-! ### The resolution port (R435 to R437, R442) -/

/-- The 64 bits of a resolution word (R435). -/
def wordOf (r : ResWord) (res : Nat) : BitVec 64 :=
  r.seqno ++ BitVec.ofNat 10 r.who.core ++ BitVec.ofNat 2 r.who.eng.num ++ BitVec.ofBool r.who.ctx ++ BitVec.ofNat 3 res ++ 0#32

/-- The record that a word resolves: one that its engine awaits, of the mere whose port takes the word. -/
def State.awaited (s : State) (r : ResWord) : Option FaultRec :=
  match (s.eng r.who).st with
  | .awaiting f => if f.seqno = r.seqno ∧ mereOf r.who.core = r.mere then some f else none
  | _ => none

/-- A word that is ignored: counted, and in the black box (R435, R459, R460). -/
def State.ignoreWord (s : State) (m : Nat) (word : BitVec 64) : State :=
  let s := s.setMere m { s.mere m with resIgnored := satInc (s.mere m).resIgnored }
  s.bbox m { payload := word, etype := 0x0003, seqno := word.extractLsb' 48 16, svc := true }

/-- A resolution word: applied by `k`, or ignored; during a takeover it waits (R457). -/
def resolveWord (r : ResWord) (res : Nat) (s : State) (k : FaultRec → State → Host.Outcome State Fault Refusal) : Host.Outcome State Fault Refusal :=
  if s.takeover.contains r.mere then .next s
  else match s.awaited r with
  | none => .next (s.ignoreWord r.mere (wordOf r res))
  | some f =>
    k f (s.bbox r.mere { payload := BitVec.ofNat 64 res, etype := 0x0002, seqno := r.seqno, ctx := r.who.ctx, part := f.part, engine := r.who.eng, svc := true })

/-- RESUME: the engine reissues, or its TRAP completes (R288, R436). -/
def resumeWord (r : ResWord) (s : State) : Host.Outcome State Fault Refusal :=
  resolveWord r 0 s (fun f s =>
    let s := s.reissue r.who
    if f.code = .swTrap then
      s.conclude r.who ⟨f.word0.getLsbD 31, f.word0.getLsbD 30, f.word0.getLsbD 29, f.word0.getLsbD 28⟩ 1 (.done s)
    else .next s)

/-- RETRY: a replay runs first, then the engine reissues (R436, R438). -/
def retryWord (r : ResWord) (s : State) : Host.Outcome State Fault Refusal :=
  resolveWord r 1 s (fun f s => .next ((s.replayFor r.who f).reissue r.who))

/-- KILL: the task ends, and with it every other record its context awaits is answered (R437, R439). -/
def killWord (r : ResWord) (s : State) : Host.Outcome State Fault Refusal :=
  resolveWord r 2 s (fun _ s => .next (s.killTask r.who.core r.who.ctx true))

/-- DELIVER: the task ends, and its catch continuation is enqueued (R437, R440). -/
def deliverWord (r : ResWord) (s : State) : Host.Outcome State Fault Refusal :=
  resolveWord r 3 s (fun f s => .next (s.deliverTask r.who.core r.who.ctx f))

def execResume (r : ResWord) (s : State) : Host.Outcome State Fault Refusal := resumeWord r s
def execRetry (r : ResWord) (s : State) : Host.Outcome State Fault Refusal := retryWord r s
def execKill (r : ResWord) (s : State) : Host.Outcome State Fault Refusal := killWord r s
def execDeliver (r : ResWord) (s : State) : Host.Outcome State Fault Refusal := deliverWord r s

/-- RESOLUTION_IGNORED: a word with a reserved `RES`; another word at the port does what its `RES` says (R435). -/
def execResolutionIgnored (m : Nat) (word : BitVec 64) (s : State) : Host.Outcome State Fault Refusal :=
  let r : ResWord := ⟨m, word.extractLsb' 48 16, ⟨field word 47 38, word.getLsbD 35, engOfNum (field word 37 36)⟩⟩
  match field word 34 32 with
  | 0 => resumeWord r s
  | 1 => retryWord r s
  | 2 => killWord r s
  | 3 => deliverWord r s
  | _ => .next (if s.takeover.contains m then s else s.ignoreWord m word)

/-! ### The fault queue (R432) -/

/-- CONSUMER_INDEX_ADVANCE: the service pair takes `n` records, and writers that wait get the places: records of events and of asynchronous
accesses first, then the engines whose TOKEN_STALL waits, in the order of R173 (DESIGN CHOICE, log 132). -/
def execConsumerIndexAdvance (m n : Nat) (s : State) : Host.Outcome State Fault Refusal :=
  let x := s.mere m
  let k := min n x.queue.length
  let s := s.setMere m { x with queue := x.queue.drop k, cons := (x.cons + k) % 1024 }
  let s := s.drain (m % 8) s.waitingRecs
  .next (s.expire s.engines)

/-! ### Soft errors (R443) -/

/-- An uncorrectable error in a queue: the entry is poisoned. An entry that a replay wrote keeps its descriptor (R438). -/
def State.spoilQueue (s : State) (core q pos : Nat) : State :=
  let spoil (r : Option Request) : State :=
    let (id, s) := s.freshId
    let f : FaultRec := { code := .eccUncorr, core := core, uclass := .queue, unit := q % 32, kind := .poison }
    s.modCore core (fun c => c.setQueue q ((c.queue q).set pos (.poison f id r)))
  match ((s.core core).queue q)[pos]? with
  | some (.entry _) => spoil none
  | some (.refilled _ r) => spoil (some r)
  | _ => s

/-- An uncorrectable error in a bank: it is EMPTY and holds the pending code. -/
def State.spoilBank (s : State) (core k : Nat) : State :=
  let b := (s.core core).bank k
  if b.st = .ready then
    s.modCore core (fun c => c.setBank k { b with st := .empty, pending := some { code := .eccUncorr, core := core, uclass := .bank, unit := k % 8, kind := .poison } })
  else s

/-- An uncorrectable error in an accumulator tile, which its next reader meets. -/
def State.spoilAcc (s : State) (core a : Nat) : State :=
  s.modCore core (fun c => c.setAcc a { c.acc a with bad := true })

end Sys2Proof.Machine
end

