-- ==== Sys2Proof/Machine/Manager.lean ====
section
/-! DEFINITION. The object manager: objects created, destroyed and replicated, pages placed and moved, views rebuilt, sequences sealed,
full context switches, and requests of other packages (R40, R49 to R51, R59, R82, R171, R172, R215, R441, R450, R451, R462). -/

namespace Sys2Proof.Machine

open Sys2Proof

/-! ### Markers (R205, R206) -/

/-- The sequences that hold a block of a sequence, whose descriptors change with its own (R71). -/
def State.sharers (s : State) (o : Obj) : List Obj :=
  s.objs.filter (fun z => z.home == o.home && z.num != o.num && z.blockList.any (fun b => o.blockList.any (fun c => c.addr == b.addr)))

/-- A marker stands in every queue: what they carry ahead of it resolves with the old mapping. -/
def State.mark (s : State) : State := s.settle (fun _ => true)

/-- Whether a takeover holds the object manager's requests for an object of a partition (R457): the partition's home mere's (DESIGN
CHOICE, log 70). -/
def State.managerWaits (s : State) (p : Nat) : Bool := s.takeover.contains (s.homeMere p)

/-! ### Pages and blocks (R48, R71) -/

/-- Where the bytes of a page or block of package `q` lie: one in storage lies outside the part. -/
def placeAt (s : State) (q tier pkg addr : Nat) : Nat :=
  match tier with
  | 3 => s.phys pkg addr
  | 4 => 2 ^ 62 + addr
  | _ => s.phys q addr

/-- Whether an address lies in the populated memory of a tier (R174). -/
def tierHolds (tier addr : Nat) : Bool :=
  populated addr && (match tier with
    | 1 => decide (0x010000000000 ≤ addr ∧ addr < 0x018000000000)
    | 2 => decide (0x020000000000 ≤ addr ∧ addr < 0x030000000000)
    | 3 => decide (0x010000000000 ≤ addr)
    | _ => false)

/-- Whether `n` bytes of package `q` from a page boundary on are free for a page or block (R206, R498). -/
def State.spaceAt (s : State) (q tier addr n : Nat) : Bool :=
  decide (addr % 65536 = 0) && tierHolds tier addr && tierHolds tier (addr + n - 1) && (pagesOf addr n).all (fun f => !(s.usedFrames q).contains f)

/-- Writes a page descriptor. A page of the working copy that no store has copied is the current version's page (R61). -/
def Obj.setDesc (o : Obj) (q : Nat) (v : Ver) (p : Nat) (d : BitVec 64) : Obj :=
  let hit (m : Nat × Ver × Layout) : Bool := m.1 == q && (m.2.1 == v || (v == .current && m.2.1 == .working && !o.dirty.contains (q, p)))
  let put (m : Nat × Ver × Layout) : Nat × Ver × Layout :=
    if hit m then (match m.2.2 with | .pages ds => (m.1, m.2.1, .pages (ds.set p d)) | _ => m) else m
  { o with maps := o.maps.map put }.retier

/-- Writes a block descriptor in every sequence that holds the block (R71). -/
def State.setBlock (s : State) (home : Nat) (old new : Block) : State :=
  { s with objs := s.objs.map (fun o =>
      if o.home == home ∧ o.blockList.any (fun b => { b with owned := old.owned } == old) then
        (o.setBlocks (o.blockList.map (fun b => if { b with owned := old.owned } == old then { new with owned := b.owned } else b))).retier
      else o) }

/-- Where a page or block of an object stands. -/
inductive Spotted where
  /-- A page: package of its map, descriptor. -/
  | page (q : Nat) (d : BitVec 64)
  | block (b : Block)
deriving DecidableEq, Repr

/-- Whether it is present. -/
def Spotted.valid : Spotted → Bool
  | .page _ d => descValid d && descTier d != 4
  | .block b => b.valid && decide (b.tier.toNat ≠ 4)
/-- Whether it was ever allocated: a descriptor of zeros was not (R498). -/
def Spotted.known : Spotted → Bool
  | .page _ d => d != 0
  | .block _ => true
/-- The memory address of its bytes. -/
def Spotted.from (s : State) (home : Nat) : Spotted → Nat
  | .page q d => placeAt s q (descTier d) (field d 60 51) (descAddr d)
  | .block b => placeAt s home b.tier.toNat 0 b.addr.toNat
/-- The package whose map names it. -/
def Spotted.pkg (home : Nat) : Spotted → Nat
  | .page q _ => q
  | .block _ => home

/-- A page or block by number that meets a condition: this package's map comes first, then the home's, then the others'. -/
def Obj.spot? (s : State) (o : Obj) (v : Ver) (p : Nat) (ok : Spotted → Bool) : Option Spotted :=
  let here := s.package.toNat
  let ms := o.maps.filter (fun m => m.2.1 == v)
  let ms := ms.filter (fun m => m.1 == here) ++ ms.filter (fun m => m.1 == o.home && m.1 != here) ++ ms.filter (fun m => m.1 != o.home && m.1 != here)
  (ms.filterMap (fun m => match m.2.2 with
    | .pages ds => ds[p]?.map (Spotted.page m.1)
    | .blocks bs => (bs.find? (fun b => b.num == p)).map Spotted.block
    | _ => none)).find? ok

/-- Bytes of a page or block. -/
def Spotted.size (e : Entry) : Spotted → Nat
  | .page _ _ => 65536
  | .block _ => 16 * e.rowb

/-- Whether an address of this package lies in a tier. -/
def inTier (tier addr : Nat) : Bool :=
  match tier with
  | 1 => decide (0x010000000000 ≤ addr ∧ addr < 0x018000000000)
  | _ => decide (0x020000000000 ≤ addr ∧ addr < 0x030000000000)

/-- Pages of a tier of this package that a partition's objects hold (R481). -/
def State.tierPages (s : State) (p tier : Nat) : Nat :=
  ((s.objs.filter (fun o => o.e.part.toNat == p)).flatMap (fun o =>
    ((s.liveMaps o).filter (fun m => m.1 == s.package.toNat)).flatMap (fun m => (m.2.2.frames o.e).filter (inTier tier)))).eraseDups.length

/-- Whether a partition's quota of a tier of this package takes `n` pages more (R481). -/
def State.quotaOk (s : State) (p tier n : Nat) : Bool :=
  match s.part? p with
  | some x => n == 0 || decide (s.tierPages p tier + n ≤ (if tier = 1 then x.cfg.frames.length else x.cfg.lpQuota))
  | none => false

/-- The tier of a page or block that is present. -/
def Spotted.tier? : Spotted → Option Nat
  | .page _ d => if descValid d then some (descTier d) else none
  | .block b => if b.valid then some b.tier.toNat else none

/-- Whether HBM4E pages of this package are among those that the partition was given (R481). -/
def State.inPool (s : State) (p : Nat) (fs : List Nat) : Bool :=
  match s.part? p with | some x => fs.all (x.cfg.frames.map BitVec.toNat).contains | none => false

/-- The package and memory that a placement names, if it names a free place for a page or block, within the partition's quota. -/
def State.target (s : State) (o : Obj) (x : PageArgs) (y : Spotted) : Option Nat :=
  let t := x.tier.toNat
  let q := if t = 3 then x.pkg.toNat else y.pkg o.home
  let ok := match y with | .page _ _ => decide (t = 1 ∨ t = 2 ∨ t = 3) | .block _ => decide (t = 1 ∨ t = 2)
  let quota := decide (t = 3) || q != s.package.toNat || y.tier? == some t ||
    s.quotaOk o.e.part.toNat t (pagesOf x.addr.toNat (y.size o.e)).length
  let quota := quota && (t != 1 || q != s.package.toNat || s.inPool o.e.part.toNat (pagesOf x.addr.toNat (y.size o.e)))
  if ok && quota && s.spaceAt q t x.addr.toNat (y.size o.e) then some q else none

/-- The descriptor of a page or block at a new place is written (R48, R71). -/
def State.describe (s : State) (o : Obj) (v : Ver) (p : Nat) (x : PageArgs) (y : Spotted) (valid : Bool) : State :=
  match y with
  | .page q d => s.modObj o.home o.num (fun o => o.setDesc q v p (mkDesc x.tier (if x.tier = 3 then x.pkg else 0) x.addr.toNat (d.getLsbD 1) valid))
  | .block b => s.setBlock o.home b { b with addr := x.addr, tier := x.tier, valid := valid }

/-- Whether a store that has resolved to an object, or to a sequence that shares its blocks, is still on its way, or a bank command of it
(R71, R206). -/
def State.storing (s : State) (o : Obj) : Bool :=
  let here (r : Resolved) : Bool := (o :: s.sharers o).any (fun z => r.home == z.home && r.num == z.num)
  s.ops.any (fun p => match p.kind with
    | .copy c => c.req.kind.stores && c.res.any here
    | .bank _ _ _ h => h == o.handle
    | _ => p.resolved?.any here)

/-- PAGE_PLACEMENT: the page or block is brought to its place, its descriptor is written with `VALID` 1 behind markers, and RETRY
answers the fault. One that the manager cannot place, which tier STORAGE says, gets its object's `ERR` set, and the fault is delivered
(R441). During a takeover the request waits (R457). -/
def execPagePlacement (x : PageArgs) (r : ResWord) (s : State) : Host.Outcome State Fault Refusal :=
  match s.live? x.hd with
  | none => .next s
  | some o =>
    let v := o.verOf (x.ver.map (BitVec.ofNat 64))
    if s.takeover.contains r.mere || s.managerWaits o.e.part.toNat then .next s
    else match o.spot? s v x.page (fun y => !y.valid) with
    | none => if (o.spot? s v x.page Spotted.valid).isSome then retryWord r s else .next s
    | some y =>
      if x.tier = 4 then deliverWord r (s.setErr o.home o.num o.e.gen)
      else match s.target o x y with
      | none => .next s
      | some q =>
        let s' := s.mark
        -- a store that resolved before the page left its place lands there first (R190, R206)
        if y.known && s'.storing o then .next s
        else
          let s := if y.known then s'.copyBytes (y.from s' o.home) (s'.phys q x.addr.toNat) (y.size o.e) else s'
          retryWord r (s.describe o v x.page x y true)

/-! ### Moves (R50, R51, R462) -/

/-- Whether a copy that resolved under a pin of an object is still on its way (R282). -/
def State.pinnedCopy (s : State) (o : Obj) : Bool :=
  s.ops.any (fun p => match p.resolved? with | some r => r.pinned && r.home == o.home && r.num == o.num | none => false)

/-- Whether a pin holds a page or block in place, or a copy that resolved under one does (R50, R282). -/
def Obj.holds (s : State) (o : Obj) (y : Spotted) : Bool :=
  s.pinnedCopy o ||
  (match y with
   | .page _ d => d.getLsbD 1 || decide (0 < o.pagePins)
   | .block b => s.blockPinned o.home b || (s.sharers o).any s.pinnedCopy)

/-- PAGE_MOVE: the descriptor is made invalid, the page is copied, the descriptor names the new place (R462). During a takeover it waits
(R457). -/
def execPageMove (x : PageArgs) (phase : BitVec 2) (s : State) : Host.Outcome State Fault Refusal :=
  match s.live? x.hd with
  | none => .next s
  | some o =>
    let v := o.verOf (x.ver.map (BitVec.ofNat 64))
    if s.managerWaits o.e.part.toNat then .next s
    else match phase.toNat with
    | 0 =>
      (match o.spot? s v x.page Spotted.valid with
      | some y =>
        if o.holds s y then .next s
        else
          let s := s.mark
          (match y with
          | .page q d => .next (s.modObj o.home o.num (fun o => o.setDesc q v x.page (d &&& ~~~1#64)))
          | .block b => .next (s.setBlock o.home b { b with valid := false }))
      | none => .next s)
    | 1 =>
      (match o.spot? s v x.page (fun y => !y.valid && y.known) with
      | some y => (match s.target o x y with
        | some q =>
          if s.storing o then .next s
          else
            let n := y.size o.e
            let s := s.copyBytes (y.from s o.home) (s.phys q x.addr.toNat) n
            .next { s with moving := s.moving ++ (pagesOf x.addr.toNat n).map (fun f => (q, f)) }
        | none => .next s)
      | none => .next s)
    | 2 =>
      (match o.spot? s v x.page (fun y => !y.valid && y.known) with
      | some y =>
        let q := if x.tier = 3 then x.pkg.toNat else y.pkg o.home
        let fs := (pagesOf x.addr.toNat (y.size o.e)).map (fun f => (q, f))
        if fs.all s.moving.contains then
          let s := s.mark
          let s := s.describe o v x.page x y true
          .next { s with moving := s.moving.filter (fun m => !fs.contains m) }
        else .next s
      | none => .next s)
    | _ => .next s

/-- Whether an object's storage of `n` bytes can be kept in the slice segments from an address on: carved, within one slice, free, and
where its swizzle may start (R48, R176, R178). -/
def State.sliceSpace (s : State) (o : Obj) (addr n : Nat) : Bool :=
  let core := addr / 0x100000
  let segs := (List.range (ceilDiv (addr % 65536 + n) 65536)).map (fun i => addr % 0x100000 / 65536 + i)
  decide (addr < 0x40000000) && segs.all (fun j => decide (j < 14) && (s.core core).carve.getLsbD j) && o.e.swizzleFits addr &&
  s.takenSlices.all (fun t => decide (t.2 ≤ addr ∨ addr + n ≤ t.1))

/-- Puts storage of an object on this package into another layout, in every version that lies there. -/
def Obj.relocate (o : Obj) (here : Nat) (old new : Layout) : Obj :=
  { o with maps := o.maps.map (fun m => if m.1 == here && m.2.2 == old then (m.1, m.2.1, new) else m) }

/-- Moves storage of an object, the slices at an address of this package, into free pages (R48, R93); none where no pages are free. Where a
pin is held, the old copy stays until the pins go (R50). -/
def State.spillAt (s : State) (o : Obj) (b : BitVec 48) : Option State :=
  let here := s.package.toNat
  let len := o.e.storageBytes (o.e.shardOn here)
  let n := ceilDiv len 65536
  (s.freeRun here o.e.part.toNat (n + ceilDiv (8 * n) 65536)).map (fun f =>
    let s := s.copyBytes (s.phys here b.toNat) (s.phys here f) len
    let ds := (List.range n).map (fun i => mkDesc 1 0 (f + 65536 * i) false true)
    let at_ (v : Ver) (o : Obj) : Bool := here == o.home && findMap o.maps here v == some (Layout.slices b)
    let loc := BitVec.ofNat 48 (f + 65536 * n)
    s.modHandle o.handle (fun o =>
      let o := if at_ .working o && !at_ .current o then { o with workLoc := loc } else o
      let o := if at_ .current o then o.mod (fun e => { e with loc := loc }) else o
      ({ o.relocate here (Layout.slices b) (Layout.pages ds) with
        spilled := if o.pinnedAny then o.spilled ++ [(here, Layout.slices b)] else [] } : Obj).retier))

/-- Moves the current version that this package keeps of an object out of SRAM. -/
def State.spill (s : State) (o : Obj) : Option State :=
  match findMap o.maps s.package.toNat .current with
  | some (.slices b) => s.spillAt o b
  | _ => none

/-- The slices that this package keeps an object's versions in. -/
def Obj.slicesOn (o : Obj) (here : Nat) : List (BitVec 48) :=
  (o.maps.filterMap (fun m => match m.2.2 with | .slices b => if m.1 = here then some b else none | _ => none)).eraseDups

/-- Moves whatever this package keeps in SRAM of any object into free pages, every version, shard and replica of it, and what a destroyed
object's pins still hold (R491); none where pages are wanting. -/
def State.spillAll (s : State) : Option State :=
  (s.objs ++ s.ghosts).foldl (fun r o => (o.slicesOn s.package.toNat).foldl (fun r b => r.bind (fun s => s.spillAt o b)) r) (some s)

/-- Moves the whole of an object into SRAM (R48). -/
def State.lift (s : State) (o : Obj) (addr : Nat) : Option State :=
  let here := s.package.toNat
  let len := o.e.storageBytes 0
  match findMap o.maps here .current with
  | some (.pages ds) =>
    if o.home = here ∧ o.e.shmode = 0 ∧ o.e.repn = 0 ∧ o.maps.all (fun m => m.2.1 != .working || m.2.2 == Layout.pages ds) ∧
       ds.all (fun d => descValid d && descTier d != 4 && !d.getLsbD 1) ∧ s.sliceSpace o addr len then
      let bs := ds.flatMap (fun d => s.bytes (placeAt s here (descTier d) (field d 60 51) (descAddr d)) 65536)
      let s := s.store (s.phys here addr) (bs.take len)
      some (s.modObj o.home o.num (fun o => (o.relocate here (.pages ds) (.slices (BitVec.ofNat 48 addr))).mod
        (fun (e : Entry) => { e with loc := BitVec.ofNat 48 addr, tier := 0 })))
    else none
  | _ => none

/-- The old copy of a page or block that is spilled under a pin stays with every sequence or object whose pin covers it (R50). -/
def State.keepOld (s : State) (o : Obj) (y : Spotted) : State :=
  match y with
  | .page q d => s.modObj o.home o.num (fun o => { o with spilled := o.spilled ++ [(q, .pages [d])] })
  | .block b => { s with objs := s.objs.map (fun z =>
      if z.home == o.home && z.pinnedAny && z.blockList.any (fun c => c.addr == b.addr) then { z with spilled := z.spilled ++ [(o.home, .blocks [b])] } else z) }

/-- Whether a copy that has not resolved asks for a page or block of an object; `none`: for any of it. -/
def State.asks (s : State) (o : Obj) (page : Option Nat) (c : CopyOp) : Bool :=
  c.res.isNone && (match s.live? c.req.hreg.h with
    | some x => (match s.view x (shCdim c.req.shape) with
      | .ok a => a.home == o.home && a.num == o.num && (match page with
        | some u => (a.e.units (c.req.place a.e).offsets).contains u
        | none => true)
      | .error _ => false)
    | none => false)
/-- Whether no request for a page of an object still waits for its promotion (R51): none in flight that reaches it has yet to resolve. -/
def State.served (s : State) (o : Obj) (page : Option Nat) : Bool :=
  !s.ops.any (fun p => match p.kind with | .copy c => s.asks o page c | _ => false)

/-- What a promotion or a spill leaves behind its marker: none where it cannot land yet. A page that a pin holds is only spilled, to a
slower tier, and then copied first (R50). -/
def State.landed (s : State) (o : Obj) (x : PageArgs) : Option State :=
  let v := o.verOf (x.ver.map (BitVec.ofNat 64))
  let s := s.mark
  match s.live? x.hd with
  | none => none
  | some o =>
    if s.storing o then none
    else if x.tier = 0 then (if o.pagePins = 0 && !s.pinnedCopy o then s.lift o x.addr.toNat else none)
    else match o.spot? s v x.page Spotted.valid with
      | some y =>
        let held := o.holds s y
        if held && decide (x.tier.toNat ≤ y.tier?.getD 0) then none
        else (match s.target o x y with
          | some q =>
            let s := if held then s.keepOld o y else s
            some ((s.copyBytes (y.from s o.home) (s.phys q x.addr.toNat) (y.size o.e)).describe o v x.page x y true)
          | none => none)
      | none => s.spill o

/-- PROMOTION_LAND: a move that a promotion asked for takes effect at its marker; one that comes after every request for the page has
been served is late: it is counted, and the page goes to the cold end of its tier's replacement order (R51). An event that calls late
what is not, or the reverse, does not happen. During a takeover it waits (R457). -/
def execPromotionLand (x : PageArgs) (late : Bool) (s : State) : Host.Outcome State Fault Refusal :=
  match s.live? x.hd with
  | none => .next s
  | some o =>
    if s.managerWaits o.e.part.toNat || late != s.served o (if x.tier = 0 then none else some x.page) then .next s
    else match s.landed o x with
    | none => .next s
    | some s =>
      let m := s.homeMere o.e.part.toNat
      let me := (o.home, o.num, x.page)
      let s := { s with cold := s.cold.filter (fun c => c != me) ++ (if late then [me] else []) }
      .next (if late then s.setMere m { s.mere m with latePromo := satInc (s.mere m).latePromo } else s)

/-! ### Views (R59, R441) -/

/-- Storage bytes of a rebuilt view: what the conversion gives is not stated, so every byte is a free value. -/
def State.fillView (s : State) (a : Obj) : State :=
  let len := (List.range a.e.shards).map (fun k => a.e.storageBytes k)
  let (n, s) := s.draw (len.foldl max 0)
  (a.maps.filter (fun m => m.2.1 == .current)).foldl (fun s m =>
    let k := if a.e.shmode = 0 then 0 else m.1 - a.e.shbase.toNat
    (List.range (len.getD k 0)).foldl (fun s i => match m.2.2.at s m.1 a.e i with
      | .ok p => s.store p [(Config.freeSum (n + i)).extractLsb' 0 8]
      | .error _ => s) s) s

/-- The request behind a record: that of the unit that the record names, or of its engine's own instruction. -/
def State.askedShape (s : State) (w : EngRef) (f : FaultRec) : Option (BitVec 128) :=
  let c := s.core w.core
  match f.uclass with
  | .tile => ((c.tile f.unit).replay).map (fun r => r.shape)
  | .queue => ((c.queue f.unit).findSome? (fun x => match x with | .poison _ _ r => r | _ => none)).map (fun r => r.shape)
  | .bank => ((c.bank f.unit).source).map (fun r => r.shape)
  | .none => match decode f.word0 f.word1 with
    | .instr (.cpqo _ q) => some (s.xreg w q.xs)
    | _ => none

/-- The alternate view that the object manager can rebuild for a fault: it exists, and serves the dimension that a MISSING_VIEW asks for
(R58, R441). -/
def State.rebuilt (s : State) (o : Obj) (w : EngRef) (f : FaultRec) : Option Obj :=
  match s.obj? o.home o.e.altObj with
  | none => none
  | some a =>
    let serves := match s.askedShape w f with | some x => shCdim x = 0 || a.e.serves (shCdim x - 1) | none => true
    if o.e.altObj = 0 ∨ a.e.gen ≠ o.e.altGen ∨ a.e.typ ≠ .tensor ∨ !serves then none else some a

/-- VIEW_REBUILD: the other view is rebuilt, `ALT_STALE` of both clears, and RETRY answers the fault; where no alternate view serves what a
MISSING_VIEW asks for, the fault is delivered (R441). A word that answers no awaited MISSING_VIEW is ignored (R435). During a takeover it waits
(R457). -/
def execViewRebuild (hd : BitVec 64) (r : ResWord) (s : State) : Host.Outcome State Fault Refusal :=
  match s.live? hd with
  | none => .next s
  | some o =>
    if s.takeover.contains r.mere || s.managerWaits o.e.part.toNat then .next s
    else match s.awaited r with
    | none => retryWord r s
    | some f =>
      if f.code ≠ .missingView then .next s
      else match s.rebuilt o r.who f with
      | none => deliverWord r s
      | some a =>
        let s := (s.mark).fillView a
        let fresh (o : Obj) : Obj := o.mod (fun e => { e with altStale := false })
        retryWord r ((s.modObj o.home o.num fresh).modObj a.home a.num fresh)

/-! ### Sealing, creating and destroying (R40, R81, R82, R278) -/

/-- Delivers a code to waiters; the reservations of those that are killed are abandoned. -/
def State.deliverAll (s : State) (code : Code) (ws : List Waiter) : State :=
  let (s, gone) := ws.foldl (fun (a : State × List (Nat × Owner)) w =>
    let (s, o) := a.1.deliverWaiter code w
    (s, match o with | some y => a.2 ++ [(w.part, y)] | none => a.2)) (s, [])
  gone.foldl (fun s g => s.abandon g.1 g.2) s

/-- SEQUENCE_SEAL: a sequence with a reservation whose owner is gone is sealed at `VALUE`, under a partition's policy that seals
(R94). -/
def execSequenceSeal (hd : BitVec 64) (s : State) : Host.Outcome State Fault Refusal :=
  match s.live? hd with
  | none => .next s
  | some o =>
    let seals := match s.part? o.e.part.toNat with | some p => p.cfg.sealAbandoned | none => true
    if s.managerWaits o.e.part.toNat ∨ o.e.typ ≠ .sequence ∨ o.e.sealedBit ∨ !seals then .next s
    else
      let (o', ws) := abandonResv .nobody true o
      .next ((s.putObj o').deliverAll .seqSealed ws)

/-- The partition whose ranges hold an object number (R41). -/
def State.ownerOf (s : State) (n : BitVec 40) : Option Part := s.parts.find? (fun p => p.cfg.ranges.any (fun r => decide (r.1 ≤ n.toNat ∧ n.toNat ≤ r.2)))

/-- Splits a list of descriptors into pieces of given lengths; a descriptor that is not given is zero. -/
def splitDescs : List Nat → List (BitVec 64) → List (List (BitVec 64))
  | [], _ => []
  | n :: ns, ds => (ds.take n ++ List.replicate (n - ds.length) 0) :: splitDescs ns (ds.drop n)

/-- The maps of a new object: of a sharded one every shard's in turn, of a replicated one the home's and every replica's. -/
def newMaps (home : Nat) (e : Entry) (ds : List (BitVec 64)) : List (Nat × Ver × Layout) :=
  match e.typ with
  | .sequence =>
    [(home, .current, .blocks ((ds.zipIdx).filterMap (fun d => if d.1 = 0 then none else
      some ⟨d.2, BitVec.ofNat 48 (16 * field d.1 47 4), d.1.extractLsb' 1 3, d.1.getLsbD 0, true⟩)))]
  | .tensor =>
    let qs : List (Nat × Nat) := if e.shmode = 0 then (home :: e.replicas).eraseDups.map (fun q => (q, 0)) else (List.range e.shards).map (fun k => (e.shardPkg home k, k))
    if e.tier = 0 then qs.map (fun q => (q.1, .current, .slices e.loc))
    else (qs.zip (splitDescs (qs.map (fun q => ceilDiv (e.storageBytes q.2) 65536)) ds)).map (fun q => (q.1.1, .current, .pages q.2))
  | _ => [(home, .current, .nothing)]

/-- A new object that names another as its view becomes that one's alternate, behind markers (R45, R58). -/
def State.linkView (s : State) (o : Obj) : State :=
  match s.obj? o.home o.e.altObj with
  | some a =>
    if o.e.altObj = 0 ∨ o.e.typ ≠ .tensor ∨ a.e.typ ≠ .tensor ∨ a.e.gen ≠ o.e.altGen then s
    else (s.mark).modObj a.home a.num (fun z => z.mod (fun e => { e with altObj := o.num, altGen := o.e.gen }))
  | none => s

/-- The view of an object that is destroyed has no alternate any more, behind markers (R45), and its `ALT_STALE`, which speaks of the two
views, clears (DESIGN CHOICE, log 136). -/
def State.unlinkView (s : State) (o : Obj) : State :=
  match s.obj? o.home o.e.altObj with
  | some a =>
    if o.e.altObj = 0 ∨ a.e.altObj ≠ o.num ∨ a.e.altGen ≠ o.e.gen then s
    else (s.mark).modObj a.home a.num (fun z => z.mod (fun e => { e with altObj := 0, altGen := 0, altStale := false }))
  | none => s

/-- OBJECT_CREATE: a FREE entry of a partition's ranges becomes an object, the RO fields at their start (R40 to R42). -/
def execObjectCreate (x : CreateArgs) (s : State) : Host.Outcome State Fault Refusal :=
  let home := s.package.toNat
  match s.ownerOf x.obj with
  | none => .next s
  | some p =>
    let e := { Entry.ofBits x.bits with
      next := 0, pinCnt := 0, value := 0, altStale := false, err := false, sealedBit := false, part := BitVec.ofNat 5 p.cfg.id }
    let o := ({ home := home, num := x.obj, e := e, maps := newMaps home e x.pages } : Obj).retier
    let free := match s.obj? home x.obj with | some f => f.e.typ == .free | none => true
    let frames := o.maps.flatMap (fun m => (m.2.2.frames e).map (fun f => (m.1, f)))
    let room := o.maps.all (fun m => match m.2.2 with
      | .slices b => m.1 != home || s.sliceSpace o b.toNat (e.storageBytes (e.shardOn home))
      | l => (l.frames e).all (fun f => !(s.usedFrames m.1).contains f))
    -- the pages that it takes here are the partition's, within its quotas
    let mine := (frames.filter (fun f => f.1 == home)).map (fun f => f.2)
    let fits := s.inPool p.cfg.id (mine.filter (inTier 1)) && s.quotaOk p.cfg.id 1 (mine.filter (inTier 1)).length &&
      s.quotaOk p.cfg.id 2 (mine.filter (inTier 2)).length
    if s.managerWaits p.cfg.id ∨ x.obj = 0 ∨ !free ∨ !e.consistent ∨ frames.eraseDups ≠ frames ∨ !room ∨ !fits then .next s
    else .next (let (s, o) := s.createObj o; s.linkView o)

/-- Destroys an object: its entry is FREE at the next generation, its waiters are told, its storage stays while something holds it
(R40, R81, R278, R282). -/
def State.destroy (s : State) (o : Obj) : State :=
  let s := s.unlinkView o
  let gen := if o.e.gen = 0xFF then 1 else o.e.gen + 1
  let s := s.putObj { home := o.home, num := o.num, e := { gen := gen, part := o.e.part } }
  let s := { s with ghosts := s.ghosts ++ [{ o with waiters := [], resv := [] }] }.sweep
  s.deliverAll .staleHandle o.waiters

/-- OBJECT_DESTROY; during a takeover it waits (R457). -/
def execObjectDestroy (hd : BitVec 64) (s : State) : Host.Outcome State Fault Refusal :=
  match s.live? hd with
  | none => .next s
  | some o =>
    if s.managerWaits o.e.part.toNat then .next s
    else
      let s := s.mark
      match s.live? hd with
      | some o => .next (s.destroy o)
      | none => .next s

/-! ### Replicas (R45, R55, R205) -/

/-- The page map of a new replica: free pages of its package, which hold the home's contents. -/
def State.replica (s : State) (o : Obj) (q : Nat) : Option (State × Layout) :=
  match findMap o.maps o.home .current with
  | none => none
  | some l =>
    let len := o.e.storageBytes 0
    let n := ceilDiv len 65536
    if !(List.range n).all (fun i => match l.at s o.home o.e (65536 * i) with | .ok _ => true | .error _ => false) then none
    else match s.freeRun q o.e.part.toNat n with
      | none => none
      | some f =>
        let s := (List.range n).foldl (fun s i => match l.at s o.home o.e (65536 * i) with
          | .ok a => s.copyBytes a (s.phys q (f + 65536 * i)) (min 65536 (len - 65536 * i))
          | .error _ => s) s
        some (s, .pages ((List.range n).map (fun i => mkDesc 1 0 (f + 65536 * i) false true)))

/-- Makes the maps of the replicas that an object does not have yet. -/
def State.addReplicas (s : State) (o : Obj) : List Nat → Option (State × Obj)
  | [] => some (s, o)
  | q :: qs =>
    if (findMap o.maps q .current).isSome then s.addReplicas o qs
    else match s.replica o q with
      | some (s, l) =>
        let o := { o with maps := o.maps ++ [(q, .current, l)] }
        (s.putObj o).addReplicas o qs
      | none => none

/-- OBJECT_REPLICATE: the replica list is rewritten behind markers. -/
def execObjectReplicate (hd : BitVec 64) (pkgs : List (BitVec 10)) (s : State) : Host.Outcome State Fault Refusal :=
  match s.live? hd with
  | none => .next s
  | some o =>
    let qs := pkgs.map BitVec.toNat
    if s.managerWaits o.e.part.toNat ∨ o.e.typ ≠ .tensor ∨ o.e.shmode ≠ 0 ∨ 4 < qs.length ∨ qs.eraseDups ≠ qs ∨ qs.contains o.home ∨ !o.locks.isEmpty then .next s
    else
      let s' := s.mark
      match s'.live? hd with
      | none => .next s
      | some o =>
        -- a store that has resolved must land first, and a working copy must be published
        if s'.storing o ∨ o.maps.any (fun m => m.2.1 == .working) then .next s
        else match s'.addReplicas o qs with
        | none => .next s
        | some (s, o) =>
          let at_ (i : Nat) : BitVec 10 := pkgs.getD i 0
          .next (s.putObj { o with
            maps := o.maps.filter (fun m => m.1 == o.home || qs.contains m.1)
            e := { o.e with repn := BitVec.ofNat 3 qs.length, reps := at_ 0 ++ at_ 1 ++ at_ 2 ++ at_ 3 } })

/-! ### Requests of other packages (R215, R483) -/

/-- The owner number that a lock of another package's home carries (R56). -/
def peerLock (src : BitVec 10) : Nat := 2 ^ 64 + src.toNat

/-- An add of another package to an element: at once, or at a replicated object as an update that locks every copy first (R56). -/
def State.peerAdd (s : State) (x : PeerArgs) (o : Obj) (n : Nat) (v : BitVec 32) (answers : Bool) : Except Trap (Option State) := do
  let (s, r) ← s.atomPlace o n
  if 1 < r.maps.length then return some (s.startUpdate r (.peerAtom n .add v x.src answers))
  else
    let (s, old) := s.performAtom r n .add v
    return some (s.answer x.src (if answers then leBytes 4 old.toNat else []))

/-- What a request of another package does to an object; none where it has to wait. -/
def State.peer (s : State) (x : PeerArgs) (o : Obj) : Except Trap (Option State) := do
  let bad (i : Nat) : Trap := { code := .bounds, handle := x.hd, info := BitVec.ofNat 64 i }
  match x.req with
  | .store off bytes =>
    o.needType [.tensor]
    o.needRights [.write]
    need (!o.e.rwin) { code := .rights, handle := x.hd }
    need (decide (off + bytes.length ≤ o.e.storageBytes (s.winShard o.e))) (bad off)
    s.needSound o
    if bytes.isEmpty then return some (s.answer x.src [])
    else if o.locks.any (fun k => k.2 != peerLock x.src) then return none
    else match s.storeSpots o off bytes.length with
      | some (s, o, ms) => return some (s.hostStore o ms off bytes (some x.src))
      | none => throw (s.missing o .current (off / 65536))
  | .read off n =>
    o.needType [.tensor, .sequence]
    o.needRights [.read]
    need (decide (off + n ≤ (if o.e.typ = .sequence then o.val * o.e.rowb else o.e.storageBytes (s.winShard o.e)))) (bad off)
    s.needSound o
    if !o.locks.isEmpty then return none
    else match s.readRaw o .current off n with
      | some bs => return some (s.answer x.src bs)
      | none => throw (s.missing o .current (off / 65536))
  | .atomicAdd n v =>
    need (o.e.typ == .tensor && (o.e.fmt == 8 || o.e.fmt == 0) && o.e.scfmt == 0) { code := .objType, handle := x.hd }
    o.needRights [.write, .read]
    need (!o.e.rwin) { code := .rights, handle := x.hd }
    need (decide (n < o.e.elems)) (bad n)
    s.needSound o
    if !o.locks.isEmpty then return none
    else
      s.peerAdd x o n v true
  | .reduce n v =>
    need (o.e.typ == .tensor && (o.e.fmt == 8 || o.e.fmt == 0) && o.e.scfmt == 0) { code := .objType, handle := x.hd }
    o.needRights [.write]
    need o.e.rwin { code := .rights, handle := x.hd }
    need (decide (n < o.e.elems)) (bad n)
    s.needSound o
    if !o.locks.isEmpty then return none
    else
      s.peerAdd x o n v false
  | .counterAdd v =>
    o.needType [.counter]
    o.needRights [.write]
    let o' ← counterAdd o v
    s.needSound o
    return some ((s.putAndWake o').answer x.src [])
  | .lock =>
    o.needType [.tensor]
    if !o.locks.isEmpty then return none
    else return some ((s.putObj { o with locks := [(s.package.toNat, peerLock x.src)] }).answer x.src [])
  | .unlock => return some ((s.putObj { o with locks := o.locks.filter (fun k => k.2 != peerLock x.src) }).answer x.src [])
  | .waiter target id =>
    o.needRights [.read]
    need (o.e.typ != .sequence || decide (target.toNat ≤ o.e.capacity)) (bad target.toNat)
    s.needSound o
    if target.toNat ≤ o.val then return some { s with sent := s.sent ++ [.peerWake x.src.toNat id] }
    else if o.e.typ = .sequence ∧ o.e.sealedBit then throw { code := .seqSealed, handle := x.hd }
    else return some (s.putObj { o with waiters := o.waiters ++ [⟨target, 32 + x.src.toNat, id⟩] })

/-- Whether a request of another package updates an object. -/
def updatesObject : PeerReq → Bool
  | .store _ _ | .atomicAdd _ _ | .reduce _ _ | .lock => true
  | _ => false

/-- A request that comes during a checkpoint waits; but an update of an object of another home that meets this package's replica finds no
answer here, and its home abandons it: this package leaves the replica list (R57, R492). -/
def State.peerHeld (s : State) (x : PeerArgs) : State :=
  match s.resolve x.part x.hd with
  | .ok o => if !s.warmHold && updatesObject x.req && o.home != s.package.toNat && o.e.replicas.contains s.package.toNat then s.dropReplica o s.package else s
  | .error _ => s

/-- PEER_REQUEST: done at the object's home here, or answered with the fault's code; `MISSING_OBJECT` while the partition is reset. -/
def execPeerRequest (x : PeerArgs) (s : State) : Host.Outcome State Fault Refusal :=
  let fail (c : Code) : State := { s with sent := s.sent ++ [.peerFault x.src c] }
  if s.hostHeld then .next (s.peerHeld x)
  else if (match s.ownerOf (hObj x.hd) with | some p => p.rstBusy | none => false) then .next (fail .missingObject)
  else match s.resolve x.part x.hd with
    | .error t => .next (fail t.code)
    | .ok o => match s.peer x o with
      | .ok (some s) => .next s
      | .ok none => .next s
      | .error t => .next (fail t.code)

/-! ### Full context switches (R171, R172, R450, R451) -/

/-- Numbers of a class's resources of a context. -/
def ofCtx (ctx : Bool) (n reserved : Nat) : List Nat := (List.range n).filter (fun i => decide (reserved ≤ i) == ctx)

/-- A bit mask of the numbers listed. -/
def maskOf (n : Nat) (l : List Nat) : BitVec n := l.foldl (fun b i => b ||| (1 <<< i)) 0

/-- Whether a tile is saved (R171). -/
def Tile.saved (x : Tile) : Bool := match x.st with | .ready => true | .poisoned => true | _ => false

/-- Barrier numbers of a task at which any participant has arrived (R171). -/
def State.openBars (s : State) (core : Nat) (ctx : Bool) (t : Task) : List Nat :=
  (List.range 48).filter (fun n => t.hasB ctx n && s.bars.any (fun b =>
    b.id.num == n && b.id.part == t.part && b.id.ctx == ctx && b.id.unit == unitOf b.id.scope core && decide (0 < b.arrivals)))

/-- The reservations of a task: sequences and slot ranges. -/
def State.resvOf (s : State) (tid : Nat) : List (BitVec 64 × Nat × Nat) :=
  s.objs.flatMap (fun o => (o.resv.filter (fun r => r.owner == .task tid)).map (fun r => (o.handle, r.lo, r.hi)))

/-- The accumulator tiles of a context that a save holds: in use and dirty, those that the core has borrowed among them (R171, R452). -/
def Core.savedAccs (c : Core) (ctx : Bool) : List Nat :=
  (List.range 16).filter (fun i => let x := c.acc i; x.inUse && x.dirty && (if ctx then decide (12 ≤ i) && !x.lent else decide (i < 12) || x.lent))
/-- The tiles of a context that a save holds. -/
def Core.savedTiles (c : Core) (ctx : Bool) : List Nat := (ofCtx ctx 64 48).filter (fun i => (c.tile i).saved)
/-- The queues of a context that a save holds. -/
def Core.savedQueues (c : Core) (ctx : Bool) : List Nat := (ofCtx ctx 32 24).filter (fun i => !(c.queue i).isEmpty)
/-- The banks of a context that a save holds. -/
def Core.savedBanks (c : Core) (ctx : Bool) : List Nat := (ofCtx ctx 8 7).filter (fun i => decide ((c.bank i).st = .ready) && (c.bank i).written)

/-- Bytes of a save whose layout R451 leaves open. -/
def openBytes (n : Nat) : List (Option Byte) := List.replicate n none
/-- A section, which the next one follows at a multiple of 64 bytes (R451). -/
def padSection (l : List (Option Byte)) : List (Option Byte) := l ++ openBytes (roundUp l.length 64 - l.length)

/-- The sections of one context in the order of R451: registers, pins and reservations, barriers, accumulators, tiles, queues, banks. What
R451 lays out has its bytes: scalar registers and guard masks, handles, cells, buffers, entries; the places of the rest are open. -/
def State.sections (s : State) (core : Nat) (ctx : Bool) (t : Task) : List (Option Byte) :=
  let c := s.core core
  let x := c.ctx ctx
  let known (l : List Byte) : List (Option Byte) := l.map some
  let regs := known (x.s.toList.flatMap (fun r => leBytes 8 r.toNat) ++ x.g.toList.flatMap (fun r => leBytes 64 r.toNat))
  let held := t.pins.map (fun p => (BitVec.ofNat 16 p.home ++ p.num ++ p.gen : BitVec 64)) ++ (s.resvOf t.tid).map (fun r => r.1)
  let queue (i : Nat) : List (Option Byte) := openBytes 64 ++ (c.queue i).flatMap (fun e => match e.bits? with
    | some b => known (leBytes 512 b.toNat)
    | none => openBytes 512)
  let tile (i : Nat) : List (Option Byte) :=
    let y := c.tile i
    openBytes 64 ++ (if y.st = .ready then known (s.tileBytes core y 0 y.size) else [])
  regs ++ openBytes (3072 - regs.length) ++
  padSection (held.flatMap (fun h => known (leBytes 8 h.toNat) ++ openBytes 8)) ++
  padSection (openBytes (8 * (s.openBars core ctx t).length)) ++
  ((c.savedAccs ctx).flatMap (fun i => openBytes 64 ++ known (leBytes 16384 (c.acc i).cells.toNat))) ++
  ((c.savedTiles ctx).flatMap (fun i => padSection (tile i))) ++
  ((c.savedQueues ctx).flatMap queue) ++
  ((c.savedBanks ctx).flatMap (fun i => openBytes 64 ++ known (leBytes 1024 (c.bank i).bits.toNat)))

/-- The records that the engines of a context await. -/
def Ctx.awaited (x : Ctx) : List FaultRec :=
  [x.c, x.l, x.m, x.v].filterMap (fun e => match e.st with | .awaiting r => some r | _ => none)

/-- The header of a save object (R450): its masks name what both contexts hold where both are saved. -/
def State.header (s : State) (core : Nat) (length sflags gpos : Nat) (t : Task) : BitVec 512 :=
  let c := s.core core
  let both (saved : Bool → List Nat) : List Nat := saved false ++ (if c.c1.task.isSome then saved true else [])
  recCode t.record ++ s.cycles ++ BitVec.ofNat 32 length ++ BitVec.ofNat 16 (recNode t.record) ++ Config.devId.extractLsb' 16 16 ++
  maskOf 16 (both c.savedAccs) ++ maskOf 64 (both c.savedTiles) ++ maskOf 32 (both c.savedQueues) ++ maskOf 8 (both c.savedBanks) ++
  maskOf 40 (s.openBars core false t) ++ BitVec.ofNat 16 t.pins.length ++ BitVec.ofNat 16 (s.resvOf t.tid).length ++ 1#16 ++
  BitVec.ofNat 16 core ++ BitVec.ofNat 8 sflags ++ BitVec.ofNat 2 gpos ++ 0#86

/-- The bytes of a save object: the header, context 0's sections, then what `SFLAGS` names (R450 to R452): the awaited records, the
group, context 1. -/
def State.saveBytes (s : State) (core : Nat) (t : Task) : List (Option Byte) :=
  let c := s.core core
  let recs := c.c0.awaited ++ c.c1.awaited
  let member := match c.group with | some g => g.bound | none => false
  let body := (match c.c0.task with | some t => s.sections core false t | none => openBytes 3072) ++
    (recs.flatMap (fun r => (leBytes 64 r.bits.toNat).map some)) ++ (if member then openBytes 64 else []) ++
    (match c.c1.task with | some t => s.sections core true t | none => [])
  let sflags := (if recs.isEmpty then 0 else 1) + (if member then 2 else 0) + (if c.c1.task.isSome then 4 else 0)
  (leBytes 64 (s.header core (64 + body.length) sflags (if member then core % 4 else 0) t).toNat).map some ++ body

/-- Stores a save into its object; the bytes whose layout is open are free values. None where the object cannot take it now. -/
def State.writeSave (s : State) (o : Obj) (bs : List (Option Byte)) : Option State :=
  match s.storeSpots o 0 bs.length with
  | none => none
  | some (s, o, ms) =>
    let (k, s) := s.draw bs.length
    some (s.hostStore o ms 0 ((bs.zipIdx).map (fun b => b.1.getD ((Config.outside (k + b.2)).extractLsb' 0 8))) none)

/-- A new save object of a partition on this package (R450); none where no number or no page is free. -/
def State.saveObject (s : State) (p n : Nat) : Option (State × Obj) :=
  let here := s.package.toNat
  let words := roundUp (ceilDiv n 4) 16
  let pages := ceilDiv (4 * words) 65536
  match s.freeNumber p here, s.freeRun here p (pages + ceilDiv (8 * pages) 65536) with
  | some num, some f =>
    some (s.createObj { home := here, num := num
                        e := { typ := .tensor, fmt := 8, blkC := 4, ext0 := BitVec.ofNat 32 words, loc := BitVec.ofNat 48 (f + 65536 * pages), tier := 1,
                               part := BitVec.ofNat 5 p }
                        maps := [(here, .current, .pages ((List.range pages).map (fun i => mkDesc 1 0 (f + 65536 * i) false true)))] })
  | _, _ => none

/-- What a save keeps of a core: accumulators not dirty as zeros, and of the engines neither their stalls nor the watchdogs' counts
(R171). -/
def Core.image (c : Core) : Core :=
  let still (e : Engine) : Engine := { e with wdog := 0, stall := none }
  let ctx (x : Ctx) : Ctx := { x with c := still x.c, l := still x.l, m := still x.m, v := still x.v }
  let c := { c with c0 := ctx c.c0, c1 := ctx c.c1 }
  (List.range 16).foldl (fun c i => let a := c.acc i; c.setAcc i { a with cells := if a.dirty || a.lent then a.cells else 0, hist := [] }) c

/-- The buffers of the READY tiles of a core. -/
def State.buffers (s : State) (core : Nat) (ctx : Bool) : List (Nat × List Byte) :=
  (ofCtx ctx 64 48).filterMap (fun i => let x := (s.core core).tile i; if x.st = .ready then some (i, s.tileBytes core x 0 x.size) else none)

/-- The core as it is switched out: an ACOOP that still waits for its partners issues afresh (R171; DEDUCED, log 141). -/
def Core.atSwitch (c : Core) : Core :=
  if c.group.isSome then { c with group := none, c0 := { c.c0 with m := { c.c0.m with arrived := false } } } else c

/-- Whether a full context switch of a core's ordinary task is allowed and its issued work has completed: not while a group is bound
(R171, R450). -/
def State.maySave (s : State) (core : Nat) (t : Task) : Bool :=
  let c := s.core core
  !c.c0.awaits && c.c0.dying.isNone && !c.group.any (fun g => g.bound) && c.c1.task.isNone && c.preemptor.isNone && (s.opsOf t.tid).all (fun o => o.fireForget)

/-- CONTEXT_SWITCH_OUT: the task is saved to its save object, and its context is free; barrier instances that nothing holds any more return
to their start (R269). During a takeover of the core's mere it waits (R457; DESIGN CHOICE, log 70). -/
def execContextSwitchOut (core : Nat) (hd : BitVec 64) (s : State) : Host.Outcome State Fault Refusal :=
  let c := (s.core core).atSwitch
  match c.c0.task, s.live? hd with
  | some t, some o =>
    let bs := s.saveBytes core t
    if s.takeover.contains (mereOf core) ∨ !s.maySave core t ∨ o.home ≠ s.package.toNat ∨ o.e.part.toNat ≠ t.part ∨ o.e.typ ≠ .tensor ∨ o.e.rank ≠ 0 ∨ o.e.fmt ≠ 8 ∨ o.e.rights ≠ 0 ∨
       4 * o.e.ext0.toNat < bs.length then .next s
    else match s.writeSave o bs with
      | none => .next s
      | some s =>
        let (sid, s) := s.freshId
        let v : Save := { sid := sid, part := t.part, obj := hd, core := core, at_ := s.cycles, image := c.image, bufs := s.buffers core false, checkpoint := false }
        let s := { s with saves := s.saves ++ [v] }
        let c := c.freeAllot false
        let s := s.setCore core ({ c with lastArr := c.lastArr.filter (fun a => !t.hasB false a.num) }.setCtx false {})
        .next (s.bbox (mereOf core) { payload := hd, etype := 0x0009, core := core, part := t.part }).sweepBars.releaseHolds
  | _, _ => .next s

/-- Puts the resources and registers of a saved context into a core. -/
def Core.restore (c i : Core) (ctx : Bool) (t : Task) : Core :=
  let c := (ofCtx ctx 32 24).foldl (fun c q => c.setQueue q (i.queue q)) c
  let c := (ofCtx ctx 16 12).foldl (fun c a => c.setAcc a (i.acc a)) c
  let c := (ofCtx ctx 64 48).foldl (fun c k => c.setTile k { i.tile k with epoch := (c.tile k).epoch + 1 }) c
  let c := (ofCtx ctx 8 7).foldl (fun c k => c.setBank k (i.bank k)) c
  let c := { c with
    kept := c.kept ++ i.kept.filter (fun (x : Nat × Request) => (ofCtx ctx 32 24).contains x.1)
    lastArr := c.lastArr ++ i.lastArr.filter (fun (a : Arrival) => t.hasB ctx a.num) }
  c.setCtx ctx (i.ctx ctx)

/-- Counts the open arrivals of a restored task in the barrier instance of its core's unit; they bring their E where it has none. -/
def State.rejoin (s : State) (core : Nat) (a : Arrival) (expect : Option Nat) : State :=
  let d := s.bar { a.inst with unit := unitOf a.inst.scope core }
  let v := if d.arrivals = 0 then expect else d.expect
  let n := d.arrivals + a.count
  (s.setArrival core a.num (some { a with inst := d.id, phase := d.phase })).setBar
    (if (match v with | some e => decide (e ≤ n) | none => false) then { d with expect := v, arrivals := 0, phase := d.phase + 1 } else { d with expect := v, arrivals := n })

/-- Carries the open arrivals of a restored task over to the barrier instance of its new core: out of its old one, where that is still as
it was, or out of what the save has kept of it (R171, R172, R269; DESIGN CHOICE, log 143). -/
def State.moveArrival (s : State) (gone : List BarInst) (core : Nat) (a : Arrival) : State :=
  match gone.find? (fun b => b.id == a.inst) with
  | some b => s.rejoin core a b.expect
  | none =>
    match s.lastOpen core a.num with
    | none => s.setArrival core a.num none
    | some a =>
      let b := s.bar a.inst
      if b.id.unit = unitOf b.id.scope core then s else (s.takeArrivals b a.count).rejoin core a b.expect

/-- Restores a context of a save on a core: its buffers, its banks filled anew, its barriers (R172, R344). -/
def State.restoreCtx (s : State) (v : Save) (core : Nat) (ctx : Bool) : State :=
  match (v.image.ctx ctx).task with
  | none => s
  | some t =>
    let s := s.modCore core (fun c => c.restore v.image ctx t)
    let s := (v.bufs.filter (fun b => (ofCtx ctx 64 48).contains b.1)).foldl (fun s b =>
      let x := (s.core core).tile b.1
      s.putTile core x.off x.swz 0 b.2) s
    let s := ((ofCtx ctx 8 7).filter (fun k => ((s.core core).bank k).st = .ready && !((s.core core).bank k).written)).foldl (fun s k =>
      let s := s.modCore core (fun c => c.setBank k { c.bank k with st := .empty })
      (s.replayBank ⟨core, ctx, .l⟩ k).getD s) s
    ((s.core core).lastArr.filter (fun a => t.hasB ctx a.num)).foldl (fun s a => s.moveArrival v.gone core a) s

/-- Whether the buffers of a save's tiles lie in segments of a core that are not carved (R176). -/
def State.fits (s : State) (core : Nat) (v : Save) : Bool :=
  (List.range 48).all (fun i =>
    let x := v.image.tile i
    (List.range 16).all (fun j => !(s.core core).carve.getLsbD j || x.size == 0 || decide (x.off + x.size ≤ j * 65536 ∨ (j + 1) * 65536 ≤ x.off)))

/-- Whether a restore accepts a save object: its format is this one's, and its stepping has this part's major byte (R35, R451). -/
def State.acceptsSave (s : State) (v : Save) : Bool :=
  match (s.live? v.obj).bind (fun o => s.readRaw o .current 0 64) with
  | some bs =>
    let h := leNat bs
    decide (field (BitVec.ofNat 512 h) 127 112 = 1) && decide (field (BitVec.ofNat 512 h) 335 328 = field Config.devId 31 24)
  | none => false

/-- CONTEXT_RESTORE: a switched task resumes on a free core of its record's core set. A save object that does not fit the part is refused,
and the object manager is notified (R451). -/
def execContextRestore (p k core : Nat) (s : State) : Host.Outcome State Fault Refusal :=
  match (s.saves.filter (fun v => v.part == p && !v.checkpoint))[k]? with
  | none => .next s
  | some v =>
    match v.image.c0.task with
    | none => .next s
    | some t =>
      let c := s.core core
      let busy := match s.part? p with | some x => !s.walks x | none => true
      if s.takeover.contains (mereOf core) || busy || c.c0.task.isSome || c.hold.isSome || !(recCores t.record).contains core || !s.fits core v then .next s
      else if !s.acceptsSave v then .next { s with sent := s.sent ++ [.saveRefused p v.sid] }
      else
        let s := s.restoreCtx v core false
        let s := { s with saves := s.saves.filter (fun x => x.sid != v.sid) }
        let s := s.modCore core (fun c => { c with frozen := c.c1.task.isSome || c.preemptor.isSome })
        .next (s.sweepBars.bbox (mereOf core) { payload := v.obj, etype := 0x000A, core := core, part := p })

end Sys2Proof.Machine
end

