-- ==== Sys2Proof/Machine/Device.lean ====
section
/-! DEFINITION. The device as a whole: power-on and election, machine checks, partition resets, checkpoints, attestation and power
(R36, R444 to R447, R452 to R461, R483, R486 to R494, R496). -/

namespace Sys2Proof.Machine

open Sys2Proof

/-! ### Power-on (R454, R486, R487) -/

/-- Whether an image is accepted: its signature verifies and its security version is not below the counter (R486). -/
def accepted (i : Image) (counter : Nat) : Bool := i.sigOk && decide (counter ≤ i.version)

/-- Whether a configuration is one that a part can have (R34, R481): at most 32 partitions, each with a number of its own below 32. -/
def configFits (c : Configuration) : Bool :=
  decide (c.parts.length ≤ 32) && c.parts.all (fun p => decide (p.id < 32)) && decide ((c.parts.map (fun p => p.id)).eraseDups = c.parts.map (fun p => p.id))

/-- The carve-out masks of a configuration: bits 14 and 15 are never set (R176). -/
def carved (cs : List (Nat × BitVec 16)) : List (Nat × Core) := cs.foldl (fun l c => upsert l c.1 { carve := c.2 &&& 0x3FFF }) []

/-- POWER_ON_RESET: the state of reset, each pair's firmware and the configuration object judged against the flash's counters, the keys
derived (R488). -/
def execPowerOnReset (boot : Boot) (s : State) : Host.Outcome State Fault Refusal :=
  let fw := s.versions.getD 0 0
  let cf := s.versions.getD 1 0
  let ok (m : Nat) : Bool := match boot.firmware[m]? with | some i => accepted i fw | none => false
  let good := (List.range 8).filter ok
  let cfgOk := accepted boot.cfgImage cf && configFits boot.cfg && !good.isEmpty
  let fw' := good.foldl (fun v m => match boot.firmware[m]? with | some i => max v i.version | none => v) fw
  let firmware := (List.range 8).map (fun m => if ok m then (match boot.firmware[m]? with | some i => i.digest | none => 0) else 0)
  let r := State.reset
  .next { r with
    meres := Vector.ofFn (fun i => { verified := ok i.val })
    parts := if cfgOk then boot.cfg.parts.map (fun c => { cfg := c }) else []
    cores := if cfgOk then carved boot.cfg.carves else []
    system := if cfgOk then boot.cfg.system else []
    configured := cfgOk
    electionOpen := true
    versions := [fw', if cfgOk then max cf boot.cfgImage.version else cf]
    digests := firmware ++ [if cfgOk then boot.cfgImage.digest else 0]
    identity := Config.identityKey
    aliasKey := Config.aliasKey Config.identityKey firmware
    ckptImage := s.ckptImage
    sent := s.sent
    agenda := s.agenda
    fresh := s.fresh
    nextId := s.nextId }

/-! ### Leadership (R454, R455) -/

/-- Whether the pair of a mere can lead or serve. -/
def State.fit (s : State) (m : Nat) : Bool := (s.mere m).verified && !(s.mere m).frozen

/-- LEADER_CLAIM: a verified pair claims while the election is open. -/
def execLeaderClaim (m : Nat) (s : State) : Host.Outcome State Fault Refusal :=
  if m < 8 ∧ s.electionOpen ∧ s.leader = none ∧ s.fit m ∧ !s.claims.contains m then .next { s with claims := s.claims ++ [m] } else .next s

/-- ELECTION_GRANT: the lowest-numbered claim is granted. -/
def execElectionGrant (s : State) : Host.Outcome State Fault Refusal :=
  match s.claims, s.electionOpen, s.leader with
  | c :: cs, true, none => .next { s with leader := some (cs.foldl min c), electionOpen := false, claims := [], heartbeatAt := s.cycles }
  | _, _, _ => .next s

/-- HEARTBEAT: a takeover under way ends, and what waited for it goes on (R455, R457). -/
def execHeartbeat (s : State) : Host.Outcome State Fault Refusal :=
  .next (if s.leader.isSome then { s with heartbeatAt := s.cycles, takeover := [] } else s)

/-- The next leader: the lowest-numbered pair that can lead. -/
def State.nextLeader (s : State) : Option Nat := (List.range 8).find? s.fit

/-- A machine check of the pair of mere `m` (R447): the pair is frozen, the record goes to the mere's black box and to the leader's
fault queue; a frozen leader is replaced first. -/
def State.machineCheck (s : State) (m : Nat) (cause : BitVec 8) (paddr : BitVec 48) : State :=
  let was := s.leader
  -- the meres that the leader now serves anew: this one, and with a leader's own those that it served (R456, R457)
  let served := if was = some m then (List.range 8).filter (fun k => !s.fit k || k == m) else [m]
  let s := s.setMere m { s.mere m with frozen := true }
  let s := { s with takeover := s.takeover ++ served.filter (fun k => !s.takeover.contains k) }
  let code := Code.machineCheck.val
  let s := s.bbox m { payload := 4, etype := 0x0004, ecode := code, svc := true }
  let s := s.bbox m { payload := zx paddr, etype := 0x0006, ecode := code, svc := true }
  let s := if was = some m then
      let s := { s with leader := s.nextLeader, heartbeatAt := s.cycles }
      (match s.leader with
      | some n => s.bbox n { payload := BitVec.ofNat 64 n, etype := 0x000B, svc := true }
      | none => s)
    else s
  match s.leader with
  | some n => s.emit n { info := zx cause, core := m, kind := .machineCheck, master := .service, code := .machineCheck, paddr := paddr }
  | none => s

/-- MACHINE_CHECK. -/
def execMachineCheck (m : Nat) (cause : BitVec 8) (paddr : BitVec 48) (s : State) : Host.Outcome State Fault Refusal :=
  if m < 8 ∧ !(s.mere m).frozen then .next (s.machineCheck m cause paddr) else .next s

/-- HEARTBEAT_LAPSE: 10 ms after the last write the leader is frozen with cause 5, and the next claim is granted. -/
def execHeartbeatLapse (s : State) : Host.Outcome State Fault Refusal :=
  match s.leader with
  | none => .next s
  | some m =>
    let gone := (s.cycles - s.heartbeatAt).toNat
    let s := s.elapse (24000000 - gone)
    .next (s.machineCheck m 5 0)

/-- FABRIC_ENUMERATION: the leader sets `PACKAGE` while no partition runs (R36). What becomes of objects and bindings is
the model's choice (DESIGN CHOICE, log 28): this package's objects follow its number, objects known under the new one are dropped, and
queues, windows and namespaces keep the handles they name. -/
def execFabricEnumeration (pkg : BitVec 10) (s : State) : Host.Outcome State Fault Refusal :=
  let old := s.package.toNat
  let new := pkg.toNat
  let idle := s.cores.all (fun c => c.2.c0.task.isNone && c.2.c1.task.isNone) && s.ops.isEmpty && s.parts.all (fun p => p.launches.isEmpty && p.conts.isEmpty) &&
    s.saves.isEmpty
  if s.leader = none ∨ !idle then .next s
  else if old = new then .next s
  else
    let move (o : Obj) : Obj :=
      if o.home = old then { o with home := new, maps := o.maps.map (fun m => if m.1 = old then (new, m.2) else m), locks := o.locks.filter (fun k => k.1 != old) } else o
    .next { s with
      package := pkg
      objs := (s.objs.filter (fun o => o.home != new)).map move
      ghosts := (s.ghosts.filter (fun o => o.home != new)).map move }

/-! ### Partition resets (R483, R496) -/

/-- Releases what a saved or recorded task holds. -/
def State.releaseHeld (s : State) (hs : List HReg) (rs : List (Option Request)) (ps : List PinRange) : State :=
  let s := hs.foldl (fun s r => s.releaseHReg r) s
  let s := rs.foldl (fun s r => s.unbindRequest r) s
  ps.foldl (fun s p => s.unpinRange p) s

/-- Releases what a save holds. -/
def State.dropSave (s : State) (v : Save) : State :=
  let s := [false, true].foldl (fun s c =>
    let x := v.image.ctx c
    match x.task with
    | some t => s.releaseHeld x.h.toList (v.image.requests c) t.pins
    | none => s) s
  { s with saves := s.saves.filter (fun x => x.sid != v.sid) }

/-- The tasks of a partition, wherever they are. -/
def State.tidsOf (s : State) (p : Nat) : List Nat :=
  let of_ (x : Ctx) : List Nat := match x.task with | some t => if t.part = p then [t.tid] else [] | none => []
  s.cores.flatMap (fun c => of_ c.2.c0 ++ of_ c.2.c1) ++ s.saves.flatMap (fun v => of_ v.image.c0 ++ of_ v.image.c1) ++
  (match s.part? p with | some x => x.conts.map (fun c => c.task.tid) | none => [])

/-- Step 2: every task and continuation of the partition ends, with no event and no catch continuation, and its open reservations are
abandoned under the partition's policy (R94); requests that it has issued run on (R439), and stores still in flight write no event. -/
def State.stopTasks (s : State) (p : Nat) : State :=
  let tids := s.tidsOf p
  let tarns := match s.part? p with | some x => x.cfg.tarns | none => []
  let ends (s : State) (k : Nat) (c : Bool) : State :=
    match ((s.core k).ctx c).task with | some t => if t.part = p then s.stopTask k c false false t else s | none => s
  let cores := (s.cores.map (fun c => c.1)).filter (fun k => tarns.contains (tarnOf k))
  let s := cores.foldl (fun s k => s.modCore k (fun c => { c with preemptor := none })) s
  let s := cores.foldl (fun s k => ends (ends s k true) k false) s
  let s := cores.foldl (fun s k => s.modCore k (fun c => { c with hold := none, holdP := none, frozen := false })) s
  let s := (s.saves.filter (fun v => v.part == p)).foldl (fun s v => s.dropSave v) s
  let conts := match s.part? p with | some x => x.conts | none => []
  let s := conts.foldl (fun s c => s.releaseHeld c.h.toList [] c.task.pins) s
  let s := s.modPart p (fun x => { x with conts := [], work := [] })
  let s := { s with objs := s.objs.map (fun (o : Obj) => { o with waiters := o.waiters.filter (fun w => w.part != p) }) }
  let s := { s with ops := s.ops.map (fun (o : Op) => if o.part == p then { o with quiet := true } else o) }
  -- those of a task whose requests still run go when it ends
  let dying := s.cores.flatMap (fun c => ([c.2.c0, c.2.c1].filterMap (fun x => x.task)).map (fun t => t.tid))
  (tids.eraseDups.filter (fun t => !dying.contains t)).foldl (fun s t => s.abandon p (.task t)) s

/-- A reset begins: `RSTBUSY` is set, and unless a checkpoint runs the walker and the tasks stop. -/
def State.beginReset (s : State) (p : Nat) (clear : Bool) : State :=
  match s.part? p with
  | none => s
  | some x =>
    if x.rstBusy then s
    else match s.ckpt with
      | .quiesced | .copied => s.modPart p (fun x => { x with rstBusy := true, rstLater := some clear })
      | _ => (s.modPart p (fun x => { x with rstBusy := true, rstClear := clear })).stopTasks p

/-- RESTART. -/
def execRestart (p : Nat) (s : State) : Host.Outcome State Fault Refusal := .next (s.beginReset p false)
/-- CLEAR. -/
def execClear (p : Nat) (s : State) : Host.Outcome State Fault Refusal := .next (s.beginReset p true)

/-- Step 3: what becomes of an operation of the partition: discarded, kept on, or still to be waited for. -/
def Op.atReset (o : Op) : Option (Option Op) :=
  match o.kind with
  | .copy c => if c.res.isNone || decide (0 < o.left) then some none else none
  | .kv k => if 0 < o.left then some none else some (some { o with kind := .kv { k with abandoned := true } })
  | .store _ => some (some o)
  | .bank _ _ _ _ => if 0 < o.left then some none else none
  | .home _ _ => if 0 < o.left then some none else none
  | _ => none

/-- Step 4: windows, launch queues and namespaces are unbound; prefix entries, barriers and streamers are cleared. -/
def State.unbindAll (s : State) (p : Nat) : State :=
  let s := (List.range 32).foldl (fun s w =>
    let w : BitVec 5 := BitVec.ofNat 5 w
    match s.part? p with
    | some y =>
      let s := s.unbindWin p w (y.win w)
      (match s.part? p with | some y => s.setWin p w { y.win w with wctl := (y.win w).wctl &&& ~~~3#64, closed := false } | none => s)
    | none => s) s
  let s := s.modPart p (fun x => { x with
    lqh := Vector.replicate 8 0
    held := []
    ns := x.ns.map (fun n => { n with nsctl := n.nsctl &&& ~~~1#64, bound := false, unbinding := false, bobj := 0 }) })
  let s := { s with
    meres := s.meres.map (fun (m : Mere) => { m with px := m.px.filter (fun e => e.part != p) })
    bars := s.bars.filter (fun b => b.id.part != p) }
  let tarns := match s.part? p with | some x => x.cfg.tarns | none => []
  tarns.foldl (fun s t =>
    let was := (s.tarn t).frozen
    let s := { s with tarns := s.tarns.filter (fun x => x.1 != t) }
    if was then s.bbox (t / 32) { payload := 1, etype := 0x0005, part := p, svc := true } else s) s

/-- Step 5 of CLEAR: the partition's objects here are destroyed and its table region is zeroed. -/
def State.clearTable (s : State) (p : Nat) : State :=
  let gone (o : Obj) : Bool := o.home == s.package.toNat && s.inRange p o.num
  let ws := (s.objs.filter gone).flatMap (fun o => o.waiters)
  let keep := (s.objs.filter gone).filter (fun o => o.e.typ != .free)
  let s := { s with objs := s.objs.filter (fun o => !gone o), ghosts := s.ghosts ++ keep.map (fun (o : Obj) => { o with waiters := [], resv := [] }) }.sweep
  s.deliverAll .staleHandle ws

/-- Step 6: the scheduler tables and `FEAT_ACCEPT` are cleared, and the reset is over. -/
def State.endReset (s : State) (p : Nat) : State :=
  let ls := match s.part? p with | some x => x.launches | none => []
  let s := ls.foldl (fun s l => s.releaseHReg l.code) s
  let s := s.modPart p (fun x => { x with
    nodes := [], edges := [], launches := [], conts := [], work := [], rr := 0, featAccept := 0, flock := false, links := 0, rstBusy := false, rstLater := none })
  s.bbox (s.homeMere p) { payload := BitVec.ofNat 64 p, etype := 0x000C, part := p, svc := true }

/-- A checkpoint that waits for resets quiesces once none runs (R496). -/
def State.quiesce (s : State) : State :=
  match s.ckpt with
  | .waiting => if s.parts.any (fun x => x.rstBusy) then s else { s with ckpt := .quiesced }
  | _ => s

/-- PARTITION_RESET_COMPLETE: steps 3 to 6, once the issued requests have completed. -/
def execPartitionResetComplete (p : Nat) (s : State) : Host.Outcome State Fault Refusal :=
  match s.part? p with
  | none => .next s
  | some x =>
    let mine := s.ops.filter (fun o => o.part == p)
    if !x.rstBusy || x.rstLater.isSome || mine.any (fun o => o.atReset.isNone) then .next s
    else
      let s := { s with ops := s.ops.filterMap (fun (o : Op) => if o.part == p then o.atReset.getD none else some o) }
      let s := s.reap.unbindAll p
      let s := if x.rstClear then s.clearTable p else s
      .next (s.endReset p).quiesce

/-! ### Registers by their addresses (R464, R465) -/

/-- What stands at an address of the configuration space of the physical map. -/
inductive Mmio where
  /-- The resolution port of a mere (R435). -/
  | resolution (m : Nat)
  /-- The election register (R454) and the heartbeat register (R455). -/
  | election
  | heartbeat
  /-- An offset in a partition's register block (R465). -/
  | register (p off : Nat)
  /-- The configuration and management area, by its offset. -/
  | management (off : Nat)
deriving DecidableEq, Repr

/-- The ranges that complete the physical map (R464). -/
def mmioAt (a : Nat) : Option Mmio :=
  if a < 0x030000000000 then none
  else
    let o := a - 0x030000000000
    if o < 0x8000 then (if o % 0x1000 = 0 then some (.resolution (o / 0x1000)) else none)
    else if o = 0x10000 then some .election
    else if o = 0x10008 then some .heartbeat
    else if 0x100000 ≤ o ∧ o < 0x300000 then some (.register ((o - 0x100000) / 0x10000) ((o - 0x100000) % 0x10000))
    else if 0x10000000 ≤ o ∧ o < 0x20000000 then some (.management (o - 0x10000000))
    else none

/-- The address of an offset in a partition's register block (R464). -/
def registerAddr (p off : Nat) : Nat := 0x030000100000 + p * 0x10000 + off

/-- A write of `PCTL`: `FLOCK` locks the feature vector, `RST` asks for a reset (R465, R483). -/
def State.writePctl (s : State) (p : Nat) (val : BitVec 64) : State :=
  let s := if val.getLsbD 0 then s.modPart p (fun x => { x with flock := true }) else s
  match field val 7 6 with
  | 1 => s.beginReset p false
  | 2 => s.beginReset p true
  | _ => s

/-- A store of 64 bits to an address of the configuration space: a register acts as the event that it stands for; what the management
area holds is not stated, and the store does nothing there that the spec gives. -/
def mmioWrite (a : Nat) (val : BitVec 64) (s : State) : Host.Outcome State Fault Refusal :=
  match mmioAt a with
  | some (.resolution m) => execResolutionIgnored m val s
  | some .election => execLeaderClaim val.toNat s
  | some .heartbeat => execHeartbeat s
  | some (.register p off) => .next (if off = 0x40 then s.writePctl p val else s.writeReg p off val)
  | _ => .next s

/-- A load of 64 bits from an address of the configuration space: the ports are write-only and read as zero (R6). -/
def State.mmioRead (s : State) (a : Nat) : BitVec 64 :=
  match mmioAt a with
  | some (.register p off) => (match s.part? p with | some x => x.readReg off | none => 0)
  | _ => 0

/-- REGISTER_WRITE: the store of a host driver to an offset of BAR0, or of a service core to the register's address (R464). -/
def execRegisterWrite (p : Nat) (off : BitVec 16) (val : BitVec 64) (s : State) : Host.Outcome State Fault Refusal :=
  mmioWrite (registerAddr p off.toNat) val s

/-! ### Checkpoint (R491, R492, R452) -/

/-- CHECKPOINT_START: the quiesce phase begins, at once or after the resets that run. -/
def execCheckpointStart (targets : Nat) (s : State) : Host.Outcome State Fault Refusal :=
  match s.ckpt with
  | .none => if 1 ≤ targets ∧ targets ≤ 16 then .next { s with ckpt := .waiting, ckptTargets := targets }.quiesce else .next s
  | _ => .next s

/-- The checkpoint save of a core that runs a task (R452): both contexts, awaited records and the group go with it. -/
def State.checkpointSave (s : State) (core : Nat) : State :=
  let c := s.core core
  let part := match c.c0.task, c.c1.task with | some t, _ => t.part | none, some t => t.part | _, _ => 0
  -- its save object: where no number or page is free for one, which names none in the partition
  let t := match c.c0.task with | some t => some t | none => c.c1.task
  let bs := match t with | some t => s.saveBytes core t | none => []
  let (hd, s) := match s.saveObject part bs.length with
    | some (s', o) => (match s'.writeSave o bs with | some s'' => (o.handle, s'') | none => (0#64, s))
    | none => (0#64, s)
  let (sid, s) := s.freshId
  let v : Save := { sid := sid, part := part, obj := hd, core := core, at_ := s.cycles, image := c.image
                    bufs := s.buffers core false ++ s.buffers core true, checkpoint := true }
  let s := { s with saves := s.saves ++ [v] }
  let s := s.setCore core { carve := c.carve, lastSc := c.lastSc, bboxAt := c.bboxAt, hold := c.hold, holdP := c.holdP }
  s.bbox (mereOf core) { payload := hd, etype := 0x0009, core := core, ctx := c.c0.task.isNone, part := part }

/-- Cells of memory in HBM4E and LPDDR6 of this package. -/
def inImage (c : Host.Cell) : Bool := decide (0x010000000000 ≤ c.1 ∧ c.1 < 0x030000000000)

/-- CHECKPOINT_COPY: once nothing is in flight, the cores are saved, what lies in SRAM is spilled, and the image is written; it waits while
HBM4E has no room for a spill. -/
def execCheckpointCopy (s0 : State) : Host.Outcome State Fault Refusal :=
  match s0.ckpt with
  | .quiesced =>
    if !s0.ops.isEmpty then .next s0
    else
      let s := s0.reap
      let cores := (s.cores.filter (fun c => c.2.c0.task.isSome || c.2.c1.task.isSome)).map (fun c => c.1)
      let s := cores.foldl (fun s k => s.checkpointSave k) s
      match s.spillAll with
      | some s => .next { s with ckpt := .copied, ckptImage := some (s.mem.filter inImage, s.objs) }
      | none => .next s0
  | _ => .next s0

/-- Whether an engine awaits a resolution. -/
def Engine.waits (e : Engine) : Bool := match e.st with | .awaiting _ => true | _ => false
/-- Engines of a core image that await a resolution. -/
def Core.waiting (c : Core) (core : Nat) : List EngRef := (enginesOf core).filter (fun w => ((c.ctx w.ctx).eng w.eng).waits)

/-- Restores a checkpoint save on its core: each awaited record is written anew (R452). -/
def State.checkpointRestore (s : State) (v : Save) : State :=
  let c := s.core v.core
  let k := v.core
  let s := s.setCore k { v.image with carve := c.carve, lastSc := c.lastSc, bboxAt := c.bboxAt, hold := c.hold, holdP := c.holdP, c0 := {}, c1 := {} }
  let s := [false, true].foldl (fun s x =>
    let s := (ofCtx x 64 48).foldl (fun s t => s.modCore k (fun c => c.setTile t { c.tile t with epoch := (c.tile t).epoch + 1 })) s
    let s := s.modCore k (fun c => c.setCtx x (v.image.ctx x))
    let s := (v.bufs.filter (fun b => (ofCtx x 64 48).contains b.1)).foldl (fun s b =>
      let t := (s.core k).tile b.1
      s.putTile k t.off t.swz 0 b.2) s
    ((ofCtx x 8 7).filter (fun j => ((s.core k).bank j).st = .ready && !((s.core k).bank j).written)).foldl (fun s j =>
      let s := s.modCore k (fun c => c.setBank j { c.bank j with st := .empty })
      (s.replayBank ⟨k, x, .l⟩ j).getD s) s) s
  let s := (v.image.waiting k).foldl (fun s w =>
    match (s.eng w).st with
    | .awaiting f =>
      let (r, s) := s.writeRec (mereOf k) f
      s.modEng w (fun e => { e with st := .awaiting r })
    | _ => s) s
  let s := { s with saves := s.saves.filter (fun x => x.sid != v.sid) }
  -- the save object has served
  let s := match s.live? v.obj with | some o => s.destroy o | none => s
  s.bbox (mereOf k) { payload := v.obj, etype := 0x000A, core := k, ctx := v.image.c0.task.isNone, part := v.part }

/-- CHECKPOINT_RESUME: the saved cores go on, and the resets written meanwhile begin (R491, R496). The records written anew need
places in their queues. -/
def execCheckpointResume (s : State) : Host.Outcome State Fault Refusal :=
  match s.ckpt with
  | .copied =>
    let vs := s.saves.filter (fun v => v.checkpoint)
    let room := (List.range 8).all (fun m =>
      decide ((s.mere m).queue.length + ((vs.filter (fun v => mereOf v.core == m)).flatMap (fun v => v.image.waiting v.core)).length ≤ 1024))
    if !room then .next s
    else
      let s := vs.foldl (fun s v => s.checkpointRestore v) s
      let s := { s with ckpt := .none }
      .next (s.parts.foldl (fun s x => match x.rstLater with
        | some clear => (s.modPart x.cfg.id (fun y => { y with rstBusy := false, rstLater := none })).beginReset x.cfg.id clear
        | none => s) s)
  | _ => .next s

/-- CHECKPOINT_RESTORE: the image is written back, and every partition starts as after RESTART (R492). -/
def execCheckpointRestore (s : State) : Host.Outcome State Fault Refusal :=
  match s.ckptImage, s.ckpt with
  | some (cells, objs), .none =>
    let ids := s.parts.map (fun x => x.cfg.id)
    let s := ids.foldl (fun s p => s.stopTasks p) s
    let s := { s with ops := [] }
    let s := ids.foldl (fun s p => (s.unbindAll p).endReset p) s
    let clean (o : Obj) : Obj := { o.mod (fun e => { e with pinCnt := 0 }) with
      binds := [], pagePins := 0, blkPins := [], waiters := [], locks := [], spilled := []
      maps := o.maps.filter (fun m => match m.2.1 with | .kept _ => false | _ => true)
      resv := o.resv.map (fun r => { r with owner := .nobody }) }
    let low := s.mem.filter (fun c => decide (c.1 < 0x010000000000))
    let high := s.mem.filter (fun c => decide (0x030000000000 ≤ c.1))
    .next { s with
      mem := low ++ cells ++ high, objs := objs.map clean, ghosts := [], moving := [], cold := []
      badWords := s.badWords.filter (fun w => !decide (0x010000000000 ≤ w ∧ w < 0x030000000000)) }
  | _, _ => .next s

/-! ### Attestation and management (R489, R490) -/

/-- Answers an SPDM request. -/
def State.spdm (s : State) (req : Nat) (words : List (BitVec 256)) : State := { s with sent := s.sent ++ [.spdm req words] }
/-- An answer with `n` words more that are made with the alias key: a signature or a key exchange, of which each is a free value (which of
the keys signs is a DESIGN CHOICE, log 97). -/
def State.spdmSigned (s : State) (req n : Nat) (words : List (BitVec 256)) : State :=
  let (k, s) := s.draw 1
  s.spdm req (words ++ (List.range n).map (fun i => Config.signature s.aliasKey k i words))
/-- A 384-bit digest as two words. -/
def digestWords (d : BitVec 384) : List (BitVec 256) := [d.extractLsb' 0 256, (d.extractLsb' 256 128).zeroExtend 256]

/-- GET_VERSION: SPDM 1.3. -/
def execGetVersion (s : State) : Host.Outcome State Fault Refusal := .next (s.spdm 0 [0x13])
/-- GET_CAPABILITIES. -/
def execGetCapabilities (s : State) : Host.Outcome State Fault Refusal := .next (s.spdm 1 [Config.capabilities])
/-- NEGOTIATE_ALGORITHMS: ECDSA P-384, SHA-384, AES-256-GCM, by their sizes. -/
def execNegotiateAlgorithms (s : State) : Host.Outcome State Fault Refusal := .next ({ s with spdmNegotiated := true }.spdm 2 [384, 384, 256])
/-- GET_DIGESTS: the digest of the identity certificate. -/
def execGetDigests (s : State) : Host.Outcome State Fault Refusal := .next (s.spdm 3 (if s.spdmNegotiated then digestWords Config.certificateDigest else []))
/-- GET_CERTIFICATE. -/
def execGetCertificate (s : State) : Host.Outcome State Fault Refusal := .next (s.spdm 4 (if s.spdmNegotiated then Config.certificate else []))
/-- CHALLENGE: the nonce under a signature. -/
def execChallenge (nonce : BitVec 256) (s : State) : Host.Outcome State Fault Refusal :=
  .next (if s.spdmNegotiated then s.spdmSigned 5 3 [nonce] else s.spdm 5 [])
/-- GET_MEASUREMENTS: the boot ROM stage, each pair's firmware, the configuration object, each partition's accepted features. -/
def execGetMeasurements (s : State) : Host.Outcome State Fault Refusal :=
  .next (if s.spdmNegotiated then s.spdmSigned 6 2 ((Config.bootRomDigest :: s.digests).flatMap digestWords ++ s.parts.map (fun p => p.featAccept)) else s.spdm 6 [])
/-- KEY_EXCHANGE: a session begins. -/
def execKeyExchange (sess : BitVec 16) (s : State) : Host.Outcome State Fault Refusal :=
  .next (if s.spdmNegotiated ∧ !s.spdmSessions.contains sess then
      { s with spdmPending := s.spdmPending.filter (fun x => x != sess) ++ [sess] }.spdmSigned 7 3 [sess.zeroExtend 256]
    else s.spdm 7 [])
/-- FINISH: the session is established. -/
def execFinish (sess : BitVec 16) (s : State) : Host.Outcome State Fault Refusal :=
  .next (if s.spdmPending.contains sess then
      { s with spdmPending := s.spdmPending.filter (fun x => x != sess), spdmSessions := s.spdmSessions ++ [sess] }.spdm 8 [sess.zeroExtend 256]
    else s.spdm 8 [])

/-- BLACK_BOX_READ: the ring, the counters, power and temperature. -/
def execBlackBoxRead (m : Nat) (s : State) : Host.Outcome State Fault Refusal :=
  let x := s.mere m
  .next { s with sent := s.sent ++ [.blackBox m x.bbox [x.latePromo, x.bboxDrops, x.eccCorr, x.resIgnored], .power s.powerLimit s.temperature] }

/-- POWER_LIMIT_SET: 1.8 to 3.6 kW (R493). -/
def execPowerLimitSet (watts : Nat) (s : State) : Host.Outcome State Fault Refusal :=
  .next (if 1800 ≤ watts ∧ watts ≤ 3600 then { s with powerLimit := watts } else s)

/-! ### Power and cooling (R494) -/

/-- THROTTLE_PAUSE: the engines of a mere issue nothing for 1 µs. -/
def execThrottlePause (m : Nat) (s : State) : Host.Outcome State Fault Refusal := .next (s.setMere m { s.mere m with pausedAt := some s.cycles })

/-- THERMAL_TRIP: every master stops, and the package is held in warm reset. -/
def execThermalTrip (s : State) : Host.Outcome State Fault Refusal := .next { s with warmHold := true, temperature := 110 }

/-- WARM_RESET_RELEASE: the package starts anew; the black box survives (R461). -/
def execWarmResetRelease (s : State) : Host.Outcome State Fault Refusal :=
  if !s.warmHold then .next s
  else
    let r := State.reset
    .next { r with
      mem := s.mem
      badWords := s.badWords
      cycles := s.cycles
      package := s.package
      cores := (s.cores.map (fun c => (c.1, ({ carve := c.2.carve } : Core))))
      meres := s.meres.map (fun m => { verified := m.verified, bbox := m.bbox, bboxCount := m.bboxCount, latePromo := m.latePromo,
                                       bboxDrops := m.bboxDrops, eccCorr := m.eccCorr, resIgnored := m.resIgnored, seqno := m.seqno })
      parts := s.parts.map (fun x => { cfg := x.cfg })
      configured := s.configured
      system := s.system
      electionOpen := true
      unreachable := s.unreachable
      ckptImage := s.ckptImage
      powerLimit := s.powerLimit
      versions := s.versions
      digests := s.digests
      identity := s.identity
      aliasKey := s.aliasKey
      sent := s.sent
      agenda := s.agenda
      fresh := s.fresh
      nextId := s.nextId }

end Sys2Proof.Machine
end

