-- ==== Sys2Proof/Machine/Matrix.lean ====
section
/-! DEFINITION. The matrix engine's instructions: operand windows, dot products, nests, groups, set-up, status and drains (R358 to
R394), and the completions of what it issues. -/

namespace Sys2Proof.Machine

open Sys2Proof

/-! ### Shared forms -/

/-- The first of the checks of an instruction that answers something, or what it does once all pass. -/
def Act.first : List (Option Act) → Act → Act
  | [], a => a
  | none :: t, a => Act.first t a
  | some x :: _, _ => x

/-- A check of an instruction: it faults unless the condition holds. -/
def failUnless (b : Bool) (t : Trap) : Option Act := if b then none else some (.trap t)

/-- A wait of an instruction. -/
def waitIf (b : Bool) (st : Stall) : Option Act := if b then some (.stall st) else none

/-- Whether M of an engine's context may name an accumulator tile: its allotment, or a tile lent to its bound group (R153, R379). -/
def accOk (w : EngRef) (s : State) (a : Nat) : Bool :=
  match s.task w with
  | none => false
  | some t => decide (a < 16) && (t.hasA w.ctx a || (!w.ctx && ((s.core w.core).acc a).lent))

/-- The ALLOT check of accumulator tiles. -/
def needAccs (as_ : List Nat) (w : EngRef) (s : State) : Option Trap := if as_.all (accOk w s) then none else some { code := .allot }

/-- Runs checks one after another: the first that fails counts. -/
def allOf (cs : List (EngRef → State → Option Trap)) (w : EngRef) (s : State) : Option Trap := cs.findSome? (fun c => c w s)

/-- The ALLOT check of banks. -/
def needBanks (ks : List Nat) (w : EngRef) (s : State) : Option Trap :=
  match s.task w with
  | none => some { code := .allot }
  | some t => (ks.find? (fun k => !t.hasK w.ctx k)).map (fun k => { code := .allot, uclass := .bank, unit := k })

/-! ### Writers of accumulator tiles (R361) -/

/-- Whether an issued instruction of the task has still to write an accumulator tile. -/
def Op.writesAcc (o : Op) (core tid a : Nat) : Bool :=
  o.who.core == core && o.tid == tid && (match o.kind with | .mma b _ _ _ _ _ => b == a | .aload b _ _ => b == a | _ => false)
/-- Whether an ALOAD of the tile is in flight. -/
def Op.loadsAcc (o : Op) (core tid a : Nat) : Bool :=
  o.who.core == core && o.tid == tid && (match o.kind with | .aload b _ _ => b == a | _ => false)
/-- The cells that an operation will write. -/
def Op.accCells (o : Op) : BitVec 131072 := match o.kind with | .mma _ c _ _ _ _ => c | .aload _ c _ => c | _ => 0
/-- The cells that the instructions issued so far leave in a tile: accumulation is chained in issue order (R361), and a tile that is
not dirty holds zeros (R150, R370). -/
def State.accCells (s : State) (w : EngRef) (a : Nat) : BitVec 131072 :=
  let x := (s.core w.core).acc a
  if !x.dirty then 0
  else match s.ops.find? (fun o => o.writesAcc w.core (s.tid w) a) with
    | some o => o.accCells
    | none => x.cells
/-- Whatever completes from now on leaves these cells in a tile: the instruction issued last decides what it holds. -/
def State.settleAcc (s : State) (w : EngRef) (a : Nat) (cells : BitVec 131072) : State :=
  { s with ops := s.ops.map (fun o =>
      if o.writesAcc w.core (s.tid w) a then
        { o with kind := match o.kind with
          | .mma b _ r k f n => .mma b cells r k f n
          | .aload b _ t => .aload b cells t
          | k => k }
      else o) }

/-- Whether the cells of a tile can be read: one that is not dirty holds zeros whatever its storage holds (R150, R443). -/
def Acc.readable (x : Acc) : Bool := !(x.dirty && x.bad)

/-- The 4,096 cells of a tile, row by row. -/
def cellList (c : BitVec 131072) : List Nat := (List.range 64).flatMap (fun i =>
  let row := (c.toNat >>> (2048 * i)) % 2 ^ 2048
  (List.range 64).map (fun j => (row >>> (32 * j)) % 2 ^ 32))
/-- A tile from its cells. -/
def cellsOfList (l : List Nat) : BitVec 131072 :=
  BitVec.ofNat 131072 (packLanes 2048 ((List.range 64).map (fun i => packLanes 32 ((l.drop (64 * i)).take 64))))

/-! ### Operand windows (R362 to R365, R368) -/

/-- One operand of an MMA: the core whose tile table it reads, tile, shape record, origin, negation, codebook bank. -/
structure Side where
  core : Nat
  tile : Nat
  shape : BitVec 128
  o0 : Int
  o1 : Int
  neg : Bool
  coded : Bool
  bank : Nat

/-- Classes of operands (R364). -/
inductive OpClass where
  | narrow | wide | int
deriving DecidableEq, Repr

/-- The class of a format code (R364). -/
def fmtClass (f : Nat) : Option OpClass :=
  if f = 1 ∨ f = 2 then some .wide else if 3 ≤ f ∧ f ≤ 7 then some .narrow else if f = 9 ∨ f = 10 then some .int else none

/-- The format code of a bank's entry format (R120). -/
def cbFmt (f : BitVec 3) : Nat := match f.toNat with | 0 => 0 | 1 => 2 | 2 => 1 | 3 => 3 | _ => 4
/-- Values of a bank's entry (R120). -/
def cbVals (f : BitVec 3) : Nat := match f.toNat with | 0 => 1 | 1 => 2 | 2 => 2 | _ => 4

/-- The tile of an operand. -/
def Side.entry (x : Side) (s : State) : Tile := (s.core x.core).tile x.tile
/-- The bank of an operand: one of the issuing core. -/
def Side.bankOf (x : Side) (w : EngRef) (s : State) : Bank := (s.core w.core).bank x.bank
/-- Values per index, 1 without a codebook. -/
def Side.v (x : Side) (w : EngRef) (s : State) : Nat := if x.coded then cbVals (x.bankOf w s).fmt else 1
/-- The format of the operand's elements after expansion (R364, R368); none where the operand is refused. -/
def Side.fmt (x : Side) (w : EngRef) (s : State) : Option Nat :=
  match (x.entry s).tag with
  | none => none
  | some g =>
    if x.coded then (if 16 ≤ g.fmt.toNat ∧ g.fmt.toNat ≤ 23 ∧ (x.bankOf w s).fmt ≠ 0 then some (cbFmt (x.bankOf w s).fmt) else none)
    else some g.fmt.toNat
/-- The class of the operand. -/
def Side.cls (x : Side) (w : EngRef) (s : State) : Option OpClass := (x.fmt w s).bind fmtClass
/-- Whether the tile's scales apply (R365). -/
def Side.scaled (x : Side) (s : State) (sc : Bool) : Bool :=
  sc && !x.coded && (match (x.entry s).tag with | some g => decide (g.scfmt ≠ 0) | none => false)
/-- The tile as a box: its elements or indices, and its scale region (R311, R313, R363). -/
def Side.geo (x : Side) (s : State) : Geo :=
  let e : Entry := match (x.entry s).tag with
    | some g => { typ := .tensor, rank := 1, fmt := g.fmt, scfmt := g.scfmt, scbR := g.scbR, scbC := g.scbC }
    | none => {}
  ⟨e, x.shape, .plain, false⟩

/-- K of a pair of operands of a class (R359, R363). -/
def OpClass.k : OpClass → Nat
  | .wide => 64
  | _ => 128
/-- The promotion chunk G (R123). -/
def chunk (c : OpClass) (a b : Side) (s : State) (sc : Bool) : Nat :=
  let fine (x : Side) : Bool := x.scaled s sc && (match (x.entry s).tag with | some g => decide (g.scbC = 5) | none => false)
  if fine a || fine b then 32 else c.k

/-- Whether a window passes R363, R365 and R368. -/
def Side.windowOk (x : Side) (w : EngRef) (s : State) (sc : Bool) (k g : Nat) : Bool :=
  let t := x.entry s
  let geo := x.geo s
  match t.tag with
  | none => false
  | some tag =>
    shValid x.shape && decide (shBox x.shape 2 = 1 ∧ shBox x.shape 3 = 1) && !tag.reblocked &&
    decide (0 ≤ x.o0 ∧ 0 ≤ x.o1 ∧ x.o0 + k ≤ (x.v w s * shBox x.shape 0 : Nat) ∧ x.o1 + 64 ≤ (shBox x.shape 1 : Nat)) &&
    decide (geo.total ≤ t.size ∧ geo.p * (shBox x.shape 1 - 1) + ceilDiv (shBox x.shape 0 * geo.e.w) 8 ≤ t.size) &&
    (!x.scaled s sc || decide ((tag.scbC = 5 ∨ tag.scbC = 7) ∧ (tag.scbR = 0 ∨ tag.scbR = 7))) &&
    decide (x.o0 % g = 0 ∧ x.o0 % (x.v w s : Nat) = 0)

/-- The `n` fields of width `w` from bit `b` of row `r` of a tile. -/
def tileFields (s : State) (core : Nat) (t : Tile) (p r b w n : Nat) : List Nat :=
  let o := p * r + b / 8
  let x := leNat (s.tileBytes core t o (ceilDiv (b % 8 + w * n) 8)) >>> (b % 8)
  (List.range n).map (fun i => (x >>> (w * i)) % 2 ^ w)

/-- The indices of column `i` of a coded window of `k` elements. -/
def Side.indices (x : Side) (w : EngRef) (s : State) (k i : Nat) : List Nat :=
  let v := x.v w s
  let geo := x.geo s
  tileFields s x.core (x.entry s) geo.p (x.o1.toNat + i) (x.o0.toNat / v * geo.e.w) geo.e.w (k / v)

/-- A scale container as a value (R103 to R105). -/
def scaleVal (f : BitVec 2) (c : Nat) : Val :=
  let x := if f = 1 then c * 65536 else c
  if 2 ^ 24 ≤ x ∨ 255 * 65536 ≤ x then .nan
  else
    let e := x / 65536
    let m := 65536 + x % 65536
    if 143 ≤ e then .fin false (m * 2 ^ (e - 143)) 1 else .fin false m (2 ^ (143 - e))

/-- The values of column `i` of a window, each with its scale and sign (R106, R121, R367). -/
def Side.column (x : Side) (w : EngRef) (s : State) (sc : Bool) (k i : Nat) : List Val :=
  let geo := x.geo s
  let t := x.entry s
  let F := numFmt ((x.fmt w s).getD 0)
  let raw : List Nat :=
    if x.coded then
      let b := x.bankOf w s
      (x.indices w s k i).flatMap (fun j => (List.range (x.v w s)).map (fun m => (b.entry j >>> (F.w * m)) % 2 ^ F.w))
    else tileFields s x.core t geo.p (x.o1.toNat + i) (x.o0.toNat * geo.e.w) geo.e.w k
  let vals := raw.map (fun c => let v := decodeVal F c; if x.neg then v.neg else v)
  if x.scaled s sc then
    let sb := scBytes geo.e.scfmt
    let row := x.o1.toNat + i
    -- the blocks that hold tile positions o0 to o0 + k - 1
    let first := x.o0.toNat / geo.e.scb 0
    let scales := (List.range ((x.o0.toNat + k - 1) / geo.e.scb 0 + 1 - first)).map (fun g =>
      scaleVal geo.e.scfmt (leNat (s.tileBytes x.core t (geo.scaleByte (first + g) (row / geo.e.scb 1) 0 0) sb)))
    (vals.zipIdx).map (fun p => (Val.mul p.1 (scales.getD ((x.o0.toNat + p.2) / geo.e.scb 0 - first) .nan)).1)
  else vals

/-! ### MMA (R366 to R370) -/

/-- What an MMA or a constituent works on. -/
structure Mma where
  acc : Nat
  ad : Bool
  sc : Bool
  a : Side
  b : Side
  step : Option (BitVec 64)

/-- The accumulation type is INT32 (R364). -/
def Mma.int (m : Mma) (w : EngRef) (s : State) : Bool := m.a.cls w s == some .int && !m.a.scaled s m.sc && !m.b.scaled s m.sc
/-- The class of both operands, where they have one (R364). -/
def Mma.cls (m : Mma) (w : EngRef) (s : State) : Option OpClass :=
  match m.a.cls w s, m.b.cls w s with
  | some x, some y => if x = y then some x else none
  | _, _ => none
/-- Whether both windows pass (R363 to R365, R368). -/
def Mma.formatOk (m : Mma) (w : EngRef) (s : State) : Bool :=
  match m.cls w s with
  | none => false
  | some c =>
    let g := chunk c m.a m.b s m.sc
    m.a.windowOk w s m.sc c.k g && m.b.windowOk w s m.sc c.k g

/-- The first index of a coded window that its bank does not declare: the index and its window position (R368, R431). -/
def Side.badIndex (x : Side) (w : EngRef) (s : State) (k : Nat) : Option (Nat × Nat) :=
  if !x.coded then none
  else
    let n := (x.bankOf w s).count
    (List.range 64).findSome? (fun i =>
      ((x.indices w s k i).zipIdx).findSome? (fun p => if n ≤ p.1 then some (p.1, k * i + x.v w s * p.2) else none))

/-- One cell of an INT32 accumulation (R126). -/
def intCell (c : Nat) (a b : List Val) : Nat :=
  let t := (a.zipWith (fun x y => toUnits 0 (Val.mul x y).1) b).foldl (· + ·) 0
  (((c : Int) + t) % (2 ^ 32 : Int)).toNat
/-- Units of the exact terms of an FP32 cell: 2^-360 divides every product of two operands and their scales, and every FP32 value. -/
def unitK : Nat := 360

/-- The chunk sums of one cell, each `sa * sb * p`, exact (R122, R123, R126): `g` window positions each, in order; the scales stand in
the values already. The second component says whether a product or the sum is invalid (R127). -/
def chunkSums (g d : Nat) (a b : List Val) : List (Val × Bool) :=
  (List.range (a.length / g)).map (fun c => exactSum unitK (((a.drop (g * c)).take g).zipWith Val.mul ((b.drop (g * c)).take g)) (Config.freeBit (d + c)))

/-- One cell of an FP32 accumulation (R122, R124, R125, R127): its result and the exact terms it has then summed. The terms are those
that the cell has summed since it was last set, or its value, and the chunk sums; they are added in an open order, each addition
rounded by RNE, so that one chunk added to a cell that holds one term leaves no choice. An accumulate-disabled MMA sets the cell: the
MMAs after it start from the value that it leaves (R124). `d` numbers the cell's first free value; the
cells' free values interleave. -/
def floatCell (d c0 : Nat) (hist : List Int) (chunks : List (Val × Bool)) : Res × List Int :=
  let F := numFmt 0
  let ts := (if hist.isEmpty then [decodeVal F c0] else hist.map (ofUnits unitK)) ++ chunks.map (fun c => c.1)
  let (v, f) := sumFree F 0 4096 ts.length d ts
  let units := ts.map (toUnits unitK)
  let fin := ts.all Val.isFin && v.isFin
  let r := roundArith F 0 0 v
  ({ code := if fin && units.foldl (· + ·) 0 == 0 && r.code % 2 ^ 31 == 0 then withSign F (Config.freeBit d) 0 else r.code,
     flags := f ||| nvIf (chunks.any (fun c => c.2)) }, if fin then units else [])

/-- The FP32 terms and chunks that one cell of an MMA takes at most: its free values. -/
def Mma.terms (m : Mma) (w : EngRef) (s : State) : Nat :=
  let h := ((s.core w.core).acc m.acc).hist
  let c := (m.cls w s).getD .narrow
  (if m.ad then 0 else h.foldl (fun n l => max n l.length) 0) + 1 + c.k / chunk c m.a m.b s m.sc

/-- The cells an MMA leaves, its flags, only NV and OF (R118, R367), and the terms its FP32 cells have then summed. -/
def Mma.result (m : Mma) (w : EngRef) (s : State) (d : Nat) : BitVec 131072 × BitVec 5 × List (List Int) :=
  let c := (m.cls w s).getD .narrow
  let k := c.k
  let g := chunk c m.a m.b s m.sc
  let as_ := (List.range 64).map (m.a.column w s m.sc k)
  let bs := (List.range 64).map (m.b.column w s m.sc k)
  let old := (if m.ad then List.replicate 4096 0 else cellList (s.accCells w m.acc)).toArray
  let hist := (if m.ad then [] else ((s.core w.core).acc m.acc).hist).toArray
  let cells := (as_.zipIdx).flatMap (fun a => (bs.zipIdx).map (fun b =>
    let n := 64 * a.2 + b.2
    if m.int w s then (({ code := intCell (old.getD n 0) a.1 b.1 } : Res), [])
    else floatCell (d + n) (old.getD n 0) (hist.getD n []) (chunkSums g (d + 4096 * m.terms w s + n * 4) a.1 b.1)))
  (cellsOfList (cells.map (fun r => r.1.code)), cells.foldl (fun f r => f ||| (r.1.flags &&& (fNV ||| fOF))) 0,
    if m.int w s || m.ad then [] else cells.map (fun r => r.2))

/-- A tile that M reads, of its own core or of a partner: what R149 says before any wait, and the wait. -/
def Side.tileTrap (x : Side) (s : State) : Option Act :=
  match tileRead (x.entry s) x.tile with
  | some (.trap t) => some (.trap t)
  | _ => none
@[inherit_doc Side.tileTrap]
def Side.tileWait (x : Side) (s : State) : Option Act :=
  match tileRead (x.entry s) x.tile with
  | some (.stall st) => some (.stall st)
  | _ => none
/-- The wait for a bank that is FILLING, and the fault of an EMPTY one, which clears its pending code (R339, R369). -/
def Side.bankWait (x : Side) (w : EngRef) (s : State) : Option Act :=
  if !x.coded then none
  else match bankRead (s.core w.core) x.bank with
    | some (.stall st) => some (.stall st)
    | _ => none
@[inherit_doc Side.bankWait]
def Side.bankTrap (x : Side) (w : EngRef) (s : State) : Option Act :=
  if !x.coded then none
  else match bankRead (s.core w.core) x.bank with
    | some (.trap t) => some ((Act.trap t).clearPending s w.core x.bank)
    | _ => none

/-- The checks and waits of an MMA after those of R235, in the order of R367 and R393. -/
def Mma.checks (m : Mma) (w : EngRef) (s : State) : List (Option Act) :=
  let k := match m.cls w s with | some c => c.k | none => 64
  let x := (s.core w.core).acc m.acc
  let index (y : Side) : Option Act :=
    match y.badIndex w s k with
    | some (i, p) => some (.trap { code := .cbIndex, info := BitVec.ofNat 64 (i + 65536 * p), uclass := .bank, unit := y.bank })
    | none => none
  [ m.a.tileTrap s, m.b.tileTrap s,
    waitIf (!m.ad && s.ops.any (fun o => o.loadsAcc w.core (s.tid w) m.acc)) .other,
    m.a.tileWait s, m.b.tileWait s, m.a.bankWait w s, m.b.bankWait w s, m.a.bankTrap w s, m.b.bankTrap w s,
    eccTile w s m.a.core m.a.tile, eccTile w s m.b.core m.b.tile,
    failUnless (m.formatOk w s) { code := .mmaFormat },
    failUnless (m.ad || (x.inUse && x.int == m.int w s)) { code := .accState },
    failUnless (m.ad || x.readable) { code := .eccUncorr },
    index m.a, index m.b ]

/-- The bytes of its tile that an operand's window takes up: the fields of its columns, and their scales. -/
def Side.spans (x : Side) (w : EngRef) (s : State) (sc : Bool) (k : Nat) : List (Nat × Nat) :=
  let geo := x.geo s
  let v := x.v w s
  let b := x.o0.toNat / v * geo.e.w
  let fields := (List.range 64).map (fun i =>
    let o := geo.p * (x.o1.toNat + i) + b / 8
    (o, o + ceilDiv (b % 8 + geo.e.w * (k / v)) 8))
  let first := x.o0.toNat / geo.e.scb 0
  let top := x.o1.toNat / geo.e.scb 1
  let scales := (List.range ((x.o1.toNat + 63) / geo.e.scb 1 + 1 - top)).flatMap (fun r =>
    (List.range ((x.o0.toNat + k - 1) / geo.e.scb 0 + 1 - first)).map (fun g =>
      let o := geo.scaleByte (first + g) (top + r) 0 0
      (o, o + scBytes geo.e.scfmt)))
  fields ++ (if x.scaled s sc then scales else [])
/-- An MMA that issues touches the bytes of its windows (R324). -/
def Mma.touch (m : Mma) (w : EngRef) (s : State) : State :=
  let k := ((m.cls w s).getD .narrow).k
  (s.touchTile m.a.core m.a.tile (m.a.spans w s m.sc k)).touchTile m.b.core m.b.tile (m.b.spans w s m.sc k)

/-- Issues an MMA that has passed its checks: the operation's number and what it is, its flags set in the tile (R370). -/
def Mma.start (m : Mma) (w : EngRef) (s : State) : State × OpKind :=
  let (d, s) := (m.touch w s).draw (4096 * (m.terms w s + 4))
  let (cells, fl, hist) := m.result w s d
  let s := (s.settleAcc w m.acc cells).modCore w.core (fun c =>
    c.setAcc m.acc { c.acc m.acc with inUse := true, dirty := true, int := m.int w s, bad := false, hist := hist })
  (s, .mma m.acc cells [(m.a.core, m.a.tile), (m.b.core, m.b.tile)]
    ((if m.a.coded then [m.a.bank] else []) ++ (if m.b.coded then [m.b.bank] else [])) fl m.step)

/-- The cores whose tiles M reads for A and for B: its own, or those of R380 while a group is bound. -/
def operandCores (s : State) (w : EngRef) : Nat × Nat :=
  let base := 4 * tarnOf w.core
  match (s.core w.core).group with
  | some g => if g.bound && !w.ctx then (base + (w.core % 4 / 2) * 2, base + w.core % 2) else (w.core, w.core)
  | none => (w.core, w.core)

/-- The MMA that an instruction word describes. -/
def mmaOf (dp : Dep) (q : MmaArgs) (w : EngRef) (s : State) : Mma :=
  let cs := operandCores s w
  { acc := q.acc.toNat, ad := q.ad, sc := q.sc, step := none
    a := ⟨cs.1, q.ta.toNat, s.xval w dp q.xa, 0, 0, q.na, q.ca, q.kba.toNat⟩
    b := ⟨cs.2, q.tb.toNat, s.xval w dp q.xb, 0, 0, q.nb, q.cb, q.kbb.toNat⟩ }

def execMma (dp : Dep) (q : MmaArgs) (s : State) : Host.Outcome State Fault Refusal :=
  issue dp (some .m) (if q.ca || q.cb then 1 else 0) 2
    (allOf [needAccs [q.acc.toNat], needTiles [q.ta.toNat, q.tb.toNat],
      needBanks ((if q.ca then [q.kba.toNat] else []) ++ (if q.cb then [q.kbb.toNat] else []))])
    (fun w s =>
      let m := mmaOf dp q w s
      Act.first (m.checks w s)
        (let (s, k) := m.start w s
         let (id, s) := s.freshId
         .pend s id k)) s

/-! ### Loop nests (R371 to R376, R394) -/

/-- A row of a nest table. -/
def nestRow (t : Vector (BitVec 128) 7) (i : Nat) : BitVec 128 := t[i % 7]'(Nat.mod_lt _ (by decide))

/-- The feature that an MNCFG asks for, from the scalar that supplies a header's flags, as the word reaches issue (R485, R235; DEDUCED,
log 140). -/
def mncfgFeature (w : EngRef) (s : State) (dp : Dep) (d : Nat) (a : BitVec 6) : Nat :=
  let head := s.sval w dp a
  if d = 6 ∧ (head.getLsbD 15 || head.getLsbD 16) then 1 else 0

/-- A bank field of a header that no flag of its scalar calls for must be zero (R234, R374). -/
def mncfgUnused (lo : BitVec 64) (x : BitVec 28) : Bool :=
  decide ((x.extractLsb' 13 3 ≠ 0 ∧ lo.getLsbD 15 = false) ∨ (x.extractLsb' 10 3 ≠ 0 ∧ lo.getLsbD 16 = false))

/-- The row an MNCFG writes, where its scalars and fields are legal (R374, R394). What the scalars hold is judged once the tokens that
order their writes are taken (R151; DEDUCED, log 140). -/
def mncfgRow (d : Nat) (lo hi : BitVec 64) (x : BitVec 28) : Option (BitVec 128) :=
  if d < 6 then
    (if hi.extractLsb' 5 59 = 0 then some ((hi ||| ((x.extractLsb' 0 12).zeroExtend 64 <<< 17)) ++ lo) else none)
  else if lo.extractLsb' 18 46 ≠ 0 ∨ mncfgUnused lo x then none
  else some (x.zeroExtend 64 ++ lo)

/-- The checks of a header's fields as the word reaches issue (R234, R235): the bank fields that its scalar leaves unused, then the
allotment of the tiles and banks that it names (R153, R229). A scalar that itself is illegal faults before the allotment is asked. -/
def mncfgPre (dp : Dep) (d : Nat) (a : BitVec 6) (x : BitVec 28) (w : EngRef) (s : State) : Option Trap :=
  let lo := s.sval w dp a
  if d < 6 then none
  else if mncfgUnused lo x then some { code := .illegalEnc }
  else if (mncfgRow d lo 0 x).isNone then none
  else allOf [needTiles [field x 27 22, field x 21 16],
    needBanks ((if lo.getLsbD 15 then [field x 15 13] else []) ++ (if lo.getLsbD 16 then [field x 12 10] else []))] w s

def execMncfg (dp : Dep) (d : BitVec 3) (a b : BitVec 6) (x : BitVec 28) (s : State) : Host.Outcome State Fault Refusal :=
  issue dp (some .m) (mncfgFeature s.turn s dp d.toNat a) 2 (mncfgPre dp d.toNat a x) (interlock [a, b] (fun w s =>
    let lo := s.sval w dp a
    match mncfgRow d.toNat lo (s.sval w dp b) x with
      | none => .trap { code := .illegalEnc }
      | some r =>
        let c := s.ctx w
        .done (s.setCtx w { c with shadow := c.shadow.set (d.toNat % 7) r (Nat.mod_lt _ (by decide)) }))) s

/-- A signed 16-bit step of a level row. -/
def stepOf (r : BitVec 128) (lo : Nat) : Int := (r.extractLsb' lo 16).toInt
/-- Counts of the six levels. -/
def nestCounts (t : Vector (BitVec 128) 7) : List Nat := (List.range 6).map (fun l => field (nestRow t l) 92 81 + 1)
/-- Steps of a nest. -/
def nestSize (t : Vector (BitVec 128) 7) : Nat := (nestCounts t).foldl (· * ·) 1
/-- The digits of a step in the mixed radix of the counts, level 0 first. -/
def digits : List Nat → Nat → List Nat
  | [], _ => []
  | c :: cs, n => n % c :: digits cs (n / c)
/-- A sum over the levels. -/
def levelSum (t : Vector (BitVec 128) 7) (is_ : List Nat) (f : BitVec 128 → Int) : Int :=
  (is_.zipIdx).foldl (fun a p => a + (p.1 : Int) * f (nestRow t p.2)) 0

/-- The accumulator of a step (R375). -/
def nestAcc (t : Vector (BitVec 128) 7) (is_ : List Nat) : Int :=
  (field (nestRow t 6) 3 0 : Int) + levelSum t is_ (fun r => (r.extractLsb' 64 4).toInt)

/-- The constituent of the digits of a step (R373, R375). -/
def nestMma (dp : Dep) (w : EngRef) (s : State) (t : Vector (BitVec 128) 7) (is_ : List Nat) (step : BitVec 64) : Mma :=
  let h := nestRow t 6
  let cs := operandCores s w
  let first := (is_.zipIdx).all (fun p => !(nestRow t p.2).getLsbD 68 || p.1 == 0)
  { acc := (nestAcc t is_).toNat, ad := h.getLsbD 14 && first, sc := h.getLsbD 17, step := some step
    a := ⟨cs.1, field h 91 86, s.xval w dp (h.extractLsb' 4 4), levelSum t is_ (stepOf · 0), levelSum t is_ (stepOf · 16), h.getLsbD 12, h.getLsbD 15, field h 79 77⟩
    b := ⟨cs.2, field h 85 80, s.xval w dp (h.extractLsb' 8 4), levelSum t is_ (stepOf · 32), levelSum t is_ (stepOf · 48), h.getLsbD 13, h.getLsbD 16, field h 76 74⟩ }

/-- The corners of a nest: each digit 0 or the last. -/
def corners : List Nat → List (List Nat)
  | [] => [[]]
  | c :: cs => (corners cs).flatMap (fun t => if c = 1 then [0 :: t] else [0 :: t, (c - 1) :: t])

/-- The table that an MNEST runs: the shadow as it starts, the active one once it has begun. -/
def Ctx.nest (c : Ctx) : Vector (BitVec 128) 7 := if c.npos = 0 then c.shadow else c.active

/-- The ALLOT checks of an MNEST's next constituent: its tiles, banks and accumulators, at every corner as it starts. -/
def nestPre (w : EngRef) (s : State) : Option Trap :=
  let c := s.ctx w
  let t := c.nest
  let cs := nestCounts t
  let h := nestRow t 6
  let at_ := if c.npos = 0 then corners cs else [digits cs c.npos.toNat]
  if at_.any (fun is_ => decide (nestAcc t is_ < 0 ∨ 16 ≤ nestAcc t is_) || !accOk w s (nestAcc t is_).toNat) then some { code := .allot }
  else allOf [needTiles [field h 91 86, field h 85 80],
    needBanks ((if h.getLsbD 15 then [field h 79 77] else []) ++ (if h.getLsbD 16 then [field h 76 74] else []))] w s

/-- An MNEST's next constituent (R375, R376); `dp'` holds the tokens that this step still takes. -/
def nestAct (dp dp' : Dep) (w : EngRef) (s : State) : Act :=
  let c := s.ctx w
  let t := c.nest
  let cs := nestCounts t
  let m := nestMma dp' w s t (digits cs c.npos.toNat) c.npos
  let cornersOk := decide (c.npos ≠ 0) || (corners cs).all (fun is_ => (nestMma dp' w s t is_ 0).formatOk w s)
  let checks := m.checks w s
  -- the corners are judged where the constituent's own format is
  Act.first (checks.take 11 ++ [failUnless cornersOk { code := .mmaFormat }] ++ checks.drop 11)
    (let (s, k) := m.start w s
     let (id, s) := s.freshId
     if c.npos.toNat + 1 < nestSize t then
       let ws := s.fetched w
       let s := s.addOp (s.newOp w id ws.1 ws.2 { dp with sp := false, sn := false } k)
       .hold (s.setCtx w { s.ctx w with active := t, npos := c.npos + 1, nestTok := true })
     else .pend (s.setCtx w { s.ctx w with active := t, npos := 0, nestTok := false }) id k)

def execMnest (dp : Dep) (s : State) : Host.Outcome State Fault Refusal :=
  -- a nest that has begun holds its tokens
  let dp' := if (s.ctx s.turn).nestTok then { dp with wp := false, wn := false } else dp
  issue dp' (some .m) 0 1 nestPre (nestAct dp dp') s

/-! ### Tarn-wide groups (R377 to R383) -/

/-- The accumulator tiles that a group of `c` blocks borrows (R379). -/
def lentTiles (c : Nat) : List Nat := (List.range (c - 12)).map (fun m => 16 - (c - 12) + m)

/-- Ends a core's wait at a bind: the tiles are lent, unless a pre-empting task still runs there (R382). -/
def bindHere (w : EngRef) (s : State) (g : Group) : Act :=
  let c := s.core w.core
  let lent := lentTiles (g.qr * g.qc)
  if !lent.isEmpty && c.c1.task.isSome then .stallKeep (s.modEng w (fun e => { e with arrived := true })) (.barrier 0)
  else .done (s.setCore w.core { lent.foldl (fun c a => c.setAcc a { lent := true }) c with group := some { g with binding := false } })

/-- The check of a bind's context and allotment (R378). -/
def coopPre (n : Nat) (w : EngRef) (s : State) : Option Trap :=
  match s.task w with
  | none => some { code := .allot }
  | some t => if !w.ctx && (decide (n ≤ t.aa) || decide (t.aa = 12 ∧ n ≤ 15)) then none else some { code := .allot }

/-- ACOOP's rendezvous. A group that waits is `binding`; one that failed is `binding` and `ending`. -/
def coopAct (qr qc : Nat) (w : EngRef) (s : State) : Act :=
  let geom : Trap := { code := .coopGeom }
  match (s.core w.core).group with
  | some g =>
    if g.bound then (if g.binding then bindHere w s g else .trap geom)
    else if g.ending then .trapKeep (s.modCore w.core (fun c => { c with group := none })) geom
    else .stallKeep (s.modEng w (fun e => { e with arrived := true })) (.barrier 0)
  | none =>
    let base := 4 * tarnOf w.core
    let four := (List.range 4).map (fun k => base + k)
    let mine : Group := { qr := qr, qc := qc, binding := true, ending := false, bound := false }
    let s' := s.modCore w.core (fun c => { c with group := some mine })
    let here := four.all (fun k => match (s'.core k).group with | some g => g.binding && !g.bound && !g.ending | none => false)
    if !here then .stallKeep (s'.modEng w (fun e => { e with arrived := true })) (.barrier 0)
    else
      let same := four.all (fun k => (s'.core k).group == some mine &&
        (match (s'.core k).c0.task, s.task w with | some t, some u => t.launch == u.launch && t.part == u.part | _, _ => false))
      if same then
        let s'' := four.foldl (fun s k => s.modCore k (fun c => { c with group := some { mine with bound := true } })) s'
        bindHere w s'' { mine with bound := true }
      else
        let s'' := four.foldl (fun s k => if k = w.core then s.modCore k (fun c => { c with group := none })
          else s.modCore k (fun c => { c with group := c.group.map (fun g => { g with ending := true }) })) s'
        .trapKeep s'' geom

def execAcoop (dp : Dep) (qr : BitVec 2) (qc : BitVec 3) (s : State) : Host.Outcome State Fault Refusal :=
  issue dp (some .m) 5 2 (coopPre (qr.toNat * qc.toNat)) (coopAct qr.toNat qc.toNat) s

/-- `acoop.end`: a core that has asked and finds the group ended goes on. -/
def coopEndAct (w : EngRef) (s : State) : Act :=
  match groupEnd w s with
  | some (.hold t) => .done t
  | some a => a
  | none => if (s.eng w).arrived then .done s else .trap { code := .coopGeom }

/-- ACOOP in context 1 faults `ALLOT` (R378). -/
def coopEndPre (w : EngRef) (_ : State) : Option Trap := if w.ctx then some { code := .allot } else none

def execAcoopEnd (dp : Dep) (s : State) : Host.Outcome State Fault Refusal := issue dp (some .m) 5 2 coopEndPre coopEndAct s

/-! ### Accumulator set-up and status (R384 to R386) -/

def execAzero (dp : Dep) (d n : BitVec 4) (it : Bool) (s : State) : Host.Outcome State Fault Refusal :=
  let as_ := (List.range (n.toNat + 1)).map (fun i => d.toNat + i)
  issue dp (some .m) 0 1 (needAccs as_) (fun w s =>
    .done (as_.foldl (fun s a => (s.settleAcc w a 0).modCore w.core (fun c => c.setAcc a { (c.acc a).zeroed with int := it })) s)) s

/-- The cells that ALOAD puts into a tile (R385). -/
def aloadCells (s : State) (core : Nat) (x : Tile) (trn : Bool) : BitVec 131072 :=
  let words := cellList (BitVec.ofNat 131072 (leNat (s.tileBytes core x 0 16384)))
  if trn then cellsOfList ((List.range 64).flatMap (fun i => (List.range 64).map (fun j => words.getD (64 * j + i) 0))) else cellsOfList words

/-- ALOAD of a type. -/
def aloadOp (dp : Dep) (int : Bool) (d : BitVec 4) (a : BitVec 6) (trn : Bool) (s : State) : Host.Outcome State Fault Refusal :=
  issue dp (some .m) 0 2 (allOf [needAccs [d.toNat], needTiles [a.toNat]]) (fun w s =>
    let x := (s.core w.core).tile a.toNat
    Act.first [tileRead x a.toNat, eccTile w s w.core a.toNat,
        failUnless (decide (16384 ≤ x.size)) { code := .bounds, info := BitVec.ofNat 64 (x.size / 4), uclass := .tile, unit := a.toNat }]
      (let cells := aloadCells s w.core x trn
       let s := s.touchTile w.core a.toNat [(0, 16384)]
       let s := (s.settleAcc w d.toNat cells).modCore w.core (fun c => c.setAcc d.toNat { c.acc d.toNat with inUse := true, dirty := true, int := int, bad := false, hist := [] })
       let (id, s) := s.freshId
       .pend s id (.aload d.toNat cells a.toNat))) s

def execAloadF32 (dp : Dep) (d : BitVec 4) (a : BitVec 6) (trn : Bool) (s : State) : Host.Outcome State Fault Refusal := aloadOp dp false d a trn s
def execAloadI32 (dp : Dep) (d : BitVec 4) (a : BitVec 6) (trn : Bool) (s : State) : Host.Outcome State Fault Refusal := aloadOp dp true d a trn s

/-- The word ASTAT writes (R386). -/
def accStatus (c : Core) (ctx : Bool) (a : Nat) : BitVec 64 :=
  let x := c.acc a
  let g := match c.group with | some g => if g.bound && !g.binding && !ctx then some g else none | none => none
  let (qr, qc) := match g with | some g => (g.qr, g.qc) | none => (0, 0)
  let n := qr * qc
  let cq := if a < 12 then (if a < n then a else 15) else if x.lent then 12 + (a - (16 - (n - 12))) else 15
  BitVec.ofNat 64 ((if x.inUse then 1 else 0) + (if x.dirty then 2 else 0) + (if x.int then 4 else 0) + (if x.lent then 8 else 0) +
    32768 * qr + 131072 * qc + 1048576 * cq)

def execAstat (dp : Dep) (d : BitVec 6) (a : BitVec 4) (s : State) : Host.Outcome State Fault Refusal :=
  issue dp (some .m) 0 1 (needAccs [a.toNat]) (interlock [d] (fun w s => .done (s.setS w d (accStatus (s.core w.core) w.ctx a.toNat)))) s

def execLoopM (dp : Dep) (d : BitVec 6) (n : BitVec 14) (s : State) : Host.Outcome State Fault Refusal := loopOp dp .m d n s

/-! ### Drains (R387 to R390, R128 to R130) -/

/-- The exponent of a format's largest finite value, and that value, as the scale computation takes them (R96, R389). -/
def scaleBase (fmt : Nat) : Int × Nat × Nat :=
  let F := numFmt fmt
  match F.sp with
  | .int => if F.w = 8 then (6, 127, 1) else (2, 7, 1)
  | sp =>
    let em : Int := (2 ^ F.e - (if sp = .infNan then 2 else 1) : Int) - F.bias
    match decodeVal F (maxCode F) with
    | .fin _ n d => (em, n, d)
    | _ => (em, 1, 1)

/-- The scale of a block (R128, R130): its container and its value. -/
def blockScale (fmt scf : Nat) (vs : List Val) : Nat × Val :=
  let F := BitVec.ofNat 2 scf
  let nan := if scf = 1 then 0xFF else 0xFF0000
  if vs.any Val.isNan then (nan, .nan)
  else
    let big := vs.foldl (fun (m : Nat × Nat) v => match v with | .fin _ n d => if m.1 * d < n * m.2 then (n, d) else m | _ => m) (0, 1)
    let (em, vn, vd) := scaleBase fmt
    let c : Nat :=
      if big.1 = 0 then 0
      else if scf = 1 then (max 0 (min 254 (flog2 big.1 big.2 - em + 127))).toNat
      else
        -- amax / Vmax rounded up to 17 significant bits
        let n := big.1 * vd
        let d := big.2 * vn
        let e := flog2 n d
        let m := (roundUnits 2 false 0 n d (e - 16)).1
        if e < -127 then 0 else (e + 127).toNat * 65536 + m - 65536
    (c, scaleVal F c)

/-- The exact quotient of a value and a scale. -/
def Val.divBy (v sc : Val) : Val :=
  match v, sc with
  | .fin s n d, .fin _ a b => .fin s (n * b) (d * a)
  | .inf s, _ => .inf s
  | _, _ => .nan

/-- The format of a tile's cells (R370). -/
def Acc.fmt (x : Acc) : NumFmt := numFmt (if x.int then 8 else 0)

/-- The cells of a tile in the order of the destination's elements, dimension 0 fastest (R388). -/
def drainCells (x : Acc) (trn : Bool) : List Nat :=
  let cells := cellList (if x.dirty then x.cells else 0)
  -- destination position (j, i) holds cell (i, j), or (i, j) with TRN
  if trn then (List.range 64).flatMap (fun q => (List.range 64).map (fun p => cells.getD (64 * p + q) 0)) else cells

/-- The draws of an instruction that rounds `n` elements, and the generator after them (R109, R110). -/
def draws (mode : Nat) (g : BitVec 64) : Nat → List Nat × BitVec 64
  | 0 => ([], g)
  | n + 1 =>
    if mode = 4 then
      let g' := nextG g
      let (qs, h) := draws mode g' n
      (drawOf g' :: qs, h)
    else
      let (qs, h) := draws mode g n
      (0 :: qs, h)

/-- Elements converted without scales (R111 to R117, R388). -/
def drainPlain (F : NumFmt) (fmt mode ovf : Nat) (cs qs : List Nat) : List Res := cs.zipWith (fun c q => convert F (numFmt fmt) mode ovf q c) qs

/-- The scale block of destination position (d0, d1), in the order of the scales (R387). -/
def blockOf (vblk : Bool) (d0 d1 : Nat) : Nat := if vblk then d0 + 64 * (d1 / 32) else d0 / 32 + 2 * d1

/-- Elements converted with scales, and the containers (R128 to R130, R388). -/
def drainScaled (fmt scf mode ovf : Nat) (vblk : Bool) (vs : List Val) (qs : List Nat) : List Res × List Nat :=
  let arr := vs.toArray
  let members (b : Nat) : List Val :=
    if vblk then (List.range 32).map (fun i => arr.getD (b % 64 + 64 * (32 * (b / 64) + i)) .nan)
    else (List.range 32).map (fun i => arr.getD (32 * (b % 2) + i + 64 * (b / 2)) .nan)
  let scales := (List.range 128).map (fun b => blockScale fmt scf (members b))
  let sarr := scales.toArray
  let es := ((vs.zip qs).zipIdx).map (fun p =>
    match (sarr.getD (blockOf vblk (p.2 % 64) (p.2 / 64)) (0, .nan)).2 with
    | .nan => ({ code := 0 } : Res)
    | sc => roundConv (numFmt fmt) mode ovf p.1.2 (p.1.1.divBy sc))
  (es, scales.map (fun c => c.1))

/-- The bytes of elements of a width. -/
def packElems (w : Nat) (es : List Nat) : List Byte :=
  let rows := (List.range 64).map (fun r => leBytes (8 * w) (packLanes w ((es.drop (64 * r)).take 64)))
  rows.flatten

/-- The first element a TRAP policy stops (R112, R431). -/
def firstTrap (rs : List Res) : Option Nat := (rs.zipIdx).findSome? (fun p => if p.1.trap then some p.2 else none)

/-- What ADRAIN converts: elements and scales. -/
def drainResult (fmt : Nat) (q : DrainArgs) (x : Acc) (g : BitVec 64) : List Res × List Nat × BitVec 64 :=
  let cs := drainCells x q.trn
  let (qs, g') := draws q.rnd.toNat g 4096
  if q.scf = 0 then (drainPlain x.fmt fmt q.rnd.toNat q.ovf.toNat cs qs, [], g')
  else
    let (es, sc) := drainScaled fmt q.scf.toNat q.rnd.toNat q.ovf.toNat q.scb (cs.map (decodeVal x.fmt)) qs
    (es, sc, g')

/-- The checks of ADRAIN in the order of R388 and R393, up to the conversion. -/
def drainChecks (fmt : Nat) (q : DrainArgs) (w : EngRef) (s : State) : List (Option Act) :=
  let c := s.core w.core
  let d := q.d.toNat
  let b := q.b.toNat
  let two := decide (q.scf ≠ 0 ∧ q.b ≠ q.d)
  let same := decide (q.scf ≠ 0 ∧ q.b = q.d)
  let e := 512 * (numFmt fmt).w
  let sb := 128 * scBytes q.scf
  let poison (t : Nat) : Option Act := match tileWrite (c.tile t) t with | some (.trap x) => some (.trap x) | _ => none
  let wait (t : Nat) : Option Act := match tileWrite (c.tile t) t with | some (.stall x) => some (.stall x) | _ => none
  [ poison d, if two then poison b else none,
    waitIf (s.ops.any (fun o => o.writesAcc w.core (s.tid w) q.a.toNat)) .other,
    wait d, if two then wait b else none,
    waitIf (s.tileRead? w.core d || (two && s.tileRead? w.core b)) .other,
    failUnless (decide (e + (if same then sb else 0) ≤ (c.tile d).size))
      { code := .bounds, info := BitVec.ofNat 64 ((c.tile d).size * 8 / (numFmt fmt).w), uclass := .tile, unit := d },
    failUnless (!two || decide (sb ≤ (c.tile b).size)) { code := .bounds, info := BitVec.ofNat 64 ((c.tile b).size / max 1 (scBytes q.scf)), uclass := .tile, unit := b },
    failUnless (c.acc q.a.toNat).inUse { code := .accState },
    failUnless (c.acc q.a.toNat).readable { code := .eccUncorr } ]

/-- A drain's write to a tile of the core. -/
def drainWrite (c : Core) (t at_ : Nat) (bytes : List Byte) (tag : Option Tag) : DrainWrite :=
  let x := c.tile t
  { tile := t, epoch := x.epoch, off := x.off, size := x.size, swz := x.swz, at_ := at_, bytes := bytes, tag := tag, was := x.st }

/-- What ADRAIN does once its checks pass (R388). -/
def drainAct (fmt : Nat) (q : DrainArgs) (w : EngRef) (s : State) : Act :=
  let c := s.core w.core
  let x := c.acc q.a.toNat
  let g0 := (s.eng w).g
  let (es, sc, g) := drainResult fmt q x g0
  match firstTrap es with
  | some i => .trap { code := .fpTrap, info := BitVec.ofNat 64 i }
  | none =>
    let wd := (numFmt fmt).w
    let same := decide (q.scf ≠ 0 ∧ q.b = q.d)
    let geo (a b : BitVec 4) : Tag := ⟨BitVec.ofNat 5 fmt, q.scf, a, b, false⟩
    let tag : Tag := if same then (if q.scb then geo 5 0 else geo 0 5) else ⟨BitVec.ofNat 5 fmt, 0, 0, 0, false⟩
    let elems := drainWrite c q.d.toNat 0 (packElems wd (es.map (fun r => r.code))) (some tag)
    let scales := sc.flatMap (leBytes (scBytes q.scf))
    let ws := if q.scf = 0 then [elems]
      else if same then [elems, drainWrite c q.d.toNat (512 * wd) scales (some tag)]
      else [elems, drainWrite c q.b.toNat 0 scales none]
    let fl := es.foldl (fun f r => f ||| r.flags) 0
    let (id, s) := s.freshId
    let s := ws.foldl (fun s x => (s.touchTile w.core x.tile [(x.at_, x.at_ + x.bytes.length)]).modCore w.core
      (fun c => c.setTile x.tile { c.tile x.tile with st := .filling })) s
    let s := if q.az then s.modCore w.core (fun c => c.setAcc q.a.toNat (c.acc q.a.toNat).zeroed) else s
    .pend (s.modEng w (fun e => { e with g := g })) id
      (.drain q.a.toNat ws fl { before := g0, after := g, acc := if q.az then some (q.a.toNat, x) else none })

/-- ADRAIN to a format. -/
def adrainOp (dp : Dep) (fmt : Nat) (q : DrainArgs) (s : State) : Host.Outcome State Fault Refusal :=
  issue dp (some .m) 0 2 (allOf [needAccs [q.a.toNat], needTiles (if q.scf = 0 then [q.d.toNat] else [q.d.toNat, q.b.toNat])])
    (fun w s => Act.first (drainChecks fmt q w s) (drainAct fmt q w s)) s

def execAdrainF32 (dp : Dep) (q : DrainArgs) (s : State) : Host.Outcome State Fault Refusal := adrainOp dp 0 q s
def execAdrainF16 (dp : Dep) (q : DrainArgs) (s : State) : Host.Outcome State Fault Refusal := adrainOp dp 1 q s
def execAdrainBf16 (dp : Dep) (q : DrainArgs) (s : State) : Host.Outcome State Fault Refusal := adrainOp dp 2 q s
def execAdrainE4m3 (dp : Dep) (q : DrainArgs) (s : State) : Host.Outcome State Fault Refusal := adrainOp dp 3 q s
def execAdrainE5m2 (dp : Dep) (q : DrainArgs) (s : State) : Host.Outcome State Fault Refusal := adrainOp dp 4 q s
def execAdrainE2m3 (dp : Dep) (q : DrainArgs) (s : State) : Host.Outcome State Fault Refusal := adrainOp dp 5 q s
def execAdrainE3m2 (dp : Dep) (q : DrainArgs) (s : State) : Host.Outcome State Fault Refusal := adrainOp dp 6 q s
def execAdrainE2m1 (dp : Dep) (q : DrainArgs) (s : State) : Host.Outcome State Fault Refusal := adrainOp dp 7 q s
def execAdrainI32 (dp : Dep) (q : DrainArgs) (s : State) : Host.Outcome State Fault Refusal := adrainOp dp 8 q s
def execAdrainI8 (dp : Dep) (q : DrainArgs) (s : State) : Host.Outcome State Fault Refusal := adrainOp dp 9 q s
def execAdrainI4 (dp : Dep) (q : DrainArgs) (s : State) : Host.Outcome State Fault Refusal := adrainOp dp 10 q s

/-! ### ADRQ (R390) -/

/-- Rows of the tile that one queue entry holds. -/
def adrqRows (w : Nat) : Nat := 64 / w

/-- What ADRQ does once the queue has room: the rest of its checks in the order of R393, then the entries. -/
def adrqAct (dp : Dep) (fmt : Nat) (q : AdrqArgs) (w : EngRef) (s : State) : Act :=
  let c := s.core w.core
  let wd := (numFmt fmt).w
  let rho := adrqRows wd
  let n := q.n.toNat + 1
  let row0 := (s.sval w dp q.b).toNat
  let x := c.acc q.a.toNat
  Act.first
    [ waitIf (s.ops.any (fun o => o.writesAcc w.core (s.tid w) q.a.toNat)) .other,
      failUnless (decide (row0 + rho * n ≤ 64)) { code := .bounds, info := BitVec.ofNat 64 (64 * max row0 64) },
      failUnless x.inUse { code := .accState },
      failUnless x.readable { code := .eccUncorr } ]
    (let cs := ((drainCells x q.trn).drop (64 * row0)).take (64 * rho * n)
     let g0 := (s.eng w).g
     let (qs, g) := draws q.rnd.toNat g0 (64 * rho * n)
     let es := drainPlain x.fmt fmt q.rnd.toNat q.ovf.toNat cs qs
     match firstTrap es with
     | some i => .trap { code := .fpTrap, info := BitVec.ofNat 64 i }
     | none =>
       let per := 64 * rho
       let entries := (List.range n).map (fun e => entryOf wd (((es.drop (per * e)).take per).map (fun r => r.code)))
       let fl := es.foldl (fun f r => f ||| r.flags) 0
       let s := s.modEng w (fun e => { e with g := g })
       let (id, s) := s.freshId
       let s := s.modCore w.core (fun c => (List.range n).foldl (fun c _ => c.pushPending q.d.toNat id) c)
       .pend s id (.adrq q.a.toNat q.d.toNat entries fl { before := g0, after := g }))

/-- ADRQ to a format: all its pushes are counted at issue. -/
def adrqOp (dp : Dep) (fmt : Nat) (q : AdrqArgs) (s : State) : Host.Outcome State Fault Refusal :=
  issue dp (some .m) 0 2 (allOf [needQueues [q.d.toNat], needAccs [q.a.toNat]])
    (interlock [q.b] (fun w s => queueIssue w s [] (List.replicate (q.n.toNat + 1) q.d.toNat) false (fun _ _ => adrqAct dp fmt q w s))) s

def execAdrqF32 (dp : Dep) (q : AdrqArgs) (s : State) : Host.Outcome State Fault Refusal := adrqOp dp 0 q s
def execAdrqF16 (dp : Dep) (q : AdrqArgs) (s : State) : Host.Outcome State Fault Refusal := adrqOp dp 1 q s
def execAdrqBf16 (dp : Dep) (q : AdrqArgs) (s : State) : Host.Outcome State Fault Refusal := adrqOp dp 2 q s
def execAdrqE4m3 (dp : Dep) (q : AdrqArgs) (s : State) : Host.Outcome State Fault Refusal := adrqOp dp 3 q s
def execAdrqE5m2 (dp : Dep) (q : AdrqArgs) (s : State) : Host.Outcome State Fault Refusal := adrqOp dp 4 q s
def execAdrqI32 (dp : Dep) (q : AdrqArgs) (s : State) : Host.Outcome State Fault Refusal := adrqOp dp 8 q s
def execAdrqI8 (dp : Dep) (q : AdrqArgs) (s : State) : Host.Outcome State Fault Refusal := adrqOp dp 9 q s

/-! ### Completions (R360, R362, R388, R390) -/

/-- Sets an operation's flags in its engine, while its task runs. -/
def State.opFlags (s : State) (o : Op) (f : BitVec 5) : State := if s.alive o then s.setFlags o.who f else s

/-- The write of an accumulator tile by an operation whose task still runs; a lent tile that a kill has returned takes none (R383). -/
def State.writeAcc (s : State) (o : Op) (a : Nat) (cells : BitVec 131072) : State :=
  if s.alive o && (o.who.ctx || decide (a < 12) || ((s.core o.who.core).acc a).lent) then s.modCore o.who.core (fun c => c.setAcc a { c.acc a with cells := cells }) else s

/-- MMA_COMPLETION: the array completes in issue order. -/
def execMmaCompletion (op : Nat) (s : State) : Host.Outcome State Fault Refusal :=
  match s.op? op with
  | some o => (match o.kind with
    | .mma a cells _ _ fl _ =>
      let first := s.ops.find? (fun x => x.who.core == o.who.core && (match x.kind with | .mma _ _ _ _ _ _ => true | _ => false))
      if first.map (fun x => x.id) ≠ some o.id then .next s
      else .next (((s.writeAcc o a cells).opFlags o fl).finish o)
    | _ => .next s)
  | none => .next s

def execAloadCompletion (op : Nat) (s : State) : Host.Outcome State Fault Refusal :=
  match s.op? op with
  | some o => (match o.kind with
    | .aload a cells _ => .next ((s.writeAcc o a cells).finish o)
    | _ => .next s)
  | none => .next s

/-- One write of a drain: a tile that TSET has detached keeps its state, and a byte that a later access has written too may keep its
value (R324). -/
def State.landDrain (s : State) (o : Op) (x : DrainWrite) : State :=
  let core := o.who.core
  let t := (s.core core).tile x.tile
  if t.epoch = x.epoch then
    (s.putTile core x.off x.swz x.at_ x.bytes).modCore core (fun c => c.setTile x.tile { c.tile x.tile with st := .ready, tag := x.tag })
  else
    let view : Tile := { off := x.off, size := x.size, swz := x.swz }
    let (s, mixed) := s.mixDetached x.off x.swz x.at_ x.crossed (s.tileBytes core view x.at_ x.bytes.length) x.bytes
    s.putTile core x.off x.swz x.at_ mixed

/-- DRAIN_COMPLETION: the tiles are written and become READY with their tags. -/
def execDrainCompletion (op : Nat) (s : State) : Host.Outcome State Fault Refusal :=
  match s.op? op with
  | some o => (match o.kind with
    | .drain _ ws fl _ =>
      let s := if s.alive o then ws.foldl (fun s x => s.landDrain o x) s else s
      .next ((s.opFlags o fl).finish o)
    | _ => .next s)
  | none => .next s

/-- Whether an ADRQ's push into a channel queue waits for earlier stores of its engine (R201). -/
def State.drainWaits (s : State) (o : Op) (q : Nat) : Bool :=
  match s.task o.who with
  | some t => !t.isLocal o.who.ctx q && s.accessesLeft o.who o.tid (fun x => decide (x.id < o.id))
  | none => false

/-- ADRQ_ENTRY_WRITE: the next entry is written once the push may release (R201); the last one completes the instruction. -/
def execAdrqEntryWrite (op : Nat) (s : State) : Host.Outcome State Fault Refusal :=
  match s.op? op with
  | some o => (match o.kind with
    | .adrq _ _ [] fl _ => .next ((s.opFlags o fl).finish o)
    | .adrq a q (e :: es) fl un =>
      if s.drainWaits o q then .next s
      else
      let s := if s.alive o then s.modCore o.who.core (fun c => c.setQueue q (fillSlot o.id (.entry e) (c.queue q))) else s
      if es.isEmpty then .next ((s.opFlags o fl).finish o) else .next (s.putOp { o with kind := .adrq a q es fl un })
    | _ => .next s)
  | none => .next s

end Sys2Proof.Machine
end

