-- ==== Sys2Proof/Machine/Vector.lean ====
section
/-! DEFINITION. The vector engine's instructions (R397 to R427) and the write of their results. -/

namespace Sys2Proof.Machine

open Sys2Proof

/-! ### The shared form of issue (R400 to R404) -/

/-- What a V instruction computes: one entry per destination queue, a mask, a scalar, flags, the generator after it, how many free
values it took, the bank it reads. -/
structure VRes where
  outs : List (BitVec 4096) := []
  mask : Option (Nat × BitVec 512) := none
  dst : Option (Nat × BitVec 64) := none
  flags : BitVec 5 := 0
  g : BitVec 64
  free : Nat := 0
  bank : Option Nat := none

/-- Whether a V operation is still to write a guard mask (R402). -/
def State.maskBusy (s : State) (w : EngRef) (m : BitVec 3) : Bool :=
  s.ops.any (fun o => o.who == w && o.tid == s.tid w && (match o.kind with | .vres _ (some x) _ _ _ _ => x.1 == m.toNat | _ => false))

/-- What a fault would give back of an instruction that issues with these sources and leaves the generator at `after` (R403). -/
def undoOf (w : EngRef) (s : State) (srcs : List Src) (after : BitVec 64) : Undo where
  pops := ((mergeSrcs srcs).filter (fun x => !x.peek)).flatMap (fun x => (((s.core w.core).queue x.q).take 1).map (fun e => (x.q, e)))
  before := (s.eng w).g
  after := after

/-- The issue of a computed result: the sources are popped, the pushes counted, the generator advanced. -/
def vIssued (w : EngRef) (s : State) (srcs : List Src) (popped : Core) (dests : List Nat) (r : VRes) : Act :=
  let undo := undoOf w s srcs r.g
  let s := (s.setCore w.core popped).modEng w (fun e => { e with g := r.g })
  let (_, s) := s.draw r.free
  let (id, s) := s.freshId
  let s := s.modCore w.core (fun c => dests.foldl (fun c d => c.pushPending d id) c)
  .pend s id (.vres (dests.zip r.outs) r.mask r.dst r.flags r.bank undo)

/-- A V instruction: its sources and destination queues, the scalars and masks it reads, and what it computes from the entries. -/
def vAct (srcs : List Src) (dests : List Nat) (rs : List (BitVec 6)) (ms : List (BitVec 3))
    (f : EngRef → State → List (BitVec 4096) → Except Trap VRes) (w : EngRef) (s : State) : Act :=
  queueIssue w s srcs dests (rs.any (fun r => s.scalarBusy w r.toNat) || ms.any (s.maskBusy w)) (fun es popped =>
    match f w s es with
    | .error t => .trap t
    | .ok r => vIssued w s srcs popped dests r)

/-- A V instruction of `len` words. -/
def vOp (dp : Dep) (len : Nat) (srcs : List Src) (dests : List Nat) (rs : List (BitVec 6)) (ms : List (BitVec 3))
    (f : EngRef → State → List (BitVec 4096) → Except Trap VRes) (s : State) : Host.Outcome State Fault Refusal :=
  issue dp (some .v) 0 len (needQueues (srcs.map (fun x => x.q) ++ dests)) (vAct srcs dests rs ms f) s

/-- The sources of a form with two of them. -/
def srcs2 (q : Q2) : List Src := [⟨q.a.toNat, q.ka⟩, ⟨q.b.toNat, q.kb⟩]
/-- The source of a form with one. -/
def srcs1 (q : Q1) : List Src := [⟨q.a.toNat, q.ka⟩]

/-! ### Lanes (R397 to R399) -/

/-- Runs the lanes of a list in order: a disabled lane is zero, takes no draw and sets no flag (R110, R399). -/
def runLanes (mode : Nat) (f : Nat → Nat → Option Res) : List Nat → BitVec 64 → List Res × BitVec 64
  | [], g => ([], g)
  | i :: is_, g =>
    match f i 0 with
    | none =>
      let (rs, h) := runLanes mode f is_ g
      ({ code := 0 } :: rs, h)
    | some r0 =>
      if mode = 4 then
        let g' := nextG g
        let (rs, h) := runLanes mode f is_ g'
        ((f i (drawOf g')).getD r0 :: rs, h)
      else
        let (rs, h) := runLanes mode f is_ g
        (r0 :: rs, h)

/-- The flags of a list of results. -/
def allFlags (rs : List Res) : BitVec 5 := rs.foldl (fun f r => f ||| r.flags) 0

/-- The entry and flags of lane results, or the fault of the first lane a TRAP policy stops. -/
def lanesRes (w : Nat) (rs : List Res) (g : BitVec 64) : Except Trap VRes :=
  match firstTrap rs with
  | some i => .error { code := .fpTrap, info := BitVec.ofNat 64 i }
  | none => .ok { outs := [entryOf w (rs.map (fun r => r.code))], flags := allFlags rs, g := g }

/-- A lane-wise instruction: the function of lane `i`, its draw and the lanes of each source. -/
def laneOp (dp : Dep) (len w mode : Nat) (srcs : List Src) (d : BitVec 5) (t : BitVec 3) (f : Nat → List Nat → Res) (s : State) :
    Host.Outcome State Fault Refusal :=
  vOp dp len srcs [d.toNat] [] [t] (fun e s es =>
    let gm := s.guard e t
    let n := 4096 / w
    let ls := es.map (fun x => (lanes x w).toArray)
    let (rs, g) := runLanes mode (fun i q => if enabled gm (w / 8) i then some (f q (ls.map (fun a => a.getD i 0))) else none) (List.range n) (s.eng e).g
    lanesRes w rs g) s

/-- Element `k` of the lane values. -/
def arg (l : List Nat) (k : Nat) : Nat := l.getD k 0

/-! ### Arithmetic (R406, R407, R413 to R415) -/

/-- a × b + c, rounded by the caller; a NaN operand sets no flag (R99, R117). -/
def fmaVal (mode : Nat) (a b c : Val) : Val × BitVec 5 :=
  if a.isNan || b.isNan || c.isNan then (.nan, 0)
  else
    let (p, i) := Val.mul a b
    if i then (.nan, fNV)
    else
      let (r, j) := Val.add mode p c
      (r, nvIf j)
/-- a + b. -/
def addVal (mode : Nat) (a b : Val) : Val × BitVec 5 := let (r, i) := Val.add mode a b; (r, nvIf i)
/-- a × b. -/
def mulVal (a b : Val) : Val × BitVec 5 := let (r, i) := Val.mul a b; (r, nvIf i)

/-- Rounds a result that may be invalid (R108, R117). -/
def arith (F : NumFmt) (mode q : Nat) (x : Val × BitVec 5) : Res :=
  let r := roundArith F mode q x.1
  { r with flags := r.flags ||| x.2 }

/-- A binary floating-point instruction in a format (R406). -/
def fp2Op (dp : Dep) (fmt : Nat) (q : Q2) (rnd : BitVec 3) (f : Nat → Val → Val → Val × BitVec 5) (s : State) : Host.Outcome State Fault Refusal :=
  let F := numFmt fmt
  laneOp dp 2 F.w rnd.toNat (srcs2 q) q.d q.t (fun r l => arith F rnd.toNat r (f rnd.toNat (decodeVal F (arg l 0)) (decodeVal F (arg l 1)))) s

/-- VFMA in a format: an 8-bit result is a down-conversion (R406). -/
def fmaOp (dp : Dep) (fmt : Nat) (q : Q2) (x : W3) (s : State) : Host.Outcome State Fault Refusal :=
  let F := numFmt fmt
  let m := x.rnd.toNat
  laneOp dp 2 F.w m ((srcs2 q) ++ [⟨x.c.toNat, x.kc⟩]) q.d q.t (fun r l =>
    let v := fmaVal m (decodeVal F (arg l 0)) (decodeVal F (arg l 1)) (decodeVal F (arg l 2))
    if F.w = 8 then
      let y := roundConv F m x.ovf.toNat r v.1
      { y with flags := y.flags ||| v.2 }
    else arith F m r v) s

/-- An exact floating-point instruction: a NaN operand gives the canonical NaN (R407). -/
def exactOp (dp : Dep) (fmt : Nat) (srcs : List Src) (d : BitVec 5) (t : BitVec 3) (f : NumFmt → List Nat → Nat) (s : State) : Host.Outcome State Fault Refusal :=
  let F := numFmt fmt
  laneOp dp 1 F.w 0 srcs d t (fun _ l => { code := if l.any (fun x => (decodeVal F x).isNan) then nanCode F else f F l }) s

/-- The smaller of two lanes, -0 below +0. -/
def fpMin (F : NumFmt) (l : List Nat) : Nat := if (decodeVal F (arg l 1)).lt (decodeVal F (arg l 0)) then arg l 1 else arg l 0
/-- The larger of two lanes. -/
def fpMax (F : NumFmt) (l : List Nat) : Nat := if (decodeVal F (arg l 0)).lt (decodeVal F (arg l 1)) then arg l 1 else arg l 0
/-- A lane without its sign. -/
def fpAbs (F : NumFmt) (l : List Nat) : Nat := arg l 0 % 2 ^ (F.w - 1)
/-- A lane with its sign inverted. -/
def fpNeg (F : NumFmt) (l : List Nat) : Nat := Nat.xor (arg l 0) (2 ^ (F.w - 1))

/-- A signed lane. -/
def signed (w x : Nat) : Int := if x < 2 ^ (w - 1) then (x : Int) else (x : Int) - (2 ^ w : Nat)
/-- An exact integer result handled by an overflow policy (R115, R413). -/
def intRes (F : NumFmt) (ovf : Nat) (x : Int) : Res := roundConv F 0 ovf 0 (.fin (decide (x < 0)) x.natAbs 1)

/-- Integer arithmetic in a format (R413). -/
def int2Op (dp : Dep) (fmt : Nat) (q : Q2) (ovf : BitVec 2) (f : Int → Int → Int) (s : State) : Host.Outcome State Fault Refusal :=
  let F := numFmt fmt
  laneOp dp 2 F.w 0 (srcs2 q) q.d q.t (fun _ l => intRes F ovf.toNat (f (signed F.w (arg l 0)) (signed F.w (arg l 1)))) s

/-- The bits of the bytes that a guard enables. -/
def guardBits (g : BitVec 512) : BitVec 4096 := BitVec.ofNat 4096 (packLanes 8 ((List.range 512).map (fun j => if g.getLsbD j then 0 else 255)))

/-- A bit operation on whole entries, byte by byte under the guard (R414). -/
def bitOp (dp : Dep) (srcs : List Src) (dests : List Nat) (t : BitVec 3) (f : List (BitVec 4096) → BitVec 4096) (s : State) : Host.Outcome State Fault Refusal :=
  vOp dp 1 srcs dests [] [t] (fun e s es =>
    let r := f es &&& guardBits (s.guard e t)
    .ok { outs := dests.map (fun _ => r), g := (s.eng e).g }) s

/-- Entry `k` of the sources. -/
def ent (es : List (BitVec 4096)) (k : Nat) : BitVec 4096 := es.getD k 0

/-- A shift of lanes of width `w` (R415). -/
def shiftOp (dp : Dep) (w : Nat) (q : Q2) (f : Nat → Nat → Nat) (s : State) : Host.Outcome State Fault Refusal :=
  laneOp dp 1 w 0 (srcs2 q) q.d q.t (fun _ l => { code := f (arg l 0) (arg l 1 % w) % 2 ^ w }) s
/-- VSHR of one lane: bit `w - 1` fills. -/
def shrLane (w a n : Nat) : Nat := ((signed w a / (2 ^ n : Nat)) % (2 ^ w : Nat)).toNat

/-! ### Functions (R131, R408) -/

/-- The largest `r` below `2 ^ b` with `r² ≤ n`. -/
def isqrt (n : Nat) : Nat → Nat → Nat
  | 0, r => r
  | b + 1, r => let t := r + 2 ^ b; isqrt n b (if t * t ≤ n then t else r)

/-- ln 2 in units of 2^-160. -/
def ln2 : Nat := 0xB17217F7D1CF79ABC9E3B39803F2F6AF40F34326
/-- The terms of the exponential series of `t` (in units of 2^-160) from term `k` on. -/
def expSeries (t : Nat) : Nat → Nat → Nat → Nat
  | 0, _, _ => 0
  | n + 1, k, term => term + expSeries t n (k + 1) (term * t / (2 ^ 160 * k))
/-- 2^f for a fraction in units of 2^-160, in the same units. -/
def exp2Frac (f : Nat) : Nat := expSeries (f * ln2 / 2 ^ 160) 48 1 (2 ^ 160)
/-- `n` binary digits of log2 of a mantissa in [1, 2), which stands in units of 2^-224. -/
def log2Frac : Nat → Nat → Nat → Nat
  | 0, _, r => r
  | n + 1, m, r =>
    let sq := m * m / 2 ^ 224
    if 2 ^ 225 ≤ sq then log2Frac n (sq / 2) (2 * r + 1) else log2Frac n sq (2 * r)

/-- `2 ^ e` as a fraction. -/
def pow2 (e : Int) : Nat × Nat := if 0 ≤ e then (2 ^ e.toNat, 1) else (1, 2 ^ (-e).toNat)

/-- Whether `a / b` lies within `k` units in the last place of `n / d` (both signed alike). -/
def withinUlp (F : NumFmt) (k : Nat) (a b n d : Nat) : Bool :=
  let e := max (flog2 n d) (1 - (F.bias : Int)) - F.f
  let (un, ud) := pow2 e
  decide (((a * d : Nat) - (n * b : Nat) : Int).natAbs * ud ≤ k * un * b * d)

/-- A function's value where no case of R131 gives it: the part's fixed approximation, which lies within the error. Its flags, underflow
among them, are those of the correctly rounded value, whichever value the part returns (R116; DESIGN CHOICE, log 40). -/
def approxRes (F : NumFmt) (fn fmt mode x : Nat) (neg : Bool) (n d k : Nat) : Res :=
  let near := roundArith F mode 0 (.fin neg n d)
  let near := { near with flags := near.flags ||| fNX }
  let c := (Config.approx fn fmt mode (BitVec.ofNat 32 x)).toNat % 2 ^ F.w
  if near.flags &&& fOF ≠ 0 then near
  else match decodeVal F c with
    | .fin s a b => if s == neg && withinUlp F k a b n d then { near with code := c } else near
    | _ => near

/-- Whether a magnitude is a power of two. -/
def isPow2 (n d : Nat) : Bool := let p := pow2 (flog2 n d); decide (n * p.2 = p.1 * d)

/-- The four functions on one lane (R131). The table names no infinity for VRCP and VRSQ: VRCP of an infinity gives a zero of its sign and
VRSQ of +∞ gives +0, without a flag (DESIGN CHOICE, log 66). -/
def fnLane (fn fmt mode q x : Nat) : Res :=
  let F := numFmt fmt
  let inf (s : Bool) (f : BitVec 5) : Res := { code := withSign F s (infCode F), flags := f }
  let nan (f : BitVec 5) : Res := { code := nanCode F, flags := f }
  match fn, decodeVal F x with
  | _, .nan => nan 0
  | 0, .inf s => { code := withSign F s 0 }
  | 0, .fin s n d => if n = 0 then inf s fDZ else if isPow2 n d then roundArith F mode q (.fin s d n) else approxRes F 0 fmt mode x s d n 1
  | 1, .inf s => if s then nan fNV else { code := 0 }
  | 1, .fin s n d =>
    if n = 0 then inf s fDZ
    else if s then nan fNV
    else
      let e := flog2 n d
      if isPow2 n d ∧ e % 2 = 0 then (let p := pow2 (-(e / 2)); roundArith F mode q (.fin false p.1 p.2))
      else approxRes F 1 fmt mode x false (isqrt (d * 2 ^ 320 / n) 240 0) (2 ^ 160) 1
  | 2, .inf s => if s then { code := 0 } else inf false 0
  | 2, .fin s n d =>
    if 1024 * d ≤ n then (let p := pow2 (if s then -1024 else 1024); roundArith F mode q (.fin false p.1 p.2))
    else
      let v : Int := if s then -((n * 2 ^ 160 / d : Nat) : Int) else ((n * 2 ^ 160 / d : Nat) : Int)
      let p := pow2 (v / (2 ^ 160 : Nat))
      let f := (v % (2 ^ 160 : Nat)).toNat
      if f = 0 then roundArith F mode q (.fin false p.1 p.2)
      else
        let y := (p.1 * exp2Frac f, p.2 * 2 ^ 160)
        -- below the smallest subnormal the value is rounded under R116
        if flog2 y.1 y.2 < 1 - (F.bias : Int) - F.f then roundArith F mode q (.fin false y.1 y.2)
        else approxRes F 2 fmt mode x false y.1 y.2 2
  | _, .inf s => if s then nan fNV else inf false 0
  | _, .fin s n d =>
    if n = 0 then inf true fDZ
    else if s then nan fNV
    else
      let e := flog2 n d
      if isPow2 n d then roundArith F mode q (.fin (decide (e < 0)) e.natAbs 1)
      else
        let (a, b) := inUnits n d (e - 224)
        let y : Int := e * (2 ^ 160 : Nat) + (log2Frac 160 (a / b) 0 : Nat)
        approxRes F 3 fmt mode x (decide (y < 0)) y.natAbs (2 ^ 160) 2

/-- VRCP, VRSQ, VEXP2 and VLOG2 in a format (R408). -/
def fnOp (dp : Dep) (fn fmt : Nat) (q : Q1) (rnd : BitVec 3) (s : State) : Host.Outcome State Fault Refusal :=
  laneOp dp 2 (numFmt fmt).w rnd.toNat (srcs1 q) q.d q.t (fun r l => fnLane fn fmt rnd.toNat r (arg l 0)) s

/-! ### Conversion and expansion (R409 to R412, R422) -/

/-- Bit fields of an entry: `n` of width `w` from field number `k` on. -/
def fields (e : BitVec 4096) (w k n : Nat) : List Nat := (List.range n).map (fun i => (e.toNat >>> (w * (k + i))) % 2 ^ w)
/-- An entry that holds fields of width `w` from field number `k` on, and zeros elsewhere. -/
def fieldsEntry (w k : Nat) (ls : List Nat) : BitVec 4096 := BitVec.ofNat 4096 (packLanes w ls <<< (w * k))

/-- VCVT of an entry (R409, R410). -/
def cvtRes (x : CvtArgs) (gm : BitVec 512) (g : BitVec 64) (a : BitVec 4096) : Except Trap VRes :=
  let S := numFmt x.sfmt.toNat
  let D := numFmt x.dfmt.toNat
  let es := cvtWidth x.sfmt
  let ed := cvtWidth x.dfmt
  let m := max es ed
  let n := 4096 / m
  let p := x.part.toNat * n
  let src := (fields a S.w (if es < ed then p else 0) n).toArray
  let (rs, g) := runLanes x.rnd.toNat (fun i q =>
    if gm.getLsbD (i * m / 8) then none else some (convert S D x.rnd.toNat x.ovf.toNat q (src.getD i 0))) (List.range n) g
  match firstTrap rs with
  | some i => .error { code := .fpTrap, info := BitVec.ofNat 64 i }
  | none => .ok { outs := [fieldsEntry D.w (if ed < es then p else 0) (rs.map (fun r => r.code))], flags := allFlags rs, g := g }

/-- VCBX: the bank's wait and faults come after the queues (R404, R412). -/
def vcbxAct (q : Q1) (kb wid : BitVec 3) (part : BitVec 5) (w : EngRef) (s : State) : Act :=
  queueIssue w s (srcs1 q) [q.d.toNat] (s.maskBusy w q.t) (fun es popped =>
    match bankRead (s.core w.core) kb.toNat with
      | some a => a.clearPending s w.core kb.toNat
      | none =>
        let b := (s.core w.core).bank kb.toNat
        let gm := s.guard w q.t
        let wd := wid.toNat + 1
        let idx := fields (ent es 0) wd (part.toNat * 128) 128
        match (idx.zipIdx).find? (fun p => enabled gm 4 p.2 && decide (b.count ≤ p.1)) with
        | some p => .trap { code := .cbIndex, info := BitVec.ofNat 64 (p.1 + 65536 * p.2), uclass := .bank, unit := kb.toNat }
        | none =>
          let ls := (idx.zipIdx).map (fun p => if enabled gm 4 p.2 then b.entry p.1 else 0)
          vIssued w s (srcs1 q) popped [q.d.toNat] { outs := [entryOf 32 ls], g := (s.eng w).g, bank := some kb.toNat })

def execVcbx (dp : Dep) (q : Q1) (kb wid : BitVec 3) (part : BitVec 5) (s : State) : Host.Outcome State Fault Refusal :=
  issue dp (some .v) 1 2 (allOf [needQueues [q.a.toNat, q.d.toNat], needBanks [kb.toNat]]) (vcbxAct q kb wid part) s

def execVcvt (dp : Dep) (q : Q1) (x : CvtArgs) (s : State) : Host.Outcome State Fault Refusal :=
  vOp dp 2 (srcs1 q) [q.d.toNat] [] [q.t] (fun e s es => cvtRes x (s.guard e q.t) (s.eng e).g (ent es 0)) s

def execVpack (dp : Dep) (q : Q1) (wid part : BitVec 3) (s : State) : Host.Outcome State Fault Refusal :=
  vOp dp 2 (srcs1 q) [q.d.toNat] [] [q.t] (fun e s es =>
    let gm := s.guard e q.t
    let w := wid.toNat + 1
    let ls := ((lanes (ent es 0) 8).zipIdx).map (fun p => if enabled gm 1 p.2 then p.1 % 2 ^ w else 0)
    .ok { outs := [fieldsEntry w (part.toNat * 512) ls], g := (s.eng e).g }) s

def execVunpack (dp : Dep) (q : Q1) (wid part : BitVec 3) (sx : Bool) (s : State) : Host.Outcome State Fault Refusal :=
  vOp dp 2 (srcs1 q) [q.d.toNat] [] [q.t] (fun e s es =>
    let gm := s.guard e q.t
    let w := wid.toNat + 1
    let ls := ((fields (ent es 0) w (part.toNat * 512) 512).zipIdx).map (fun p =>
      if enabled gm 1 p.2 then (if sx then ((signed w p.1) % (256 : Nat)).toNat else p.1) else 0)
    .ok { outs := [entryOf 8 ls], g := (s.eng e).g }) s

/-! ### Compare and select (R416, R417) -/

/-- A condition on float lanes. -/
def fpCond (F : NumFmt) (t : Nat) (x y : Nat) : Bool :=
  let a := decodeVal F x
  let b := decodeVal F y
  let un := a.isNan || b.isNan
  let lt := a.cmpLt b
  let gt := b.cmpLt a
  match t with
  | 0 => !un && !lt && !gt
  | 1 => un || lt || gt
  | 2 => lt
  | 3 => !un && !gt
  | 4 => gt
  | 5 => !un && !lt
  | 6 => un
  | _ => !un
/-- A condition on integer lanes. -/
def intCond (w t x y : Nat) : Bool :=
  let a := signed w x
  let b := signed w y
  match t with
  | 0 => x == y
  | 1 => x != y
  | 2 => decide (a < b)
  | 3 => decide (a ≤ b)
  | 4 => decide (b < a)
  | 5 => decide (b ≤ a)
  | 6 => decide (x < y)
  | _ => decide (y ≤ x)

/-- VCMP: every lane is compared, and the bits of its bytes are written (R416). -/
def cmpOp (dp : Dep) (w : Nat) (q : Q2) (f : Nat → Nat → Bool) (s : State) : Host.Outcome State Fault Refusal :=
  vOp dp 1 (srcs2 q) [] [] [] (fun e s es =>
    let hits := (lanes (ent es 0) w).zipWith f (lanes (ent es 1) w)
    let b := w / 8
    let m := packLanes b (hits.map (fun h => if h then 2 ^ b - 1 else 0))
    .ok { mask := some (q.d.toNat % 8, BitVec.ofNat 512 m), g := (s.eng e).g }) s

def execVsel (dp : Dep) (q : Q2) (s : State) : Host.Outcome State Fault Refusal :=
  vOp dp 1 (srcs2 q) [q.d.toNat] [] [q.t] (fun e s es =>
    let m := guardBits (s.guard e q.t)
    .ok { outs := [(ent es 0 &&& m) ||| (ent es 1 &&& ~~~m)], g := (s.eng e).g }) s

/-! ### Broadcasts, reductions and scans (R418 to R420, R132) -/

/-- Lane width of a `WD` code (R418). -/
def wdBits (wd : BitVec 2) : Nat := match wd.toNat with | 0 => 32 | 1 => 16 | _ => 8

/-- An entry whose enabled lanes hold what a function gives. -/
def guardedEntry (w : Nat) (gm : BitVec 512) (f : Nat → Nat) : BitVec 4096 :=
  entryOf w ((List.range (4096 / w)).map (fun i => if enabled gm (w / 8) i then f i % 2 ^ w else 0))

def execVbcast (dp : Dep) (d : BitVec 5) (t : BitVec 3) (ss : BitVec 6) (wd : BitVec 2) (s : State) : Host.Outcome State Fault Refusal :=
  vOp dp 2 [] [d.toNat] [ss] [t] (fun e s _ =>
    .ok { outs := [guardedEntry (wdBits wd) (s.guard e t) (fun _ => (s.sval e dp ss).toNat)], g := (s.eng e).g }) s

def execVbcastLane (dp : Dep) (q : Q1) (ss : BitVec 6) (wd : BitVec 2) (s : State) : Host.Outcome State Fault Refusal :=
  vOp dp 2 (srcs1 q) [q.d.toNat] [ss] [q.t] (fun e s es =>
    let w := wdBits wd
    let i := (s.sval e dp ss).toNat
    if 4096 / w ≤ i then .error { code := .bounds, info := s.sval e dp ss }
    else .ok { outs := [guardedEntry w (s.guard e q.t) (fun _ => lane (ent es 0) w i)], g := (s.eng e).g }) s

/-- A floating-point sum in an open order, each addition rounded under the mode, within the error of R132: `d` numbers its first free value. The sign of a
zero is open where terms of both signs occur, and otherwise theirs (R419; for the scan of R420 DESIGN CHOICE, log 41). -/
def fpSum (F : NumFmt) (mode d : Nat) (xs : List Nat) : Res :=
  let (v, f) := boundedSum F mode d (xs.map (decodeVal F))
  match v with
  | .nan => { code := nanCode F, flags := f }
  | .inf s => { code := withSign F s (infCode F), flags := f }
  | .fin s n _ =>
    if n = 0 then { code := withSign F (if xs.any (signBit F) && xs.any (fun x => !signBit F x) then Config.freeBit d else s) 0, flags := f }
    else { roundArith F 0 0 v with flags := f }

/-- The enabled lanes of an entry. -/
def liveLanes (w : Nat) (gm : BitVec 512) (a : BitVec 4096) : List Nat :=
  ((lanes a w).zipIdx).filterMap (fun p => if enabled gm (w / 8) p.2 then some p.1 else none)
/-- An entry with one value in every lane. -/
def fillEntry (w x : Nat) : BitVec 4096 := entryOf w (List.replicate (4096 / w) x)

/-- A reduction of the enabled lanes, written to every lane (R419). -/
def redOp (dp : Dep) (len w free : Nat) (q : Q1) (f : Nat → List Nat → Res) (s : State) : Host.Outcome State Fault Refusal :=
  vOp dp len (srcs1 q) [q.d.toNat] [] [q.t] (fun e s es =>
    let r := f s.fresh (liveLanes w (s.guard e q.t) (ent es 0))
    if r.trap then .error { code := .fpTrap }
    else .ok { outs := [fillEntry w r.code], flags := r.flags, g := (s.eng e).g, free := free }) s

/-- The sum of a float reduction. -/
def redaddOp (dp : Dep) (fmt : Nat) (q : Q1) (rnd : BitVec 3) (s : State) : Host.Outcome State Fault Refusal :=
  redOp dp 2 (numFmt fmt).w 256 q (fpSum (numFmt fmt) rnd.toNat) s
/-- The largest float, -0 below +0; any NaN gives the canonical NaN; none gives -∞ (R419). -/
def fpLargest (F : NumFmt) (xs : List Nat) : Nat :=
  if xs.any (fun x => (decodeVal F x).isNan) then nanCode F
  else xs.foldl (fun m x => fpMax F [m, x]) (withSign F true (infCode F))
/-- The largest of a float reduction. -/
def redmaxOp (dp : Dep) (fmt : Nat) (q : Q1) (s : State) : Host.Outcome State Fault Refusal :=
  redOp dp 1 (numFmt fmt).w 0 q (fun _ xs => { code := fpLargest (numFmt fmt) xs }) s

def execVredaddI32 (dp : Dep) (q : Q1) (ovf : BitVec 2) (s : State) : Host.Outcome State Fault Refusal :=
  redOp dp 2 32 0 q (fun _ xs => intRes (numFmt 8) ovf.toNat (xs.foldl (fun t x => t + signed 32 x) 0)) s
def execVredmaxI32 (dp : Dep) (q : Q1) (s : State) : Host.Outcome State Fault Refusal :=
  redOp dp 1 32 0 q (fun _ xs => { code := xs.foldl (fun m x => if signed 32 m < signed 32 x then x else m) (2 ^ 31) }) s

/-- The terms of each lane's segment (R420): `none` for a lane before any head takes the carry. -/
def segments (gm heads : BitVec 512) (carry : List Nat) : List Nat → Nat → List Nat → Bool → List (List Nat)
  | [], _, _, _ => []
  | x :: xs, i, acc, begun =>
    let head := heads.getLsbD (4 * i)
    let begun := begun || head
    let acc := if head then [] else acc
    let acc := if enabled gm 4 i then acc ++ [x] else acc
    (if begun then acc else carry ++ acc) :: segments gm heads carry xs (i + 1) acc begun

/-- A segmented scan of 32-bit lanes (R420). -/
def scanOp (dp : Dep) (q : Q1) (x : W3) (hm : BitVec 3) (ci : Bool) (free : Nat) (f : Nat → List Nat → Res) (s : State) : Host.Outcome State Fault Refusal :=
  vOp dp 2 ((srcs1 q) ++ (if ci then [⟨x.c.toNat, x.kc⟩] else [])) [q.d.toNat] [] [q.t, hm] (fun e s es =>
    let gm := s.guard e q.t
    let segs := segments gm (s.guard e hm) (if ci then [lane (ent es 1) 32 0] else []) (lanes (ent es 0) 32) 0 [] false
    let rs := (segs.zipIdx).map (fun p => if enabled gm 4 p.2 then f (s.fresh + 130 * p.2) p.1 else { code := 0 })
    (lanesRes 32 rs (s.eng e).g).map (fun r => { r with free := free })) s

def execVscanF32 (dp : Dep) (q : Q1) (x : W3) (hm : BitVec 3) (ci : Bool) (s : State) : Host.Outcome State Fault Refusal :=
  scanOp dp q x hm ci 16640 (fpSum (numFmt 0) x.rnd.toNat) s
def execVscanI32 (dp : Dep) (q : Q1) (x : W3) (hm : BitVec 3) (ci : Bool) (s : State) : Host.Outcome State Fault Refusal :=
  scanOp dp q x hm ci 0 (fun _ xs => intRes (numFmt 8) x.ovf.toNat (xs.foldl (fun t y => t + signed 32 y) 0)) s

/-! ### Data movement (R421, R423 to R425) -/

/-- The lane that VPERM moves to lane `i` of `n = 2 ^ l` lanes: true for one of B (R421). -/
def permSrc (mode n l k p : Nat) (b : Array Nat) (i : Nat) : Bool × Nat :=
  match mode with
  | 0 => (false, b.getD i 0 % n)
  | 1 => (false, Nat.xor i (k % n))
  | 2 => (false, (i + k) % n)
  | 3 => (false, revBits 1 l i)
  | 4 => (false, if l % 2 = 1 then i / 2 ^ (l - 1) * 2 ^ (l - 1) + revBits 2 (l / 2) (i % 2 ^ (l - 1)) else revBits 2 (l / 2) i)
  | 5 => (decide (i % 2 = 1), i / 2 + p * (n / 2))
  | _ => if i < n / 2 then (false, 2 * i + p) else (true, 2 * (i - n / 2) + p)
where
  /-- `m` digits of `c` bits each, reversed. -/
  revBits (c : Nat) : Nat → Nat → Nat
    | 0, _ => 0
    | m + 1, x => x % 2 ^ c * 2 ^ (c * m) + revBits c m (x / 2 ^ c)

def execVperm (dp : Dep) (q : Q2) (mode : BitVec 3) (wd : BitVec 2) (sk : BitVec 6) (part : Bool) (s : State) : Host.Outcome State Fault Refusal :=
  let m := mode.toNat
  let two := decide (m = 0 ∨ m = 5 ∨ m = 6)
  vOp dp 2 (if two then (srcs2 q) else [⟨q.a.toNat, q.ka⟩]) [q.d.toNat] (if m = 1 ∨ m = 2 then [sk] else []) [q.t] (fun e s es =>
    let w := wdBits wd
    let n := 4096 / w
    let a := (lanes (ent es 0) w).toArray
    let b := (lanes (ent es 1) w).toArray
    let k := (s.sval e dp sk).toNat
    .ok { outs := [guardedEntry w (s.guard e q.t) (fun i =>
            let (fromB, j) := permSrc m n (Nat.log2 n) k (if part then 1 else 0) b i
            (if fromB then b else a).getD j 0)], g := (s.eng e).g }) s

def execVmovq (dp : Dep) (q : Q1) (s : State) : Host.Outcome State Fault Refusal := bitOp dp (srcs1 q) [q.d.toNat] q.t (fun es => ent es 0) s
/-- VDUP: its second destination is `q.b`. -/
def execVdup (dp : Dep) (q : Q2) (s : State) : Host.Outcome State Fault Refusal :=
  bitOp dp [⟨q.a.toNat, q.ka⟩] [q.d.toNat, q.b.toNat] q.t (fun es => ent es 0) s

/-- VDROP pops `n` entries at issue (R423). -/
def dropAct (q n : Nat) (w : EngRef) (s : State) : Act :=
  match s.task w with
  | none => .trap { code := .allot }
  | some t =>
    let c := s.core w.core
    let l := c.queue q
    if (t.binding w.ctx q).2 ≠ w.eng then .trap { code := .engineMismatch, uclass := .queue, unit := q }
    else if t.isLocal w.ctx q ∧ l.length < n then .trap { code := .queueUnder, uclass := .queue, unit := q }
    else if l.length < n then .stall (.pop q n)
    else if (l.take n).any (fun x => match x with | .pending _ => true | _ => false) then .stall (.pendingPush q n)
    else match (l.take n).findSome? (fun x => match x with | .poison r _ _ => some r | _ => none) with
      | some r => .trap (poisonTrap (some r) .queue q)
      | none => .done (s.setCore w.core (c.setQueue q (l.drop n)))

def execVdrop (dp : Dep) (a : BitVec 5) (n : BitVec 2) (s : State) : Host.Outcome State Fault Refusal :=
  issue dp (some .v) 0 1 (needQueues [a.toNat]) (dropAct a.toNat (n.toNat + 1)) s

def execVlanei (dp : Dep) (d : BitVec 5) (t : BitVec 3) (sb : BitVec 6) (wd : BitVec 2) (sst : BitVec 6) (s : State) : Host.Outcome State Fault Refusal :=
  vOp dp 2 [] [d.toNat] [sb, sst] [t] (fun e s _ =>
    .ok { outs := [guardedEntry (wdBits wd) (s.guard e t) (fun i => (s.sval e dp sb + BitVec.ofNat 64 i * s.sval e dp sst).toNat)], g := (s.eng e).g }) s

def execVpeeks (dp : Dep) (a : BitVec 5) (ka : Bool) (sd : BitVec 6) (wd : BitVec 2) (ln : BitVec 9) (s : State) : Host.Outcome State Fault Refusal :=
  vOp dp 2 [⟨a.toNat, ka⟩] [] [] [] (fun e s es =>
    .ok { dst := some (sd.toNat, BitVec.ofNat 64 (lane (ent es 0) (wdBits wd) ln.toNat)), g := (s.eng e).g }) s

/-! ### The softmax merge (R426) -/

/-- fA × x + fB × y, rounded once. -/
def mergeLane (mode q : Nat) (fa fb : Val) (x y : Nat) : Res :=
  let F := numFmt 0
  let a := decodeVal F x
  let b := decodeVal F y
  if a.isNan || b.isNan then { code := nanCode F }
  else
    let (p, i) := Val.mul fa a
    let (r, j) := Val.mul fb b
    if i || j then { code := nanCode F, flags := fNV } else arith F mode q (addVal mode p r)

/-- VMERGE3 of two entries: lane 0 rounds nothing, lane 1 takes the first draw. -/
def mergeRes (mode : Nat) (gm : BitVec 512) (g : BitVec 64) (a b : BitVec 4096) : VRes :=
  let F := numFmt 0
  let la := (lanes a 32).toArray
  let lb := (lanes b 32).toArray
  let ma := decodeVal F (la.getD 0 0)
  let mb := decodeVal F (lb.getD 0 0)
  let m := fpMax F [la.getD 0 0, lb.getD 0 0]
  let scale (x : Val) : Val :=
    let diff := (roundArith F 0 0 (Val.add 0 x (decodeVal F m).neg).1).code
    decodeVal F (fnLane 2 0 0 0 diff).code
  let fa := scale ma
  let fb := scale mb
  let bad := ma.isNan || mb.isNan
  let top := ma == .inf false || mb == .inf false
  let low := decodeVal F m == .inf true
  let on (i : Nat) : Bool := i == 1 || enabled gm 4 i
  let f (i q : Nat) : Option Res :=
    if !on i then none
    else if bad || top then some { code := nanCode F }
    else if low then some { code := 0 }
    else some (mergeLane mode q fa fb (la.getD i 0) (lb.getD i 0))
  let (rs, g) := runLanes mode f ((List.range 127).map (· + 1)) g
  let l0 := if bad || top then nanCode F else m
  { outs := [entryOf 32 (l0 :: rs.map (fun r => r.code))], flags := allFlags rs ||| nvIf (!bad && top), g := g }

def execVmerge3 (dp : Dep) (q : Q2) (rnd : BitVec 3) (s : State) : Host.Outcome State Fault Refusal :=
  vOp dp 2 (srcs2 q) [q.d.toNat] [] [q.t] (fun e s es => .ok (mergeRes rnd.toNat (s.guard e q.t) (s.eng e).g (ent es 0) (ent es 1))) s

def execLoopV (dp : Dep) (d : BitVec 6) (n : BitVec 14) (s : State) : Host.Outcome State Fault Refusal := loopOp dp .v d n s

/-! ### The instructions of several formats -/

def execVaddF32 (dp : Dep) (q : Q2) (rnd : BitVec 3) (s : State) : Host.Outcome State Fault Refusal := fp2Op dp 0 q rnd (fun m a b => addVal m a b) s
def execVaddF16 (dp : Dep) (q : Q2) (rnd : BitVec 3) (s : State) : Host.Outcome State Fault Refusal := fp2Op dp 1 q rnd (fun m a b => addVal m a b) s
def execVaddBf16 (dp : Dep) (q : Q2) (rnd : BitVec 3) (s : State) : Host.Outcome State Fault Refusal := fp2Op dp 2 q rnd (fun m a b => addVal m a b) s
def execVsubF32 (dp : Dep) (q : Q2) (rnd : BitVec 3) (s : State) : Host.Outcome State Fault Refusal := fp2Op dp 0 q rnd (fun m a b => addVal m a b.neg) s
def execVsubF16 (dp : Dep) (q : Q2) (rnd : BitVec 3) (s : State) : Host.Outcome State Fault Refusal := fp2Op dp 1 q rnd (fun m a b => addVal m a b.neg) s
def execVsubBf16 (dp : Dep) (q : Q2) (rnd : BitVec 3) (s : State) : Host.Outcome State Fault Refusal := fp2Op dp 2 q rnd (fun m a b => addVal m a b.neg) s
def execVmulF32 (dp : Dep) (q : Q2) (rnd : BitVec 3) (s : State) : Host.Outcome State Fault Refusal := fp2Op dp 0 q rnd (fun _ a b => mulVal a b) s
def execVmulF16 (dp : Dep) (q : Q2) (rnd : BitVec 3) (s : State) : Host.Outcome State Fault Refusal := fp2Op dp 1 q rnd (fun _ a b => mulVal a b) s
def execVmulBf16 (dp : Dep) (q : Q2) (rnd : BitVec 3) (s : State) : Host.Outcome State Fault Refusal := fp2Op dp 2 q rnd (fun _ a b => mulVal a b) s
def execVfmaF32 (dp : Dep) (q : Q2) (x : W3) (s : State) : Host.Outcome State Fault Refusal := fmaOp dp 0 q x s
def execVfmaF16 (dp : Dep) (q : Q2) (x : W3) (s : State) : Host.Outcome State Fault Refusal := fmaOp dp 1 q x s
def execVfmaBf16 (dp : Dep) (q : Q2) (x : W3) (s : State) : Host.Outcome State Fault Refusal := fmaOp dp 2 q x s
def execVfmaE4m3 (dp : Dep) (q : Q2) (x : W3) (s : State) : Host.Outcome State Fault Refusal := fmaOp dp 3 q x s
def execVfmaE5m2 (dp : Dep) (q : Q2) (x : W3) (s : State) : Host.Outcome State Fault Refusal := fmaOp dp 4 q x s
def execVminF32 (dp : Dep) (q : Q2) (s : State) : Host.Outcome State Fault Refusal := exactOp dp 0 (srcs2 q) q.d q.t fpMin s
def execVminF16 (dp : Dep) (q : Q2) (s : State) : Host.Outcome State Fault Refusal := exactOp dp 1 (srcs2 q) q.d q.t fpMin s
def execVminBf16 (dp : Dep) (q : Q2) (s : State) : Host.Outcome State Fault Refusal := exactOp dp 2 (srcs2 q) q.d q.t fpMin s
def execVmaxF32 (dp : Dep) (q : Q2) (s : State) : Host.Outcome State Fault Refusal := exactOp dp 0 (srcs2 q) q.d q.t fpMax s
def execVmaxF16 (dp : Dep) (q : Q2) (s : State) : Host.Outcome State Fault Refusal := exactOp dp 1 (srcs2 q) q.d q.t fpMax s
def execVmaxBf16 (dp : Dep) (q : Q2) (s : State) : Host.Outcome State Fault Refusal := exactOp dp 2 (srcs2 q) q.d q.t fpMax s
def execVabsF32 (dp : Dep) (q : Q1) (s : State) : Host.Outcome State Fault Refusal := exactOp dp 0 (srcs1 q) q.d q.t fpAbs s
def execVabsF16 (dp : Dep) (q : Q1) (s : State) : Host.Outcome State Fault Refusal := exactOp dp 1 (srcs1 q) q.d q.t fpAbs s
def execVabsBf16 (dp : Dep) (q : Q1) (s : State) : Host.Outcome State Fault Refusal := exactOp dp 2 (srcs1 q) q.d q.t fpAbs s
def execVnegF32 (dp : Dep) (q : Q1) (s : State) : Host.Outcome State Fault Refusal := exactOp dp 0 (srcs1 q) q.d q.t fpNeg s
def execVnegF16 (dp : Dep) (q : Q1) (s : State) : Host.Outcome State Fault Refusal := exactOp dp 1 (srcs1 q) q.d q.t fpNeg s
def execVnegBf16 (dp : Dep) (q : Q1) (s : State) : Host.Outcome State Fault Refusal := exactOp dp 2 (srcs1 q) q.d q.t fpNeg s
def execVrcpF32 (dp : Dep) (q : Q1) (rnd : BitVec 3) (s : State) : Host.Outcome State Fault Refusal := fnOp dp 0 0 q rnd s
def execVrcpF16 (dp : Dep) (q : Q1) (rnd : BitVec 3) (s : State) : Host.Outcome State Fault Refusal := fnOp dp 0 1 q rnd s
def execVrcpBf16 (dp : Dep) (q : Q1) (rnd : BitVec 3) (s : State) : Host.Outcome State Fault Refusal := fnOp dp 0 2 q rnd s
def execVrsqF32 (dp : Dep) (q : Q1) (rnd : BitVec 3) (s : State) : Host.Outcome State Fault Refusal := fnOp dp 1 0 q rnd s
def execVrsqF16 (dp : Dep) (q : Q1) (rnd : BitVec 3) (s : State) : Host.Outcome State Fault Refusal := fnOp dp 1 1 q rnd s
def execVrsqBf16 (dp : Dep) (q : Q1) (rnd : BitVec 3) (s : State) : Host.Outcome State Fault Refusal := fnOp dp 1 2 q rnd s
def execVexp2F32 (dp : Dep) (q : Q1) (rnd : BitVec 3) (s : State) : Host.Outcome State Fault Refusal := fnOp dp 2 0 q rnd s
def execVexp2F16 (dp : Dep) (q : Q1) (rnd : BitVec 3) (s : State) : Host.Outcome State Fault Refusal := fnOp dp 2 1 q rnd s
def execVexp2Bf16 (dp : Dep) (q : Q1) (rnd : BitVec 3) (s : State) : Host.Outcome State Fault Refusal := fnOp dp 2 2 q rnd s
def execVlog2F32 (dp : Dep) (q : Q1) (rnd : BitVec 3) (s : State) : Host.Outcome State Fault Refusal := fnOp dp 3 0 q rnd s
def execVlog2F16 (dp : Dep) (q : Q1) (rnd : BitVec 3) (s : State) : Host.Outcome State Fault Refusal := fnOp dp 3 1 q rnd s
def execVlog2Bf16 (dp : Dep) (q : Q1) (rnd : BitVec 3) (s : State) : Host.Outcome State Fault Refusal := fnOp dp 3 2 q rnd s
def execViaddI32 (dp : Dep) (q : Q2) (ovf : BitVec 2) (s : State) : Host.Outcome State Fault Refusal := int2Op dp 8 q ovf (fun a b => a + b) s
def execViaddI8 (dp : Dep) (q : Q2) (ovf : BitVec 2) (s : State) : Host.Outcome State Fault Refusal := int2Op dp 9 q ovf (fun a b => a + b) s
def execVisubI32 (dp : Dep) (q : Q2) (ovf : BitVec 2) (s : State) : Host.Outcome State Fault Refusal := int2Op dp 8 q ovf (fun a b => a - b) s
def execVisubI8 (dp : Dep) (q : Q2) (ovf : BitVec 2) (s : State) : Host.Outcome State Fault Refusal := int2Op dp 9 q ovf (fun a b => a - b) s
def execVimulI32 (dp : Dep) (q : Q2) (ovf : BitVec 2) (s : State) : Host.Outcome State Fault Refusal := int2Op dp 8 q ovf (fun a b => a * b) s
def execVimulI8 (dp : Dep) (q : Q2) (ovf : BitVec 2) (s : State) : Host.Outcome State Fault Refusal := int2Op dp 9 q ovf (fun a b => a * b) s
def execVand (dp : Dep) (q : Q2) (s : State) : Host.Outcome State Fault Refusal := bitOp dp (srcs2 q) [q.d.toNat] q.t (fun es => ent es 0 &&& ent es 1) s
def execVor (dp : Dep) (q : Q2) (s : State) : Host.Outcome State Fault Refusal := bitOp dp (srcs2 q) [q.d.toNat] q.t (fun es => ent es 0 ||| ent es 1) s
def execVxor (dp : Dep) (q : Q2) (s : State) : Host.Outcome State Fault Refusal := bitOp dp (srcs2 q) [q.d.toNat] q.t (fun es => ent es 0 ^^^ ent es 1) s
def execVshlI32 (dp : Dep) (q : Q2) (s : State) : Host.Outcome State Fault Refusal := shiftOp dp 32 q (fun a n => a <<< n) s
def execVshrI32 (dp : Dep) (q : Q2) (s : State) : Host.Outcome State Fault Refusal := shiftOp dp 32 q (shrLane 32) s
def execVshlI8 (dp : Dep) (q : Q2) (s : State) : Host.Outcome State Fault Refusal := shiftOp dp 8 q (fun a n => a <<< n) s
def execVshrI8 (dp : Dep) (q : Q2) (s : State) : Host.Outcome State Fault Refusal := shiftOp dp 8 q (shrLane 8) s
def execVcmpF32 (dp : Dep) (q : Q2) (s : State) : Host.Outcome State Fault Refusal := cmpOp dp 32 q (fpCond (numFmt 0) q.t.toNat) s
def execVcmpF16 (dp : Dep) (q : Q2) (s : State) : Host.Outcome State Fault Refusal := cmpOp dp 16 q (fpCond (numFmt 1) q.t.toNat) s
def execVcmpBf16 (dp : Dep) (q : Q2) (s : State) : Host.Outcome State Fault Refusal := cmpOp dp 16 q (fpCond (numFmt 2) q.t.toNat) s
def execVcmpI32 (dp : Dep) (q : Q2) (s : State) : Host.Outcome State Fault Refusal := cmpOp dp 32 q (intCond 32 q.t.toNat) s
def execVcmpI8 (dp : Dep) (q : Q2) (s : State) : Host.Outcome State Fault Refusal := cmpOp dp 8 q (intCond 8 q.t.toNat) s
def execVredaddF32 (dp : Dep) (q : Q1) (rnd : BitVec 3) (s : State) : Host.Outcome State Fault Refusal := redaddOp dp 0 q rnd s
def execVredmaxF32 (dp : Dep) (q : Q1) (s : State) : Host.Outcome State Fault Refusal := redmaxOp dp 0 q s
def execVredaddF16 (dp : Dep) (q : Q1) (rnd : BitVec 3) (s : State) : Host.Outcome State Fault Refusal := redaddOp dp 1 q rnd s
def execVredmaxF16 (dp : Dep) (q : Q1) (s : State) : Host.Outcome State Fault Refusal := redmaxOp dp 1 q s
def execVredaddBf16 (dp : Dep) (q : Q1) (rnd : BitVec 3) (s : State) : Host.Outcome State Fault Refusal := redaddOp dp 2 q rnd s
def execVredmaxBf16 (dp : Dep) (q : Q1) (s : State) : Host.Outcome State Fault Refusal := redmaxOp dp 2 q s

/-! ### The write of a result (R401, R402) -/

/-- V_RESULT_WRITE: entries, mask, scalar and flags are written, and the instruction completes. Writes to one mask or scalar keep
their issue order. -/
def execVResultWrite (op : Nat) (s : State) : Host.Outcome State Fault Refusal :=
  match s.op? op with
  | some o => (match o.kind with
    | .vres ps m d fl _ _ =>
      let same (x : Op) : Bool := x.who == o.who && x.tid == o.tid && (match x.kind with
        | .vres _ m' d' _ _ _ => (m.isSome && m'.map (fun y => y.1) == m.map (fun y => y.1)) || (d.isSome && d'.map (fun y => y.1) == d.map (fun y => y.1))
        | _ => false)
      if (s.ops.find? same).map (fun x => x.id) ≠ some o.id ∧ (m.isSome || d.isSome) then .next s
      else if !s.alive o then .next (s.finish o)
      else
        let s := s.modCore o.who.core (fun c => ps.foldl (fun c p => c.setQueue p.1 (fillSlot o.id (.entry p.2) (c.queue p.1))) c)
        let s := match m with
          | some (i, v) => s.setCtx o.who { s.ctx o.who with g := (s.ctx o.who).g.set (i % 8) v (Nat.mod_lt _ (by decide)) }
          | none => s
        let s := match d with | some (r, v) => s.setS o.who (BitVec.ofNat 6 r) v | none => s
        .next ((s.setFlags o.who fl).finish o)
    | _ => .next s)
  | none => .next s

end Sys2Proof.Machine
end

