-- ==== Sys2Proof/Machine/AllMeanings.lean ====
section
/-! DEFINITION. Every meaning, for Dispatch, and what drives a step: an engine's turn, the agenda, and the default order. -/

namespace Sys2Proof.Machine

open Sys2Proof

/-! ### An engine's turn (R218, R219, R235) -/

/-- What an engine finds at its program counter: the instruction to execute, or the fault of R235 that stops it. -/
def State.found (s : State) (w : EngRef) : Except Trap Instr :=
  match s.fetch w with
  | .error t => .error t
  | .ok (w0, w1) =>
    let op := (w0.extractLsb' 20 8).toNat
    match decode w0 w1 with
    | .unassigned => .error { code := .illegalOp }
    | .instr i => .ok i
    | .badEncoding =>
      let feat := if op = 0x81 then mncfgFeature w s (Dep.ofWord w0) (w0.extractLsb' 14 6).toNat (w0.extractLsb' 8 6) else opFeature w0 w1
      if !s.accepts w feat then .error { code := .illegalOp }
      else if (opEngine op).isSome && opEngine op != some w.eng then .error { code := .engineMismatch }
      else .error { code := .illegalEnc }

/-- An engine's turn up to the instruction it finds: `none` where nothing is left to execute in this step. -/
def State.turnOf (s : State) (w : EngRef) : State × Option Instr :=
  let s := { s with turn := w }
  if !s.canIssue w then (s, none)
  else if let some st := s.overdue w then (s.stallFault w st, none)
  else if (s.eng w).heldP ≠ 0 then (s.stallAt w (.heldSignal 2), none)
  else if (s.eng w).heldN ≠ 0 then (s.stallAt w (.heldSignal 3), none)
  else match s.found w with
    | .error t => (s.takeFault w t, none)
    | .ok i => (s, some i)

/-! ### The default order -/

/-- Whether an operation has locked the replicas of an object for its update (R56). -/
def Op.holdsLocks (o : Op) (s : State) (home : Nat) (num : BitVec 40) : Bool := !(s.lockedBy home num o.id).isEmpty

/-- What an operation in flight does next by itself; a key-value command that was sent waits for its target. -/
def Op.advance (o : Op) : Option (State → Host.Outcome State Fault Refusal) :=
  let grant := execStreamerGrantRound (tarnOf o.who.core)
  match o.kind with
  | .vres _ _ _ _ _ _ => some (execVResultWrite o.id)
  | .mma _ _ _ _ _ _ => some (execMmaCompletion o.id)
  | .aload _ _ _ => some (execAloadCompletion o.id)
  | .drain _ _ _ _ => some (execDrainCompletion o.id)
  | .adrq _ _ _ _ _ => some (execAdrqEntryWrite o.id)
  | .copy c =>
    some (if c.res.isNone then execCopyResolution o.id
      else if 0 < o.left then grant
      else if c.req.kind.bank then execCbfillCompletion o.id
      else if c.req.kind.stores then execCopyOutCompletion o.id
      else execCopyInCompletion o.id)
  | .home _ _ => some (if 0 < o.left then grant else execHomeRequestCompletion o.id)
  | .bank _ _ _ h => some (if 0 < o.left then grant else fun s =>
      if o.holdsLocks s (hHome h) (hObj h) then execReplicatedCommit o.id s else execBankCommandServed o.id s)
  | .kv _ => if 0 < o.left then some grant else none
  | .store c => some (fun s => match c.res with
      | some r => if s.storeFails c r then execStoreFailure o.id s
          else if o.holdsLocks s r.home r.num then execReplicatedCommit o.id s else execStoreAck o.id s
      | none => .next s)
  | .repl _ _ => some (execReplicatedCommit o.id)
  | .update _ _ => some (execReplicatedCommit o.id)

/-- An engine's turn as a whole, given how instructions execute. -/
def turnStep (run : Instr → State → Host.Outcome State Fault Refusal) (w : EngRef) (s : State) : Host.Outcome State Fault Refusal :=
  match s.turnOf w with
  | (s, some i) => run i s
  | (s, none) => .next s

/-- What moves by itself, in the default order: operations in flight, the walkers and schedulers, held signals, the wheel, engines. -/
def State.movers (s : State) (run : Instr → State → Host.Outcome State Fault Refusal) : List (State → Host.Outcome State Fault Refusal) :=
  s.ops.filterMap Op.advance ++
  s.parts.flatMap (fun p =>
    (if p.rstBusy then [execPartitionResetComplete p.cfg.id] else []) ++
    (if p.flock && !p.rstBusy then [execWalkerReadRecord p.cfg.id] else []) ++
    (p.conts.filter (fun c => c.satisfied.isSome && !c.enqueued)).map (fun c => execContinuationEnqueue p.cfg.id c.cid) ++
    (if p.work.isEmpty && !s.cores.any (fun c => c.2.c0.dying.isSome || c.2.c1.dying.isSome) then [] else [execTaskDispatch p.cfg.id]) ++
    (p.launches.filter (fun l => l.spent && !l.failed)).map (fun l => execNodeComplete p.cfg.id (recNode l.record))) ++
  (s.cores.filter (fun c => c.2.preemptor.isSome)).map (fun c => execPreemptorStart c.1) ++
  (s.engines.filter (fun w => (s.eng w).heldP ≠ 0 || (s.eng w).heldN ≠ 0)).map execHeldSignalAccept ++
  (s.cores.filter (fun c => (s.scFirst c.1).isSome)).map (fun c => execWheelScChoice c.1) ++
  (s.engines.filter s.canIssue).map (turnStep run)

/-- The default step: the movers in turn, and one cycle passes each time the order begins anew. -/
def defaultStep (run : Instr → State → Host.Outcome State Fault Refusal) (s : State) : Host.Outcome State Fault Refusal :=
  let ms := s.movers run
  let k := s.beat % max 1 ms.length
  let s := if k = 0 then s.elapse 1 else s
  let s := { s with beat := k + 1 }
  match ms[k]? with
  | some f => if s.warmHold then .next s else f s
  | none => .next s

/-! ### The agenda -/

/-- Events that reach a package held in warm reset (R490, R494). -/
def heldEvent (i : Instr) : Bool :=
  match i with
  | .powerOnReset _ => true
  | .warmResetRelease => true
  | .blackBoxRead _ => true
  | .powerLimitSet _ => true
  | .getVersion => true
  | .getCapabilities => true
  | .negotiateAlgorithms => true
  | .getDigests => true
  | .getCertificate => true
  | .challenge _ => true
  | .getMeasurements => true
  | .keyExchange _ => true
  | .finish _ => true
  | _ => false

/-- An event of another agent: one that the row's operands do not fit, or that does not reach the package, does nothing. -/
def eventStep (run : Instr → State → Host.Outcome State Fault Refusal) (i : Instr) (s : State) : Host.Outcome State Fault Refusal :=
  if i.words ≠ 0 ∨ !i.wf ∨ (s.warmHold ∧ !heldEvent i) then .next s else run i s

/-- One move of the agenda. -/
def actStep (run : Instr → State → Host.Outcome State Fault Refusal) (a : Action) (s : State) : Host.Outcome State Fault Refusal :=
  match a with
  | .turn w => turnStep run w s
  | .event i => eventStep run i s
  | .tick n => .next (s.elapse n)
  | .bitError a => .next { s with badWords := s.badWords.filter (fun w => w != a / 8 * 8) ++ [a / 8 * 8] }
  | .corrected m => .next (s.setMere m { s.mere m with eccCorr := satInc (s.mere m).eccCorr })
  | .badAcc core k => .next (s.spoilAcc core k)
  | .badQueue core q pos => .next (s.spoilQueue core q pos)
  | .badBank core k => .next (s.spoilBank core k)

/-! ### A program from outside: what `State.withFetchWord` lays out -/

/-- Where the code object lies: the first segment of core 1's slice. -/
def fetchAddr : Nat := 0x100000

/-- The engine that an instruction's opcode belongs to; C for one that every engine accepts (R233). -/
def fetchEngine (w : Nat) : EngineId := (opEngine ((BitVec.ofNat 32 w).extractLsb' 20 8).toNat).getD .c

/-- Partition 0: tarn 0, object numbers 1 to 255, all levels, every offered feature accepted and locked. -/
def fetchPart : Part where
  cfg := { id := 0, tarns := [0], ranges := [(1, 255)], prioLo := 0, prioHi := 63, pxQuota := 64, sealAbandoned := true, frames := [], lpQuota := 0,
           conns := [], kvTimeoutUs := 1000000 }
  featAccept := BitVec.ofNat 256 Config.featOffer
  flock := true

/-- The handle of the code object of package `q`: object 1 at generation 1. -/
def fetchHandle (q : BitVec 10) : BitVec 64 := q.zeroExtend 16 ++ 1#40 ++ 1#8

/-- The code object: 16 words in one canonical block of a slice segment. -/
def fetchCode (q : BitVec 10) : Obj where
  home := q.toNat
  num := 1
  e := { loc := BitVec.ofNat 48 fetchAddr, blkC := 4, ext0 := 16, gen := 1, typ := .tensor, fmt := 8, rights := 0x22, part := 0 }
  maps := [(q.toNat, .current, .slices (BitVec.ofNat 48 fetchAddr))]

/-- The task: every entry point 0, one iteration, the whole ordinary allotment, every queue pushed and popped by engine `e`. -/
def fetchTask (q : BitVec 10) (e : EngineId) (tid : Nat) : Task where
  tid := tid
  launch := tid
  record :=
    let binds := (List.range 48).foldl (fun b i => b + e.num * 4 ^ i) 0
    BitVec.ofNat 32 0 ++ 0#8 ++ 0#8 ++ 0#16 ++ 0#16 ++ 0xFFFF#16 ++ 0xFFFF#16 ++ 0#32 ++ BitVec.ofNat 96 binds ++
    7#3 ++ 40#6 ++ 48#6 ++ 12#4 ++ 24#5 ++ 0#1 ++ 1#4 ++ 0#9 ++ 0#10 ++ 0#9 ++ 20#5 ++ 15#4 ++ 1#4 ++ 0#6 ++ 0#2 ++ 0#2 ++ 1#64 ++ 0#64 ++ fetchHandle q
  part := 0
  idx := 0
  codeVer := none
  aq := 24
  aa := 12
  at_ := 48
  ab := 40
  ak := 7
  cont := false
  catchRun := false
  caught := false
  pins := []

end Sys2Proof.Machine
end

