-- ==== Sys2Proof/Machine/Dispatch.lean ====
section
/-! DEFINITION. One arm per row of spec/opcode_table.json, each one call of its meaning. -/

namespace Sys2Proof.Machine

open Sys2Proof

def exec (i : Instr) (s : State) : Host.Outcome State Fault Refusal :=
  match i with
  | .nop dp => Sys2Proof.Machine.execNop dp s
  | .nopEnd dp => Sys2Proof.Machine.execNopEnd dp s
  | .add dp d a b => Sys2Proof.Machine.execAdd dp d a b s
  | .sub dp d a b => Sys2Proof.Machine.execSub dp d a b s
  | .addi dp d a imm => Sys2Proof.Machine.execAddi dp d a imm s
  | .mul dp d a b => Sys2Proof.Machine.execMul dp d a b s
  | .mulh dp d a b => Sys2Proof.Machine.execMulh dp d a b s
  | .mulhu dp d a b => Sys2Proof.Machine.execMulhu dp d a b s
  | .divu dp d a b => Sys2Proof.Machine.execDivu dp d a b s
  | .divs dp d a b => Sys2Proof.Machine.execDivs dp d a b s
  | .remu dp d a b => Sys2Proof.Machine.execRemu dp d a b s
  | .rems dp d a b => Sys2Proof.Machine.execRems dp d a b s
  | .and dp d a b => Sys2Proof.Machine.execAnd dp d a b s
  | .andi dp d a imm => Sys2Proof.Machine.execAndi dp d a imm s
  | .or dp d a b => Sys2Proof.Machine.execOr dp d a b s
  | .ori dp d a imm => Sys2Proof.Machine.execOri dp d a imm s
  | .xor dp d a b => Sys2Proof.Machine.execXor dp d a b s
  | .xori dp d a imm => Sys2Proof.Machine.execXori dp d a imm s
  | .andn dp d a b => Sys2Proof.Machine.execAndn dp d a b s
  | .shl dp d a b => Sys2Proof.Machine.execShl dp d a b s
  | .shli dp d a imm => Sys2Proof.Machine.execShli dp d a imm s
  | .shr dp d a b => Sys2Proof.Machine.execShr dp d a b s
  | .shri dp d a imm => Sys2Proof.Machine.execShri dp d a imm s
  | .sar dp d a b => Sys2Proof.Machine.execSar dp d a b s
  | .sari dp d a imm => Sys2Proof.Machine.execSari dp d a imm s
  | .rotl dp d a b => Sys2Proof.Machine.execRotl dp d a b s
  | .rotli dp d a imm => Sys2Proof.Machine.execRotli dp d a imm s
  | .min dp d a b => Sys2Proof.Machine.execMin dp d a b s
  | .minu dp d a b => Sys2Proof.Machine.execMinu dp d a b s
  | .max dp d a b => Sys2Proof.Machine.execMax dp d a b s
  | .maxu dp d a b => Sys2Proof.Machine.execMaxu dp d a b s
  | .clz dp d a => Sys2Proof.Machine.execClz dp d a s
  | .popc dp d a => Sys2Proof.Machine.execPopc dp d a s
  | .lui dp d imm => Sys2Proof.Machine.execLui dp d imm s
  | .li dp d imm => Sys2Proof.Machine.execLi dp d imm s
  | .sext dp d a n => Sys2Proof.Machine.execSext dp d a n s
  | .sel dp d a b p n => Sys2Proof.Machine.execSel dp d a b p n s
  | .cmp dp d a b cond => Sys2Proof.Machine.execCmp dp d a b cond s
  | .cmpi dp d a cond imm => Sys2Proof.Machine.execCmpi dp d a cond imm s
  | .plog dp d a b f => Sys2Proof.Machine.execPlog dp d a b f s
  | .br dp p n off => Sys2Proof.Machine.execBr dp p n off s
  | .jmp dp off => Sys2Proof.Machine.execJmp dp off s
  | .call dp off => Sys2Proof.Machine.execCall dp off s
  | .ret dp => Sys2Proof.Machine.execRet dp s
  | .loopC dp d n => Sys2Proof.Machine.execLoopC dp d n s
  | .retire dp => Sys2Proof.Machine.execRetire dp s
  | .park dp d slot => Sys2Proof.Machine.execPark dp d slot s
  | .unpark dp d slot => Sys2Proof.Machine.execUnpark dp d slot s
  | .bara dp n a sc => Sys2Proof.Machine.execBara dp n a sc s
  | .barw dp n sc => Sys2Proof.Machine.execBarw dp n sc s
  | .baraw dp n a sc => Sys2Proof.Machine.execBaraw dp n a sc s
  | .cadd dp n a sc => Sys2Proof.Machine.execCadd dp n a sc s
  | .caddSc dp n a sc => Sys2Proof.Machine.execCaddSc dp n a sc s
  | .cwaitx dp n a b => Sys2Proof.Machine.execCwaitx dp n a b s
  | .pub dp n sc => Sys2Proof.Machine.execPub dp n sc s
  | .subSubscribe dp n a b => Sys2Proof.Machine.execSubSubscribe dp n a b s
  | .opin dp n d => Sys2Proof.Machine.execOpin dp n d s
  | .ounpin dp n => Sys2Proof.Machine.execOunpin dp n s
  | .qrel dp n => Sys2Proof.Machine.execQrel dp n s
  | .arel dp n => Sys2Proof.Machine.execArel dp n s
  | .trel dp n => Sys2Proof.Machine.execTrel dp n s
  | .spawn dp d a arg nsel nnum => Sys2Proof.Machine.execSpawn dp d a arg nsel nnum s
  | .yield dp => Sys2Proof.Machine.execYield dp s
  | .shp dp xs h i0 i1 i2 => Sys2Proof.Machine.execShp dp xs h i0 i1 i2 s
  | .shpx dp xs h i0 i1 i2 => Sys2Proof.Machine.execShpx dp xs h i0 i1 i2 s
  | .shpo dp xs h pad cdim => Sys2Proof.Machine.execShpo dp xs h pad cdim s
  | .shps dp xs h rbr rbc => Sys2Proof.Machine.execShps dp xs h rbr rbc s
  | .cpin dp q => Sys2Proof.Machine.execCpin dp q s
  | .cpinTr dp q => Sys2Proof.Machine.execCpinTr dp q s
  | .cpinRb dp q => Sys2Proof.Machine.execCpinRb dp q s
  | .cpq dp q => Sys2Proof.Machine.execCpq dp q s
  | .cpqTr dp q => Sys2Proof.Machine.execCpqTr dp q s
  | .cpqRb dp q => Sys2Proof.Machine.execCpqRb dp q s
  | .cpout dp q => Sys2Proof.Machine.execCpout dp q s
  | .cpoutFf dp q => Sys2Proof.Machine.execCpoutFf dp q s
  | .cpqo dp q => Sys2Proof.Machine.execCpqo dp q s
  | .cprag dp q => Sys2Proof.Machine.execCprag dp q s
  | .cpragTr dp q => Sys2Proof.Machine.execCpragTr dp q s
  | .cppeer dp q => Sys2Proof.Machine.execCppeer dp q s
  | .cppeerFf dp q => Sys2Proof.Machine.execCppeerFf dp q s
  | .tset dp d a b swz => Sys2Proof.Machine.execTset dp d a b swz s
  | .tsetClr dp d => Sys2Proof.Machine.execTsetClr dp d s
  | .tsetRdy dp d => Sys2Proof.Machine.execTsetRdy dp d s
  | .tstat dp d a => Sys2Proof.Machine.execTstat dp d a s
  | .sqres dp d h i0 => Sys2Proof.Machine.execSqres dp d h i0 s
  | .sqcmt dp h i0 i1 sc => Sys2Proof.Machine.execSqcmt dp h i0 i1 sc s
  | .sqlen dp d h f => Sys2Proof.Machine.execSqlen dp d h f s
  | .sqfork dp e h i0 i1 => Sys2Proof.Machine.execSqfork dp e h i0 i1 s
  | .sqpin dp h i0 i1 => Sys2Proof.Machine.execSqpin dp h i0 i1 s
  | .squnpin dp h i0 i1 => Sys2Proof.Machine.execSqunpin dp h i0 i1 s
  | .pxhash dp d a b j o => Sys2Proof.Machine.execPxhash dp d a b j o s
  | .pxfind dp d a b e => Sys2Proof.Machine.execPxfind dp d a b e s
  | .pxins dp d a b j k => Sys2Proof.Machine.execPxins dp d a b j k s
  | .pxdel dp d a b => Sys2Proof.Machine.execPxdel dp d a b s
  | .cbfillF32 dp q => Sys2Proof.Machine.execCbfillF32 dp q s
  | .cbfillBf16 dp q => Sys2Proof.Machine.execCbfillBf16 dp q s
  | .cbfillF16 dp q => Sys2Proof.Machine.execCbfillF16 dp q s
  | .cbfillE4m3 dp q => Sys2Proof.Machine.execCbfillE4m3 dp q s
  | .cbfillE5m2 dp q => Sys2Proof.Machine.execCbfillE5m2 dp q s
  | .cbsetF32 dp d a b => Sys2Proof.Machine.execCbsetF32 dp d a b s
  | .cbsetBf16 dp d a b => Sys2Proof.Machine.execCbsetBf16 dp d a b s
  | .cbsetF16 dp d a b => Sys2Proof.Machine.execCbsetF16 dp d a b s
  | .cbsetE4m3 dp d a b => Sys2Proof.Machine.execCbsetE4m3 dp d a b s
  | .cbsetE5m2 dp d a b => Sys2Proof.Machine.execCbsetE5m2 dp d a b s
  | .cbinv dp d => Sys2Proof.Machine.execCbinv dp d s
  | .bkx dp t cmd i0 i1 => Sys2Proof.Machine.execBkx dp t cmd i0 i1 s
  | .bkxHandle dp h cmd i0 i1 sc => Sys2Proof.Machine.execBkxHandle dp h cmd i0 i1 sc s
  | .aadd dp q => Sys2Proof.Machine.execAadd dp q s
  | .amin dp q => Sys2Proof.Machine.execAmin dp q s
  | .amax dp q => Sys2Proof.Machine.execAmax dp q s
  | .axch dp q => Sys2Proof.Machine.execAxch dp q s
  | .acas dp q i2 ford => Sys2Proof.Machine.execAcas dp q i2 ford s
  | .radd dp q => Sys2Proof.Machine.execRadd dp q s
  | .raddFf dp q => Sys2Proof.Machine.execRaddFf dp q s
  | .kvput dp q => Sys2Proof.Machine.execKvput dp q s
  | .kvget dp q => Sys2Proof.Machine.execKvget dp q s
  | .kvdel dp q => Sys2Proof.Machine.execKvdel dp q s
  | .kvexist dp q => Sys2Proof.Machine.execKvexist dp q s
  | .kvlist dp q => Sys2Proof.Machine.execKvlist dp q s
  | .promo dp q tier => Sys2Proof.Machine.execPromo dp q tier s
  | .demo dp q tier => Sys2Proof.Machine.execDemo dp q tier s
  | .hset dp d a => Sys2Proof.Machine.execHset dp d a s
  | .hsetImport dp d b => Sys2Proof.Machine.execHsetImport dp d b s
  | .hget dp d h f => Sys2Proof.Machine.execHget dp d h f s
  | .hprobe dp d h i0 i1 i2 i3 => Sys2Proof.Machine.execHprobe dp d h i0 i1 i2 i3 s
  | .loopL dp d n => Sys2Proof.Machine.execLoopL dp d n s
  | .mma dp q => Sys2Proof.Machine.execMma dp q s
  | .mncfg dp d a b x => Sys2Proof.Machine.execMncfg dp d a b x s
  | .mnest dp => Sys2Proof.Machine.execMnest dp s
  | .acoop dp qr qc => Sys2Proof.Machine.execAcoop dp qr qc s
  | .acoopEnd dp => Sys2Proof.Machine.execAcoopEnd dp s
  | .azero dp d n it => Sys2Proof.Machine.execAzero dp d n it s
  | .aloadF32 dp d a trn => Sys2Proof.Machine.execAloadF32 dp d a trn s
  | .aloadI32 dp d a trn => Sys2Proof.Machine.execAloadI32 dp d a trn s
  | .astat dp d a => Sys2Proof.Machine.execAstat dp d a s
  | .loopM dp d n => Sys2Proof.Machine.execLoopM dp d n s
  | .adrainF32 dp q => Sys2Proof.Machine.execAdrainF32 dp q s
  | .adrainF16 dp q => Sys2Proof.Machine.execAdrainF16 dp q s
  | .adrainBf16 dp q => Sys2Proof.Machine.execAdrainBf16 dp q s
  | .adrainE4m3 dp q => Sys2Proof.Machine.execAdrainE4m3 dp q s
  | .adrainE5m2 dp q => Sys2Proof.Machine.execAdrainE5m2 dp q s
  | .adrainE2m3 dp q => Sys2Proof.Machine.execAdrainE2m3 dp q s
  | .adrainE3m2 dp q => Sys2Proof.Machine.execAdrainE3m2 dp q s
  | .adrainE2m1 dp q => Sys2Proof.Machine.execAdrainE2m1 dp q s
  | .adrainI32 dp q => Sys2Proof.Machine.execAdrainI32 dp q s
  | .adrainI8 dp q => Sys2Proof.Machine.execAdrainI8 dp q s
  | .adrainI4 dp q => Sys2Proof.Machine.execAdrainI4 dp q s
  | .adrqF32 dp q => Sys2Proof.Machine.execAdrqF32 dp q s
  | .adrqF16 dp q => Sys2Proof.Machine.execAdrqF16 dp q s
  | .adrqBf16 dp q => Sys2Proof.Machine.execAdrqBf16 dp q s
  | .adrqE4m3 dp q => Sys2Proof.Machine.execAdrqE4m3 dp q s
  | .adrqE5m2 dp q => Sys2Proof.Machine.execAdrqE5m2 dp q s
  | .adrqI32 dp q => Sys2Proof.Machine.execAdrqI32 dp q s
  | .adrqI8 dp q => Sys2Proof.Machine.execAdrqI8 dp q s
  | .vaddF32 dp q rnd => Sys2Proof.Machine.execVaddF32 dp q rnd s
  | .vaddF16 dp q rnd => Sys2Proof.Machine.execVaddF16 dp q rnd s
  | .vaddBf16 dp q rnd => Sys2Proof.Machine.execVaddBf16 dp q rnd s
  | .vsubF32 dp q rnd => Sys2Proof.Machine.execVsubF32 dp q rnd s
  | .vsubF16 dp q rnd => Sys2Proof.Machine.execVsubF16 dp q rnd s
  | .vsubBf16 dp q rnd => Sys2Proof.Machine.execVsubBf16 dp q rnd s
  | .vmulF32 dp q rnd => Sys2Proof.Machine.execVmulF32 dp q rnd s
  | .vmulF16 dp q rnd => Sys2Proof.Machine.execVmulF16 dp q rnd s
  | .vmulBf16 dp q rnd => Sys2Proof.Machine.execVmulBf16 dp q rnd s
  | .vfmaF32 dp q x => Sys2Proof.Machine.execVfmaF32 dp q x s
  | .vfmaF16 dp q x => Sys2Proof.Machine.execVfmaF16 dp q x s
  | .vfmaBf16 dp q x => Sys2Proof.Machine.execVfmaBf16 dp q x s
  | .vfmaE4m3 dp q x => Sys2Proof.Machine.execVfmaE4m3 dp q x s
  | .vfmaE5m2 dp q x => Sys2Proof.Machine.execVfmaE5m2 dp q x s
  | .vminF32 dp q => Sys2Proof.Machine.execVminF32 dp q s
  | .vminF16 dp q => Sys2Proof.Machine.execVminF16 dp q s
  | .vminBf16 dp q => Sys2Proof.Machine.execVminBf16 dp q s
  | .vmaxF32 dp q => Sys2Proof.Machine.execVmaxF32 dp q s
  | .vmaxF16 dp q => Sys2Proof.Machine.execVmaxF16 dp q s
  | .vmaxBf16 dp q => Sys2Proof.Machine.execVmaxBf16 dp q s
  | .vrcpF32 dp q rnd => Sys2Proof.Machine.execVrcpF32 dp q rnd s
  | .vrcpF16 dp q rnd => Sys2Proof.Machine.execVrcpF16 dp q rnd s
  | .vrcpBf16 dp q rnd => Sys2Proof.Machine.execVrcpBf16 dp q rnd s
  | .vrsqF32 dp q rnd => Sys2Proof.Machine.execVrsqF32 dp q rnd s
  | .vrsqF16 dp q rnd => Sys2Proof.Machine.execVrsqF16 dp q rnd s
  | .vrsqBf16 dp q rnd => Sys2Proof.Machine.execVrsqBf16 dp q rnd s
  | .vexp2F32 dp q rnd => Sys2Proof.Machine.execVexp2F32 dp q rnd s
  | .vexp2F16 dp q rnd => Sys2Proof.Machine.execVexp2F16 dp q rnd s
  | .vexp2Bf16 dp q rnd => Sys2Proof.Machine.execVexp2Bf16 dp q rnd s
  | .vlog2F32 dp q rnd => Sys2Proof.Machine.execVlog2F32 dp q rnd s
  | .vlog2F16 dp q rnd => Sys2Proof.Machine.execVlog2F16 dp q rnd s
  | .vlog2Bf16 dp q rnd => Sys2Proof.Machine.execVlog2Bf16 dp q rnd s
  | .vabsF32 dp q => Sys2Proof.Machine.execVabsF32 dp q s
  | .vabsF16 dp q => Sys2Proof.Machine.execVabsF16 dp q s
  | .vabsBf16 dp q => Sys2Proof.Machine.execVabsBf16 dp q s
  | .vnegF32 dp q => Sys2Proof.Machine.execVnegF32 dp q s
  | .vnegF16 dp q => Sys2Proof.Machine.execVnegF16 dp q s
  | .vnegBf16 dp q => Sys2Proof.Machine.execVnegBf16 dp q s
  | .vcvt dp q x => Sys2Proof.Machine.execVcvt dp q x s
  | .vcbx dp q kb wid part => Sys2Proof.Machine.execVcbx dp q kb wid part s
  | .viaddI32 dp q ovf => Sys2Proof.Machine.execViaddI32 dp q ovf s
  | .viaddI8 dp q ovf => Sys2Proof.Machine.execViaddI8 dp q ovf s
  | .visubI32 dp q ovf => Sys2Proof.Machine.execVisubI32 dp q ovf s
  | .visubI8 dp q ovf => Sys2Proof.Machine.execVisubI8 dp q ovf s
  | .vimulI32 dp q ovf => Sys2Proof.Machine.execVimulI32 dp q ovf s
  | .vimulI8 dp q ovf => Sys2Proof.Machine.execVimulI8 dp q ovf s
  | .vand dp q => Sys2Proof.Machine.execVand dp q s
  | .vor dp q => Sys2Proof.Machine.execVor dp q s
  | .vxor dp q => Sys2Proof.Machine.execVxor dp q s
  | .vshlI32 dp q => Sys2Proof.Machine.execVshlI32 dp q s
  | .vshlI8 dp q => Sys2Proof.Machine.execVshlI8 dp q s
  | .vshrI32 dp q => Sys2Proof.Machine.execVshrI32 dp q s
  | .vshrI8 dp q => Sys2Proof.Machine.execVshrI8 dp q s
  | .vcmpF32 dp q => Sys2Proof.Machine.execVcmpF32 dp q s
  | .vcmpF16 dp q => Sys2Proof.Machine.execVcmpF16 dp q s
  | .vcmpBf16 dp q => Sys2Proof.Machine.execVcmpBf16 dp q s
  | .vcmpI32 dp q => Sys2Proof.Machine.execVcmpI32 dp q s
  | .vcmpI8 dp q => Sys2Proof.Machine.execVcmpI8 dp q s
  | .vsel dp q => Sys2Proof.Machine.execVsel dp q s
  | .vbcast dp d t ss wd => Sys2Proof.Machine.execVbcast dp d t ss wd s
  | .vbcastLane dp q ss wd => Sys2Proof.Machine.execVbcastLane dp q ss wd s
  | .vredaddF32 dp q rnd => Sys2Proof.Machine.execVredaddF32 dp q rnd s
  | .vredaddF16 dp q rnd => Sys2Proof.Machine.execVredaddF16 dp q rnd s
  | .vredaddBf16 dp q rnd => Sys2Proof.Machine.execVredaddBf16 dp q rnd s
  | .vredaddI32 dp q ovf => Sys2Proof.Machine.execVredaddI32 dp q ovf s
  | .vredmaxF32 dp q => Sys2Proof.Machine.execVredmaxF32 dp q s
  | .vredmaxF16 dp q => Sys2Proof.Machine.execVredmaxF16 dp q s
  | .vredmaxBf16 dp q => Sys2Proof.Machine.execVredmaxBf16 dp q s
  | .vredmaxI32 dp q => Sys2Proof.Machine.execVredmaxI32 dp q s
  | .vscanF32 dp q x hm ci => Sys2Proof.Machine.execVscanF32 dp q x hm ci s
  | .vscanI32 dp q x hm ci => Sys2Proof.Machine.execVscanI32 dp q x hm ci s
  | .vperm dp q mode wd sk part => Sys2Proof.Machine.execVperm dp q mode wd sk part s
  | .vpack dp q wid part => Sys2Proof.Machine.execVpack dp q wid part s
  | .vunpack dp q wid part sx => Sys2Proof.Machine.execVunpack dp q wid part sx s
  | .vmovq dp q => Sys2Proof.Machine.execVmovq dp q s
  | .vdup dp q => Sys2Proof.Machine.execVdup dp q s
  | .vdrop dp a n => Sys2Proof.Machine.execVdrop dp a n s
  | .vlanei dp d t sb wd sst => Sys2Proof.Machine.execVlanei dp d t sb wd sst s
  | .vpeeks dp a ka sd wd ln => Sys2Proof.Machine.execVpeeks dp a ka sd wd ln s
  | .vmerge3 dp q rnd => Sys2Proof.Machine.execVmerge3 dp q rnd s
  | .loopV dp d n => Sys2Proof.Machine.execLoopV dp d n s
  | .trap dp code => Sys2Proof.Machine.execTrap dp code s
  | .sysrd dp d reg => Sys2Proof.Machine.execSysrd dp d reg s
  | .syswr dp d reg => Sys2Proof.Machine.execSyswr dp d reg s
  | .bbox dp a tag => Sys2Proof.Machine.execBbox dp a tag s
  | .powerOnReset boot => Sys2Proof.Machine.execPowerOnReset boot s
  | .leaderClaim m => Sys2Proof.Machine.execLeaderClaim m s
  | .electionGrant => Sys2Proof.Machine.execElectionGrant s
  | .heartbeat => Sys2Proof.Machine.execHeartbeat s
  | .heartbeatLapse => Sys2Proof.Machine.execHeartbeatLapse s
  | .machineCheck m cause paddr => Sys2Proof.Machine.execMachineCheck m cause paddr s
  | .fabricEnumeration pkg => Sys2Proof.Machine.execFabricEnumeration pkg s
  | .resume r => Sys2Proof.Machine.execResume r s
  | .retry r => Sys2Proof.Machine.execRetry r s
  | .kill r => Sys2Proof.Machine.execKill r s
  | .deliver r => Sys2Proof.Machine.execDeliver r s
  | .restart p => Sys2Proof.Machine.execRestart p s
  | .clear p => Sys2Proof.Machine.execClear p s
  | .partitionResetComplete p => Sys2Proof.Machine.execPartitionResetComplete p s
  | .flock p => Sys2Proof.Machine.execFlock p s
  | .featAccept p word val => Sys2Proof.Machine.execFeatAccept p word val s
  | .launchQueueBind p k hd => Sys2Proof.Machine.execLaunchQueueBind p k hd s
  | .launchQueueUnbind p k => Sys2Proof.Machine.execLaunchQueueUnbind p k s
  | .windowBind p w val => Sys2Proof.Machine.execWindowBind p w val s
  | .windowUnbind p w val => Sys2Proof.Machine.execWindowUnbind p w val s
  | .windowReopen p w val => Sys2Proof.Machine.execWindowReopen p w val s
  | .windowRidChange p w val => Sys2Proof.Machine.execWindowRidChange p w val s
  | .requesterUnfreeze p w => Sys2Proof.Machine.execRequesterUnfreeze p w s
  | .wtgtWrite p w val => Sys2Proof.Machine.execWtgtWrite p w val s
  | .namespaceBind p n val kv => Sys2Proof.Machine.execNamespaceBind p n val kv s
  | .namespaceUnbind p n => Sys2Proof.Machine.execNamespaceUnbind p n s
  | .edgeWrite p k val => Sys2Proof.Machine.execEdgeWrite p k val s
  | .registerWrite p off val => Sys2Proof.Machine.execRegisterWrite p off val s
  | .ingressSequenceWrite x => Sys2Proof.Machine.execIngressSequenceWrite x s
  | .ingressTensorWrite x => Sys2Proof.Machine.execIngressTensorWrite x s
  | .ingressTensorRead x n => Sys2Proof.Machine.execIngressTensorRead x n s
  | .ingressCounterWrite x => Sys2Proof.Machine.execIngressCounterWrite x s
  | .ingressCounterRead x => Sys2Proof.Machine.execIngressCounterRead x s
  | .ingressUnsupported x => Sys2Proof.Machine.execIngressUnsupported x s
  | .getVersion => Sys2Proof.Machine.execGetVersion s
  | .getCapabilities => Sys2Proof.Machine.execGetCapabilities s
  | .negotiateAlgorithms => Sys2Proof.Machine.execNegotiateAlgorithms s
  | .getDigests => Sys2Proof.Machine.execGetDigests s
  | .getCertificate => Sys2Proof.Machine.execGetCertificate s
  | .challenge nonce => Sys2Proof.Machine.execChallenge nonce s
  | .getMeasurements => Sys2Proof.Machine.execGetMeasurements s
  | .keyExchange sess => Sys2Proof.Machine.execKeyExchange sess s
  | .finish sess => Sys2Proof.Machine.execFinish sess s
  | .blackBoxRead m => Sys2Proof.Machine.execBlackBoxRead m s
  | .powerLimitSet watts => Sys2Proof.Machine.execPowerLimitSet watts s
  | .checkpointStart targets => Sys2Proof.Machine.execCheckpointStart targets s
  | .checkpointCopy => Sys2Proof.Machine.execCheckpointCopy s
  | .checkpointResume => Sys2Proof.Machine.execCheckpointResume s
  | .checkpointRestore => Sys2Proof.Machine.execCheckpointRestore s
  | .throttlePause m => Sys2Proof.Machine.execThrottlePause m s
  | .thermalTrip => Sys2Proof.Machine.execThermalTrip s
  | .warmResetRelease => Sys2Proof.Machine.execWarmResetRelease s
  | .nvmeofConnect p conn => Sys2Proof.Machine.execNvmeofConnect p conn s
  | .kvCompletion op nvst len data => Sys2Proof.Machine.execKvCompletion op nvst len data s
  | .kvTimeout op => Sys2Proof.Machine.execKvTimeout op s
  | .walkerReadRecord p => Sys2Proof.Machine.execWalkerReadRecord p s
  | .walkerUnreachableTimeout p => Sys2Proof.Machine.execWalkerUnreachableTimeout p s
  | .taskDispatch p => Sys2Proof.Machine.execTaskDispatch p s
  | .preemptorStart core => Sys2Proof.Machine.execPreemptorStart core s
  | .agingStep p k => Sys2Proof.Machine.execAgingStep p k s
  | .continuationEnqueue p k => Sys2Proof.Machine.execContinuationEnqueue p k s
  | .nodeComplete p n => Sys2Proof.Machine.execNodeComplete p n s
  | .storeAck op => Sys2Proof.Machine.execStoreAck op s
  | .watchdogExpiry e => Sys2Proof.Machine.execWatchdogExpiry e s
  | .heldSignalAccept e => Sys2Proof.Machine.execHeldSignalAccept e s
  | .wheelScChoice core => Sys2Proof.Machine.execWheelScChoice core s
  | .streamerGrantRound tarn => Sys2Proof.Machine.execStreamerGrantRound tarn s
  | .copyResolution op => Sys2Proof.Machine.execCopyResolution op s
  | .copyInCompletion op => Sys2Proof.Machine.execCopyInCompletion op s
  | .copyOutCompletion op => Sys2Proof.Machine.execCopyOutCompletion op s
  | .cbfillCompletion op => Sys2Proof.Machine.execCbfillCompletion op s
  | .bankCommandServed op => Sys2Proof.Machine.execBankCommandServed op s
  | .mmaCompletion op => Sys2Proof.Machine.execMmaCompletion op s
  | .aloadCompletion op => Sys2Proof.Machine.execAloadCompletion op s
  | .drainCompletion op => Sys2Proof.Machine.execDrainCompletion op s
  | .adrqEntryWrite op => Sys2Proof.Machine.execAdrqEntryWrite op s
  | .vResultWrite op => Sys2Proof.Machine.execVResultWrite op s
  | .replicatedCommit op => Sys2Proof.Machine.execReplicatedCommit op s
  | .replicaLockTimeout hd pkg => Sys2Proof.Machine.execReplicaLockTimeout hd pkg s
  | .storeFailure op => Sys2Proof.Machine.execStoreFailure op s
  | .reductionMerge op op2 => Sys2Proof.Machine.execReductionMerge op op2 s
  | .objectCreate x => Sys2Proof.Machine.execObjectCreate x s
  | .objectDestroy hd => Sys2Proof.Machine.execObjectDestroy hd s
  | .pagePlacement x r => Sys2Proof.Machine.execPagePlacement x r s
  | .viewRebuild hd r => Sys2Proof.Machine.execViewRebuild hd r s
  | .pageMove x phase => Sys2Proof.Machine.execPageMove x phase s
  | .promotionLand x late => Sys2Proof.Machine.execPromotionLand x late s
  | .sequenceSeal hd => Sys2Proof.Machine.execSequenceSeal hd s
  | .contextSwitchOut core hd => Sys2Proof.Machine.execContextSwitchOut core hd s
  | .contextRestore p k core => Sys2Proof.Machine.execContextRestore p k core s
  | .homeRequestCompletion op => Sys2Proof.Machine.execHomeRequestCompletion op s
  | .connectionLost p conn => Sys2Proof.Machine.execConnectionLost p conn s
  | .homeUnreachable pkg => Sys2Proof.Machine.execHomeUnreachable pkg s
  | .homeReachable pkg => Sys2Proof.Machine.execHomeReachable pkg s
  | .peerRequest x => Sys2Proof.Machine.execPeerRequest x s
  | .consumerIndexAdvance m n => Sys2Proof.Machine.execConsumerIndexAdvance m n s
  | .resolutionIgnored m word => Sys2Proof.Machine.execResolutionIgnored m word s
  | .objectReplicate hd pkgs => Sys2Proof.Machine.execObjectReplicate hd pkgs s

end Sys2Proof.Machine
end

