-- ==== Sys2Proof/Machine/Step.lean ====
section
/-! DEFINITION. One step of the machine, and how an instruction is laid where the next step fetches it. -/

namespace Sys2Proof.Machine

open Sys2Proof

/-- One step: the next move of the agenda, or the next move of the default order. -/
def step (s : State) : Host.Outcome State Fault Refusal :=
  match s.agenda with
  | a :: rest => actStep exec a { s with agenda := rest }
  | [] => defaultStep exec s

/-- `s` with an instruction stored at the program counter of the engine that its opcode belongs to, and that engine's turn next: partition
0, its code object in slice storage, and a task on context 0 of core 0 (R138, R155, R219, R220). -/
def State.withFetchWord (s : State) (nbits w : Nat) : State :=
  let w := w % 2 ^ nbits
  let e := fetchEngine w
  let s := s.store (s.phys s.package.toNat fetchAddr) (leBytes 64 w)
  { s with
    parts := fetchPart :: s.parts.filter (fun p => p.cfg.id != 0)
    objs := fetchCode s.package :: s.objs.filter (fun o => o.home != s.package.toNat || o.num != 1#40)
    cores := upsert s.cores 0 ({ ({} : Core) with c0 := entryCtx (fetchTask s.package e s.nextId) })
    agenda := .turn ⟨0, false, e⟩ :: s.agenda
    nextId := s.nextId + 1 }

end Sys2Proof.Machine
end

