-- ==== Sys2Proof/Safety.lean ====
section
/-! DEFINITION. What counts as a safe run, and the terms that statements about the machine use: when an engine may issue, what
completing an instruction leaves, and what an instruction leaves alone. -/

namespace Sys2Proof.Machine

open Sys2Proof

/-- What executing an instruction, and a step, answer. -/
abbrev Result := Host.Outcome State Fault Refusal

/-- A state from which no number of steps stops the machine. -/
def Safe (s : State) : Prop := ∀ n, ∃ t, Sys2Proof.core.run n s = .next t

/-- Memory, and the image that a checkpoint keeps of it, are in canonical form, and the image lies in HBM4E and LPDDR6. -/
def State.memOk (s : State) : Bool :=
  Memory.wf s.mem && (match s.ckptImage with | some i => Memory.wf i.1 && i.1.all inImage | none => true)

/-- No engine of a context observes, and no queue holds, a token later than the last sent. -/
def Ctx.stamped (c : Ctx) : Bool :=
  c.views.all (fun v => decide (v.stamp ≤ c.puts)) && c.fromPred.all (fun l => l.all (fun v => decide (v.stamp ≤ c.puts))) &&
  c.fromSucc.all (fun l => l.all (fun v => decide (v.stamp ≤ c.puts)))

/-! ### Issuing -/

/-- The engine whose turn it is may issue an instruction of `len` words with dependency bits `dp`: it runs and holds no signal, the
feature is accepted, the instruction belongs to the engine, its second word does not leave the loop, and its tokens are there
(R1, R140, R141, R234, R262). -/
def State.ready (s : State) (dp : Dep) (eng : Option EngineId) (feat len : Nat) : Bool :=
  let w := s.turn
  s.canIssue w && (s.eng w).heldP == 0 && (s.eng w).heldN == 0 && s.accepts w feat && (eng == none || eng == some w.eng) &&
  !(decide (len = 2) && ((s.eng w).loops.head?.map (fun l => l.stop)) == some (s.eng w).pc.toNat) &&
  ((s.ctx w).tokenWait w.eng dp).isNone

/-- The partition has accepted the features of an instruction; an MNCFG of a header that sets CA or CB is of feature 1 (R1, R485). -/
def State.permits (s : State) (i : Instr) : Bool :=
  s.accepts s.turn i.feature &&
  (match i with
   | .mncfg dp d a _ _ => decide (d.toNat ≠ 6) || !((s.sval s.turn dp a).getLsbD 15 || (s.sval s.turn dp a).getLsbD 16) || s.accepts s.turn 1
   | _ => true)

/-- No earlier instruction of the engine is still to write one of these scalars (R249). -/
def State.settled (s : State) (rs : List (BitVec 6)) : Bool := !rs.any (fun r => s.scalarBusy s.turn r.toNat)

/-- The state that an instruction of `len` words leaves when it completes at issue with the effect `t`: tokens taken, the program
counter past it or at the start of a loop, its signals put (R140, R219, R262). -/
def State.after (t : State) (w : EngRef) (dp : Dep) (len : Nat) : State := ((t.issued w dp).pass w len).signal w dp

/-- The state that a transfer of control to `pc` leaves. -/
def State.afterTo (t : State) (w : EngRef) (dp : Dep) (pc : BitVec 32) : State :=
  ((t.issued w dp).modEng w (fun e => { e with pc := pc })).signal w dp

/-- The state that an instruction leaves which has issued with the effect `t` as operation `id` of kind `k`; its signals are put when
the operation ends (R140, R141). `s` is the state it issued in. -/
def State.issues (s t : State) (w : EngRef) (dp : Dep) (len id : Nat) (k : OpKind) : State :=
  ((t.issued w dp).pass w len).addOp (s.newOp w id (s.fetched w).1 (s.fetched w).2 dp k)

/-- The state that a request leaves which is done at its home and whose completion is to come (R250, R298): `t` with a fresh operation. -/
def State.requests (s t : State) (w : EngRef) (dp : Dep) (len : Nat) (dst : Option (Nat × BitVec 64)) (hdst : Option (Nat × HReg)) : State :=
  s.issues { t with nextId := t.nextId + 1 } w dp len t.nextId (.home dst hdst)

/-- A handle that names, for a task of partition `p`, the current generation of the live object `o` of its ranges, at a home that can be
reached (R67). -/
def State.names (s : State) (p : Nat) (h : BitVec 64) (o : Obj) : Bool :=
  hObj h != 0 && decide (hHome h < 1024) && s.inRange p (hObj h) && !s.away (hHome h) && s.objOf? h == some o && o.e.gen == hGen h &&
  o.e.typ != .free

/-- A handle that a task of partition `p` may use: it names the object `o`, of one of the types `ts`, with every right of `rs`, and the entry
is sound (R44, R46, R49, R67). -/
def State.usable (s : State) (p : Nat) (h : BitVec 64) (o : Obj) (ts : List ObjType) (rs : List Right) : Bool :=
  s.names p h o && ts.contains o.e.typ && rs.all o.e.grants && s.sound o && !o.e.err

/-- No earlier instruction is still to load one of these handle registers (R355). -/
def State.loaded (s : State) (hs : List (BitVec 5)) : Bool := !hs.any (fun h => s.handleBusy s.turn h.toNat)

/-- A tile that an instruction of `t` may read now: allotted, READY, and without a word in error (R149, R153, R443). -/
def State.readable (s : State) (t : Task) (d : BitVec 6) : Bool :=
  let x := (s.core s.turn.core).tile d.toNat
  t.hasT s.turn.ctx d.toNat && x.st == .ready && !s.tileBad s.turn.core x

/-- The object of a request serves it now: every check of its resolution passes, and its pages or blocks are present (R67, R68, R316). -/
def State.servesNow (s : State) (t : Task) (r : Request) (size : Nat) : Bool :=
  match s.resolveCopy t.part t.tid r size with
  | .ok (u, x) => (u.hole r x).isNone
  | .error _ => false

/-- An operand of an MMA that may be read now: a READY tile without a word in error, for a coded one a READY bank that declares every index
of the window (R149, R339, R368). -/
def Side.free (x : Side) (w : EngRef) (s : State) (k : Nat) : Bool :=
  (x.entry s).st == .ready && !s.tileBad x.core (x.entry s) && (!x.coded || ((s.core w.core).bank x.bank).st == .ready) && (x.badIndex w s k).isNone

/-- An MMA that has nothing to wait for and no check to fail: its operands, its formats, and the accumulator unless it starts from zero
(R361, R363 to R369). -/
def Mma.free (m : Mma) (w : EngRef) (s : State) : Bool :=
  let k := match m.cls w s with | some c => c.k | none => 64
  let x := (s.core w.core).acc m.acc
  m.a.free w s k && m.b.free w s k && m.formatOk w s &&
  (m.ad || (x.inUse && x.int == m.int w s && x.readable && !s.ops.any (fun o => o.loadsAcc w.core (s.tid w) m.acc)))

/-- The partition of the engine whose turn it is. -/
def State.mine (s : State) : Nat := s.partOf s.turn

/-- The oldest entry of a queue of the core whose turn it is; zero where its oldest place holds none. -/
def State.oldest (s : State) (q : Nat) : BitVec 4096 :=
  (((s.core s.turn.core).queue q).head?.bind QSlot.bits?).getD 0

/-- Queues that a V instruction may read and push now, and guard masks that are written: V pops each source, whose oldest place holds an
entry, and pushes each destination, which has room once the sources are popped (R144 to R146, R230, R400, R402). -/
def State.flows (s : State) (srcs : List Src) (dests : List Nat) (masks : List (BitVec 3)) : Bool :=
  let w := s.turn
  let c := s.core w.core
  !masks.any (s.maskBusy w) &&
  match s.task w with
  | none => false
  | some t =>
    srcs.all (fun x => t.hasQ w.ctx x.q && (t.binding w.ctx x.q).2 == w.eng && ((c.queue x.q).head?.bind QSlot.bits?).isSome) &&
    dests.all (fun d => t.hasQ w.ctx d && (t.binding w.ctx d).1 == w.eng &&
      decide (((c.popSrcs (mergeSrcs srcs)).queue d).length + (dests.filter (fun x => x == d)).length ≤ 4))

/-- The state that a V instruction leaves which has issued with the results `r`: its sources popped, its pushes pending, the generator
past its draws (R146, R400, R402); what a fault would give back stays with the operation (R154, R403). -/
def State.vIssues (s : State) (dp : Dep) (len : Nat) (srcs : List Src) (dests : List Nat) (r : VRes) : State :=
  let w := s.turn
  let u := (s.setCore w.core ((s.core w.core).popSrcs (mergeSrcs srcs))).modEng w (fun e => { e with g := r.g })
  let u := { u with fresh := u.fresh + r.free, nextId := u.nextId + 1 }
  s.issues (u.modCore w.core (fun c => dests.foldl (fun c d => c.pushPending d s.nextId) c)) w dp len s.nextId
    (.vres (dests.zip r.outs) r.mask r.dst r.flags r.bank (undoOf w s srcs r.g))

/-- The generator's state after `n` draws (R110). -/
def drawn : Nat → BitVec 64 → BitVec 64
  | 0, g => g
  | n + 1, g => drawn n (nextG g)

/-- The outcome `out` is that of a lane-wise V instruction whose lane `i` has the result `f i q` under the draw `q`: the enabled lanes hold
their results and the others 0; the flags are those of the enabled lanes; under stochastic rounding each enabled lane takes one draw,
in lane order; and the first enabled lane that a TRAP policy stops faults FP_TRAP instead (R110, R112, R399, R403). -/
def State.laneWise (s : State) (dp : Dep) (len w mode : Nat) (srcs : List Src) (d : Nat) (t : BitVec 3) (f : Nat → Nat → Res)
    (out : Result) : Prop :=
  let n := 4096 / w
  let on (i : Nat) : Bool := enabled (s.guard s.turn t) (w / 8) i
  let before (i : Nat) : Nat := (List.range i).countP on
  let g := (s.eng s.turn).g
  let x (i : Nat) : Res := f i (if mode = 4 then drawOf (drawn (before i + 1) g) else 0)
  ((∀ i, i < n → on i = true → (x i).trap = false) →
    ∃ (r : BitVec 4096) (fl : BitVec 5),
      out = .next (s.vIssues dp len srcs [d] { outs := [r], flags := fl, g := if mode = 4 then drawn (before n) g else g }) ∧
      (∀ i, i < n → lane r w i = if on i then (x i).code % 2 ^ w else 0) ∧
      (∀ b, b < 5 → (fl.getLsbD b = true ↔ ∃ i, i < n ∧ on i = true ∧ (x i).flags.getLsbD b = true))) ∧
  (∀ i, i < n → on i = true → (x i).trap = true → (∀ j, j < i → on j = true → (x j).trap = false) →
    out = .next (s.takeFault s.turn { code := .fpTrap, info := BitVec.ofNat 64 i }))

/-! ### FP32 numbers as R95 to R97 lay them out -/

/-- Whether a word is a NaN. -/
def fp32Nan (z : BitVec 32) : Bool := z.extractLsb' 23 8 == 255 && z.extractLsb' 0 23 != 0
/-- Whether a word is a finite number. -/
def fp32Finite (z : BitVec 32) : Bool := z.extractLsb' 23 8 != 255
/-- A finite number in units of 2^-149, of which every FP32 number is a multiple. -/
def fp32Units (z : BitVec 32) : Int :=
  let e := (z.extractLsb' 23 8).toNat
  let f := (z.extractLsb' 0 23).toNat
  let m : Int := ((if e = 0 then f else (2 ^ 23 + f) * 2 ^ (e - 1) : Nat) : Int)
  if z.msb then -m else m
/-- The place of a number among the numbers, with -0 below +0. -/
def fp32Rank (z : BitVec 32) : Int :=
  let m : Int := ((z.extractLsb' 0 31).toNat : Int)
  if z.msb then -1 - m else m
/-- `y` is the finite number nearest to `x` units of 2^-(149 + k), the even one of two (R107, RNE). -/
def fp32Nearest (k : Nat) (y : BitVec 32) (x : Int) : Prop :=
  let off (z : BitVec 32) : Nat := (fp32Units z * 2 ^ k - x).natAbs
  fp32Finite y = true ∧ ∀ z, fp32Finite z = true → off y ≤ off z ∧ (off y = off z → fp32Units z ≠ fp32Units y → y.getLsbD 0 = false)

/-! ### What an instruction leaves alone -/

/-- The state without its cores and meres. -/
def State.outside (s : State) : State := { s with cores := [], meres := Vector.replicate 8 {} }
/-- A core without its register contexts. -/
def Core.shared (c : Core) : Core := { c with c0 := {}, c1 := {} }
/-- The architectural state of an engine beside its program counter and what follows it: predicates, generator, flags. -/
def Engine.arch (e : Engine) : BitVec 8 × BitVec 64 × BitVec 5 := (e.preds, e.g, e.flags)
/-- A register context without its scalars, its engines, the tokens between them and what these have brought. -/
def Ctx.regs (c : Ctx) : Ctx :=
  { c with s := Vector.replicate 64 0, fromPred := Vector.replicate 4 [], fromSucc := Vector.replicate 4 [], views := Vector.replicate 4 {}, puts := 0
           c := {}, l := {}, m := {}, v := {} }

/-- What an instruction of engine `w` that only computes leaves alone: everything outside its core and the fault queues, the other
cores, the core's queues, accumulators, tiles and banks, the other register context, its own context's registers but the scalars, the
other engines and what they observe, and, where no fault was taken, the meres. -/
structure Frame (w : EngRef) (s t : State) : Prop where
  outside : t.outside = s.outside
  cores : ∀ k, k ≠ w.core → t.core k = s.core k
  shared : (t.core w.core).shared = (s.core w.core).shared
  other : (t.core w.core).ctx (!w.ctx) = (s.core w.core).ctx (!w.ctx)
  regs : (t.ctx w).regs = (s.ctx w).regs
  engines : ∀ e, e ≠ w.eng → (t.ctx w).eng e = (s.ctx w).eng e
  views : ∀ e, e ≠ w.eng → (t.ctx w).viewOf e = (s.ctx w).viewOf e
  meres : (t.eng w).st = .running → t.meres = s.meres

end Sys2Proof.Machine
end

