-- ==== Sys2Proof/Certificates/Slice0/Obligations.lean ====
section
/-! DEFINITION. What is claimed of the machine: each statement cites the rules of spec/ it formalises. -/

open Sys2Proof Sys2Proof.Machine

/-! ### Control: arithmetic -/

/-- R251, R252: the arithmetic of two scalars completes and writes its result modulo 2^64. R253: division completes, with the quotient and
the remainder that the rule gives, by zero and at the signed overflow too. -/
def Obligations.ScalarOperations : Prop :=
  (∀ (s : State) (dp : Dep) (d a b : BitVec 6), s.ready dp (some .c) 0 1 = true → s.settled [d, a, b] = true →
    let w := s.turn
    let x := s.sval w dp a
    let y := s.sval w dp b
    let n := y.toNat % 64
    let puts (v : BitVec 64) : Result := .next ((s.setS w d v).after w dp 1)
    exec (.add dp d a b) s = puts (BitVec.ofNat 64 (x.toNat + y.toNat)) ∧
    exec (.sub dp d a b) s = puts (BitVec.ofInt 64 (x.toInt - y.toInt)) ∧
    exec (.mul dp d a b) s = puts (BitVec.ofNat 64 (x.toNat * y.toNat)) ∧
    exec (.mulh dp d a b) s = puts (BitVec.ofInt 64 (x.toInt * y.toInt / 2 ^ 64)) ∧
    exec (.mulhu dp d a b) s = puts (BitVec.ofNat 64 (x.toNat * y.toNat / 2 ^ 64)) ∧
    exec (.and dp d a b) s = puts (x &&& y) ∧
    exec (.or dp d a b) s = puts (x ||| y) ∧
    exec (.xor dp d a b) s = puts (x ^^^ y) ∧
    exec (.andn dp d a b) s = puts (x &&& ~~~y) ∧
    exec (.shl dp d a b) s = puts (BitVec.ofNat 64 (x.toNat * 2 ^ n)) ∧
    exec (.shr dp d a b) s = puts (BitVec.ofNat 64 (x.toNat / 2 ^ n)) ∧
    exec (.sar dp d a b) s = puts (BitVec.ofInt 64 (x.toInt / 2 ^ n)) ∧
    exec (.rotl dp d a b) s = puts (x <<< n ||| x >>> (64 - n)) ∧
    exec (.min dp d a b) s = puts (if x.toInt ≤ y.toInt then x else y) ∧
    exec (.minu dp d a b) s = puts (if x.toNat ≤ y.toNat then x else y) ∧
    exec (.max dp d a b) s = puts (if x.toInt ≤ y.toInt then y else x) ∧
    exec (.maxu dp d a b) s = puts (if x.toNat ≤ y.toNat then y else x)) ∧
  (∀ (s : State) (dp : Dep) (d a b : BitVec 6), s.ready dp (some .c) 0 1 = true → s.settled [d, a, b] = true →
    let w := s.turn
    let x := s.sval w dp a
    let y := s.sval w dp b
    let qu : Nat := if y.toNat = 0 then 2 ^ 64 - 1 else x.toNat / y.toNat
    let mu : Nat := if y.toNat = 0 then x.toNat else x.toNat - x.toNat / y.toNat * y.toNat
    let qs : Int := if y.toInt = 0 then -1 else if x.toInt = -2 ^ 63 ∧ y.toInt = -1 then -2 ^ 63 else x.toInt.tdiv y.toInt
    let ms : Int := if y.toInt = 0 then x.toInt else if x.toInt = -2 ^ 63 ∧ y.toInt = -1 then 0 else x.toInt - x.toInt.tdiv y.toInt * y.toInt
    let puts (v : BitVec 64) : Result := .next ((s.setS w d v).after w dp 1)
    exec (.divu dp d a b) s = puts (BitVec.ofNat 64 qu) ∧
    exec (.remu dp d a b) s = puts (BitVec.ofNat 64 mu) ∧
    exec (.divs dp d a b) s = puts (BitVec.ofInt 64 qs) ∧
    exec (.rems dp d a b) s = puts (BitVec.ofInt 64 ms))

/-- R252, R254: arithmetic with an immediate, of one scalar, and constants. CLZ is given by what its number says of the bits. -/
def Obligations.ScalarImmediates : Prop :=
  ∀ (s : State) (dp : Dep) (d a : BitVec 6) (i : BitVec 8) (k : BitVec 6) (imm : BitVec 14),
    s.ready dp (some .c) 0 1 = true → s.settled [d, a] = true →
    let w := s.turn
    let x := s.sval w dp a
    let n := k.toNat
    let puts (v : BitVec 64) : Result := .next ((s.setS w d v).after w dp 1)
    exec (.addi dp d a i) s = puts (BitVec.ofInt 64 (x.toInt + i.toInt)) ∧
    exec (.andi dp d a i) s = puts (x &&& i.zeroExtend 64) ∧
    exec (.ori dp d a i) s = puts (x ||| i.zeroExtend 64) ∧
    exec (.xori dp d a i) s = puts (x ^^^ i.zeroExtend 64) ∧
    exec (.shli dp d a k) s = puts (BitVec.ofNat 64 (x.toNat * 2 ^ n)) ∧
    exec (.shri dp d a k) s = puts (BitVec.ofNat 64 (x.toNat / 2 ^ n)) ∧
    exec (.sari dp d a k) s = puts (BitVec.ofInt 64 (x.toInt / 2 ^ n)) ∧
    exec (.rotli dp d a k) s = puts (x <<< n ||| x >>> (64 - n)) ∧
    (∃ z : Nat, z ≤ 64 ∧ exec (.clz dp d a) s = puts (BitVec.ofNat 64 z) ∧ (∀ j, 64 - z ≤ j → x.getLsbD j = false) ∧
      (z < 64 → x.getLsbD (63 - z) = true)) ∧
    exec (.popc dp d a) s = puts (BitVec.ofNat 64 ((List.range 64).countP (fun j => x.getLsbD j))) ∧
    (1 ≤ i.toNat → i.toNat ≤ 64 → exec (.sext dp d a i) s = puts ((x.extractLsb' 0 i.toNat).signExtend 64)) ∧
    exec (.li dp d imm) s = puts (BitVec.ofInt 64 imm.toInt) ∧
    exec (.lui dp d imm) s = puts (s.sval w dp d <<< 14 ||| imm.zeroExtend 64)

/-- R255, R256: comparisons and the logic of predicates complete and write one predicate of C. Writing a predicate changes that predicate
and no other. -/
def Obligations.PredicateLogic : Prop :=
  (∀ (s : State) (dp : Dep) (d p q : BitVec 3) (a b : BitVec 6) (c f : BitVec 2) (i : BitVec 6),
    s.ready dp (some .c) 0 1 = true → s.settled [a, b] = true →
    let w := s.turn
    let x := s.sval w dp a
    let y := s.sval w dp b
    let holds (y : BitVec 64) : Bool :=
      if c = 0 then decide (x = y) else if c = 1 then decide (x.toInt < y.toInt) else if c = 2 then decide (x.toNat < y.toNat)
      else decide ((x &&& y) ≠ 0)
    let puts (v : Bool) : Result := .next ((s.modEng w (fun e => e.setPred d v)).after w dp 1)
    let pp := (s.eng w).pred p
    let pq := (s.eng w).pred q
    exec (.cmp dp d a b c) s = puts (holds y) ∧
    exec (.cmpi dp d a c i) s = puts (holds (if c = 0 ∨ c = 1 then i.signExtend 64 else i.zeroExtend 64)) ∧
    exec (.plog dp d p q f) s = puts (if f = 0 then pp && pq else if f = 1 then pp || pq else if f = 2 then pp != pq else pp && !pq)) ∧
  (∀ (e : Engine) (p q : BitVec 3) (v : Bool),
    (e.setPred p v).pred q = (if p = q then v else e.pred q) ∧ { e.setPred p v with preds := e.preds } = e)

/-- R257: SEL completes and writes the scalar that the predicate chooses; its words are as the rule lays them out. -/
def Obligations.Select : Prop :=
  ∀ (s : State) (dp : Dep) (d a b : BitVec 6) (p : BitVec 3) (n : Bool), s.ready dp (some .c) 0 2 = true → s.settled [d, a, b] = true →
    let w := s.turn
    exec (.sel dp d a b p n) s =
      .next ((s.setS w d (if xor ((s.eng w).pred p) n then s.sval w dp a else s.sval w dp b)).after w dp 2) ∧
    encode (.sel dp d a b p n) = [word0 dp 0x23#8 (d ++ a ++ b ++ 0#2), ext (0#24 ++ BitVec.ofBool n ++ p)]

/-- What the scalar arithmetic, constants, SEL and SYSRD leave alone, whatever they meet: all but the destination scalar, and of the
engine's own state its predicates, its generator and its flags. -/
def Obligations.ScalarFrame : Prop :=
  ∀ (s t : State) (dp : Dep) (d a b : BitVec 6) (i : BitVec 8) (k : BitVec 6) (imm : BitVec 14) (p : BitVec 3) (n : Bool) (j : Instr),
    j ∈ [Instr.add dp d a b, .sub dp d a b, .mul dp d a b, .mulh dp d a b, .mulhu dp d a b, .divu dp d a b, .divs dp d a b,
      .remu dp d a b, .rems dp d a b, .and dp d a b, .or dp d a b, .xor dp d a b, .andn dp d a b, .shl dp d a b, .shr dp d a b,
      .sar dp d a b, .rotl dp d a b, .min dp d a b, .minu dp d a b, .max dp d a b, .maxu dp d a b, .addi dp d a i, .andi dp d a i,
      .ori dp d a i, .xori dp d a i, .shli dp d a k, .shri dp d a k, .sari dp d a k, .rotli dp d a k, .clz dp d a, .popc dp d a,
      .sext dp d a i, .li dp d imm, .lui dp d imm, .sel dp d a b p n, .sysrd dp d imm, .unpark dp d k] →
    s.turn.eng = .c → exec j s = .next t →
    Frame s.turn s t ∧ (∀ r, r ≠ d → t.sreg s.turn r = s.sreg s.turn r) ∧ (t.eng s.turn).arch = (s.eng s.turn).arch ∧
    (∀ a, memByte t.mem a = memByte s.mem a)

/-! ### Control: transfers and loops -/

/-- R258, R260, R263: BR, JMP and CALL reach the target that the offset names from the transferring word; a taken BR or JMP drops the loop
entries from the top down to the first whose range from `start` to `end` contains the target; a target below word 0 faults BOUNDS; at a
word that no program counter holds the target is the last one, where no code object has a word (log entry 123). The INFO and the HANDLE of
the BOUNDS record are the model's reading (log entry 51). -/
def Obligations.Transfers : Prop :=
  ∀ (s : State) (dp : Dep) (p : BitVec 3) (n : Bool) (off : BitVec 16), s.ready dp (some .c) 0 1 = true →
    let w := s.turn
    let e := s.eng w
    let target : Int := (e.pc.toNat : Int) + off.toInt
    let pc := pcAt target.toNat
    let left := s.modEng w (fun e => { e with loops := e.loops.dropWhile (fun x => !decide ((x.start : Int) ≤ target ∧ target ≤ x.stop)) })
    let taken := xor (e.pred p) n
    let bounds : Result := .next (s.takeFault w (targetTrap w s (BitVec.ofInt 64 target)))
    exec (.br dp p n off) s = (if !taken then .next (s.after w dp 1) else if target < 0 then bounds else .next (left.afterTo w dp pc)) ∧
    exec (.jmp dp off) s = (if target < 0 then bounds else .next (left.afterTo w dp pc)) ∧
    (s.settled [31] = true →
      exec (.call dp off) s = if target < 0 then bounds else .next ((s.setS w 31 ((e.pc + 1).zeroExtend 64)).afterTo w dp pc))

/-- R259: RET sets the program counter to s31, and faults BOUNDS at or above 2^32; its word is 0x2A in format Z. The INFO and the HANDLE
of the BOUNDS record are the model's reading (log entry 51). -/
def Obligations.Return : Prop :=
  ∀ (s : State) (dp : Dep), s.ready dp (some .c) 0 1 = true → s.settled [31] = true →
    let w := s.turn
    exec (.ret dp) s = (if (s.sval w dp 31).toNat < 2 ^ 32 then .next (s.afterTo w dp ((s.sval w dp 31).truncate 32))
      else .next (s.takeFault w (targetTrap w s (s.sval w dp 31)))) ∧
    encode (.ret dp) = [word0 dp 0x2A#8 0]

/-- R261, R264, R265, R295: LOOP on each engine. A count of 0 skips the body with the end test at its last word, to the word after it, or
to the last one where no program counter holds that (the model's choice, log entry 123); otherwise four entries fault LOOP_DEPTH, an end
beyond the top entry's faults ILLEGAL_ENC, and an entry is pushed. R262: the end test after an instruction whose last word is at `last`: a
top entry that ends elsewhere is left alone; one that ends there goes round while more than one pass is left, and is dropped with the test
repeated otherwise. An instruction whose second word lies beyond the end faults ILLEGAL_ENC, and a write of a scalar changes no count. -/
def Obligations.HardwareLoops : Prop :=
  (∀ (s : State) (dp : Dep) (d : BitVec 6) (n : BitVec 14) (g : EngineId) (j : Instr),
    (g, j) ∈ [(EngineId.c, Instr.loopC dp d n), (.l, .loopL dp d n), (.m, .loopM dp d n), (.v, .loopV dp d n)] →
    s.ready dp (some g) 0 1 = true → s.settled [d] = true →
    let w := s.turn
    let e := s.eng w
    let at_ := e.pc.toNat
    let stop := at_ + n.toNat
    let c := (s.sval w dp d).toNat
    let next := loopEnd e.loops stop (stop + 1)
    exec j s =
      if c = 0 then .next ((s.modEng w (fun e => { e with loops := next.1 })).afterTo w dp (pcAt next.2))
      else if e.loops.length = 4 then .next (s.takeFault w { code := .loopDepth })
      else if ∃ top, e.loops.head? = some top ∧ top.stop < stop then .next (s.takeFault w { code := .illegalEnc })
      else .next ((s.modEng w (fun e => { e with loops := ⟨at_ + 1, stop, c⟩ :: e.loops })).afterTo w dp (BitVec.ofNat 32 (at_ + 1)))) ∧
  ((∀ last next, loopEnd [] last next = ([], next)) ∧
  (∀ (e : LoopEnt) (t : List LoopEnt) (last next : Nat), e.stop ≠ last → loopEnd (e :: t) last next = (e :: t, next)) ∧
  (∀ (e : LoopEnt) (t : List LoopEnt) (next : Nat), 1 < e.left →
    loopEnd (e :: t) e.stop next = ({ e with left := e.left - 1 } :: t, e.start)) ∧
  (∀ (e : LoopEnt) (t : List LoopEnt) (next : Nat), e.left ≤ 1 → loopEnd (e :: t) e.stop next = loopEnd t e.stop (e.stop + 1)) ∧
  (∀ (s : State) (i : Instr) (e : LoopEnt) (t : List LoopEnt), i.wf = true → i.words = 2 →
    let w := s.turn
    s.canIssue w = true → (s.eng w).heldP = 0 → (s.eng w).heldN = 0 → s.permits i = true →
    (∀ g, i.engine = some g → g = w.eng) → (s.eng w).loops = e :: t → e.stop = (s.eng w).pc.toNat →
    exec i s = .next (s.takeFault w { code := .illegalEnc })) ∧
  (∀ (s : State) (w : EngRef) (d : BitVec 6) (v : BitVec 64), ((s.setS w d v).eng w).loops = (s.eng w).loops))

/-! ### Control: ends, spills, system registers -/

/-- R136, R166: NOP completes once the engine's earlier instructions have written their registers, and NOP.END then ends the stream of L,
of V, and of an M that has no bound group or runs in context 1 (that context 1 leaves a group of context 0 alone is the model's reading,
log entry 63), with the program counter at the next word. R137, R266: RETIRE, and NOP.END on C, end the task once L, M and V have ended
and what the task issued has completed; until then they wait, and no watchdog counts it. R137: what a retirement leaves: the context is
empty, with no task, token, held signal or spilled scalar and with null handle registers; every queue, tile, bank and accumulator of its
partition of the core is empty, a lent accumulator tile where the group ends with it; the bindings of the handle registers, of the replay
descriptors and of the fill sources and the pins are released. Reservations still open are abandoned as well, which is the model's choice
(log entry 87): the objects are stated for a task that has none, whose launch has other tasks. -/
def Obligations.NopsAndRetirement : Prop :=
  (∀ (s : State) (dp : Dep), s.ready dp none 0 1 = true → s.writesPending s.turn = false →
    let w := s.turn
    exec (.nop dp) s = .next (s.after w dp 1) ∧
    (w.eng ≠ .c → (w.eng = .m → w.ctx = false → ∀ g, (s.core w.core).group = some g → g.bound = false) →
      exec (.nopEnd dp) s = .next ((s.modEng w (fun e => { e with st := .ended })).afterTo w dp ((s.eng w).pc + 1)))) ∧
  (∀ (s : State) (dp : Dep),
    let w := s.turn
    (s.ready dp (some .c) 0 1 = true →
      exec (.retire dp) s = if s.mayRetire w then .next (s.retireTask w.core w.ctx) else .next (s.stallAt w .other)) ∧
    (s.ready dp none 0 1 = true → w.eng = .c → s.writesPending w = false →
      exec (.nopEnd dp) s = if s.mayRetire w then .next (s.retireTask w.core w.ctx) else .next (s.stallAt w .other))) ∧
  (∀ (s : State) (w : EngRef) (t : Task), s.task w = some t →
    let u := s.retireTask w.core w.ctx
    let c := s.core w.core
    let d := u.core w.core
    let z := t.pins.foldl State.unpinRange ((c.requests w.ctx).foldl State.unbindRequest ((s.ctx w).h.toList.foldl State.releaseHReg s))
    let held (i ordinary reserved last : Nat) := if w.ctx then reserved ≤ i ∧ i < last else ordinary ≤ i ∧ i < reserved
    u.ctx w = {} ∧ (w.ctx = false → d.group = none) ∧
    (∀ q, held q 0 24 32 → d.queue q = []) ∧
    (∀ i, held i 0 48 64 → d.tile i = { epoch := (c.tile i).epoch + 1 }) ∧
    (∀ k, held k 0 7 8 → d.bank k = {}) ∧
    (∀ a, held a 0 12 16 → (c.acc a).lent = false → d.acc a = {}) ∧
    (w.ctx = false → c.group.isSome = true → ∀ a, 12 ≤ a → a < 16 → (c.acc a).lent = true → d.acc a = {}) ∧
    ((∀ o ∈ z.objs, ∀ r ∈ o.resv, r.owner ≠ .task t.tid) →
      (∀ p l, s.part? t.part = some p → p.launch? t.launch = some l → 1 < l.alive) → u.objs = z.objs))

/-- R185, R186, R267, R296: PARK keeps a scalar in a spill slot: in a slot that holds a value or whose group is backed, else with the
lowest unit of storage that is free for it, a queue entry for both groups but for one that is backed already, else it faults PARK_FULL;
UNPARK reads the slot. -/
def Obligations.Spills : Prop :=
  ∀ (s : State) (dp : Dep) (d slot : BitVec 6) (t : Task), s.ready dp (some .c) 0 1 = true → s.settled [d] = true → s.task s.turn = some t →
    let w := s.turn
    let x := s.ctx w
    let n := slot.toNat
    let kept := { x with spill := upsert x.spill n (s.sval w dp d) }
    exec (.unpark dp d slot) s = .next ((s.setS w d (lookupD 0 x.spill n)).after w dp 1) ∧
    exec (.park dp d slot) s =
      if x.spill.any (fun y => y.1 == n) || x.backing.any (fun b => b.1 == n / 32) then .next ((s.setCtx w kept).after w dp 1)
      else match spillUnit (s.core w.core) w.ctx t (x.backing.map (fun b => b.2)) with
        | none => .next (s.takeFault w { code := .parkFull })
        | some f =>
          let other := 1 - n / 32
          .next ((s.setCtx w { kept with backing := x.backing ++ [(n / 32, f (n / 32))] ++ match f (n / 32) with
            | .queueEntry q e => if x.backing.any (fun b => b.1 == other) then [] else [(other, .queueEntry q e)]
            | .accColumn _ _ => [] }).after w dp 1)

/-- R289, R290, R291, R292: SYSRD reads the identity, the place, the cycles, the task and the sticky flags of M and V; the flags are those
that stand as it issues, where R292 lets it observe what other engines set meanwhile or not (the model's choice, log entry 119). R292:
SYSWR clears in the flags of M or V those that are ones in the scalar, and faults RIGHTS on the read-only registers. R293, R460: BBOX
writes the software event with the scalar and the tag, or counts it as dropped within 1,024 cycles of the core's last one. -/
def Obligations.SystemRegisters : Prop :=
  (∀ (s : State) (dp : Dep) (d : BitVec 6), s.ready dp (some .c) 0 1 = true → s.settled [d] = true →
    let w := s.turn
    let reads (r : BitVec 14) (v : BitVec 64) := exec (.sysrd dp d r) s = .next ((s.setS w d v).after w dp 1)
    reads 0 Config.devId ∧ reads 1 (0#38 ++ s.package ++ 0#6 ++ BitVec.ofNat 10 w.core) ∧ reads 2 s.cycles ∧
    (∀ t, s.task w = some t → reads 3 (taskInfo t w.ctx)) ∧
    reads 0x10 ((s.eng (w.at .m)).flags.zeroExtend 64) ∧ reads 0x11 ((s.eng (w.at .v)).flags.zeroExtend 64)) ∧
  (∀ (s : State) (dp : Dep) (d : BitVec 6) (r : BitVec 14), s.ready dp (some .c) 0 1 = true → s.settled [d] = true →
    let w := s.turn
    let v := s.sval w dp d
    let clears (g : EngineId) : Result :=
      .next ((s.modEng (w.at g) (fun e => { e with flags := e.flags &&& ~~~(v.truncate 5) })).after w dp 1)
    exec (.syswr dp d r) s = if r = 0x10 then clears .m else if r = 0x11 then clears .v else .next (s.takeFault w { code := .rights })) ∧
  (∀ (s : State) (dp : Dep) (a : BitVec 6) (tag : BitVec 8), s.ready dp (some .c) 0 1 = true → s.settled [a] = true →
    let w := s.turn
    let m := mereOf w.core
    let e : BbEvent :=
      { payload := s.sval w dp a, etype := 0x000D, core := w.core, ctx := w.ctx, part := s.mine, tag := tag, engine := w.eng }
    exec (.bbox dp a tag) s =
      if ∃ t, (s.core w.core).bboxAt = some t ∧ (s.cycles - t).toNat < 1024 then
        .next ((s.setMere m { s.mere m with bboxDrops := satInc (s.mere m).bboxDrops }).after w dp 1)
      else .next (((s.bbox m e).modCore w.core (fun c => { c with bboxAt := some s.cycles })).after w dp 1))

/-! ### Control: barriers -/

/-- R269, R270: an arrival that the barrier takes: BARA completes with it, the phase completes with the last one expected and is open
otherwise, and the core's arrival names the instance and its phase, and how many it has made there. BARAW completes with the arrival that
completes the phase. R270: a wait at a barrier completes when the core has no arrival there whose phase is open, and stalls on the barrier
otherwise; so does BARAW once its own arrival is made. -/
def Obligations.Barriers : Prop :=
  (∀ (s : State) (dp : Dep) (n a : BitVec 6) (sc : BitVec 3) (t : Task), s.ready dp (some .c) 0 1 = true → s.settled [a] = true →
    s.task s.turn = some t → t.hasB s.turn.ctx n.toNat = true →
    let w := s.turn
    let v := (s.sval w dp a).toNat % 256
    let id := s.barId w n sc
    let b := s.bar id
    v ≠ 0 → (∀ o, s.openArrival w.core n.toNat = some o → o = id) → (b.arrivals ≠ 0 → b.expect = some v) →
    let made := match s.lastOpen w.core n.toNat with | some x => x.count | none => 0
    let mark := s.modCore w.core (fun c =>
      { c with lastArr := c.lastArr.filter (fun x => x.num != n.toNat) ++ [{ num := n.toNat, inst := id, phase := b.phase, count := made + 1 }] })
    let u := mark.setBar (if b.arrivals + 1 = v then { b with expect := some v, arrivals := 0, phase := b.phase + 1 }
      else { b with expect := some v, arrivals := b.arrivals + 1 })
    exec (.bara dp n a sc) s = .next (u.after w dp 1) ∧
    (b.arrivals + 1 = v → (s.eng w).arrived = false → exec (.baraw dp n a sc) s = .next (u.after w dp 1))) ∧
  (∀ (s : State) (dp : Dep) (n a : BitVec 6) (sc : BitVec 3) (t : Task), s.ready dp (some .c) 0 1 = true → s.settled [a] = true →
    s.task s.turn = some t → t.hasB s.turn.ctx n.toNat = true →
    let w := s.turn
    let waits := ∃ id, s.openArrival w.core n.toNat = some id ∧ id.scope = sc
    exec (.barw dp n sc) s = (if waits then .next (s.stallAt w (.barrier n.toNat)) else .next (s.after w dp 1)) ∧
    ((s.eng w).arrived = true →
      exec (.baraw dp n a sc) s = if waits then .next (s.stallAt w (.barrier n.toNat)) else .next (s.after w dp 1)))

/-! ### Control: counters, publishing, pins, waits -/

/-- R63, R202, R203, R204, R273, R274: CADD adds a scalar to a COUNTER and wakes its waiters, and CADD.SC does so at the wheel position at
which it has been chosen, and completes there; a negative scalar and a sum past 2^64 - 1 fault COUNTER_RANGE. -/
def Obligations.CounterAdd : Prop :=
  ∀ (s : State) (dp : Dep) (n : BitVec 5) (a : BitVec 6) (sc : BitVec 3) (o : Obj), s.settled [a] = true →
    let w := s.turn
    let v := s.sval w dp a
    s.usable s.mine (s.hval w dp n).h o [.counter] [.write] = true →
    let out := v.toInt < 0 ∨ 2 ^ 64 ≤ o.e.value.toNat + v.toNat
    let sum := { o with e := { o.e with value := o.e.value + v } }
    let bad : Result := .next (s.takeFault w { code := .counterRange, handle := o.handle })
    let chosen := s.modCore w.core (fun c => { c with lastSc := some s.cycles })
    (s.ready dp (some .c) 0 1 = true →
      exec (.cadd dp n a sc) s = if out then bad else .next (s.requests (s.putAndWake sum) w dp 1 none none)) ∧
    (s.ready dp (some .c) 7 1 = true → (s.eng w).scGrant = some s.cycles → o.home = s.package.toNat →
      (∀ p ∈ o.e.replicas, p = s.package.toNat) →
      exec (.caddSc dp n a sc) s = if out then bad else .next ((chosen.putAndWake sum).after w dp 1))

/-- R56, R62, R279, R280, R281, R282, R283: PUB publishes the working copy of a TENSOR, into which the stores in flight that could resolve
have resolved (log entry 31); on one with several copies it locks them all, and the commit publishes (log entry 32). OPIN releases what
the register has bound, then binds the current version or pins the object in place and answers `VALUE`, where L has not loaded another
handle that C does not observe yet (then only the answer is left: the model's choice, log entry 128; that the release comes before the
look at `PIN_CNT`, log entry 147); OUNPIN releases it. -/
def Obligations.PublishAndPin : Prop :=
  ∀ (s : State) (dp : Dep) (n : BitVec 5) (d : BitVec 6) (sc : BitVec 3) (o : Obj), s.ready dp (some .c) 0 1 = true →
    let w := s.turn
    let r := s.hval w dp n
    let x := s.hreg w n
    let u := s.releaseHReg x
    let z := s.settleStores o.handle
    let o' := (z.obj? o.home o.num).getD o
    (s.usable s.mine r.h o [.tensor] [.publish] = true → o.locks = [] →
      ((o.copies s).length ≤ 1 → exec (.pub dp n sc) s = .next (s.requests (z.putAndWake o'.publish).sweep w dp 1 none none)) ∧
      (1 < (o.copies s).length →
        let all : Resolved := { home := o.home, num := o.num, e := o.e, maps := o.copies s, work := o.e.wmode }
        exec (.pub dp n sc) s = .next (s.issues (({ s with nextId := s.nextId + 1 } : State).lock all s.nextId) w dp 1 s.nextId (.update all .pub)))) ∧
    (s.settled [d] = true → u.usable (u.partOf w) r.h o [.tensor] [.pin] = true → o.e.pinCnt < 65535 →
      exec (.opin dp n d) s = .next (s.requests
        (if x.h = r.h then (u.putObj (if o.e.wmode then o.bind o.e.value else o.pin)).setH w n
            { x with pinned := !o.e.wmode, bound := if o.e.wmode then some o.e.value else none }
          else u.setH w n { x with pinned := false, bound := none })
        w dp 1 (some (d.toNat, o.e.value)) none)) ∧
    exec (.ounpin dp n) s = .next (s.requests (u.setH w n { x with pinned := false, bound := none }) w dp 1 none none)

/-- R82, R166, R276, R277: CWAITX on a COUNTER or a SEQUENCE and SUB on a TENSOR end the task in a continuation that resumes at the next
word: it waits while `VALUE` is below the target, is enqueued at once otherwise, and meets SEQ_SEALED on a sequence sealed below it. -/
def Obligations.Waits : Prop :=
  ∀ (s : State) (dp : Dep) (n : BitVec 5) (a b : BitVec 6) (t : Task) (o : Obj) (types : List ObjType) (j : Instr),
    (types, j) ∈ [([ObjType.counter, .sequence], Instr.cwaitx dp n a b), ([.tensor], .subSubscribe dp n a b)] →
    s.ready dp (some .c) 0 1 = true → s.settled [a, b] = true →
    let w := s.turn
    let target := s.sval w dp a
    let p := s.mine
    s.task w = some t → s.mayRetire w = true → s.usable p (s.hval w dp n).h o types [.read] = true →
    (o.e.typ = .sequence → target.toNat ≤ o.e.capacity) →
    ∃ (c : Cont) (u : State), s.recordCont w ((s.eng w).pc + 1) (s.sval w dp b) = some (c, u) ∧
      let v := u.modObj o.home o.num (fun o => { o with waiters := o.waiters ++ [⟨target, p, c.cid⟩] })
      exec j s = .next (match v.obj? o.home o.num with
        | none => v
        | some o' =>
          if target.toNat ≤ o'.e.value.toNat then (v.putAndWake o').enqueueCont p c.cid
          else if o'.e.typ = .sequence ∧ o'.e.sealedBit = true then
            let told := (v.putObj { o' with waiters := o'.waiters.filter (fun x => x.cont != c.cid) }).deliverWaiter .seqSealed ⟨target, p, c.cid⟩
            (match told.2 with
             | some y => told.1.abandon p y
             | none => told.1)
          else v)

/-- R285, R286, R287: YIELD looks once: it completes at once where no other work of its partition waits for the core at its level or
above, and otherwise ends the task in a continuation that is enqueued at once, with every scalar kept. R285, R287: SPAWN reads a task
record of 64 bytes out of a READY tile, replaces its argument and its node number as asked, and hands it to the walker as a record of the
partition, which takes it or holds it; with no 1,024 records of SPAWNs left to hand out and in no takeover. -/
def Obligations.TaskRequests : Prop :=
  (∀ (s : State) (dp : Dep) (t : Task) (p : Part), s.ready dp (some .c) 0 1 = true →
    let w := s.turn
    s.task w = some t → s.part? s.mine = some p →
    let ends := (s.eng w).arrived || p.otherWork w.ctx (recPrio t.record) w.core
    (ends = false → exec (.yield dp) s = .next (s.after w dp 1)) ∧
    (ends = true → s.mayRetire w = true →
      ∃ (c : Cont) (u : State), s.recordCont w ((s.eng w).pc + 1) (BitVec.allOnes 64) = some (c, u) ∧
        exec (.yield dp) s = .next (u.modPart p.cfg.id (fun x => x.enqueueCont { c with satisfied := some 0 })))) ∧
  (∀ (s : State) (dp : Dep) (d a : BitVec 6) (arg nsel : Bool) (nn : BitVec 16) (t : Task) (p : Part),
    s.ready dp (some .c) 0 2 = true → s.settled [a] = true →
    let w := s.turn
    let x := (s.core w.core).tile d.toNat
    s.task w = some t → s.readable t d = true → 64 ≤ x.size →
    s.part? s.mine = some p →
    let r0 := BitVec.ofNat 512 (leNat (s.tileBytes w.core x 0 64))
    let r1 := if arg then (s.sval w dp a).truncate 32 ++ r0.extractLsb' 0 480 else r0
    let r := if nsel then r1.extractLsb' 432 80 ++ nn ++ r1.extractLsb' 0 416 else r1
    p.cfg.prioLo ≤ recPrio r → recPrio r ≤ p.cfg.prioHi → p.spawned < 1024 → s.takeover.contains (mereOf w.core) = false →
    let took := s.takeRec p.cfg.id r (BitVec.allOnes 64) true
    let u := if took.2 then took.1 else took.1.modPart p.cfg.id (fun x => { x with held := x.held ++ [(8, 0, r)] })
    exec (.spawn dp d a arg nsel nn) s = .next (s.requests u w dp 2 none none))

/-- R154, R284, R391: QREL, AREL and TREL take the highest `n` queues, accumulators or tiles out of the allotment, reset them, and release
the objects their replay descriptors bind, whatever else is in flight, when no operation of the task still writes them; more than the task
holds faults ALLOT. Where one operation of another engine still writes one of them, its write is discarded: that engine stands at its
instruction and faults ALLOT there, and everything else in flight goes on. R323, R324, R325: TSET gives a tile a buffer in its context's
part of the slice, outside the carved segments, and empties it, which detaches what was in flight on it; a range that lies elsewhere
faults ALLOT, and one that does not meet the alignment COPY_GEOM, with the tile as the record's unit (log entry 53); TSET.CLR empties it;
TSET.RDY makes an EMPTY tile READY; TSTAT reads its entry. R307, R308: SHP, SHPX, SHPO and SHPS complete with the shape record they name,
its fields as the rules give them, where it passes the conditions of R308 for the handle's object, and fault SHAPE_ALIGN otherwise, with
that handle in the record (log entry 55); whole bytes are asked of a re-block's rows where the record sets a re-block geometry (log entry
45). -/
def Obligations.TileReleases : Prop :=
  (∀ (s : State) (dp : Dep) (n : BitVec 14) (t : Task), s.ready dp (some .c) 0 1 = true → s.task s.turn = some t →
    let w := s.turn
    let c := s.core w.core
    let top (first k : Nat) := (List.range n.toNat).map (fun i => first + k - 1 - i)
    let ends (rs : List (Option Request)) (f : Core → Core) (t : Task) : Result :=
      let u := (rs.foldl (fun s r => s.unbindRequest r) s).modCore w.core f
      .next ((u.setCtx w { u.ctx w with task := some t }).after w dp 1)
    let qs := top (base w.ctx 0 24) t.aq
    let as_ := top (base w.ctx 0 12) t.aa
    let ts := top (base w.ctx 0 48) t.at_
    let tq : Task := { t with aq := t.aq - n.toNat }
    let ta : Task := { t with aa := t.aa - n.toNat }
    let tt : Task := { t with at_ := t.at_ - n.toNat }
    -- what an operation still writes: queues, accumulators, tiles that TSET has not emptied since
    let pushes (o : Op) : Prop := match o.kind with
      | .vres ps _ _ _ _ _ => ∃ p ∈ ps, p.1 ∈ qs
      | .adrq _ q _ _ _ => q ∈ qs
      | .copy k => k.unit ∈ qs ∧ (k.req.kind = .cpq ∨ k.req.kind = .cpqTr ∨ k.req.kind = .cpqRb)
      | _ => False
    let sums (o : Op) : Prop := match o.kind with | .mma a _ _ _ _ _ => a ∈ as_ | .aload a _ _ => a ∈ as_ | _ => False
    let now (i e : Nat) : Prop := i ∈ ts ∧ e = (c.tile i).epoch
    let fills (o : Op) : Prop := match o.kind with
      | .drain _ ws _ _ => ∃ x ∈ ws, now x.tile x.epoch
      | .copy k => now k.unit k.epoch ∧
          (k.req.kind = .cpin ∨ k.req.kind = .cpinTr ∨ k.req.kind = .cpinRb ∨ k.req.kind = .cprag ∨ k.req.kind = .cpragTr)
      | .bank _ _ (some x) _ => now x.1 x.2
      | .kv k => now k.tile k.epoch ∧ (k.cmd = .get ∨ k.cmd = .list)
      | _ => False
    let mine (o : Op) : Prop := o.who.core = w.core ∧ o.tid = t.tid
    let quiet (writes : Op → Prop) : Prop := ∀ o ∈ s.ops, mine o → ¬ writes o
    -- one operation writes, of another engine, and faults
    let sole (writes : Op → Prop) (x : Op) : Prop :=
      x ∈ s.ops ∧ mine x ∧ writes x ∧ x.who.eng ≠ .c ∧ (∀ o ∈ s.ops, o.id = x.id ∨ (mine o ∧ writes o) → o = x) ∧
      s.queueRoom (mereOf w.core) = true
    let stands (x : Op) (out : Result) (t : Task) (gone : Core → Prop) : Prop :=
      ∃ v : State, out = .next (v.after w dp 1) ∧ (v.eng x.who).pc = x.pc ∧ (∃ r, (v.eng x.who).st = .awaiting r ∧ r.code = .allot) ∧
        x ∉ v.ops ∧ (∀ o ∈ s.ops, o ≠ x → o ∈ v.ops) ∧ (v.ctx w).task = some t ∧ gone (v.core w.core)
    (t.aq < n.toNat → exec (.qrel dp n) s = .next (s.takeFault w { code := .allot })) ∧
    (t.aa < n.toNat → exec (.arel dp n) s = .next (s.takeFault w { code := .allot })) ∧
    (t.at_ < n.toNat → exec (.trel dp n) s = .next (s.takeFault w { code := .allot })) ∧
    (n.toNat ≤ t.aq →
      (quiet pushes → exec (.qrel dp n) s =
        ends (qs.flatMap (fun q => queueRequests (c.queue q) ++ (c.kept.filter (fun x => x.1 == q)).map (fun x => some x.2)))
          (fun c => qs.foldl (fun c q => { c.setQueue q [] with kept := c.kept.filter (fun x => x.1 != q) }) c) tq) ∧
      (∀ x, sole pushes x → stands x (exec (.qrel dp n) s) tq (fun c => ∀ q ∈ qs, c.queue q = []))) ∧
    (n.toNat ≤ t.aa →
      (quiet sums → exec (.arel dp n) s = ends [] (fun c => as_.foldl (fun c a => c.setAcc a {}) c) ta) ∧
      (∀ x, sole sums x → stands x (exec (.arel dp n) s) ta (fun c => ∀ a ∈ as_, c.acc a = {}))) ∧
    (n.toNat ≤ t.at_ →
      (quiet fills → exec (.trel dp n) s =
        ends (ts.map (fun i => (c.tile i).replay)) (fun c => ts.foldl (fun c i => c.setTile i { epoch := (c.tile i).epoch + 1 }) c) tt) ∧
      (∀ x, sole fills x → (∀ a ws f un, x.kind = .drain a ws f un → ∀ y ∈ ws, y.epoch = (c.tile y.tile).epoch) →
        stands x (exec (.trel dp n) s) tt (fun d => ∀ i ∈ ts, i < 64 → d.tile i = { epoch := (c.tile i).epoch + 1 })))) ∧
  (∀ (s : State) (dp : Dep) (d a b : BitVec 6) (swz : BitVec 3) (t : Task), s.task s.turn = some t → t.hasT s.turn.ctx d.toNat = true →
    let w := s.turn
    let x := (s.core w.core).tile d.toNat
    let off := (s.sval w dp a).toNat
    let size := (s.sval w dp b).toNat
    let part := sliceRange w.ctx
    let free := ∀ j, j < 16 → (s.core w.core).carve.getLsbD j = true → (j + 1) * 65536 ≤ off ∨ off + size ≤ j * 65536
    let puts (u : State) (y : Tile) : Result := .next ((u.modCore w.core (fun c => c.setTile d.toNat y)).after w dp 2)
    (s.ready dp (some .l) 0 2 = true → s.settled [a, b] = true → part.1 ≤ off → off + size ≤ part.2 → free →
      off % 64 = 0 → size % 64 = 0 → 64 ≤ size → (swz = 0 ∨ off % 1024 = 0) →
      exec (.tset dp d a b swz) s = puts (s.unbindRequest x.replay)
        { st := .empty, off := off, size := size, swz := swz, epoch := x.epoch + 1 }) ∧
    (s.ready dp (some .l) 0 2 = true → s.settled [a, b] = true → (off < part.1 ∨ part.2 < off + size ∨ ¬ free) →
      exec (.tset dp d a b swz) s = .next (s.takeFault w { code := .allot, uclass := .tile, unit := d.toNat })) ∧
    (s.ready dp (some .l) 0 2 = true → s.settled [a, b] = true → part.1 ≤ off → off + size ≤ part.2 → free →
      (off % 64 ≠ 0 ∨ size % 64 ≠ 0 ∨ size < 64 ∨ (swz ≠ 0 ∧ off % 1024 ≠ 0)) →
      exec (.tset dp d a b swz) s = .next (s.takeFault w { code := .copyGeom, uclass := .tile, unit := d.toNat })) ∧
    (s.ready dp (some .l) 0 2 = true →
      exec (.tsetClr dp d) s = puts (s.unbindRequest x.replay)
        { st := .empty, off := x.off, size := x.size, swz := x.swz, epoch := x.epoch + 1 }) ∧
    (s.ready dp (some .l) 0 2 = true → x.st = .empty → exec (.tsetRdy dp d) s = puts s { x with st := .ready, tag := none }) ∧
    (s.ready dp (some .l) 0 2 = true → x.st = .ready → exec (.tsetRdy dp d) s = .next (s.after w dp 2)) ∧
    (s.ready dp (some .l) 0 1 = true → s.settled [a] = true →
      exec (.tstat dp a d) s = .next ((s.setS w a
        ((match x.st, x.fault with | .poisoned, some f => f.code.val | _, _ => 0#16) ++ 0#2 ++ BitVec.ofNat 14 (x.size / 64) ++ 0#6 ++
          BitVec.ofNat 20 x.off ++ x.swz ++ BitVec.ofNat 3 x.st.num)).after w dp 1))) ∧
  (∀ (s : State) (dp : Dep) (xs : BitVec 4) (h : BitVec 5) (i j k : BitVec 6) (pad : BitVec 2) (cdim : BitVec 3) (rbr rbc : BitVec 4),
    s.ready dp (some .l) 0 2 = true → s.loaded [h] = true →
    let w := s.turn
    let r := s.hreg w h
    r.h ≠ 0 →
    let v (i : BitVec 6) : Nat := (s.sval w dp i).toNat
    let x := s.xreg w xs
    let keeps (b3 pitch step a b c p : Nat) := mkShape (shBox x 0) (shBox x 1) (shBox x 2) b3 pitch step a b c p
    let fits (x : BitVec 128) : Prop :=
      let b := shBox x
      (∀ d, d < 4 → 1 ≤ b d ∧ (r.e.rk ≤ d → b d = 1)) ∧ (r.e.w < 8 → b 0 * r.e.w % 8 = 0) ∧
      b 0 % r.e.scb 0 = 0 ∧ b 1 % r.e.scb 1 = 0 ∧ (shStep x ≠ 1 → 8 ≤ r.e.w ∧ r.e.scfmt = 0) ∧
      (shPitch x ≠ 0 → b 0 * r.e.w / 8 ≤ shPitch x) ∧ (shCdim x ≠ 0 → shCdim x - 1 < r.e.rk) ∧
      b 1 % 2 ^ shRbr x = 0 ∧ b 0 % 2 ^ shRbc x = 0 ∧ (shRbr x ≠ 0 ∨ shRbc x ≠ 0 → 2 ^ shRbc x * r.e.w % 8 = 0) ∧
      (shPad x ≠ 0 → r.e.typ ≠ .counter)
    let sets (ok : Prop) (x : BitVec 128) (out : Result) : Prop :=
      (ok → fits x → out = .next ((s.setX w xs x).after w dp 2)) ∧
      (¬ (ok ∧ fits x) → out = .next (s.takeFault w { code := .shapeAlign, handle := r.h }))
    (s.settled [i, j, k] = true →
      sets True (mkShape (v i % 65536) (v j % 65536) (v k % 65536) 1 0 0 0 0 0 0) (exec (.shp dp xs h i j k) s) ∧
      sets (shValid x = true ∧ 1 ≤ v i ∧ v i ≤ 65535 ∧ v j < 2 ^ 20 ∧ 1 ≤ v k ∧ v k ≤ 16)
        (keeps (v i) (v j) (v k - 1) (shRbr x) (shRbc x) (shCdim x) (shPad x)) (exec (.shpx dp xs h i j k) s)) ∧
    sets (shValid x = true) (keeps (shBox x 3) (shPitch x) (shStep x - 1) (shRbr x) (shRbc x) cdim.toNat pad.toNat)
      (exec (.shpo dp xs h pad cdim) s) ∧
    sets (shValid x = true) (keeps (shBox x 3) (shPitch x) (shStep x - 1) rbr.toNat rbc.toNat (shCdim x) (shPad x)) (exec (.shps dp xs h rbr rbc) s))

/-! ### Faults -/

/-- R288: TRAP faults SW_TRAP with its code as the detail. R8, R430, R432, R434, R459: taking a fault that is no violation, where the
fault queue has a place. The record is the newest of the queue with the next SEQNO, the instruction's two words and its program counter;
the engine awaits its resolution there; the queue's producer index moves on; the black box holds the event; everything but this engine,
the mere and, for an MNEST that had begun, the tokens of its context stays. R41, R439, R444: a violation of the partition check freezes
its engine: where the fault queue has a place one record of kind FREEZE is written to it, and the task is killed without awaiting a
resolution: its engines stop, and its context is free at once where none of its requests is still on its way. -/
def Obligations.TakingFaults : Prop :=
  (∀ (s : State) (dp : Dep) (code : BitVec 14), s.ready dp (some .c) 0 1 = true →
    exec (.trap dp code) s = .next (s.takeFault s.turn { code := .swTrap, info := code.zeroExtend 64 })) ∧
  (∀ (s : State) (w : EngRef) (t : Trap), t.freeze = false →
    let m := mereOf w.core
    (s.mere m).queue.length < 1024 →
    let u := s.takeFault w t
    ∃ r : FaultRec, (u.mere m).queue = (s.mere m).queue ++ [r] ∧ r.seqno = (s.mere m).seqno ∧ r.cycles = s.cycles ∧ r.code = t.code ∧
      r.pc = (s.eng w).pc ∧ r.kind = .precise ∧ r.core = w.core ∧ r.engine = w.eng ∧ r.ctx = w.ctx ∧ r.handle = t.handle ∧
      r.part = s.partOf w ∧
      (u.mere m).prod = ((s.mere m).prod + 1) % 1024 ∧ (u.mere m).seqno = (s.mere m).seqno + 1 ∧
      (∃ e, (u.mere m).bbox.getLast? = some e ∧ e.etype = 0x0001 ∧ e.ecode = t.code.val ∧ e.seqno = r.seqno ∧ e.payload = r.info) ∧
      (u.eng w).st = .awaiting r ∧ (u.eng w).pc = (s.eng w).pc ∧ (u.eng w).arch = (s.eng w).arch ∧ (u.eng w).loops = (s.eng w).loops ∧
      u.outside = s.outside ∧ (∀ k, k ≠ w.core → u.core k = s.core k) ∧ (u.core w.core).shared = (s.core w.core).shared ∧
      (u.core w.core).ctx (!w.ctx) = (s.core w.core).ctx (!w.ctx) ∧ (u.ctx w).s = (s.ctx w).s ∧ (u.ctx w).h = (s.ctx w).h ∧
      (u.ctx w).x = (s.ctx w).x ∧ (u.ctx w).g = (s.ctx w).g ∧ (u.ctx w).task = (s.ctx w).task ∧
      ((s.ctx w).nestTok = false → ∀ e, e ≠ w.eng → (u.ctx w).eng e = (s.ctx w).eng e)) ∧
  (∀ (s : State) (w : EngRef) (t : Trap) (k : Task), t.freeze = true → s.task w = some k → (s.ctx w).dying = none →
    let m := mereOf w.core
    (s.mere m).queue.length < 1024 →
    let u := s.takeFault w t
    (∃ (r : FaultRec) (more : List FaultRec), (u.mere m).queue = (s.mere m).queue ++ r :: more ∧ r.kind = .freeze ∧ r.code = t.code ∧
      r.seqno = (s.mere m).seqno ∧ r.pc = (s.eng w).pc ∧ r.core = w.core ∧ r.engine = w.eng) ∧
    (∀ e, ((u.ctx w).eng e).st = .absent) ∧ u.canIssue w = false ∧ u.mem = s.mem ∧ u.cycles = s.cycles ∧
    ((∀ o ∈ s.ops, o.tid ≠ k.tid) → u.ctx w = {}))

/-- R1, R233, R235, R485: an instruction of which the partition has not accepted a feature, an MNCFG of a header that sets CA or CB (log
entry 140) among them, faults ILLEGAL_OP, and one of another engine faults ENGINE_MISMATCH, in that order, before any of its effects. -/
def Obligations.IssueChecks : Prop :=
  ∀ (s : State) (i : Instr), i.words ≠ 0 → i.wf = true → s.canIssue s.turn = true → (s.eng s.turn).heldP = 0 → (s.eng s.turn).heldN = 0 →
    (s.permits i = false → exec i s = .next (s.takeFault s.turn { code := .illegalOp })) ∧
    (s.permits i = true → ∀ g, i.engine = some g → g ≠ s.turn.eng →
      exec i s = .next (s.takeFault s.turn { code := .engineMismatch }))

/-- R140, R141, R143: every instruction waits, with nothing visible but the watchdog's count, for the places of the signals that its
engine holds, and then for its tokens, one from the predecessor before one from the successor. Its own checks come before that (R235): it
waits for the token, or it faults ALLOT whatever tokens there are; an MNCFG, whose checks read a scalar that a token may bring, faults
ALLOT or ILLEGAL_ENC (the model's reading, log entry 140). A nest that has begun holds its tokens. R139, R140, R141, R151, R355, R395:
what an instruction that completes does to the tokens: it takes those it waits for, and puts one in the queue to its predecessor or its
successor, or holds the signal where that queue has 15. An engine reads its own registers as they stand; a write of another engine's is
not observed through a token sent before it, and is through one sent after it. -/
def Obligations.TokenQueues : Prop :=
  (∀ (s : State) (i : Instr), i.words ≠ 0 → i.wf = true →
    let w := s.turn
    let e := s.eng w
    let c := s.ctx w
    s.canIssue w = true →
    (e.heldP ≠ 0 → exec i s = .next (s.stallAt w (.heldSignal 2))) ∧
    (e.heldP = 0 → e.heldN ≠ 0 → exec i s = .next (s.stallAt w (.heldSignal 3))) ∧
    (e.heldP = 0 → e.heldN = 0 → s.permits i = true → (∀ g, i.engine = some g → g = w.eng) →
      ¬ (i.words = 2 ∧ e.loops.head?.map (fun l => l.stop) = some e.pc.toNat) → (∀ dp, i = .mnest dp → c.nestTok = false) →
      let fromPred := i.dep.wp = true ∧ c.tokP w.eng = 0
      let fromSucc := i.dep.wn = true ∧ c.tokS w.eng = 0
      ∀ k, (k = 0 ∧ fromPred ∨ k = 1 ∧ fromSucc ∧ ¬ fromPred) →
        exec i s = .next (s.stallAt w (.token k)) ∨
        ((∃ dp d a b x, i = .mncfg dp d a b x) ∧
          ∃ t : Trap, (t.code = .illegalEnc ∨ t.code = .allot) ∧ exec i s = .next (s.takeFault w t)) ∨
        ∃ t : Trap, t.code = .allot ∧ exec i s = .next (s.takeFault w t) ∧
          ∀ p q, let u := s.setCtx w { c with fromPred := p, fromSucc := q }
            exec i u = .next (u.takeFault w t))) ∧
  (∀ (c : Ctx) (e : EngineId) (dp : Dep),
    (c.take e dp).tokP e = c.tokP e - (if dp.wp then 1 else 0) ∧ (c.take e dp).tokS e = c.tokS e - (if dp.wn then 1 else 0) ∧
    (c.tokP e.succ < 15 → (c.putS e).tokP e.succ = c.tokP e.succ + 1 ∧ ((c.putS e).eng e).heldN = (c.eng e).heldN) ∧
    (15 ≤ c.tokP e.succ → (c.putS e).tokP e.succ = c.tokP e.succ ∧ ((c.putS e).eng e).heldN = (c.eng e).heldN + 1) ∧
    (c.tokS e.pred < 15 → (c.putP e).tokS e.pred = c.tokS e.pred + 1 ∧ ((c.putP e).eng e).heldP = (c.eng e).heldP) ∧
    (15 ≤ c.tokS e.pred → (c.putP e).tokS e.pred = c.tokS e.pred ∧ ((c.putP e).eng e).heldP = (c.eng e).heldP + 1) ∧
    (c.stamped = true → c.predQ e = [] → dp.wp = true → dp.wn = false →
      ((c.sendP e).look e dp).s = c.s ∧ ((c.sendP e).look e dp).h = c.h ∧ ((c.sendP e).look e dp).x = c.x) ∧
    (c.stamped = true → c.succQ e = [] → dp.wp = false → dp.wn = true →
      ((c.sendS e).look e dp).s = c.s ∧ ((c.sendS e).look e dp).h = c.h ∧ ((c.sendS e).look e dp).x = c.x) ∧
    (c.stamped = true → (c.take e dp).stamped = true ∧ (c.putP e).stamped = true ∧ (c.putS e).stamped = true) ∧
    (∀ (s : State) (w : EngRef) (i j : BitVec 6) (v : BitVec 64),
      (scalarOwner i = w.eng → s.sval w dp i = s.sreg w i) ∧ (scalarOwner i ≠ w.eng → (s.setS w j v).sval w dp i = s.sval w dp i)) ∧
    (∀ (s : State) (w : EngRef) (i j : BitVec 5) (v : HReg),
      (w.eng = .l → s.hval w dp i = s.hreg w i) ∧ (w.eng ≠ .l → ((s.setH w j v).hval w dp i).h = (s.hval w dp i).h)) ∧
    (∀ (s : State) (w : EngRef) (i j : BitVec 4) (v : BitVec 128),
      (w.eng = .l → s.xval w dp i = s.xreg w i) ∧ (w.eng ≠ .l → (s.setX w j v).xval w dp i = s.xval w dp i)))

/-! ### Stream: shape records, tiles, handles -/

/-- R303, R304: HSET and HSET.IMPORT request the entry of a handle, the null handle among them, whatever its `ERR`; HGET reads the handle,
the bound version, and the attributes of a handle register, and 0 of an empty one; `BOUND` says that an OPIN holds the register, in place
or at a version (the model's reading, log entry 14). R305: HPROBE answers the tier, the presence and the pin of the page or block that
holds an element, and whether the object's other layout is stale; where the home cannot be reached it answers bit 6 alone. The indices of
a SEQUENCE are held against its capacity (the model's choice, log entry 49). -/
def Obligations.HandlesAndProbe : Prop :=
  (∀ (s : State) (dp : Dep) (d : BitVec 5) (a b : BitVec 6) (t : Task),
    s.ready dp (some .l) 0 1 = true → s.loaded [d] = true → s.task s.turn = some t →
    let w := s.turn
    let loads (h : BitVec 64) (r : Result) : Prop :=
      (h = 0 → r = .next (s.requests s w dp 1 none (some (d.toNat, {})))) ∧
      (∀ o, s.names s.mine h o = true → s.sound o = true → r = .next (s.requests s w dp 1 none (some (d.toNat, { h := h, e := o.e }))))
    (s.settled [a] = true → loads (s.sval w dp a) (exec (.hset dp d a) s)) ∧
    (∀ lo hi, s.codeWord t (2 * b.toNat) = .ok lo → s.codeWord t (2 * b.toNat + 1) = .ok hi → loads (hi ++ lo) (exec (.hsetImport dp d b) s)) ∧
    (s.settled [a] = true →
      let r := s.hreg w d
      let gets (f : BitVec 2) (v : BitVec 64) := exec (.hget dp a d f) s = .next ((s.setS w a v).after w dp 1)
      (r.h = 0 → ∀ f, gets f 0) ∧
      (r.h ≠ 0 → gets 0 r.h ∧ gets 1 (r.bound.getD 0) ∧
        gets 2 (0#48 ++ BitVec.ofBool (r.pinned || r.bound.isSome) ++ r.e.rights ++ r.e.fmt ++ r.e.rank ++ r.e.typ.val)))) ∧
  (∀ (s : State) (dp : Dep) (d : BitVec 6) (h : BitVec 5) (i j k l : BitVec 6), s.ready dp (some .l) 0 2 = true →
    s.settled [d, i, j, k, l] = true → s.loaded [h] = true →
    let w := s.turn
    let r := s.hreg w h
    (∀ (o : Obj) (at_ : Nat × Nat × Nat × Nat), s.names s.mine r.h o = true → (o.e.typ = .tensor ∨ o.e.typ = .sequence) → o.e.grants .read = true →
      at_ = ((s.sval w dp i).toNat, if 1 < o.e.rk then (s.sval w dp j).toNat else 0, if 2 < o.e.rk then (s.sval w dp k).toNat else 0,
        if 3 < o.e.rk then (s.sval w dp l).toNat else 0) → o.e.has at_ = true →
      let p := s.probe o (o.verOf r.bound) at_
      exec (.hprobe dp d h i j k l) s = .next (s.requests s w dp 2
        (some (d.toNat, 0#58 ++ BitVec.ofBool o.e.altStale ++ BitVec.ofBool p.1 ++ BitVec.ofBool p.2.1 ++ BitVec.ofNat 3 p.2.2)) none)) ∧
    (hObj r.h ≠ 0 → hHome r.h < 1024 → s.inRange s.mine (hObj r.h) = true → s.away (hHome r.h) = true →
      exec (.hprobe dp d h i j k l) s = .next (s.requests s w dp 2 (some (d.toNat, 64)) none)))

/-! ### Stream: sequences and the prefix table -/

/-- R72, R73, R326, R327: SQRES reserves the next slots of an unsealed SEQUENCE within its capacity for the task, with the blocks they
need, and answers the first; without the storage for them it faults NO_SPACE. The engine's earlier requests have resolved. R75, R76, R196,
R328: SQCMT of slots that the task has reserved, once the engine's earlier requests have resolved, its earlier accesses are performed and
no store of the task to those slots is on its way, commits them and wakes those whose targets the length reaches; of no slots it only
completes; a slot that it has not reserved faults SEQ_ORDER. -/
def Obligations.ReserveAndCommit : Prop :=
  (∀ (s : State) (dp : Dep) (d : BitVec 6) (h : BitVec 5) (a : BitVec 6) (o : Obj) (t : Task), s.ready dp (some .l) 2 2 = true →
    s.settled [d, a] = true → s.loaded [h] = true →
    let w := s.turn
    let n := (s.sval w dp a).toNat
    let first := o.e.next.toNat
    s.task w = some t → s.unresolved w t.tid (fun _ => true) = false → s.usable t.part (s.hreg w h).h o [.sequence] [.append] = true → 1 ≤ n →
      n ≤ 65536 → first + n ≤ o.e.capacity →
    o.e.sealedBit = false →
    exec (.sqres dp d h a) s = match s.allocBlocks o (blocksOf first (first + n)) with
      | none => .next (s.takeFault w { code := .noSpace, handle := o.handle })
      | some (u, o') => .next (s.requests
        (u.putObj { o' with resv := o'.resv ++ [⟨first, first + n, .task t.tid⟩], e := { o'.e with next := BitVec.ofNat 32 (first + n) } })
        w dp 2 (some (d.toNat, o.e.next.zeroExtend 64)) none)) ∧
  (∀ (s : State) (dp : Dep) (h : BitVec 5) (i j : BitVec 6) (sc : BitVec 3) (o : Obj) (t : Task), s.ready dp (some .l) 2 2 = true →
    s.settled [i, j] = true → s.loaded [h] = true →
    let w := s.turn
    let a := (s.sval w dp i).toNat
    let b := (s.sval w dp j).toNat
    s.task w = some t → s.unresolved w t.tid (fun _ => true) = false → s.usable t.part (s.hreg w h).h o [.sequence] [.append] = true → a ≤ b →
      b ≤ o.e.capacity →
    (a = b → exec (.sqcmt dp h i j sc) s = .next (s.requests s w dp 2 none none)) ∧
    (a < b → o.e.sealedBit = false → s.slotsBusy w o a b = false → s.accessesLeft w t.tid (fun _ => true) = false →
      (∀ k, a ≤ k → k < b → ∃ r ∈ o.resv, r.lo ≤ k ∧ k < r.hi ∧ r.owner = .task t.tid) →
      exec (.sqcmt dp h i j sc) s = .next (s.requests (s.putAndWake (o.commit a b)) w dp 2 none none)) ∧
    (∀ k, a ≤ k → k < b → o.e.sealedBit = false → s.slotsBusy w o a b = false → s.accessesLeft w t.tid (fun _ => true) = false →
      (∀ l, a ≤ l → l < k → ∃ r ∈ o.resv, r.lo ≤ l ∧ l < r.hi ∧ r.owner = .task t.tid) →
      (∀ r ∈ o.resv, ¬ (r.lo ≤ k ∧ k < r.hi ∧ r.owner = .task t.tid)) →
      exec (.sqcmt dp h i j sc) s = .next (s.takeFault w { code := .seqOrder, handle := o.handle, info := BitVec.ofNat 64 k })))

/-- R329: SQLEN answers the committed length, the next slot, the capacity, and whether the SEQUENCE is sealed. R331: SQPIN pins the blocks
of committed slots for the task, up to 16 ranges, and SQUNPIN releases the newest pin of the same blocks, or nothing. R79, R330: SQFORK
makes a new SEQUENCE in a FREE number of the source's partition, which shares the source's blocks below the length and whose handle the
register gets; without a number or a page for its block map it faults NO_SPACE. In a takeover it waits (R457); that it is the takeover of
its core's mere is the model's reading (log entry 70), and where its page lies the model's choice (log entries 16 and 19). -/
def Obligations.SequenceState : Prop :=
  (∀ (s : State) (dp : Dep) (d : BitVec 6) (h : BitVec 5) (f : BitVec 2) (o : Obj) (t : Task), s.ready dp (some .l) 2 1 = true →
    s.settled [d] = true → s.loaded [h] = true →
    let w := s.turn
    s.task w = some t → s.unresolved w t.tid (fun _ => true) = false → s.usable t.part (s.hreg w h).h o [.sequence] [.read] = true →
    exec (.sqlen dp d h f) s = .next (s.requests s w dp 1 (some (d.toNat,
      if f = 0 then o.e.value else if f = 1 then o.e.next.zeroExtend 64 else if f = 2 then BitVec.ofNat 64 o.e.capacity
      else BitVec.ofNat 64 o.e.sealedBit.toNat)) none)) ∧
  (∀ (s : State) (dp : Dep) (h : BitVec 5) (i j : BitVec 6) (o : Obj) (t : Task), s.ready dp (some .l) 2 2 = true →
    s.settled [i, j] = true → s.loaded [h] = true →
    let w := s.turn
    let a := (s.sval w dp i).toNat
    let b := (s.sval w dp j).toNat
    let lo := a / 16
    let hi := ceilDiv b 16
    let mine (p : PinRange) : Bool := p.home == o.home && p.num == o.num && p.gen == o.e.gen && p.lo == lo && p.hi == hi
    s.task w = some t → s.unresolved w t.tid (fun _ => true) = false →
    (s.usable t.part (s.hreg w h).h o [.sequence] [.pin] = true → a < b → b ≤ o.e.value.toNat → o.e.pinCnt < 65535 → t.pins.length < 16 →
      exec (.sqpin dp h i j) s = .next (s.requests
        ((s.putObj (o.pinBlocks lo hi)).addPin w ⟨o.home, o.num, o.e.gen, lo, hi, none⟩) w dp 2 none none)) ∧
    (s.usable t.part (s.hreg w h).h o [.sequence] [] = true →
      exec (.squnpin dp h i j) s = match t.pins.find? mine with
        | none => .next (s.requests s w dp 2 none none)
        | some p => .next (s.requests ((s.setCtx w { s.ctx w with task := some { t with pins := t.pins.erase p } }).unpinRange p) w dp 2 none none))) ∧
  (∀ (s : State) (dp : Dep) (e h : BitVec 5) (i j : BitVec 6) (o : Obj) (t : Task),
    s.ready dp (some .l) 2 2 = true → s.settled [i, j] = true → s.loaded [e, h] = true →
    let w := s.turn
    let len := (s.sval w dp i).toNat
    let cap := (s.sval w dp j).toNat
    s.task w = some t → s.unresolved w t.tid (fun _ => true) = false → s.usable t.part (s.hreg w h).h o [.sequence] [.read] = true →
    cap % 16 = 0 → 16 ≤ cap → cap ≤ 2 ^ 32 - 16 → len ≤ o.e.value.toNat → len ≤ cap →
    let shared := o.blockList.filter (fun b => decide (b.num < ceilDiv len 16))
    (∀ b ∈ shared, s.refcnt o.home b.addr < 65535) →
    let tier : BitVec 3 := match shared with | [] => 1 | b :: bs => if bs.all (fun x => x.tier == b.tier) then b.tier else 5
    let made (num : BitVec 40) (f : Nat) := s.createObj
      { home := o.home, num := num, forkLen := len, maps := [(o.home, .current, .blocks (shared.map (fun b => { b with owned := false })))]
        e := { o.e.setExt o.e.rank.toNat cap with
               value := BitVec.ofNat 64 len, next := BitVec.ofNat 32 len, pinCnt := 0, sealedBit := false, err := false,
               loc := BitVec.ofNat 48 f, tier := tier } }
    exec (.sqfork dp e h i j) s =
      if s.takeover.contains (mereOf w.core) then .next (s.stallAt w .other)
      else match s.freeNumber o.e.part.toNat o.home, s.freeRun o.home o.e.part.toNat (ceilDiv (cap / 16 * 8) 65536) with
        | some num, some f => .next (s.requests (made num f).1 w dp 2 none (some (e.toNat, { h := (made num f).2.handle, e := (made num f).2.e })))
        | _, _ => .next (s.takeFault w { code := .noSpace, handle := o.handle }))

/-- R84, R333: PXHASH answers the next hash of the chain over 16 tokens of a tile: the last one rotated, the tokens rotated by twice their
place, and the block's number, all combined by exclusive or. The engine's earlier requests have resolved, none has still to write those
bytes, and the tile is read as the instruction issues (log entry 49). R57, R85, R334, R335: PXFIND with no match answers 0 and the null
handle; with one it pins the blocks, counts the pin and the use at the entry, and answers the blocks matched and the sequence; a fault of
the search it takes, and on a locked replica it waits. A partition without entries in the mere's table has no match. The counts are tried
from the largest down, and of a count the entries whose key is the hash of that many blocks, the lowest number first: a stale one is
removed and the search goes on, one whose tokens differ is passed over, and the first whose tokens equal the tile's is the match; a token
object without READ, a sequence without PIN and a task that holds 16 pins fault there (a count of 65,535 pins is log entry 118, and the
detail of 0 of that BOUNDS log entry 52). The token objects that it reads are neither locked nor still to be written by an earlier
request. R67, R86, R87, R275, R336, R337, R353, R357: PXINS stamps the entry of the same key, count and sequence, or places a new one, or
answers all ones where there is no place; a new entry takes the lowest free number of the table while the partition is below its quota,
and else the place of the partition's unpinned entry with the oldest stamp. PXDEL removes the partition's entries of a key and count and
answers how many. Of the faults of PXINS on its two objects each kind is judged on both before the next. -/
def Obligations.Prefixes : Prop :=
  (∀ (s : State) (dp : Dep) (d a b j o : BitVec 6) (t : Task), s.ready dp (some .l) 2 2 = true → s.settled [d, a, j, o] = true →
    let w := s.turn
    let x := (s.core w.core).tile b.toNat
    let off := (s.sval w dp o).toNat
    s.task w = some t → s.readable t b = true → off % 4 = 0 → off + 64 ≤ x.size → s.unresolved w t.tid (fun _ => true) = false →
    s.tileLate w b.toNat [(off, off + 64)] = false →
    let token (k : Nat) : BitVec 32 := BitVec.ofNat 32 (leNat (s.tileBytes w.core x (off + 4 * k) 4))
    let mix := (List.range 16).foldl (fun m k => m ^^^ (token k).rotateLeft (2 * k)) 0
    exec (.pxhash dp d a b j o) s = .next (((s.touchTile w.core b.toNat [(off, off + 64)]).setS w d
      ((((s.sval w dp a).truncate 32).rotateLeft 7 ^^^ mix ^^^ (s.sval w dp j).truncate 32).zeroExtend 64)).after w dp 2)) ∧
  (∀ (s : State) (dp : Dep) (d a b : BitVec 6) (e : BitVec 5) (t : Task), s.ready dp (some .l) 2 2 = true → s.settled [d, a] = true →
    s.loaded [e] = true →
    let w := s.turn
    let m := mereOf w.core
    let x := (s.core w.core).tile b.toNat
    let j := (s.sval w dp a).toNat
    s.task w = some t → s.readable t b = true → j ≤ 65535 → 64 * j ≤ x.size →
    s.unresolved w t.tid (fun _ => true) = false → s.tileLate w b.toNat [(0, 64 * j)] = false →
    let tokens := tokensAt s w.core x 0 (16 * j)
    let hs := hashes 0 1 ((List.range j).map (fun i => (tokens.drop (16 * i)).take 16))
    let order := ((List.range j).reverse).flatMap (fun c => (List.range 64).map (fun n => (c + 1, n)))
    let reads (u : State) : State := u.touchTile w.core b.toNat [(0, 64 * j)]
    let misses (u : State) : Result := .next (s.requests (reads u) w dp 2 (some (d.toNat, 0)) (some (e.toNat, {})))
    let hits (u : State) (c : Nat) (px : PxEntry) (sq : Obj) : Result :=
      let v := ((reads u).putObj (sq.pinBlocks 0 c)).addPin w ⟨sq.home, sq.num, sq.e.gen, 0, c, some (m, px.id)⟩
      let y := v.mere m
      let z := v.setMere m { y with
        pxStamp := y.pxStamp + 1
        px := y.px.map (fun q => if q.id == px.id then { q with pins := q.pins + 1, stamp := y.pxStamp + 1 } else q) }
      .next (s.requests z w dp 2 (some (d.toNat, BitVec.ofNat 64 c)) (some (e.toNat, { h := px.seqH, e := ((z.live? px.seqH).getD sq).e })))
    -- the hash of the first k blocks, the entry n of count c and key H[c], and whether its tokens differ from the tile's
    let block (k : Nat) : BitVec 32 := (List.range 16).foldl (fun h i => h ^^^ (tokens.getD (16 * k + i) 0).rotateLeft (2 * i)) 0
    let H (k : Nat) : BitVec 32 := (List.range k).foldl (fun h i => h.rotateLeft 7 ^^^ block i ^^^ BitVec.ofNat 32 (i + 1)) 0
    let entry (c n : Nat) : Option PxEntry := (s.mere m).px.find? (fun x => x.num == n && x.part == t.part && x.count == c && x.key == H c)
    let served (x : PxEntry) (tk : Obj) : Prop :=
      s.live? x.tokH = some tk ∧ tk.e.grants .read = true ∧ tk.lockedHere s = false ∧ s.needSound tk = .ok () ∧
      s.clashes w t.tid (fun _ => true) ⟨[x.tokH], List.replicate 4 (0, 2 ^ 64)⟩ = false
    let differs (c n : Nat) : Prop := entry c n = none ∨ ∃ x sq tk ws, entry c n = some x ∧ s.live? x.seqH = some sq ∧ served x tk ∧
      s.words tk (16 * c) = .ok ws ∧ ws ≠ tokens.take (16 * c)
    let first (c n : Nat) : Prop := 1 ≤ c ∧ c ≤ j ∧ n < 64 ∧
      ∀ c' n', c' ≤ j → n' < 64 → (c < c' ∨ (c' = c ∧ n' < n)) → differs c' n'
    let fails (x : Trap) : Prop := exec (.pxfind dp d a b e) s = .next ((s.takeFault? w x).getD (s.stallAt w .other))
    (exec (.pxfind dp d a b e) s = match pxSearch w s m t.part t.pins.length tokens hs order with
      | (u, .none) => misses u
      | (u, .bad tr) => .next ((u.takeFault? w tr).getD (s.stallAt w .other))
      | (u, .wait) => .next (u.stallAt w .other)
      | (u, .hit c px sq) => hits u c px sq) ∧
    ((∀ y ∈ (s.mere m).px, y.part ≠ t.part) → exec (.pxfind dp d a b e) s = misses s) ∧
    ((∀ c n, 1 ≤ c → c ≤ j → n < 64 → differs c n) → exec (.pxfind dp d a b e) s = misses s) ∧
    (∀ c n x, first c n → entry c n = some x →
      (s.queueRoom m = true → (s.live? x.seqH = none ∨ s.live? x.tokH = none) → exec (.pxfind dp d a b e) s =
        exec (.pxfind dp d a b e) (s.setMere m { s.mere m with px := (s.mere m).px.filter (fun z => z.num != n) })) ∧
      (∀ sq, s.live? x.seqH = some sq →
        (∀ tk, s.live? x.tokH = some tk → tk.e.grants .read = false → fails { code := .rights, handle := x.tokH }) ∧
        (∀ tk, served x tk → s.words tk (16 * c) = .ok (tokens.take (16 * c)) →
          (sq.e.grants .pin = false → fails { code := .rights, handle := x.seqH }) ∧
          (sq.e.grants .pin = true → 16 ≤ t.pins.length → fails { code := .bounds, handle := x.seqH }) ∧
          (sq.e.grants .pin = true → t.pins.length < 16 → sq.e.pinCnt < 65535 → x.pins < 65535 → s.needSound sq = .ok () →
            exec (.pxfind dp d a b e) s = hits s c x sq))))) ∧
  (∀ (s : State) (dp : Dep) (d p q : BitVec 6) (a b : BitVec 5) (j k : BitVec 6) (o tk : Obj) (t : Task), s.ready dp (some .l) 2 2 = true →
    let w := s.turn
    let m := mereOf w.core
    let y := s.mere m
    s.task w = some t →
    (s.settled [d, j, k] = true → s.loaded [a, b] = true →
      let c := (s.sval w dp j).toNat
      let key := (s.sval w dp k).truncate 32
      s.usable t.part (s.hreg w a).h o [.sequence] [.read] = true → s.usable t.part (s.hreg w b).h tk [.tensor] [.read] = true → tk.e.fmt = 8 →
      1 ≤ c → c ≤ 65535 → 16 * c ≤ o.e.value.toNat → 16 * c ≤ tk.e.elems → s.unresolved w t.tid (fun _ => true) = false →
      let quota := match s.part? t.part with | some p => p.cfg.pxQuota | none => 0
      let answers (u : State) (v : BitVec 64) : Result := .next (s.requests u w dp 2 (some (d.toNat, v)) none)
      exec (.pxins dp d a b j k) s =
        match y.px.find? (fun x => x.part == t.part && x.key == key && x.count == c && x.seqH == o.handle) with
        | some x => answers (s.setMere m { y with
            pxStamp := y.pxStamp + 1, px := y.px.map (fun z => if z.id == x.id then { z with stamp := y.pxStamp + 1 } else z) })
            (BitVec.ofNat 64 x.num)
        | none => match pxPlace y.px t.part quota with
          | none => answers s (BitVec.allOnes 64)
          | some n => answers (({ s with nextId := s.nextId + 1 }).setMere m { y with
              pxStamp := y.pxStamp + 1
              px := y.px.filter (fun (z : PxEntry) => z.num != n) ++
                [(⟨n, s.nextId, t.part, key, c, o.handle, tk.handle, 0, y.pxStamp + 1⟩ : PxEntry)] }) (BitVec.ofNat 64 n)) ∧
    (s.settled [d, j, k] = true → s.loaded [a, b] = true → (s.hreg w a).h ≠ 0 → (s.hreg w b).h ≠ 0 →
      s.unresolved w t.tid (fun _ => true) = false →
      let ra := s.resolve t.part (s.hreg w a).h
      let rb := s.resolve t.part (s.hreg w b).h
      let faults (z : Trap) : Prop := exec (.pxins dp d a b j k) s = .next (s.takeFault w z)
      (∀ z, ra = .error z → z.code ≠ .missingObject → faults z) ∧
      (∀ x z, ra = .ok x → rb = .error z → z.code ≠ .missingObject → faults z) ∧
      (∀ x z, ra = .ok x → rb = .ok z → x.e.typ ≠ .sequence → faults { code := .objType, handle := x.handle }) ∧
      (∀ x z, ra = .ok x → rb = .ok z → x.e.typ = .sequence → (z.e.typ ≠ .tensor ∨ z.e.fmt ≠ 8) → faults { code := .objType, handle := z.handle }) ∧
      (∀ x z, ra = .ok x → rb = .ok z → x.e.typ = .sequence → z.e.typ = .tensor → z.e.fmt = 8 → x.e.grants .read = false →
        faults { code := .rights, handle := x.handle })) ∧
    (∀ quota,
      let mine := y.px.filter (fun x => x.part == t.part)
      let taken (n : Nat) : Prop := ∃ x ∈ y.px, x.num = n
      (∀ n, mine.length < quota → n < 64 → ¬ taken n → (∀ k, k < n → taken k) → pxPlace y.px t.part quota = some n) ∧
      (∀ x ∈ mine, (quota ≤ mine.length ∨ ∀ n, n < 64 → taken n) → x.pins = 0 →
        (∀ z ∈ mine, z.pins = 0 → z.num = x.num ∨ x.stamp.toNat < z.stamp.toNat) → pxPlace y.px t.part quota = some x.num) ∧
      ((quota ≤ mine.length ∨ ∀ n, n < 64 → taken n) → (∀ x ∈ mine, x.pins ≠ 0) → pxPlace y.px t.part quota = none)) ∧
    (s.settled [d, p, q] = true →
      let hit (x : PxEntry) : Bool := x.part == t.part && x.key == (s.sval w dp p).truncate 32 && x.count == (s.sval w dp q).toNat
      exec (.pxdel dp d p q) s = .next (s.requests (s.setMere m { y with px := y.px.filter (fun x => !hit x) }) w dp 2
        (some (d.toNat, BitVec.ofNat 64 (y.px.countP hit))) none)))

/-! ### Stream: banks, atomics, commands, hints -/

/-- R338, R341, R342, R343: CBSET writes an entry of a bank and makes it READY in the instruction's format, from zeros where the bank was
EMPTY or of another format, sets its written flag and keeps its fill source; CBINV empties it, with no fill source, no written flag and no
pending fault. R340, R343: a codebook fill issues where the bank is not FILLING and no expansion reads it: the bank is FILLING, its old
source object is released and its new one bound. -/
def Obligations.CodebookEntries : Prop :=
  (∀ (s : State) (dp : Dep) (d : BitVec 3) (a b : BitVec 6) (t : Task), s.ready dp (some .l) 1 1 = true → s.task s.turn = some t →
    t.hasK s.turn.ctx d.toNat = true →
    let w := s.turn
    let x := (s.core w.core).bank d.toNat
    let i := (s.sval w dp b).toNat
    x.st ≠ .filling → s.bankBusy w.core d.toNat = false →
    (∀ (fmt : BitVec 3) (j : Instr),
      (fmt, j) ∈ [(0#3, Instr.cbsetF32 dp d a b), (1#3, .cbsetBf16 dp d a b), (2#3, .cbsetF16 dp d a b), (3#3, .cbsetE4m3 dp d a b),
        (4#3, .cbsetE5m2 dp d a b)] →
      s.settled [a, b] = true → i < 256 →
      ∃ y : Bank, exec j s = .next ((s.modCore w.core (fun c => c.setBank d.toNat y)).after w dp 1) ∧
        y.st = .ready ∧ y.fmt = fmt ∧ y.pending = none ∧ y.written = true ∧ y.source = x.source ∧ y.entry i = (s.sval w dp a).toNat % 2 ^ 32 ∧
        (∀ k, k < 256 → k ≠ i → y.entry k = if x.st = .empty ∨ x.fmt ≠ fmt then 0 else x.entry k) ∧
        y.count = (if x.st = .empty ∨ x.fmt ≠ fmt then i + 1 else max x.count (i + 1))) ∧
    exec (.cbinv dp d) s = .next (((s.unbindRequest x.source).modCore w.core (fun c => c.setBank d.toNat
      { bits := 0, st := .empty, fmt := 0, count := 0, pending := none, source := none, written := false })).after w dp 1)) ∧
  (∀ (s : State) (dp : Dep) (q : CopyArgs) (t : Task) (f : BitVec 3) (j : Instr),
    (f, j) ∈ [(0#3, Instr.cbfillF32 dp q), (1#3, .cbfillBf16 dp q), (2#3, .cbfillF16 dp q), (3#3, .cbfillE4m3 dp q), (4#3, .cbfillE5m2 dp q)] →
    s.ready dp (some .l) 1 2 = true → s.settled [q.i0, q.i1, q.i2, q.i3] = true → s.loaded [q.h] = true →
    let w := s.turn
    let d := q.tq.toNat
    let b := (s.core w.core).bank d
    let r := copyRequest dp (.cbfill f) q w s
    r.hreg.h ≠ 0 → s.task w = some t → t.hasK w.ctx d = true → r.geometry 1024 none = true → s.routeOk w r = true → s.atLimit w = false →
    b.st ≠ .filling → s.bankBusy w.core d = false →
    let u := ((s.unbindRequest b.source).bindRequest r).modCore w.core
      (fun c => c.setBank d { b with st := .filling, pending := none, source := some r, written := false })
    exec j s = .next (s.issues { u with nextId := u.nextId + 1 } w dp 2 u.nextId
      (.copy { req := r, unit := d, total := (r.geo r.hreg.e).total })))

/-- R181, R182, R345, R346, R353: BKX on a tile issues its command on the bank matrices it names, and on none only completes; so it does
on the handle of an object in slice storage, of which every copy that the commands reach gets storage of its own first where it names a
matrix (log entry 48; the place of a working copy is log entry 18, and MISSING_OBJECT where there is none log entry 17; which shard it
acts on, and that both the current version and the working copy must suit the base, log entry 149). A base in slice storage that matrices
cannot have faults COPY_GEOM, with the register's handle in the record (log entry 55), before the handle is looked at further. A command
that reads a tile finds no word of it in error (R443; log entry 50). R181, R182: what each bank command does to the words of a matrix.
ZERO clears them; TR exchanges rows and columns; BREV2 moves a word to the place whose eight bits are reversed, BREV4 to the place whose
four base-4 digits are; XSKEW, its own inverse, moves word (q, w) to (q, w xor q); BLK moves it to the place that the rule gives, and
UNBLK back. Every byte of the matrix is the one of the word that moves there, and no other byte of memory changes. -/
def Obligations.BankCommands : Prop :=
  (∀ (s : State) (dp : Dep) (d : BitVec 6) (h : BitVec 5) (cmd : BitVec 4) (i j : BitVec 6) (sc : BitVec 3) (t : Task),
    s.ready dp (some .l) 4 2 = true → s.settled [i, j] = true → s.task s.turn = some t →
    let w := s.turn
    let x := (s.core w.core).tile d.toNat
    let first := (s.sval w dp i).toNat
    let m := (s.sval w dp j).toNat
    let offs := matrixOffs (x.off + first) m
    m ≤ 256 → (m = 0 ∨ s.atLimit w = false) →
    (t.hasT w.ctx d.toNat = true → (x.st = .empty ∨ x.st = .ready) →
      (m = 0 → exec (.bkx dp d cmd i j) s = .next (s.after w dp 2)) ∧
      (1 ≤ m → baseOk (x.off + first) = true → (∀ a ∈ offs, a + 15 * 1024 + 64 ≤ x.off + x.size) → s.tileRead? w.core d.toNat = false →
        (cmd = 0 ∨ s.tileBad w.core x = false) →
        exec (.bkx dp d cmd i j) s = .next (s.issues
          ((({ s with nextId := s.nextId + 1 } : State).touch w.core (offs.flatMap matrixRows)).modCore w.core
            (fun c => c.setTile d.toNat { x with st := .filling }))
          w dp 2 s.nextId (.bank cmd (offs.map (sliceAddr w.core)) (some (d.toNat, x.epoch)) 0)))) ∧
    (s.loaded [h] = true → (s.hreg w h).h ≠ 0 → 1 ≤ m → s.badBase t.part (s.hreg w h).h first = true →
      exec (.bkxHandle dp h cmd i j sc) s = .next (s.takeFault w { code := .copyGeom, handle := (s.hreg w h).h })) ∧
    (∀ (o : Obj) (b : BitVec 48), s.loaded [h] = true → s.unresolved w t.tid (fun _ => true) = false →
      s.usable t.part (s.hreg w h).h o [.tensor] [.write] = true → o.e.rwin = false →
      let q := o.bankPkg s
      let copies := if o.e.shmode = 0 then o.home :: o.e.replicas else [q]
      let offs := matrixOffs first m
      (∀ a ∈ offs, a + 15 * 1024 + 64 ≤ o.e.storageBytes (o.e.shardOn q)) → findMap o.maps q .current = some (.slices b) →
      let commands (u : State) (o : Obj) (b : BitVec 48) : Result :=
        if baseOk (b.toNat + first) then .next (s.issues { u with nextId := u.nextId + 1 } w dp 2 u.nextId
          (.bank cmd (offs.map (fun a => u.phys q (b.toNat + a))) none o.handle))
        else .next (s.takeFault w { code := .copyGeom, handle := o.handle })
      (m = 0 → exec (.bkxHandle dp h cmd i j sc) s = .next (s.requests s w dp 2 none none)) ∧
      (1 ≤ m → baseOk (b.toNat + first) = true → exec (.bkxHandle dp h cmd i j sc) s =
        match s.own o (copies.eraseDups.flatMap (fun q => (matrixPages offs).map (fun u => (q, u)))) with
        | .error tr => .next (s.takeFault w tr)
        | .ok (u, o') => match findMap o'.maps q (if o'.e.wmode then .working else .current) with
          | some (.slices c) => commands u o' c
          | _ => .next (s.takeFault w (u.missing o' .working (first / 65536)))))) ∧
  ((∀ q w, q < 16 → w < 16 →
    let j := 16 * q + w
    let blk := 16 * (4 * (q / 4) + w / 4) + (4 * (q % 4) + w % 4)
    bankSource 0 j = none ∧ bankSource 1 j = some (16 * w + q) ∧
    (∀ p, p < 256 → (∀ i, i < 8 → p.testBit i = j.testBit (7 - i)) → bankSource 2 p = some j) ∧
    bankSource 4 (16 * q + (w ^^^ q)) = some j ∧ bankSource 4 j = some (16 * q + (w ^^^ q)) ∧
    bankSource 5 blk = some j ∧ bankSource 6 j = some blk) ∧
  (∀ a b c d, a < 4 → b < 4 → c < 4 → d < 4 → bankSource 3 (64 * d + 16 * c + 4 * b + a) = some (64 * a + 16 * b + 4 * c + d)) ∧
  (∀ (s : State) (cmd base : Nat), Memory.wf s.mem = true →
    let place (j : Nat) : Nat := base + 1024 * (j / 16) + 4 * (j % 16)
    let u := bankCommand s cmd base
    (∀ j i, j < 256 → i < 4 → memByte u.mem (place j + i) = match bankSource cmd j with | some k => memByte s.mem (place k + i) | none => 0) ∧
    (∀ a, (∀ j i, j < 256 → i < 4 → a ≠ place j + i) → memByte u.mem a = memByte s.mem a)))

/-- R193, R194, R203, R209, R210, R347, R348: an atomic answers the element's old value and leaves the new one: the sum, the smaller, the
larger, the operand, or on equality the exchange. It waits for nothing that clashes, for the engine's earlier requests to resolve, and as
a release for its earlier accesses; one of sequential consistency is performed at its wheel position and completes there; one on a
replicated object locks every copy, and the update follows. On an object that is stored at one package the four bytes of the element
change, and no others: in place, or in the working copy's own page of a versioned one; the first store to a page of that copies it, from
the current version, to a free page (its place is log entry 18). A word in error is computed on as it stands (log entry 50). R98, R117,
R348: the new value of an atomic. Integers are added modulo 2^32 and compared with their signs. FP32 minima and maxima compare the numbers
with -0 below +0, and a NaN gives the canonical NaN; an FP32 sum that is finite is the nearest FP32 value to the exact sum of finite
operands, the even one of two. Exchange and compare look at the bits. R56, R57, R209: an update of a replicated object whose copies the
home has locked is made at every one of them once all can be reached, and its locks are released: an atomic's old value is then on its way
to its destination, and another package is answered. One whose home is lost ends without effect and is reported, its destination as it was
(the model's choice: log entry 139). A PUB publishes there (R279). -/
def Obligations.AtomicUpdates : Prop :=
  (∀ (s : State) (dp : Dep) (q : AtomArgs) (c : BitVec 6) (f : BitVec 3) (o : Obj) (t : Task) (k : AtomKind) (j : Instr),
    (k, j) ∈ [(AtomKind.add, Instr.aadd dp q), (.min, .amin dp q), (.max, .amax dp q), (.xch, .axch dp q),
      (.cas ((s.sval s.turn dp c).truncate 32), .acas dp q c f)] →
    s.ready dp (some .l) (if q.ord = 4 then 7 else 0) 2 = true → s.settled [q.d, q.i0, q.i1, c] = true → s.loaded [q.h] = true →
    let w := s.turn
    let n := (s.sval w dp q.i0).toNat
    let v := (s.sval w dp q.i1).truncate 32
    let ix := o.e.unlinear n
    let sp := o.e.spot ix
    s.task w = some t →
    s.usable t.part (s.hreg w q.h).h o [.tensor] (if q.d = 0 then [.write] else [.write, .read]) = true →
    (o.e.fmt = 8 ∨ o.e.fmt = 0) → o.e.scfmt = 0 → o.e.rwin = false → n < o.e.elems → o.locks = [] →
    s.unresolved w t.tid (fun _ => true) = false →
    s.clashes w t.tid (fun _ => true) ⟨[o.handle], [(ix.1, ix.1), (ix.2.1, ix.2.1), (ix.2.2.1, ix.2.2.1), (ix.2.2.2, ix.2.2.2)]⟩ = false →
    (q.ord = 2 ∨ q.ord = 3 ∨ q.ord = 4 → s.accessesLeft w t.tid (fun _ => true) = false) →
    (q.ord = 4 → o.home = s.package.toNat ∧ (∀ p ∈ o.e.replicas, p = s.package.toNat) ∧ (s.eng w).scGrant = some s.cycles) →
    let wide (x : BitVec 32) : BitVec 64 := if o.e.fmt = 8 then x.signExtend 64 else x.zeroExtend 64
    let here := if q.ord = 4 then s.modCore w.core (fun c => { c with lastSc := some s.cycles }) else s
    let ends (u : State) (x : BitVec 32) : Result :=
      if q.ord = 4 then .next ((if q.d = 0 then u else u.setS w q.d (wide x)).after w dp 2)
      else .next (s.requests u w dp 2 (if q.d = 0 then none else some (q.d.toNat, wide x)) none)
    (∀ tr, s.atomPlace o n = .error tr → exec j s = .next (s.takeFault w tr)) ∧
    (∀ u r, s.atomPlace o n = .ok (u, r) → r.hole u (r.e.byteOff sp 0) = none →
      (q.ord = 4 → ∀ u' x', here.atomic o n k v = .ok (u', x') → exec j s = ends u' x') ∧
      (q.ord ≠ 4 → r.maps.length ≤ 1 → exec j s = ends (u.performAtom r n k v).1 (u.performAtom r n k v).2) ∧
      (q.ord ≠ 4 → 1 < r.maps.length → exec j s = .next (s.issues (({ u with nextId := u.nextId + 1 } : State).lock r u.nextId) w dp 2 u.nextId
        (.update r (.atom n k v (if q.d = 0 then none else some q.d.toNat)))))) ∧
    (∀ l a, o.e.repn = 0 → l ≠ .nothing →
      ((o.e.wmode = false ∧ findMap o.maps (o.e.shardPkg o.home sp.shard) .current = some l) ∨
        (o.e.wmode = true ∧ findMap o.maps (o.e.shardPkg o.home sp.shard) .working = some l ∧
          (o.e.shardPkg o.home sp.shard, o.e.byteOff sp 0 / 65536) ∈ o.dirty)) →
      (∀ i, i < 4 → l.at s (o.e.shardPkg o.home sp.shard) o.e (o.e.byteOff sp i) = .ok (a + i)) →
      populated a = true →
      let x := BitVec.ofNat 32 (leNat ((List.range 4).map (fun i => memByte s.mem (a + i))))
      let y := (k.apply (o.e.fmt == 8) x v).getD x
      ∃ u, exec j s = ends u x ∧ (Memory.wf s.mem = true → (∀ i, i < 4 → memByte u.mem (a + i) = y.extractLsb' (8 * i) 8) ∧
        (∀ b, b < a ∨ a + 4 ≤ b → memByte u.mem b = memByte s.mem b)) ∧
        { u with mem := s.mem, badWords := s.badWords, objs := s.objs, cores := s.cores } = s) ∧
    (∀ ds d f,
      let p := o.e.shardPkg o.home sp.shard
      let at_ := o.e.byteOff sp 0 % 65536
      let page := o.e.byteOff sp 0 / 65536
      let old := s.phys p (descAddr d)
      let new := s.phys p f
      o.e.wmode = true → o.e.repn = 0 → o.dirty = [] → (∀ m ∈ o.maps, m.2.1 ≠ .working) → findMap o.maps p .current = some (.pages ds) →
      ds[page]? = some d → descValid d = true → (descTier d = 1 ∨ descTier d = 2) → s.freeRun p o.e.part.toNat 1 = some f →
      f % 65536 = 0 → f < 2 ^ 48 → (old + 65536 ≤ new ∨ new + 65536 ≤ old) → (∀ i, i < 4 → o.e.byteOff sp i = o.e.byteOff sp 0 + i) →
      at_ + 4 ≤ 65536 → populated (new + at_) = true → Memory.wf s.mem = true →
      let x := BitVec.ofNat 32 (leNat ((List.range 4).map (fun i => memByte s.mem (old + at_ + i))))
      let y := (k.apply (o.e.fmt == 8) x v).getD x
      ∃ (u : State) (o' : Obj), exec j s = ends u x ∧ u.obj? o.home o.num = some o' ∧
        findMap o'.maps p .current = some (.pages ds) ∧ findMap o'.maps p .working = some (.pages (ds.set page (mkDesc 1 0 f false true))) ∧
        (∀ i, i < 4 → memByte u.mem (new + at_ + i) = y.extractLsb' (8 * i) 8) ∧
        (∀ i, i < 65536 → (i < at_ ∨ at_ + 4 ≤ i) → memByte u.mem (new + i) = memByte s.mem (old + i)) ∧
        (∀ b, b < new ∨ new + 65536 ≤ b → memByte u.mem b = memByte s.mem b))) ∧
  (∀ (x v n : BitVec 32),
    AtomKind.min.apply true x v = some (if v.toInt < x.toInt then v else x) ∧
    AtomKind.max.apply true x v = some (if x.toInt < v.toInt then v else x) ∧
    AtomKind.add.apply true x v = some (x + v) ∧
    (∀ int, AtomKind.xch.apply int x v = some v ∧ (AtomKind.cas n).apply int x v = (if x = v then some n else none)) ∧
    ((fp32Nan x = true ∨ fp32Nan v = true) → ∀ k ∈ [AtomKind.min, .max, .add], k.apply false x v = some 0x7FC00000#32) ∧
    (fp32Nan x = false → fp32Nan v = false →
      AtomKind.min.apply false x v = some (if fp32Rank v < fp32Rank x then v else x) ∧
      AtomKind.max.apply false x v = some (if fp32Rank x < fp32Rank v then v else x)) ∧
    (fp32Finite x = true → fp32Finite v = true →
      ∃ y, AtomKind.add.apply false x v = some y ∧ (fp32Finite y = true → fp32Nearest 0 y (fp32Units x + fp32Units v)))) ∧
  (∀ (s : State) (o : Op) (r : Resolved) (u : Update) (x : Obj), s.op? o.id = some o → o.kind = .update r u → s.obj? r.home r.num = some x →
    x.e.gen = r.e.gen →
    let pkgs := (x.locks.filter (fun k => k.2 == o.id)).map (fun k => k.1)
    let r' : Resolved := { r with maps := r.maps.filter (fun m => pkgs.contains m.1) }
    let commit := exec (.replicatedCommit o.id) s
    let freed (z : State) : State := z.modObj r.home r.num (fun y => { y with locks := y.locks.filter (fun k => k.2 != o.id) })
    (s.away r.home = false → (∃ p ∈ pkgs, s.away p = true) → commit = .next s) ∧
    (s.away r.home = false → (∀ p ∈ pkgs, s.away p = false) →
      (∀ n k v dst, u = .atom n k v dst →
        let y := s.performAtom r' n k v
        commit = .next (freed (y.1.putOp { o with kind := .home (dst.map (fun d => (d, if r.e.fmt = 8 then y.2.signExtend 64 else y.2.zeroExtend 64))) none }))) ∧
      (∀ n k v src answers, u = .peerAtom n k v src answers →
        let y := s.performAtom r' n k v
        commit = .next (freed ((y.1.answer src (if answers then leBytes 4 y.2.toNat else [])).dropOp o.id))) ∧
      (∀ off bs src, u = .raw off bs src →
        let z := (s.storeRaw { home := r.home, num := r.num, e := r.e } r'.maps off bs).dropOp o.id
        commit = .next (freed (match src with | some p => z.answer p [] | none => z))) ∧
      (u = .pub → commit = .next (freed ((s.publish x).putOp { o with kind := .home none none })))) ∧
    (s.away r.home = true → commit = .next (if s.alive o
      then ((freed s).emit (mereOf o.who.core) (o.poisonRec (trapAway r.handle) .none 0 false)).finish o else (freed s).dropOp o.id)))

/-- R350, R351: a key-value command to a bound namespace slot issues, claims its tile, and is sent with its key and, for KVPUT, the tile's
bytes; fewer than 256 of the partition's commands are in flight, and the engine's earlier requests have resolved. Its completion will
count at the COUNTER through whose handle it was sent. R352: a residency hint on an object that it may read only completes. -/
def Obligations.KeyValuesAndHints : Prop :=
  (∀ (s : State) (dp : Dep) (q : KvArgs) (o : Obj) (t : Task) (p : Part) (slot : Nat), s.ready dp (some .l) 3 2 = true →
    s.settled [q.i0, q.i1, q.i2, q.st] = true → s.loaded [q.h] = true →
    let w := s.turn
    let d := q.t.toNat
    let x := (s.core w.core).tile d
    let n := (s.sval w dp q.i0).toNat
    s.task w = some t → s.part? t.part = some p → p.nsSlot o.handle = some slot → s.atLimit w = false →
    s.unresolved w t.tid (fun _ => true) = false →
    (s.ops.countP (fun o => match o.kind with | .kv c => c.part == t.part | _ => false) < 256) →
    let key := (leBytes 8 (s.sval w dp q.i1).toNat ++ leBytes 8 (s.sval w dp q.i2).toNat).take (q.klen.toNat + 1)
    let flag := if q.st = 0 then none else some q.st.toNat
    let sends (cmd : KvCmd) (u : State) (data : List Byte) : Result :=
      .next (s.issues { u with nextId := s.nextId + 1, sent := s.sent ++ [.kvCommand s.nextId] } w dp 2 s.nextId
        (.kv { cmd := cmd, part := t.part, slot := slot, counter := o.handle, tile := d, epoch := x.epoch, off := x.off, swz := x.swz, max := n
               st := flag, key := key, data := data }))
    let claims (st : TileSt) := (s.touchTile w.core d [(0, n)]).modCore w.core (fun c => c.setTile d { x with st := st })
    (s.usable t.part (s.hreg w q.h).h o [.counter] [.write] = true →
      (s.readable t q.t = true → 1 ≤ n → n ≤ x.size → s.tileLate w d [(0, n)] = false →
        exec (.kvput dp q) s = sends .put (claims .draining) (s.tileBytes w.core x 0 n)) ∧
      exec (.kvdel dp q) s = sends .del s []) ∧
    (s.usable t.part (s.hreg w q.h).h o [.counter] [.read] = true →
      (t.hasT w.ctx d = true → (x.st = .empty ∨ x.st = .ready) → s.tileRead? w.core d = false → n ≤ x.size →
        exec (.kvget dp q) s = sends .get (claims .filling) [] ∧ exec (.kvlist dp q) s = sends .list (claims .filling) []) ∧
      exec (.kvexist dp q) s = sends .exist s [])) ∧
  (∀ (s : State) (dp : Dep) (q : CopyArgs) (tier : BitVec 3) (o : Obj), s.ready dp (some .l) 8 2 = true →
    s.settled [q.i0, q.i1, q.i2, q.i3] = true → s.loaded [q.h] = true →
    s.names s.mine (s.hreg s.turn q.h).h o = true → (o.e.typ = .tensor ∨ o.e.typ = .sequence) → o.e.grants .read = true →
    exec (.promo dp q tier) s = .next (s.after s.turn dp 2) ∧ exec (.demo dp q tier) s = .next (s.after s.turn dp 2))

/-! ### Stream: copies -/

/-- R310, R315, R316, R319, R320, R353: a copy into a tile issues where its geometry and route pass and the tile is EMPTY or READY: the
tile is FILLING, and the operation carries the request, the buffer as it stands, and for a ragged copy the rows that its row tile lists as
it issues (the moment is the model's choice, log entry 37), behind its engine's earlier requests and once none has still to write them
(R194, R299). R315, R316, R318, R321, R349, R353: a copy, a peer copy or a reduction out of a READY tile issues: the tile is DRAINING. -/
def Obligations.TileCopies : Prop :=
  (∀ (s : State) (dp : Dep) (q : CopyArgs) (t : Task) (k : CopyKind) (j : Instr),
    (k, j) ∈ [(CopyKind.cpin, Instr.cpin dp q), (.cpinTr, .cpinTr dp q), (.cpinRb, .cpinRb dp q), (.cprag, .cprag dp q), (.cpragTr, .cpragTr dp q)] →
    let ragged := k = .cprag ∨ k = .cpragTr
    s.ready dp (some .l) 0 2 = true → s.settled [q.i0, q.i2, q.i3] = true → (ragged ∨ s.settled [q.i1] = true) → s.loaded [q.h] = true →
    let w := s.turn
    let d := q.tq.toNat
    let x := (s.core w.core).tile d
    let row := (s.core w.core).tile q.i1.toNat
    let r0 := copyRequest dp k q w s
    let r := { r0 with rows := if ragged then
      (List.range (shBox r0.shape 1)).map (fun i => BitVec.ofNat 64 (leNat (s.tileBytes w.core row (8 * i) 8))) else [] }
    r.hreg.h ≠ 0 → s.task w = some t → t.hasT w.ctx d = true → (x.st = .empty ∨ x.st = .ready) → (ragged → s.readable t q.i1 = true) →
    r0.geometry x.size (if ragged then some row.size else none) = true → s.routeOk w r0 = true → s.atLimit w = false →
    s.tileRead? w.core d = false →
    (ragged → s.unresolved w t.tid (fun _ => true) = false ∧ s.tileLate w q.i1.toNat [(0, 8 * shBox r0.shape 1)] = false) →
    let u := ({ s.modCore w.core (fun c => c.setTile d { x with st := .filling, fault := none }) with nextId := s.nextId + 1 } : State).touchTile
      w.core d (r0.geo r0.hreg.e).spans
    exec j s = .next (s.issues (if ragged then u.touchTile w.core q.i1.toNat [(0, 8 * shBox r0.shape 1)] else u) w dp 2 s.nextId
      (.copy { req := r, unit := d, epoch := x.epoch, off := x.off, size := x.size, swz := x.swz, total := (r.geo r.hreg.e).total
               rowTile := if ragged then some q.i1.toNat else none }))) ∧
  (∀ (s : State) (dp : Dep) (q : CopyArgs) (t : Task) (k : CopyKind) (j : Instr),
    (k, j) ∈ [(CopyKind.cpout, Instr.cpout dp q), (.cpoutFf, .cpoutFf dp q), (.cppeer, .cppeer dp q), (.cppeerFf, .cppeerFf dp q),
      (.radd, .radd dp q), (.raddFf, .raddFf dp q)] →
    s.ready dp (some .l) (if k = .radd ∨ k = .raddFf then 6 else 0) 2 = true → s.settled [q.i0, q.i1, q.i2, q.i3] = true → s.loaded [q.h] = true →
    let w := s.turn
    let d := q.tq.toNat
    let x := (s.core w.core).tile d
    let r := copyRequest dp k q w s
    r.hreg.h ≠ 0 → s.task w = some t → s.readable t q.tq = true → r.geometry x.size none = true → s.routeOk w r = true → s.atLimit w = false →
    exec j s = .next (s.issues (({ s.modCore w.core (fun c => c.setTile d { x with st := .draining }) with nextId := s.nextId + 1 } : State).touchTile
      w.core d (r.geo r.hreg.e).spans) w dp 2 s.nextId
      (.copy { req := r, unit := d, epoch := x.epoch, off := x.off, size := x.size, swz := x.swz, total := (r.geo r.hreg.e).total })))

/-- R145, R146, R230, R319, R353: a copy into a vector queue that L pushes issues where the queue has room for its entries, which are then
pending; a copy out of a queue that L pops resolves behind the engine's earlier requests, takes its entries, and carries their bytes;
where its store rewrites a block descriptor the requests that have issued resolve before it. R315, R319, R320, R340: a copy, a fill or a
reduction whose geometry or route fails faults COPY_GEOM before anything else of it. The record's HANDLE is the model's choice (log entry
55), and that a transposed row of no whole bytes faults so is its reading (log entry 43). -/
def Obligations.QueueCopies : Prop :=
  (∀ (s : State) (dp : Dep) (q : CopyArgs) (t : Task) (k : CopyKind) (j : Instr),
    (k, j) ∈ [(CopyKind.cpq, Instr.cpq dp q), (.cpqTr, .cpqTr dp q), (.cpqRb, .cpqRb dp q), (.cpqo, .cpqo dp q)] →
    s.ready dp (some .l) 0 2 = true → s.settled [q.i0, q.i1, q.i2, q.i3] = true → s.loaded [q.h] = true →
    let w := s.turn
    let d := q.tq.toNat
    let l := (s.core w.core).queue d
    let r := copyRequest dp k q w s
    let total := (r.geo r.hreg.e).total
    let n := ceilDiv total 512
    r.hreg.h ≠ 0 → s.task w = some t → t.hasQ w.ctx d = true → r.geometry 2048 none = true → s.routeOk w r = true → s.atLimit w = false →
    (k ≠ .cpqo → (t.binding w.ctx d).1 = .l → l.length + n ≤ 4 →
      exec j s = .next (s.issues
        (({ s with nextId := s.nextId + 1 }).modCore w.core (fun c => (List.range n).foldl (fun c _ => c.pushPending d s.nextId) c)) w dp 2
        s.nextId (.copy { req := r, unit := d, total := total }))) ∧
    (k = .cpqo → (t.binding w.ctx d).2 = .l → n ≤ l.length → (∀ x ∈ l.take n, x.bits?.isSome = true) →
      s.unresolved w t.tid (fun _ => true) = false →
      let z := if s.privatizes t.part t.tid r then s.settle (fun _ => true) else s
      z.servesNow t r 2048 = true →
      ∃ u res, z.resolveCopy t.part t.tid r 2048 = .ok (u, res) ∧ exec j s = .next (s.issues
        { u.modCore w.core (fun c => c.setQueue d ((c.queue d).drop n)) with nextId := u.nextId + 1 } w dp 2 u.nextId
        (.copy { req := r, unit := d, total := (r.geo res.e).total, res := some res
                 data := (((l.take n).filterMap QSlot.bits?).flatMap entryBytes).take (r.geo res.e).total })))) ∧
  (∀ (s : State) (dp : Dep) (q : CopyArgs) (t : Task) (k : CopyKind) (j : Instr),
    (k, j) ∈ [(CopyKind.cpin, Instr.cpin dp q), (.cpinTr, .cpinTr dp q), (.cpinRb, .cpinRb dp q), (.cpq, .cpq dp q), (.cpqTr, .cpqTr dp q),
      (.cpqRb, .cpqRb dp q), (.cpout, .cpout dp q), (.cpoutFf, .cpoutFf dp q), (.cpqo, .cpqo dp q), (.cprag, .cprag dp q),
      (.cpragTr, .cpragTr dp q), (.cppeer, .cppeer dp q), (.cppeerFf, .cppeerFf dp q), (.radd, .radd dp q), (.raddFf, .raddFf dp q),
      (.cbfill 0, .cbfillF32 dp q), (.cbfill 1, .cbfillBf16 dp q), (.cbfill 2, .cbfillF16 dp q), (.cbfill 3, .cbfillE4m3 dp q),
      (.cbfill 4, .cbfillE5m2 dp q)] →
    s.ready dp (some .l) (if k.bank then 1 else if k.reduces then 6 else 0) 2 = true → s.settled [q.i0, q.i2, q.i3] = true →
    (k.rag = true ∨ s.settled [q.i1] = true) → s.loaded [q.h] = true →
    let w := s.turn
    let d := q.tq.toNat
    let r := copyRequest dp k q w s
    let size (d : Nat) := ((s.core w.core).tile d).size
    r.hreg.h ≠ 0 → s.task w = some t →
    (if k.queue then t.hasQ w.ctx d else if k.bank then t.hasK w.ctx d else t.hasT w.ctx d && (!k.rag || t.hasT w.ctx q.i1.toNat)) = true →
    (r.geometry (if k.queue then 2048 else if k.bank then 1024 else size d) (if k.rag then some (size q.i1.toNat) else none) = false ∨
      s.routeOk w r = false) →
    exec j s = .next (s.takeFault w { code := .copyGeom, handle := r.hreg.h }))

/-! ### Matrix -/

/-- R366, R367, R369, R370: an MMA whose operands and accumulator are free issues: the accumulator is in use and dirty with the result's
type, and the operation carries the cells that it leaves, the tiles and banks that it reads, and its flags (log entry 39). R126: an INT32
cell gains the sum of the products of its row and column, modulo 2^32. R122, R123, R126, R366: the cells that an MMA leaves. Cell (i, j)
comes from column i of A, column j of B and what it held, 0 where accumulation is disabled; an FP32 cell's terms are the exact sums of the
products of each chunk, and one chunk added to a cell that holds one term gives the nearest FP32 value to the exact sum, the even one of
two, where that is finite. R361: instructions issued in order chain: an accumulator tile read after an MMA has issued on it holds what
that MMA leaves. -/
def Obligations.Multiply : Prop :=
  (∀ (s : State) (dp : Dep) (q : MmaArgs) (t : Task), s.ready dp (some .m) (if q.ca || q.cb then 1 else 0) 2 = true →
    let w := s.turn
    let m := mmaOf dp q w s
    s.task w = some t → accOk w s m.acc = true → t.hasT w.ctx q.ta.toNat = true → t.hasT w.ctx q.tb.toNat = true →
    (q.ca = true → t.hasK w.ctx q.kba.toNat = true) → (q.cb = true → t.hasK w.ctx q.kbb.toNat = true) → m.free w s = true →
    let drawn := { m.touch w s with fresh := s.fresh + 4096 * (m.terms w s + 4) }
    let r := m.result w drawn s.fresh
    let u := (drawn.settleAcc w m.acc r.1).modCore w.core (fun c =>
      c.setAcc m.acc { c.acc m.acc with inUse := true, dirty := true, int := m.int w s, bad := false, hist := r.2.2 })
    exec (.mma dp q) s = .next (s.issues { u with nextId := s.nextId + 1 } w dp 2 s.nextId
      (.mma m.acc r.1 [(m.a.core, m.a.tile), (m.b.core, m.b.tile)]
        ((if q.ca then [q.kba.toNat] else []) ++ (if q.cb then [q.kbb.toNat] else [])) r.2.1 none))) ∧
  (∀ (c : Nat) (xs ys : List Int), xs.length = ys.length →
    let val (z : Int) : Val := .fin (decide (z < 0)) z.natAbs 1
    intCell c (xs.map val) (ys.map val) = (((c : Int) + ((xs.zip ys).map (fun (p : Int × Int) => p.1 * p.2)).sum) % 2 ^ 32).toNat) ∧
  ((∀ (m : Mma) (w : EngRef) (s : State) (d i j : Nat), i < 64 → j < 64 →
    let c := (m.cls w s).getD .narrow
    let n := 64 * i + j
    let xs := m.a.column w s m.sc c.k i
    let ys := m.b.column w s m.sc c.k j
    let old := if m.ad then 0 else (cellList (s.accCells w m.acc)).getD n 0
    let hist := if m.ad then [] else ((s.core w.core).acc m.acc).hist.getD n []
    (cellList (m.result w s d).1).getD n 0 =
      if m.int w s then intCell old xs ys
      else (floatCell (d + n) old hist (chunkSums (chunk c m.a m.b s m.sc) (d + 4096 * m.terms w s + n * 4) xs ys)).1.code % 2 ^ 32) ∧
  (∀ (g d k : Nat) (xs ys : List Int), 0 < g → xs.length = ys.length → k < xs.length / g →
    let val (z : Int) : Val := .fin (decide (z < 0)) z.natAbs (2 ^ 180)
    (chunkSums g d (xs.map val) (ys.map val))[k]? =
      some (ofUnits 360 (((List.range g).map (fun i => xs.getD (g * k + i) 0 * ys.getD (g * k + i) 0)).sum), false)) ∧
  (∀ (d : Nat) (c0 : BitVec 32) (p : Int), fp32Finite c0 = true →
    let y := BitVec.ofNat 32 (floatCell d c0.toNat [] [(ofUnits 360 p, false)]).1.code
    fp32Finite y = true → fp32Nearest 211 y (fp32Units c0 * 2 ^ 211 + p))) ∧
  (∀ (s : State) (w : EngRef) (a : Nat) (cells : BitVec 131072), (∃ o ∈ s.ops, o.writesAcc w.core (s.tid w) a = true) →
    ((s.core w.core).acc a).dirty = true → (s.settleAcc w a cells).accCells w a = cells)

/-- R124, R125: the error of an FP32 cell over a chain of MMAs of up to 65,536 chunks, with no overflow on the way: `hist` holds the terms
that the cell has summed, its value at the start first, or nothing, and `ps` the chunk sums that are added, in units of 2^-360. Where
every sum of some of the terms is an FP32 value the cell is exact. The order of the additions is free (log entry 39). -/
def Obligations.AccumulationError : Prop :=
  ∀ (d : Nat) (c0 : BitVec 32) (hist ps : List Int), fp32Finite c0 = true → ps ≠ [] →
    let r := (floatCell d c0.toNat hist (ps.map (fun p => (ofUnits 360 p, false)))).1
    let y := BitVec.ofNat 32 r.code
    let ts := (if hist = [] then [fp32Units c0 * 2 ^ 211] else hist) ++ ps
    let n := ts.length - 1
    (n ≤ 65536 → r.flags &&& fOF = 0 → fp32Finite y = true ∧
      (fp32Units y * 2 ^ 211 - ts.sum).natAbs * 2 ^ 23 ≤ (n + 1) * (ts.map Int.natAbs).sum + n * 2 ^ 234) ∧
    ((∀ ks : List Int, ks.Sublist ts → ∃ z, fp32Finite z = true ∧ fp32Units z * 2 ^ 211 = ks.sum) → fp32Finite y = true ∧ fp32Units y * 2 ^ 211 = ts.sum)

/-- R153, R234, R235, R371 to R374, R394: MNCFG writes a row of the shadow table, its count or its header in place. A header that names a
bank without using it faults ILLEGAL_ENC, and one that names a tile or uses a bank outside the allotment ALLOT, before its tokens are
taken; the reserved bits of its scalars are judged once they are (the model's reading, log entry 140; the record's unit, log entry 53).
R375, R376: MNEST issues its next constituent, at the digits of its step; before the last it stays, holds its tokens and counts the step,
and with the last it completes and its step is 0 again. -/
def Obligations.Nests : Prop :=
  (∀ (s : State) (dp : Dep) (d : BitVec 3) (a b : BitVec 6) (x : BitVec 28), s.ready dp (some .m) 0 2 = true → s.settled [a, b] = true →
    let w := s.turn
    let lo := s.sval w dp a
    let hi := s.sval w dp b
    let sets (r : BitVec 128) : Prop := ∃ y : Ctx, exec (.mncfg dp d a b x) s = .next ((s.setCtx w y).after w dp 2) ∧
      nestRow y.shadow d.toNat = r ∧ (∀ i, i < 7 → i ≠ d.toNat → nestRow y.shadow i = nestRow (s.ctx w).shadow i) ∧
      { y with shadow := (s.ctx w).shadow } = s.ctx w
    (d.toNat < 6 → hi.toNat < 32 → sets ((hi ||| (x.extractLsb' 0 12).zeroExtend 64 <<< 17) ++ lo)) ∧
    (d = 6 → lo.toNat < 2 ^ 18 → (lo.getLsbD 15 = true ∨ lo.getLsbD 16 = true → s.accepts w 1 = true) →
      let ta := (x.extractLsb' 22 6).toNat
      let tb := (x.extractLsb' 16 6).toNat
      let ka := (x.extractLsb' 13 3).toNat
      let kb := (x.extractLsb' 10 3).toNat
      let used := (ka = 0 ∨ lo.getLsbD 15 = true) ∧ (kb = 0 ∨ lo.getLsbD 16 = true)
      let bad (cls : UnitClass) (n : Nat) : Prop := exec (.mncfg dp d a b x) s = .next (s.takeFault w { code := .allot, uclass := cls, unit := n })
      (¬ used → exec (.mncfg dp d a b x) s = .next (s.takeFault w { code := .illegalEnc })) ∧
      (used → ∀ t, s.task w = some t →
        (t.hasT w.ctx ta = false → bad .tile ta) ∧
        (t.hasT w.ctx ta = true → t.hasT w.ctx tb = false → bad .tile tb) ∧
        (t.hasT w.ctx ta = true → t.hasT w.ctx tb = true →
          (lo.getLsbD 15 = true → t.hasK w.ctx ka = false → bad .bank ka) ∧
          ((lo.getLsbD 15 = true → t.hasK w.ctx ka = true) → lo.getLsbD 16 = true → t.hasK w.ctx kb = false → bad .bank kb) ∧
          ((lo.getLsbD 15 = true → t.hasK w.ctx ka = true) → (lo.getLsbD 16 = true → t.hasK w.ctx kb = true) → sets (x.zeroExtend 64 ++ lo)))))) ∧
  (∀ (s : State) (dp : Dep), s.ready (if (s.ctx s.turn).nestTok then { dp with wp := false, wn := false } else dp) (some .m) 0 1 = true →
    let w := s.turn
    let dp' := if (s.ctx w).nestTok then { dp with wp := false, wn := false } else dp
    let c := s.ctx w
    let t := c.nest
    let m := nestMma dp' w s t (digits (nestCounts t) c.npos.toNat) c.npos
    nestPre w s = none → (c.npos = 0 → ∀ i ∈ corners (nestCounts t), (nestMma dp' w s t i 0).formatOk w s = true) → m.free w s = true →
    let began (u : State) : Prop := (u.ctx w).active = t ∧ ((u.core w.core).acc m.acc).inUse = true ∧
      ((u.core w.core).acc m.acc).dirty = true ∧ u.mem = s.mem ∧ u.objs = s.objs ∧ ∀ r, u.sreg w r = s.sreg w r
    (c.npos.toNat + 1 < nestSize t →
      ∃ (u : State) (o : Op), exec (.mnest dp) s = .next u ∧ began u ∧ (u.ctx w).npos = c.npos + 1 ∧ (u.ctx w).nestTok = true ∧ (u.eng w).pc = (s.eng w).pc ∧
        u.ops.getLast? = some o ∧ o.sp = false ∧ o.sn = false ∧
          (∃ cells bs f, o.kind = .mma m.acc cells [(m.a.core, m.a.tile), (m.b.core, m.b.tile)] bs f (some c.npos))) ∧
    (nestSize t ≤ c.npos.toNat + 1 →
      ∃ (u : State) (o : Op), exec (.mnest dp) s = .next u ∧ began u ∧ (u.ctx w).npos = 0 ∧ (u.ctx w).nestTok = false ∧
        u.ops.getLast? = some o ∧ o.sp = dp.sp ∧ o.sn = dp.sn ∧
          (∃ cells bs f, o.kind = .mma m.acc cells [(m.a.core, m.a.tile), (m.b.core, m.b.tile)] bs f (some c.npos))))

/-- R143, R377, R378, R379, R382: ACOOP of the last of the four cores of a tarn, with the shape that the others bind with and tasks of one
launch, binds the group and borrows the core's reserved tiles; a core that waits completes once the group is bound. Before the last core
comes it waits, as at a barrier. Where a shape or a launch differs every core faults COOP_GEOM, the last one as it comes and the others as
they look again, and so does a core that is bound already. R383: the end of a group completes in context 0 for the last of its four cores
to ask, when no MMA of a core of the tarn reads a partner's tiles any more, whatever other MMAs are in flight: every core's group is gone,
and the tiles lent to it are given back with their contents discarded, its own ones as they were. A core that asks before that waits, as
at a barrier, and one that has asked and finds the group gone completes. Without a bound group it faults COOP_GEOM, and in context 1 ALLOT
(the model's reading, log entry 63). -/
def Obligations.Groups : Prop :=
  (∀ (s : State) (dp : Dep) (qr : BitVec 2) (qc : BitVec 3) (t : Task), s.ready dp (some .m) 5 2 = true →
    let w := s.turn
    let n := qr.toNat * qc.toNat
    let base := 4 * tarnOf w.core
    let waiting : Group := { qr := qr.toNat, qc := qc.toNat, binding := true, ending := false, bound := false }
    let lends (c : Core) : Core := (lentTiles n).foldl (fun c a => c.setAcc a { lent := true }) c
    let geom (u : State) : Result := .next ((u.takeFault? w { code := .coopGeom }).getD (s.stallAt w .other))
    let leaves (u : State) : State := u.modCore w.core (fun c => { c with group := none })
    let partner (k : Nat) : Prop := k < 4 ∧ base + k ≠ w.core
    let binds (k : Nat) : Prop := ∃ g, (s.core (base + k)).group = some g ∧ g.binding = true ∧ g.bound = false ∧ g.ending = false
    let agrees (k : Nat) : Prop := (s.core (base + k)).group = some waiting ∧
      ∃ v, (s.core (base + k)).c0.task = some v ∧ v.launch = t.launch ∧ v.part = t.part
    s.task w = some t → w.ctx = false → (n ≤ t.aa ∨ (t.aa = 12 ∧ n ≤ 15)) →
    ((s.core w.core).group = none → (lentTiles n = [] ∨ (s.core w.core).c1.task = none) → (∀ k, partner k → agrees k) →
      ∃ u : State, exec (.acoop dp qr qc) s = .next (u.after w dp 2) ∧ u.mem = s.mem ∧
        (u.core w.core).group = some { waiting with bound := true, binding := false } ∧
        (∀ a, ((u.core w.core).acc a) = (lends (s.core w.core)).acc a) ∧
        ∀ k, partner k → (u.core (base + k)).group = some { waiting with bound := true }) ∧
    ((s.core w.core).group = some { waiting with bound := true } → (lentTiles n = [] ∨ (s.core w.core).c1.task = none) →
      exec (.acoop dp qr qc) s =
        .next ((s.setCore w.core { lends (s.core w.core) with group := some { waiting with bound := true, binding := false } }).after w dp 2)) ∧
    ((s.core w.core).group = none → (∃ k, partner k ∧ ¬ binds k) →
      exec (.acoop dp qr qc) s = .next (((s.modCore w.core (fun c => { c with group := some waiting })).modEng w
        (fun e => { e with arrived := true })).stallAt w (.barrier 0))) ∧
    ((s.core w.core).group = none → (∀ k, partner k → binds k) → (∃ k, partner k ∧ ¬ agrees k) →
      ∃ u : State, exec (.acoop dp qr qc) s = geom u ∧ u.mem = s.mem ∧ (u.core w.core).group = none ∧
        ∀ k, partner k → (u.core (base + k)).group = (s.core (base + k)).group.map (fun g => { g with ending := true })) ∧
    (∀ g, (s.core w.core).group = some g → g.bound = false → g.ending = true → exec (.acoop dp qr qc) s = geom (leaves s)) ∧
    (∀ g, (s.core w.core).group = some g → g.bound = true → g.binding = false →
      exec (.acoop dp qr qc) s = .next (s.takeFault w { code := .coopGeom }))) ∧
  (∀ (s : State) (dp : Dep), s.ready dp (some .m) 5 2 = true →
    let w := s.turn
    let base := 4 * tarnOf w.core
    let reads := ∃ o ∈ s.ops, ∃ a c r b f n, o.kind = .mma a c r b f n ∧ ∃ x ∈ r, base ≤ x.1 ∧ x.1 < base + 4 ∧ x.1 ≠ o.who.core
    let asked (k : Nat) : Prop := ∃ x, (s.core (base + k)).group = some x ∧ x.ending = true
    (w.ctx = true → exec (.acoopEnd dp) s = .next (s.takeFault w { code := .allot })) ∧
    (w.ctx = false →
      (∀ g, (s.core w.core).group = some g → g.bound = true →
        (¬ reads → (∀ k, k < 4 → base + k ≠ w.core → asked k) →
          ∃ u : State, exec (.acoopEnd dp) s = .next (u.after w dp 2) ∧ u.mem = s.mem ∧
            ∀ k, k < 4 → (u.core (base + k)).group = none ∧
              ∀ a, a < 16 → (u.core (base + k)).acc a =
                if 12 ≤ a ∧ ((s.core (base + k)).acc a).lent = true then {} else (s.core (base + k)).acc a) ∧
        ((reads ∨ ∃ k, k < 4 ∧ base + k ≠ w.core ∧ ¬ asked k) →
          exec (.acoopEnd dp) s = .next (((s.modCore w.core (fun c => { c with group := some { g with ending := true } })).modEng w
            (fun e => { e with arrived := true })).stallAt w (.barrier 0)))) ∧
      ((s.core w.core).group = none → (s.eng w).arrived = true → exec (.acoopEnd dp) s = .next (s.after w dp 2)) ∧
      ((∀ g, (s.core w.core).group = some g → g.bound = false) → (s.eng w).arrived = false →
        exec (.acoopEnd dp) s = .next (s.takeFault w { code := .coopGeom }))))

/-- R384, R385, R386: AZERO leaves its tiles in use, clean and zero; ALOAD issues with the 4,096 words of a READY tile, transposed as
asked, and marks its tile in use and dirty; ASTAT reads the flags of a tile, the shape of the bound group and the tile's local index in
it, which is 15 of a tile that the group does not hold, and 0 in its reserved bits. -/
def Obligations.Accumulators : Prop :=
  ∀ (s : State) (dp : Dep) (d n : BitVec 4) (it trn : Bool) (a : BitVec 6) (t : Task), s.task s.turn = some t →
    let w := s.turn
    (s.ready dp (some .m) 0 1 = true → (∀ i, i ≤ n.toNat → accOk w s (d.toNat + i) = true) →
      ∃ u : State, exec (.azero dp d n it) s = .next (u.after w dp 1) ∧ u.mem = s.mem ∧
        (∀ i, i ≤ n.toNat → (u.core w.core).acc (d.toNat + i) =
          { (s.core w.core).acc (d.toNat + i) with cells := 0, inUse := true, dirty := false, int := it, bad := false, hist := [] }) ∧
        (∀ i, i < 16 → (i < d.toNat ∨ d.toNat + n.toNat < i) → (u.core w.core).acc i = (s.core w.core).acc i)) ∧
    (∀ (int : Bool) (j : Instr), (int, j) ∈ [(false, Instr.aloadF32 dp d a trn), (true, .aloadI32 dp d a trn)] →
      s.ready dp (some .m) 0 2 = true → accOk w s d.toNat = true → s.readable t a = true →
      let x := (s.core w.core).tile a.toNat
      16384 ≤ x.size →
      let cells := aloadCells s w.core x trn
      exec j s = .next (s.issues { ((s.touchTile w.core a.toNat [(0, 16384)]).settleAcc w d.toNat cells).modCore w.core (fun c =>
          c.setAcc d.toNat { c.acc d.toNat with inUse := true, dirty := true, int := int, bad := false, hist := [] }) with nextId := s.nextId + 1 }
        w dp 2 s.nextId (.aload d.toNat cells a.toNat))) ∧
    (s.ready dp (some .m) 0 1 = true → s.settled [a] = true → accOk w s d.toNat = true →
      exec (.astat dp a d) s = .next ((s.setS w a (accStatus (s.core w.core) w.ctx d.toNat)).after w dp 1) ∧
      let x := (s.core w.core).acc d.toNat
      let v := accStatus (s.core w.core) w.ctx d.toNat
      let is (qr qc cq : Nat) : Prop :=
        v = BitVec.ofNat 40 0 ++ BitVec.ofNat 4 cq ++ BitVec.ofNat 3 qc ++ BitVec.ofNat 2 qr ++ 0#11 ++
          BitVec.ofBool x.lent ++ BitVec.ofBool x.int ++ BitVec.ofBool x.dirty ++ BitVec.ofBool x.inUse
      let tile (c i : Nat) : Nat := if i < 12 then i else 16 - (c - 12) + (i - 12)
      ((w.ctx = true ∨ ∀ g, (s.core w.core).group = some g → g.bound = false ∨ g.binding = true) → x.lent = false → is 0 0 15) ∧
      (∀ g, w.ctx = false → (s.core w.core).group = some g → g.bound = true → g.binding = false → g.qr ≤ 3 → g.qc ≤ 5 →
        let c := g.qr * g.qc
        (x.lent = true ↔ ∃ i, 12 ≤ i ∧ i < c ∧ tile c i = d.toNat) →
        (∀ i, i < c → tile c i = d.toNat → is g.qr g.qc i) ∧ ((∀ i, i < c → tile c i ≠ d.toNat) → is g.qr g.qc 15)))

/-- R105, R111 to R117, R313, R387, R388, R393: ADRAIN to each format issues where its tiles are writable and large enough, its
accumulator is in use and no instruction still writes it: the tiles are FILLING, the accumulator is cleared as asked, the generator has
moved past the draws, and the operation carries the packed elements, with the containers of the scales behind them or in a tile of their
own, and the flags of the conversion. R104, R105, R128 to R130, R387, R389: the scales of a drain to an MX format and its elements. A
block with a NaN has the NaN scale, one with no finite value but zeros the scale 2^-127; otherwise an E8M0 scale has the exponent of the
largest magnitude less that of the format's largest value, within its range, and an SC24 scale is the smallest value not below the
quotient of the two. Each element is the exact quotient by its block's scale, converted once, or +0 under a NaN scale; blocks are 32
elements along the destination's dimension 0, or 1 with SCB. R390, R393: ADRQ to each format issues where the queue that M pushes has
room, its rows lie in the tile, and the accumulator is in use with no instruction still to write it: its entries are pending, and the
operation carries them and the flags of the conversion. -/
def Obligations.DrainWrites : Prop :=
  (∀ (s : State) (dp : Dep) (q : DrainArgs) (t : Task) (f : Nat) (j : Instr),
    (f, j) ∈ [(0, Instr.adrainF32 dp q), (1, .adrainF16 dp q), (2, .adrainBf16 dp q), (3, .adrainE4m3 dp q), (4, .adrainE5m2 dp q),
      (5, .adrainE2m3 dp q), (6, .adrainE3m2 dp q), (7, .adrainE2m1 dp q), (8, .adrainI32 dp q), (9, .adrainI8 dp q), (10, .adrainI4 dp q)] →
    s.ready dp (some .m) 0 2 = true →
    let w := s.turn
    let c := s.core w.core
    let x := c.acc q.a.toNat
    let wd := (numFmt f).w
    let sb := 128 * scBytes q.scf
    let writable (d : BitVec 6) := t.hasT w.ctx d.toNat = true ∧ ((c.tile d.toNat).st = .empty ∨ (c.tile d.toNat).st = .ready) ∧
      s.tileRead? w.core d.toNat = false
    s.task w = some t → accOk w s q.a.toNat = true → writable q.d → (q.scf ≠ 0 → writable q.b) →
    (∀ o ∈ s.ops, o.writesAcc w.core (s.tid w) q.a.toNat = false) → x.inUse = true → x.readable = true →
    512 * wd + (if q.scf ≠ 0 ∧ q.b = q.d then sb else 0) ≤ (c.tile q.d.toNat).size →
    (q.scf ≠ 0 → q.b ≠ q.d → sb ≤ (c.tile q.b.toNat).size) →
    let ds := draws q.rnd.toNat (s.eng w).g 4096
    let r := if q.scf = 0 then (drainPlain x.fmt f q.rnd.toNat q.ovf.toNat (drainCells x q.trn) ds.1, [])
      else drainScaled f q.scf.toNat q.rnd.toNat q.ovf.toNat q.scb ((drainCells x q.trn).map (decodeVal x.fmt)) ds.1
    firstTrap r.1 = none →
    ∃ (u : State) (ws : List DrainWrite) (fl : BitVec 5) (un : Undo), exec j s = .next (s.issues { u with nextId := u.nextId + 1 } w dp 2 u.nextId (.drain q.a.toNat ws fl un)) ∧
      ws.map (fun y => y.tile) = (if q.scf = 0 then [q.d.toNat] else [q.d.toNat, q.b.toNat]) ∧
      (∃ y, ws.head? = some y ∧ y.bytes = packElems wd (r.1.map (fun e => e.code)) ∧ y.at_ = 0 ∧ y.off = (c.tile q.d.toNat).off) ∧
      (q.scf ≠ 0 → ∃ y, ws.getLast? = some y ∧ y.tile = q.b.toNat ∧ y.bytes = r.2.flatMap (leBytes (scBytes q.scf)) ∧
        y.at_ = (if q.b = q.d then 512 * wd else 0) ∧ y.off = (c.tile q.b.toNat).off) ∧
      fl = r.1.foldl (fun f e => f ||| e.flags) 0 ∧ (u.eng w).g = ds.2 ∧ u.mem = s.mem ∧ u.objs = s.objs ∧
      ((u.core w.core).tile q.d.toNat).st = .filling ∧ (q.scf ≠ 0 → ((u.core w.core).tile q.b.toNat).st = .filling) ∧
      (u.core w.core).acc q.a.toNat = (if q.az then { x with cells := 0, inUse := true, dirty := false, bad := false, hist := [] } else x)) ∧
  ((∀ (f : Nat) (emax : Int) (vn vd : Nat) (F : NumFmt) (cs : List Nat),
    (f, emax, vn, vd) ∈ [(3, (8 : Int), 448, 1), (4, 15, 57344, 1), (5, 2, 15, 2), (6, 4, 28, 1), (7, 2, 6, 1), (9, 6, 127, 1), (10, 2, 7, 1)] →
    (F = numFmt 0 ∨ F = numFmt 8) →
    let vs := cs.map (decodeVal F)
    let e8 := blockScale f 1 vs
    let sc := blockScale f 2 vs
    (.nan ∈ vs → e8 = (0xFF, .nan) ∧ sc = (0xFF0000, .nan)) ∧
    (.nan ∉ vs →
      (∃ a b, e8.2 = .fin false a b ∧ 0 < b ∧ a * 2 ^ 127 = 2 ^ e8.1 * b) ∧
      (∃ a b, sc.2 = .fin false a b ∧ 0 < b ∧ a * 2 ^ 143 = (65536 + sc.1 % 65536) * 2 ^ (sc.1 / 65536) * b) ∧
      ((∀ g n d, .fin g n d ∈ vs → n = 0) → e8.1 = 0 ∧ sc.1 = 0) ∧
      (∀ g n d, .fin g n d ∈ vs → n ≠ 0 → (∀ g' n' d', .fin g' n' d' ∈ vs → n' * d ≤ n * d') →
        (∀ e : Int, d * 2 ^ e.toNat ≤ n * 2 ^ (-e).toNat → n * 2 ^ (-e).toNat < 2 * d * 2 ^ e.toNat → (e8.1 : Int) = max 0 (min 254 (e - emax + 127))) ∧
        n * vd * 2 ^ 143 ≤ (65536 + sc.1 % 65536) * 2 ^ (sc.1 / 65536) * (d * vn) ∧
        (0 < sc.1 → (65536 + (sc.1 - 1) % 65536) * 2 ^ ((sc.1 - 1) / 65536) * (d * vn) < n * vd * 2 ^ 143)))) ∧
  (∀ (f scf mode ovf : Nat) (vblk : Bool) (vs : List Val) (qs : List Nat), vs.length = 4096 → qs.length = 4096 →
    let r := drainScaled f scf mode ovf vblk vs qs
    let members (b : Nat) : List Val := (List.range 32).map (fun i =>
      vs.getD (if vblk then b % 64 + 64 * (32 * (b / 64) + i) else 32 * (b % 2) + i + 64 * (b / 2)) .nan)
    let block (k : Nat) : Nat := if vblk then k % 64 + 64 * (k / 64 / 32) else k % 64 / 32 + 2 * (k / 64)
    let scale (b : Nat) : Nat × Val := blockScale f scf (members b)
    r.1.length = 4096 ∧ r.2 = (List.range 128).map (fun b => (scale b).1) ∧
    ∀ k, k < 4096 →
      ((scale (block k)).2 = .nan → r.1[k]? = some { code := 0 }) ∧
      (∀ g a b, (scale (block k)).2 = .fin g a b →
        (∀ h n d, vs[k]? = some (.fin h n d) → r.1[k]? = some (roundConv (numFmt f) mode ovf (qs.getD k 0) (.fin h (n * b) (d * a)))) ∧
        (∀ h, vs[k]? = some (.inf h) → r.1[k]? = some (roundConv (numFmt f) mode ovf (qs.getD k 0) (.inf h)))))) ∧
  (∀ (s : State) (dp : Dep) (q : AdrqArgs) (t : Task) (f : Nat) (j : Instr),
    (f, j) ∈ [(0, Instr.adrqF32 dp q), (1, .adrqF16 dp q), (2, .adrqBf16 dp q), (3, .adrqE4m3 dp q), (4, .adrqE5m2 dp q), (8, .adrqI32 dp q),
      (9, .adrqI8 dp q)] →
    s.ready dp (some .m) 0 2 = true → s.settled [q.b] = true →
    let w := s.turn
    let c := s.core w.core
    let x := c.acc q.a.toNat
    let wd := (numFmt f).w
    let n := q.n.toNat + 1
    let per := 64 * adrqRows wd
    let row := (s.sval w dp q.b).toNat
    s.task w = some t → t.hasQ w.ctx q.d.toNat = true → accOk w s q.a.toNat = true → (t.binding w.ctx q.d.toNat).1 = .m →
    (c.queue q.d.toNat).length + n ≤ 4 → (∀ o ∈ s.ops, o.writesAcc w.core (s.tid w) q.a.toNat = false) → row + adrqRows wd * n ≤ 64 →
    x.inUse = true → x.readable = true →
    let ds := draws q.rnd.toNat (s.eng w).g (per * n)
    let es := drainPlain x.fmt f q.rnd.toNat q.ovf.toNat (((drainCells x q.trn).drop (64 * row)).take (per * n)) ds.1
    firstTrap es = none →
    ∃ u : State, exec j s = .next (s.issues { u with nextId := s.nextId + 1 } w dp 2 s.nextId (.adrq q.a.toNat q.d.toNat
        ((List.range n).map (fun e => entryOf wd (((es.drop (per * e)).take per).map (fun r => r.code)))) (es.foldl (fun f r => f ||| r.flags) 0)
        { before := (s.eng w).g, after := ds.2 })) ∧
      (u.core w.core).queue q.d.toNat = c.queue q.d.toNat ++ List.replicate n (.pending s.nextId) ∧ (u.eng w).g = ds.2 ∧ u.mem = s.mem)

/-! ### Vector -/

/-- R146, R414, R417, R423: the bit operations, VSEL and the queue moves issue where their queues flow, with the bits of the rule in the
bytes that the guard enables and zeros elsewhere; VSEL writes every byte. VDROP pops its entries. R115, R413, R415: the integer arithmetic
and the shifts of lanes, with every overflow policy. R398, R416: VCMP issues with every bit of the mask set to its lane's condition. -/
def Obligations.VectorLanes : Prop :=
  (∀ (s : State) (dp : Dep) (q : Q2) (m : Q1) (n : BitVec 2), s.ready dp (some .v) 0 1 = true →
    let w := s.turn
    let puts (srcs : List Src) (dests : List Nat) (j : Instr) (bit : Nat → Bool) : Prop :=
      ∃ r : BitVec 4096, exec j s = .next (s.vIssues dp 1 srcs dests { outs := dests.map (fun _ => r), g := (s.eng w).g }) ∧
        ∀ k, k < 4096 → r.getLsbD k = bit k
    let a := s.oldest q.a.toNat
    let b := s.oldest q.b.toNat
    let on (t : BitVec 3) (k : Nat) : Bool := !(s.guard w t).getLsbD (k / 8)
    let one : List Src := [⟨q.a.toNat, q.ka⟩]
    let c := s.core w.core
    (s.flows (srcs2 q) [q.d.toNat] [q.t] = true →
      puts (srcs2 q) [q.d.toNat] (.vand dp q) (fun k => on q.t k && (a.getLsbD k && b.getLsbD k)) ∧
      puts (srcs2 q) [q.d.toNat] (.vor dp q) (fun k => on q.t k && (a.getLsbD k || b.getLsbD k)) ∧
      puts (srcs2 q) [q.d.toNat] (.vxor dp q) (fun k => on q.t k && (a.getLsbD k != b.getLsbD k)) ∧
      puts (srcs2 q) [q.d.toNat] (.vsel dp q) (fun k => if on q.t k then a.getLsbD k else b.getLsbD k)) ∧
    (s.flows (srcs1 m) [m.d.toNat] [m.t] = true →
      puts (srcs1 m) [m.d.toNat] (.vmovq dp m) (fun k => on m.t k && (s.oldest m.a.toNat).getLsbD k)) ∧
    (s.flows one [q.d.toNat, q.b.toNat] [q.t] = true →
      puts one [q.d.toNat, q.b.toNat] (.vdup dp q) (fun k => on q.t k && a.getLsbD k)) ∧
    (∀ t, s.task w = some t → t.hasQ w.ctx q.a.toNat = true → (t.binding w.ctx q.a.toNat).2 = .v →
      n.toNat < (c.queue q.a.toNat).length → (∀ x ∈ (c.queue q.a.toNat).take (n.toNat + 1), x.bits?.isSome = true) →
      exec (.vdrop dp q.a n) s = .next ((s.setCore w.core (c.setQueue q.a.toNat ((c.queue q.a.toNat).drop (n.toNat + 1)))).after w dp 1))) ∧
  (∀ (s : State) (dp : Dep) (q : Q2) (ovf : BitVec 2), s.flows (srcs2 q) [q.d.toNat] [q.t] = true →
    let a (w i : Nat) : Nat := lane (s.oldest q.a.toNat) w i
    let b (w i : Nat) : Nat := lane (s.oldest q.b.toNat) w i
    let int (w x : Nat) : Int := if x < 2 ^ (w - 1) then x else (x : Int) - 2 ^ w
    let fits (w : Nat) (x : Int) : Res :=
      if -2 ^ (w - 1) ≤ x ∧ x < 2 ^ (w - 1) then { code := (x % 2 ^ w).toNat }
      else if ovf = 3 then { code := 0, trap := true }
      else { code := if x < 0 then 2 ^ (w - 1) else 2 ^ (w - 1) - 1, flags := if ovf = 0 then fOF ||| fNX else fNV ||| fOF ||| fNX }
    let arith (w : Nat) (j : Instr) (op : Int → Int → Int) : Prop :=
      s.laneWise dp 2 w 0 (srcs2 q) q.d.toNat q.t (fun i _ => fits w (op (int w (a w i)) (int w (b w i)))) (exec j s)
    let shift (w : Nat) (j : Instr) (op : Nat → Nat → Nat) : Prop :=
      s.laneWise dp 1 w 0 (srcs2 q) q.d.toNat q.t (fun i _ => { code := op (a w i) (b w i % w) }) (exec j s)
    (s.ready dp (some .v) 0 2 = true →
      arith 32 (.viaddI32 dp q ovf) (fun x y => x + y) ∧ arith 8 (.viaddI8 dp q ovf) (fun x y => x + y) ∧
      arith 32 (.visubI32 dp q ovf) (fun x y => x - y) ∧ arith 8 (.visubI8 dp q ovf) (fun x y => x - y) ∧
      arith 32 (.vimulI32 dp q ovf) (fun x y => x * y) ∧ arith 8 (.vimulI8 dp q ovf) (fun x y => x * y)) ∧
    (s.ready dp (some .v) 0 1 = true →
      shift 32 (.vshlI32 dp q) (fun x n => x * 2 ^ n) ∧ shift 8 (.vshlI8 dp q) (fun x n => x * 2 ^ n) ∧
      shift 32 (.vshrI32 dp q) (fun x n => (int 32 x / 2 ^ n % 2 ^ 32).toNat) ∧
      shift 8 (.vshrI8 dp q) (fun x n => (int 8 x / 2 ^ n % 2 ^ 8).toNat))) ∧
  (∀ (s : State) (dp : Dep) (q : Q2), s.ready dp (some .v) 0 1 = true → s.flows (srcs2 q) [] [] = true →
    let a := s.oldest q.a.toNat
    let b := s.oldest q.b.toNat
    let int (w x : Nat) : Int := if x < 2 ^ (w - 1) then x else (x : Int) - 2 ^ w
    let writes (w : Nat) (j : Instr) (holds : Nat → Nat → Bool) : Prop :=
      ∃ m : BitVec 512, exec j s = .next (s.vIssues dp 1 (srcs2 q) [] { mask := some (q.d.toNat % 8, m), g := (s.eng s.turn).g }) ∧
        ∀ k, k < 512 → m.getLsbD k = holds (lane a w (k / (w / 8))) (lane b w (k / (w / 8)))
    let ints (w x y : Nat) : Bool :=
      if q.t = 0 then x == y else if q.t = 1 then x != y else if q.t = 2 then int w x < int w y else if q.t = 3 then int w x ≤ int w y
      else if q.t = 4 then int w y < int w x else if q.t = 5 then int w y ≤ int w x else if q.t = 6 then x < y else y ≤ x
    let floats (f x y : Nat) : Bool :=
      let u := decodeVal (numFmt f) x
      let v := decodeVal (numFmt f) y
      let un := u.isNan || v.isNan
      let eq := !un && !u.cmpLt v && !v.cmpLt u
      if q.t = 0 then eq else if q.t = 1 then !eq else if q.t = 2 then u.cmpLt v else if q.t = 3 then u.cmpLt v || eq
      else if q.t = 4 then v.cmpLt u else if q.t = 5 then v.cmpLt u || eq else if q.t = 6 then un else !un
    writes 32 (.vcmpI32 dp q) (ints 32) ∧ writes 8 (.vcmpI8 dp q) (ints 8) ∧
    writes 32 (.vcmpF32 dp q) (floats 0) ∧ writes 16 (.vcmpF16 dp q) (floats 1) ∧ writes 16 (.vcmpBf16 dp q) (floats 2))

/-- R99, R117, R406, R407: the arithmetic of floating-point lanes is rounded once from the exact result, in every rounding mode; VMIN and
VMAX order -0 below +0, and a NaN operand gives the canonical NaN. R131, R408: VRCP, VRSQ, VEXP2 and VLOG2 issue with the function of
every lane: a pole, a NaN or an infinity where the rule gives one, and in its exact cases the exact value, rounded where it is not
representable. VRCP and VRSQ of an infinity, which the rule does not name, give a zero without a flag (the model's choice, log entry 66).
-/
def Obligations.VectorArithmetic : Prop :=
  (∀ (s : State) (dp : Dep) (q : Q2) (m : Q1) (rnd : BitVec 3) (x : W3),
    let v (f : Nat) (e : BitVec 4096) (i : Nat) : Val := decodeVal (numFmt f) (lane e (numFmt f).w i)
    let a := s.oldest q.a.toNat
    let b := s.oldest q.b.toNat
    let c := s.oldest x.c.toNat
    let three : List Src := srcs2 q ++ [⟨x.c.toNat, x.kc⟩]
    let two (f : Nat) (j : Instr) (op : Val → Val → Val × BitVec 5) : Prop :=
      s.laneWise dp 2 (numFmt f).w rnd.toNat (srcs2 q) q.d.toNat q.t (fun i r => arith (numFmt f) rnd.toNat r (op (v f a i) (v f b i))) (exec j s)
    let fused (f : Nat) (j : Instr) : Prop :=
      s.laneWise dp 2 (numFmt f).w x.rnd.toNat three q.d.toNat q.t (fun i r =>
        let y := fmaVal x.rnd.toNat (v f a i) (v f b i) (v f c i)
        if f < 3 then arith (numFmt f) x.rnd.toNat r y
        else { roundConv (numFmt f) x.rnd.toNat x.ovf.toNat r y.1 with flags := (roundConv (numFmt f) x.rnd.toNat x.ovf.toNat r y.1).flags ||| y.2 })
        (exec j s)
    let exact (f : Nat) (srcs : List Src) (d : BitVec 5) (t : BitVec 3) (j : Instr) (nan : Nat → Bool) (op : Nat → Nat) : Prop :=
      s.laneWise dp 1 (numFmt f).w 0 srcs d.toNat t (fun i _ => { code := if nan i then nanCode (numFmt f) else op i }) (exec j s)
    let least (f : Nat) (flip : Bool) (i : Nat) : Nat :=
      let l := lane a (numFmt f).w i
      let r := lane b (numFmt f).w i
      if (if flip then (v f a i).lt (v f b i) else (v f b i).lt (v f a i)) then r else l
    let nan2 (f i : Nat) : Bool := (v f a i).isNan || (v f b i).isNan
    let y := s.oldest m.a.toNat
    let nan1 (f i : Nat) : Bool := (v f y i).isNan
    let top (f : Nat) : Nat := 2 ^ ((numFmt f).w - 1)
    (s.ready dp (some .v) 0 2 = true → s.flows (srcs2 q) [q.d.toNat] [q.t] = true →
      two 0 (.vaddF32 dp q rnd) (addVal rnd.toNat) ∧ two 1 (.vaddF16 dp q rnd) (addVal rnd.toNat) ∧
      two 2 (.vaddBf16 dp q rnd) (addVal rnd.toNat) ∧
      two 0 (.vsubF32 dp q rnd) (fun x y => addVal rnd.toNat x y.neg) ∧ two 1 (.vsubF16 dp q rnd) (fun x y => addVal rnd.toNat x y.neg) ∧
      two 2 (.vsubBf16 dp q rnd) (fun x y => addVal rnd.toNat x y.neg) ∧
      two 0 (.vmulF32 dp q rnd) mulVal ∧ two 1 (.vmulF16 dp q rnd) mulVal ∧ two 2 (.vmulBf16 dp q rnd) mulVal) ∧
    (s.ready dp (some .v) 0 2 = true → s.flows three [q.d.toNat] [q.t] = true →
      fused 0 (.vfmaF32 dp q x) ∧ fused 1 (.vfmaF16 dp q x) ∧ fused 2 (.vfmaBf16 dp q x) ∧ fused 3 (.vfmaE4m3 dp q x) ∧
      fused 4 (.vfmaE5m2 dp q x)) ∧
    (s.ready dp (some .v) 0 1 = true → s.flows (srcs2 q) [q.d.toNat] [q.t] = true →
      (∀ (f : Nat) (j : Instr), (f, j) ∈ [(0, Instr.vminF32 dp q), (1, .vminF16 dp q), (2, .vminBf16 dp q)] →
        exact f (srcs2 q) q.d q.t j (nan2 f) (least f false)) ∧
      (∀ (f : Nat) (j : Instr), (f, j) ∈ [(0, Instr.vmaxF32 dp q), (1, .vmaxF16 dp q), (2, .vmaxBf16 dp q)] →
        exact f (srcs2 q) q.d q.t j (nan2 f) (least f true))) ∧
    (s.ready dp (some .v) 0 1 = true → s.flows (srcs1 m) [m.d.toNat] [m.t] = true →
      (∀ (f : Nat) (j : Instr), (f, j) ∈ [(0, Instr.vabsF32 dp m), (1, .vabsF16 dp m), (2, .vabsBf16 dp m)] →
        exact f (srcs1 m) m.d m.t j (nan1 f) (fun i => lane y (numFmt f).w i % top f)) ∧
      (∀ (f : Nat) (j : Instr), (f, j) ∈ [(0, Instr.vnegF32 dp m), (1, .vnegF16 dp m), (2, .vnegBf16 dp m)] →
        exact f (srcs1 m) m.d m.t j (nan1 f) (fun i => (lane y (numFmt f).w i + top f) % (2 * top f))))) ∧
  (∀ (s : State) (dp : Dep) (q : Q1) (rnd : BitVec 3) (n f : Nat) (j : Instr),
    (n, f, j) ∈ [(0, 0, Instr.vrcpF32 dp q rnd), (0, 1, .vrcpF16 dp q rnd), (0, 2, .vrcpBf16 dp q rnd),
      (1, 0, .vrsqF32 dp q rnd), (1, 1, .vrsqF16 dp q rnd), (1, 2, .vrsqBf16 dp q rnd),
      (2, 0, .vexp2F32 dp q rnd), (2, 1, .vexp2F16 dp q rnd), (2, 2, .vexp2Bf16 dp q rnd),
      (3, 0, .vlog2F32 dp q rnd), (3, 1, .vlog2F16 dp q rnd), (3, 2, .vlog2Bf16 dp q rnd)] →
    s.ready dp (some .v) 0 2 = true → s.flows (srcs1 q) [q.d.toNat] [q.t] = true →
    let F := numFmt f
    s.laneWise dp 2 F.w rnd.toNat (srcs1 q) q.d.toNat q.t (fun i r => fnLane n f rnd.toNat r (lane (s.oldest q.a.toNat) F.w i)) (exec j s) ∧
    ∀ (r x : Nat) (neg : Bool),
      (decodeVal F x = .nan → fnLane n f rnd.toNat r x = { code := nanCode F }) ∧
      (decodeVal F x = .inf neg → fnLane n f rnd.toNat r x =
        if n = 0 then { code := withSign F neg 0 }
        else if n = 2 then { code := if neg then 0 else infCode F }
        else if neg then { code := nanCode F, flags := fNV } else { code := if n = 1 then 0 else infCode F }) ∧
      (∀ d, decodeVal F x = .fin neg 0 d → n ≠ 2 →
        fnLane n f rnd.toNat r x = { code := withSign F (if n = 3 then true else neg) (infCode F), flags := fDZ }) ∧
      (∀ a d, decodeVal F x = .fin true a d → a ≠ 0 → n = 1 ∨ n = 3 → fnLane n f rnd.toNat r x = { code := nanCode F, flags := fNV }) ∧
      (∀ a d, decodeVal F x = .fin neg a d → a ≠ 0 → n ≠ 2 → (neg = false ∨ n = 0) → isPow2 a d = true →
        let e := flog2 a d
        (n = 0 → fnLane n f rnd.toNat r x = roundArith F rnd.toNat r (.fin neg d a)) ∧
        (n = 1 → e % 2 = 0 → fnLane n f rnd.toNat r x = roundArith F rnd.toNat r (.fin false (pow2 (-(e / 2))).1 (pow2 (-(e / 2))).2)) ∧
        (n = 3 → fnLane n f rnd.toNat r x = roundArith F rnd.toNat r (.fin (decide (e < 0)) e.natAbs 1))) ∧
      (∀ k d, decodeVal F x = .fin neg (k * d) d → d ≠ 0 → k < 1024 → n = 2 →
        let p := pow2 (if neg then -(k : Int) else k)
        fnLane n f rnd.toNat r x = roundArith F rnd.toNat r (.fin false p.1 p.2)))

/-- R132, R419: the reductions of the enabled lanes issue with one result in every lane; an integer sum that an overflow policy TRAP stops
faults FP_TRAP. A floating-point sum adds in an order that free values choose, each addition rounded under the mode; an order that leaves
the error of R132 gives way to rounds of neighbours (the model's form of the open order: log entry 39). R132, R420: the scans issue with,
in each enabled lane, the sum of its segment's enabled lanes up to it, and of the carry before any head, with the flags of the enabled
lanes; the first lane that an overflow policy TRAP stops faults FP_TRAP. A floating-point sum adds in an order that free values choose,
within the error of R132 (the model's form of the open order: log entry 39). -/
def Obligations.VectorFolds : Prop :=
  (∀ (s : State) (dp : Dep) (q : Q1) (rnd : BitVec 3) (ovf : BitVec 2), s.flows (srcs1 q) [q.d.toNat] [q.t] = true →
    let int (x : Nat) : Int := if x < 2 ^ 31 then x else (x : Int) - 2 ^ 32
    let live (w : Nat) : List Nat :=
      ((List.range (4096 / w)).filter (fun i => enabled (s.guard s.turn q.t) (w / 8) i)).map (lane (s.oldest q.a.toNat) w)
    let fills (w len : Nat) (j : Instr) (free : Nat) (x : Res) : Prop :=
      ∃ r : BitVec 4096, exec j s =
          .next (s.vIssues dp len (srcs1 q) [q.d.toNat] { outs := [r], flags := x.flags, g := (s.eng s.turn).g, free := free }) ∧
        ∀ i, i < 4096 / w → lane r w i = x.code % 2 ^ w
    let sum : Int := ((live 32).map int).sum
    let most : Nat := if sum < 0 then 2 ^ 31 else 2 ^ 31 - 1
    (s.ready dp (some .v) 0 2 = true →
      (∀ (f : Nat) (j : Instr), (f, j) ∈ [(0, Instr.vredaddF32 dp q rnd), (1, .vredaddF16 dp q rnd), (2, .vredaddBf16 dp q rnd)] →
        fills (numFmt f).w 2 j 256 (fpSum (numFmt f) rnd.toNat s.fresh (live (numFmt f).w))) ∧
      (if -2 ^ 31 ≤ sum ∧ sum < 2 ^ 31 then fills 32 2 (.vredaddI32 dp q ovf) 0 { code := (sum % 2 ^ 32).toNat }
        else if ovf = 3 then exec (.vredaddI32 dp q ovf) s = .next (s.takeFault s.turn { code := .fpTrap })
        else fills 32 2 (.vredaddI32 dp q ovf) 0 { code := most, flags := if ovf = 0 then fOF ||| fNX else fNV ||| fOF ||| fNX })) ∧
    (s.ready dp (some .v) 0 1 = true →
      (∀ (f : Nat) (j : Instr), (f, j) ∈ [(0, Instr.vredmaxF32 dp q), (1, .vredmaxF16 dp q), (2, .vredmaxBf16 dp q)] →
        fills (numFmt f).w 1 j 0 { code := fpLargest (numFmt f) (live (numFmt f).w) }) ∧
      (∃ m : Nat, fills 32 1 (.vredmaxI32 dp q) 0 { code := m } ∧ (∀ x ∈ live 32, int x ≤ int m) ∧ (m ∈ live 32 ∨ m = 2 ^ 31)))) ∧
  (∀ (s : State) (dp : Dep) (q : Q1) (x : W3) (hm : BitVec 3) (ci : Bool), s.ready dp (some .v) 0 2 = true →
    let srcs : List Src := srcs1 q ++ (if ci then [⟨x.c.toNat, x.kc⟩] else [])
    s.flows srcs [q.d.toNat] [q.t, hm] = true →
    let w := s.turn
    let on (i : Nat) : Bool := enabled (s.guard w q.t) 4 i
    let head (i : Nat) : Bool := (s.guard w hm).getLsbD (4 * i)
    let int (x : Nat) : Int := if x < 2 ^ 31 then x else (x : Int) - 2 ^ 32
    -- the enabled lanes `k ≤ i` with no head in `(k, i]`, after the carry where no head lies in `[0, i]`
    let terms (i : Nat) : List Nat :=
      (if ci && !(List.range (i + 1)).any head then [lane (s.oldest x.c.toNat) 32 0] else []) ++
      ((List.range (i + 1)).filter (fun k => on k && !((List.range (i - k)).any (fun j => head (k + 1 + j))))).map
        (lane (s.oldest q.a.toNat) 32)
    let fits (z : Int) : Res :=
      if -2 ^ 31 ≤ z ∧ z < 2 ^ 31 then { code := (z % 2 ^ 32).toNat }
      else if x.ovf = 3 then { code := 0, trap := true }
      else { code := if z < 0 then 2 ^ 31 else 2 ^ 31 - 1, flags := if x.ovf = 0 then fOF ||| fNX else fNV ||| fOF ||| fNX }
    let scans (j : Instr) (free : Nat) (y : Nat → Res) : Prop :=
      ((∀ i, i < 128 → on i = true → (y i).trap = false) →
        ∃ (r : BitVec 4096) (fl : BitVec 5), exec j s =
            .next (s.vIssues dp 2 srcs [q.d.toNat] { outs := [r], flags := fl, g := (s.eng w).g, free := free }) ∧
          (∀ i, i < 128 → lane r 32 i = if on i then (y i).code % 2 ^ 32 else 0) ∧
          (∀ b, b < 5 → (fl.getLsbD b = true ↔ ∃ i, i < 128 ∧ on i = true ∧ (y i).flags.getLsbD b = true))) ∧
      (∀ i, i < 128 → on i = true → (y i).trap = true → (∀ j, j < i → on j = true → (y j).trap = false) →
        exec j s = .next (s.takeFault w { code := .fpTrap, info := BitVec.ofNat 64 i }))
    scans (.vscanF32 dp q x hm ci) 16640 (fun i => fpSum (numFmt 0) x.rnd.toNat (s.fresh + 130 * i) (terms i)) ∧
    scans (.vscanI32 dp q x hm ci) 0 (fun i => fits ((terms i).map int).sum))

/-- R418, R421, R424, R425: VBCAST, VLANEI, VPERM and VPEEKS move lanes and scalars; a lane index past the entry faults BOUNDS. R409,
R410, R412, R422: VCVT, VCBX, VPACK and VUNPACK change the width of their elements. R111 to R116, R410: the elements that VCVT leaves
where no rounding draws and no TRAP policy stops: the conversion of each enabled one to the destination format, zeros in the others, and
the flags of the enabled ones. -/
def Obligations.VectorData : Prop :=
  (∀ (s : State) (dp : Dep) (d : BitVec 5) (t : BitVec 3) (a b : BitVec 6) (wd : BitVec 2) (q : Q1) (p : Q2) (mode : BitVec 3)
    (part k : Bool) (ln : BitVec 9), s.ready dp (some .v) 0 2 = true →
    let w := s.turn
    let u := wdBits wd
    let n := 4096 / u
    let x := s.sval w dp a
    let puts (srcs : List Src) (d : BitVec 5) (t : BitVec 3) (j : Instr) (f : Nat → Nat) : Prop :=
      ∃ r : BitVec 4096, exec j s = .next (s.vIssues dp 2 srcs [d.toNat] { outs := [r], g := (s.eng w).g }) ∧
        ∀ i, i < n → lane r u i = if enabled (s.guard w t) (u / 8) i then f i % 2 ^ u else 0
    let twoQ : Bool := mode = 0 || mode = 5 || mode = 6
    let srcs : List Src := if twoQ then srcs2 p else [⟨p.a.toNat, p.ka⟩]
    let bit (j : Nat) : Nat := if part then j else 0
    (s.settled [a] = true → s.flows [] [d.toNat] [t] = true → puts [] d t (.vbcast dp d t a wd) (fun _ => x.toNat)) ∧
    (s.settled [a, b] = true → s.flows [] [d.toNat] [t] = true →
      puts [] d t (.vlanei dp d t a wd b) (fun i => (x + BitVec.ofNat 64 i * s.sval w dp b).toNat)) ∧
    (s.settled [a] = true → s.flows (srcs1 q) [q.d.toNat] [q.t] = true →
      (x.toNat < n → puts (srcs1 q) q.d q.t (.vbcastLane dp q a wd) (fun _ => lane (s.oldest q.a.toNat) u x.toNat)) ∧
      (n ≤ x.toNat → exec (.vbcastLane dp q a wd) s = .next (s.takeFault w { code := .bounds, info := x }))) ∧
    ((mode = 1 ∨ mode = 2 → s.settled [a] = true) → s.flows srcs [p.d.toNat] [p.t] = true → mode.toNat < 7 →
      ∃ src : Nat → Nat, puts srcs p.d p.t (.vperm dp p mode wd a part)
          (fun i => lane (s.oldest (if mode = 5 ∧ i % 2 = 1 ∨ mode = 6 ∧ n / 2 ≤ i then p.b.toNat else p.a.toNat)) u (src i)) ∧
        ∀ i, i < n →
          (mode = 0 → src i = lane (s.oldest p.b.toNat) u i % n) ∧ (mode = 1 → src i = Nat.xor i (x.toNat % n)) ∧
          (mode = 2 → src i = (i + x.toNat) % n) ∧
          (mode = 3 → src i < n ∧ ∀ j, j < Nat.log2 n → (src i).testBit j = i.testBit (Nat.log2 n - 1 - j)) ∧
          -- the base-4 digits reversed; an odd number of bits leaves the top one in place
          (mode = 4 → src i < n ∧ ∀ j, j < Nat.log2 n → (src i).testBit j =
            let m := Nat.log2 n / 2
            i.testBit (if j < 2 * m then 2 * (m - 1 - j / 2) + j % 2 else j)) ∧
          (mode = 5 → src i = i / 2 + bit (n / 2)) ∧ (mode = 6 → src i = 2 * (i % (n / 2)) + bit 1)) ∧
    (s.flows [⟨p.a.toNat, k⟩] [] [] = true →
      exec (.vpeeks dp p.a k a wd ln) s = .next (s.vIssues dp 2 [⟨p.a.toNat, k⟩] []
        { dst := some (a.toNat, BitVec.ofNat 64 (lane (s.oldest p.a.toNat) u ln.toNat)), g := (s.eng w).g }))) ∧
  (∀ (s : State) (dp : Dep) (q : Q1) (x : CvtArgs) (kb wid part : BitVec 3) (five : BitVec 5) (sx : Bool),
    s.flows (srcs1 q) [q.d.toNat] [q.t] = true →
    let w := s.turn
    let g := s.guard w q.t
    let a := s.oldest q.a.toNat
    let u := wid.toNat + 1
    let first := 512 * part.toNat
    let field (n i : Nat) : Nat := (a.toNat >>> (n * i)) % 2 ^ n
    let puts (j : Instr) (r : BitVec 4096) (bank : Option Nat) : Prop :=
      exec j s = .next (s.vIssues dp 2 (srcs1 q) [q.d.toNat] { outs := [r], g := (s.eng w).g, bank := bank })
    (s.ready dp (some .v) 0 2 = true →
      (exec (.vcvt dp q x) s = match cvtRes x g (s.eng w).g a with
        | .ok r => .next (s.vIssues dp 2 (srcs1 q) [q.d.toNat] r)
        | .error y => .next (s.takeFault w y)) ∧
      (x.ovf ≠ 3 → ∃ r, cvtRes x g (s.eng w).g a = .ok r) ∧
      (u * (first + 512) ≤ 4096 → ∃ r : BitVec 4096, puts (.vpack dp q wid part) r none ∧ ∀ k, k < 4096 → r.getLsbD k =
        (decide (first ≤ k / u ∧ k / u < first + 512) && enabled g 1 (k / u - first) && (field 8 (k / u - first)).testBit (k % u))) ∧
      (u * (first + 512) ≤ 4096 → ∃ r : BitVec 4096, puts (.vunpack dp q wid part sx) r none ∧ ∀ i, i < 512 →
        let y := field u (first + i)
        lane r 8 i = if enabled g 1 i then (if sx ∧ 2 ^ (u - 1) ≤ y then y + (256 - 2 ^ u) else y) else 0)) ∧
    (s.ready dp (some .v) 1 2 = true → ∀ t, s.task w = some t → t.hasK w.ctx kb.toNat = true →
      let b := (s.core w.core).bank kb.toNat
      let index (i : Nat) : Nat := field u (128 * five.toNat + i)
      b.st = .ready → (∀ i, i < 128 → enabled g 4 i = true → index i < b.count) →
      ∃ r : BitVec 4096, puts (.vcbx dp q kb wid five) r (some kb.toNat) ∧
        ∀ i, i < 128 → lane r 32 i = if enabled g 4 i then b.entry (index i) else 0)) ∧
  (∀ (x : CvtArgs) (g : BitVec 512) (h : BitVec 64) (a : BitVec 4096), x.rnd ≠ 4 → x.ovf ≠ 3 →
    let S := numFmt x.sfmt.toNat
    let D := numFmt x.dfmt.toNat
    let es := cvtWidth x.sfmt
    let ed := cvtWidth x.dfmt
    let m := max es ed
    let n := 4096 / m
    let skip (c : Bool) : Nat := if c then x.part.toNat * n else 0
    let y (i : Nat) : Res := convert S D x.rnd.toNat x.ovf.toNat 0 ((a.toNat >>> (S.w * (skip (es < ed) + i))) % 2 ^ S.w)
    (skip (ed < es) + n) * D.w ≤ 4096 →
    ∃ (r : VRes) (e : BitVec 4096), cvtRes x g h a = .ok r ∧ r.outs = [e] ∧ r.g = h ∧ r.free = 0 ∧ r.mask = none ∧ r.dst = none ∧
      (∀ i, i < n → (e.toNat >>> (D.w * (skip (ed < es) + i))) % 2 ^ D.w = if g.getLsbD (i * m / 8) then 0 else (y i).code % 2 ^ D.w) ∧
      (∀ b, b < 5 → (r.flags.getLsbD b = true ↔ ∃ i, i < n ∧ g.getLsbD (i * m / 8) = false ∧ (y i).flags.getLsbD b = true)))

/-- R426: VMERGE3 issues with the merge of its two states; lane 0 of the result is the larger maximum, or the canonical NaN where a
maximum is a NaN or +∞, and then so is every enabled lane; where the larger maximum is -∞ every other lane is +0; else, without stochastic
rounding, lane 1 and every enabled lane is the sum of the two scaled lanes, rounded once. -/
def Obligations.SoftmaxMerge : Prop :=
  ∀ (s : State) (dp : Dep) (q : Q2) (rnd : BitVec 3), s.ready dp (some .v) 0 2 = true → s.flows (srcs2 q) [q.d.toNat] [q.t] = true →
    let w := s.turn
    let a := s.oldest q.a.toNat
    let b := s.oldest q.b.toNat
    let F := numFmt 0
    let ma := decodeVal F (lane a 32 0)
    let mb := decodeVal F (lane b 32 0)
    let bad := ma.isNan || mb.isNan || ma == .inf false || mb == .inf false
    let m := if ma.lt mb then mb else ma
    -- VEXP2 of the difference, each rounded to nearest
    let scale (x : Val) : Val := decodeVal F (fnLane 2 0 0 0 (roundArith F 0 0 (addVal 0 x m.neg).1).code).code
    let r := mergeRes rnd.toNat (s.guard w q.t) (s.eng w).g a b
    exec (.vmerge3 dp q rnd) s = .next (s.vIssues dp 2 (srcs2 q) [q.d.toNat] r) ∧
    ∃ e, r.outs = [e] ∧ lane e 32 0 = (if bad then nanCode F else if ma.lt mb then lane b 32 0 else lane a 32 0) ∧
      (∀ i, 2 ≤ i → i < 128 → enabled (s.guard w q.t) 4 i = false → lane e 32 i = 0) ∧
      (∀ i, 1 ≤ i → i < 128 → (i = 1 ∨ enabled (s.guard w q.t) 4 i = true) →
        (bad = true → lane e 32 i = nanCode F) ∧
        (bad = false → m = .inf true → lane e 32 i = 0) ∧
        (bad = false → m ≠ .inf true → rnd ≠ 4 → lane e 32 i = (mergeLane rnd.toNat 0 (scale ma) (scale mb) (lane a 32 i) (lane b 32 i)).code % 2 ^ 32))

/-- R96 to R108, R116: rounding a value of a floating-point format to that format gives its encoding, in every mode, and sets no flag. -/
def Obligations.ExactRounding : Prop :=
  ∀ (f mode q x : Nat) (neg : Bool) (n d : Nat), f < 8 → q < 2 ^ 16 → x < 2 ^ (numFmt f).w → decodeVal (numFmt f) x = .fin neg n d →
    roundArith (numFmt f) mode q (.fin neg n d) = { code := x } ∧ ∀ ovf, roundConv (numFmt f) mode ovf q (.fin neg n d) = { code := x }

/-! ### Completions of what engines issued -/

/-- R141, R401, R402: a V operation whose task runs, behind none of its engine's that writes the same mask or scalar, writes its entries,
its mask, its scalar and its flags, and ends with its signals. R201, R324, R360, R383, R385, R388, R390: the array completes its MMAs in
issue order, each with its cells and its flags; an ALOAD writes its cells; a lent tile that has been given back takes none; an ADRAIN
writes its tiles, which become READY with their tags unless TSET has detached them; an ADRQ writes its entries one by one, a push into a
channel queue once the engine's earlier accesses are performed. R140, R141: an operation that ends leaves the operations in flight, and
puts its signals while its task runs; every other part of the machine stays. R56, R183, R250, R298, R303: a request done at its home
writes its destination scalar, or loads its handle register, whose binding is released first; a bank command in slices, in the streamer's
order, serves its next matrix, and the last one ends it; one on a replicated object locks every copy first, and the commit serves it there
too. -/
def Obligations.EngineResults : Prop :=
  (∀ (s : State) (o : Op) (ps : List (Nat × BitVec 4096)) (m : Option (Nat × BitVec 512)) (d : Option (Nat × BitVec 64)) (fl : BitVec 5)
    (b : Option Nat) (z : Undo), s.op? o.id = some o → o.kind = .vres ps m d fl b z → s.alive o = true →
    (∀ x ∈ s.ops.takeWhile (fun x => x.id ≠ o.id), x.who = o.who → x.tid = o.tid → ∀ ps' m' d' fl' b' z', x.kind = .vres ps' m' d' fl' b' z' →
      (∀ i, m'.map Prod.fst = some i → m.map Prod.fst ≠ some i) ∧ (∀ r, d'.map Prod.fst = some r → d.map Prod.fst ≠ some r)) →
    (∀ i v, m = some (i, v) → i < 8) → (∀ r v, d = some (r, v) → r < 64) →
    ∃ u : State, exec (.vResultWrite o.id) s = .next (u.finish o) ∧ u.mem = s.mem ∧ u.ops = s.ops ∧
      (∀ r, d.map Prod.fst ≠ some r.toNat → u.sreg o.who r = s.sreg o.who r) ∧ (∀ r v, d = some (r, v) → u.sreg o.who (BitVec.ofNat 6 r) = v) ∧
      (∀ i : Fin 8, (u.ctx o.who).g[i] = match m with | some (k, v) => if k = i.val then v else (s.ctx o.who).g[i] | none => (s.ctx o.who).g[i]) ∧
      (u.eng o.who).flags = (s.eng o.who).flags ||| fl ∧
      (∀ q, (u.core o.who.core).queue q =
        (ps.filter (fun p => p.1 % 32 == q % 32)).foldl (fun l p => fillSlot o.id (.entry p.2) l) ((s.core o.who.core).queue q))) ∧
  (∀ (s : State) (o : Op), s.op? o.id = some o → s.alive o = true →
    let k := o.who.core
    let sets (a : Nat) (cells : BitVec 131072) : State :=
      if o.who.ctx = true ∨ a < 12 ∨ ((s.core k).acc a).lent = true then s.modCore k (fun c => c.setAcc a { c.acc a with cells := cells }) else s
    (∀ a cells rs bs fl st, o.kind = .mma a cells rs bs fl st →
      (∀ x ∈ s.ops.takeWhile (fun x => x.id ≠ o.id), x.who.core = k → ∀ a' cells' rs' bs' fl' st', x.kind ≠ .mma a' cells' rs' bs' fl' st') →
      exec (.mmaCompletion o.id) s = .next (((sets a cells).opFlags o fl).finish o)) ∧
    (∀ a cells t, o.kind = .aload a cells t → exec (.aloadCompletion o.id) s = .next ((sets a cells).finish o)) ∧
    (∀ a ws fl un, o.kind = .drain a ws fl un →
      exec (.drainCompletion o.id) s = .next (((ws.foldl (fun u x => u.landDrain o x) s).opFlags o fl).finish o)) ∧
    (∀ (u : State) (x : DrainWrite), ((u.core k).tile x.tile).epoch = x.epoch →
      u.landDrain o x = (u.putTile k x.off x.swz x.at_ x.bytes).modCore k
        (fun c => c.setTile x.tile { c.tile x.tile with st := .ready, tag := x.tag })) ∧
    (∀ (u : State) (x : DrainWrite), ((u.core k).tile x.tile).epoch ≠ x.epoch →
      ∀ t, ((u.landDrain o x).core k).tile t = (u.core k).tile t) ∧
    (∀ a q e es fl un, o.kind = .adrq a q (e :: es) fl un →
      let u := s.modCore k (fun c => c.setQueue q (fillSlot o.id (.entry e) (c.queue q)))
      exec (.adrqEntryWrite o.id) s = .next (if s.drainWaits o q then s
        else if es = [] then (u.opFlags o fl).finish o else u.putOp { o with kind := .adrq a q es fl un })) ∧
    (∀ a q fl un, o.kind = .adrq a q [] fl un → exec (.adrqEntryWrite o.id) s = .next ((s.opFlags o fl).finish o))) ∧
  (∀ (s : State) (o : Op),
    let u := s.finish o
    (∀ x, x ∈ u.ops ↔ x ∈ s.ops ∧ x.id ≠ o.id) ∧ u.mem = s.mem ∧ u.objs = s.objs ∧ u.meres = s.meres ∧ u.parts = s.parts ∧
    (∀ k, k ≠ o.who.core → u.core k = s.core k) ∧ (u.core o.who.core).shared = (s.core o.who.core).shared ∧
    (u.ctx o.who).s = (s.ctx o.who).s ∧ (u.ctx o.who).h = (s.ctx o.who).h ∧
    (o.sp = false → o.sn = false → u.ctx o.who = s.ctx o.who) ∧
    (s.alive o = true → o.sp = true → o.sn = false → (s.ctx o.who).tokS o.who.eng.pred < 15 →
      (u.ctx o.who).tokS o.who.eng.pred = (s.ctx o.who).tokS o.who.eng.pred + 1) ∧
    (s.alive o = true → o.sp = false → o.sn = true → (s.ctx o.who).tokP o.who.eng.succ < 15 →
      (u.ctx o.who).tokP o.who.eng.succ = (s.ctx o.who).tokP o.who.eng.succ + 1)) ∧
  (∀ (s : State) (o : Op), s.op? o.id = some o → o.left = 0 →
    (s.alive o = true →
      (o.kind = .home none none → exec (.homeRequestCompletion o.id) s = .next (s.finish o)) ∧
      (∀ r v, o.kind = .home (some (r, v)) none →
        exec (.homeRequestCompletion o.id) s = .next ((s.setS o.who (BitVec.ofNat 6 r) v).finish o)) ∧
      (∀ r v, o.kind = .home none (some (r, v)) →
        exec (.homeRequestCompletion o.id) s =
          .next (((s.releaseHReg (s.hreg o.who (BitVec.ofNat 5 r))).setH o.who (BitVec.ofNat 5 r) v).finish o))) ∧
    (s.alive o = false → ∀ d h, o.kind = .home d h → exec (.homeRequestCompletion o.id) s = .next (s.finish o)) ∧
    (∀ cmd a rest t h, o.kind = .bank cmd (a :: rest) t h →
      (s.streamFrozen o = false → s.heldBack o = false → s.bankOrder o = false → s.unresolved o.who o.tid (fun x => decide (x.id < o.id)) = false →
        (s.bankObj h = none → (t.isSome = true → s.alive o = true → s.badMatrix cmd.toNat a = false) → exec (.bankCommandServed o.id) s =
          .next ((if t.isSome && !s.alive o then s else bankCommand s cmd.toNat a).bankNext o cmd rest t h)) ∧
        (∀ i, s.bankObj h = none → t = some (i, ((s.core o.who.core).tile i).epoch) → s.alive o = true → s.badMatrix cmd.toNat a = true → i < 64 →
          let r := o.poisonRec { code := .eccUncorr } .tile i false
          ∃ u : State, exec (.bankCommandServed o.id) s = .next ((u.emit (mereOf o.who.core) r).finish o) ∧ u.mem = s.mem ∧
            (u.core o.who.core).tile i = { (s.core o.who.core).tile i with st := .poisoned, fault := some r, replay := none }) ∧
        (∀ x, s.bankObj h = some x → x.locks = [] → exec (.bankCommandServed o.id) s =
          if x.e.repn ≠ 0 ∧ x.e.shmode = 0 then
            .next (s.modObj x.home x.num (fun x => { x with locks := (x.home :: x.e.replicas).eraseDups.map (fun q => (q, o.id)) }))
          else .next ((s.bankServe cmd.toNat a h []).bankNext o cmd rest t h))) ∧
      (∀ x, s.bankObj h = some x → s.lockedBy x.home x.num o.id ≠ [] → (∀ q ∈ s.lockedBy x.home x.num o.id, s.away q = false) →
        exec (.replicatedCommit o.id) s =
          .next (((s.bankServe cmd.toNat a h ((s.lockedBy x.home x.num o.id).filter (fun q => q != x.home))).unlock x.home x.num o.id).bankNext
            o cmd rest t h))) ∧
    (∀ (u : State) (cmd : BitVec 4) (rest : List Nat) (t : Option (Nat × Nat)) (h : BitVec 64),
      (rest ≠ [] → u.bankNext o cmd rest t h = u.putOp { o with kind := .bank cmd rest t h }) ∧
      u.bankNext o cmd [] none h = u.finish o ∧
      (∀ i, u.alive o = true → u.bankNext o cmd [] (some (i, ((u.core o.who.core).tile i).epoch)) h =
        (u.modCore o.who.core (fun c => c.setTile i { c.tile i with st := .ready })).finish o)))

/-! ### Copies -/

/-- R68, R193, R194, R205, R206, R301, R316, R322, R354: a copy resolves behind its engine's earlier requests at its home with the
mapping, the size and the granules of the view it finds there, or its access faults and poisons its destination, a tile with what the copy
could still reach; a store without acknowledgement whose home cannot be reached leaves its tile all the same. One that rewrites a block
descriptor resolves behind a marker. A copy whose resolution would lie outside populated memory stops the machine (the model's choice, log
entry 111); one of a frozen streamer waits. R201, R298, R311 to R314, R316, R319, R340, R362, R438, R443, R477: a copy that may move
lands: a tile holds the gathered box over what it held and is READY with the copy's tag; the pending entries of a queue are written, those
of a replay with its descriptor; a bank is READY with its entries. A word in error marks the object and poisons the copy; a home or a
shard that can no longer be reached poisons it. The bytes of a queue entry between a row and its pitch are unspecified (log entry 38), the
bytes of a tile where the rows of a transposed copy overlap are free values (log entry 42), and the stores that a PUB finds on their way
are log entry 41's. R311, R312, R313, R314, R320: where a copy puts the elements and scales of its box, and what it puts there. Each
element lies at the bit of its layout, plain, transposed or re-blocked, and the scale of each scale block in the region behind the
elements; a position inside the extents, and inside its row of a ragged copy, gets the bits of the object's element there, and a scale
block whose first element lies inside them the block's scale; elsewhere a padded copy writes the pad value, but past a sequence's slots,
and another leaves what was there. -/
def Obligations.CopyProgress : Prop :=
  (∀ (s : State) (o : Op) (c : CopyOp), s.op? o.id = some o → o.kind = .copy c → c.res = none →
    let z := if s.privatizes o.part o.tid c.req then s.settle (fun x => !x.behind o) else s
    let goes (u : State) (r : Resolved) (n : Nat) : Result :=
      let d := { c with res := some r, total := n }
      .next (u.putOp { o with left := if o.left = 0 then 0 else ceilDiv n 64, kind := .copy d })
    exec (.copyResolution o.id) s =
      if s.unresolved o.who o.tid (fun x => decide (x.id < o.id)) || s.streamFrozen o then .next s
      else if z.streamFrozen o then .next z
      else match z.resolveCopy o.part o.tid c.req c.size with
        | .ok (u, r) => (match u.hole c.req r with
          | some a => .fault (.unpopulated a)
          | none => goes u r (c.req.geo r.e).total)
        | .error t =>
          if c.req.kind.ff ∧ t = trapAway c.req.hreg.h then goes z c.req.nowhere c.total
          else .next ((if c.req.kind.stores = false ∧ c.req.kind.cls = .tile ∧ z.detached o c = false ∧ t.freeze = false then z.partialNamed o c
            else z).poisonCopy o c t)) ∧
  (∀ (s : State) (o : Op) (c : CopyOp) (r : Resolved) (q : Nat) (l : Layout) (ms : List (Nat × Layout)),
    s.op? o.id = some o → o.kind = .copy c → c.res = some r → r.maps = (q, l) :: ms → c.req.kind.stores = false →
    let k := o.who.core
    let ws := (c.req.place r.e).gather s q l (fun _ => true)
    let t : Tile := { off := c.off, size := c.size, swz := c.swz }
    let g := c.req.geo r.e
    let n := g.reach c.size
    let y := s.lapFree g (leBytes n (overlay (leNat (s.tileBytes k t 0 n)) ws))
    let js := match c.req.chunk with | some j => [j] | none => List.range (ceilDiv c.total 512)
    let put (j : Nat) : QSlot :=
      if c.again then
        .refilled (BitVec.ofNat 4096 (overlay 0 ws >>> (4096 * j))) { c.req with chunk := some j }
      else .entry (BitVec.ofNat 4096 (overlay 0 ws >>> (4096 * j)))
    let end_ : Instr := if c.req.kind.bank then .cbfillCompletion o.id else .copyInCompletion o.id
    (s.lost r = true → exec end_ s =
      .next ((if c.req.kind.cls = .tile ∧ s.detached o c = false then s.partialAt o c r else s).poisonCopy o c (trapAway c.req.hreg.h))) ∧
    (s.lost r = false → s.mayMove o c = true → s.pushWaits o c = false →
      (∀ a, s.badIn (s.touched c.req r) = some a → exec end_ s =
        .next (((if c.req.kind.cls = .tile ∧ s.detached o c = false then s.partialAt o c r else s).setErr r.home r.num r.e.gen).poisonCopy o c
          { code := .eccUncorr, handle := c.req.hreg.h, paddr := BitVec.ofNat 48 a })) ∧
      (s.badIn (s.touched c.req r) = none → s.detached o c = false →
        (c.req.kind.cls = .tile → exec end_ s = .next
          (((y.1.putTile k c.off c.swz 0 y.2).modCore k
            (fun x => x.setTile c.unit { x.tile c.unit with st := .ready, tag := some (c.req.kind.tag r.e) })).finish o)) ∧
        (g.lap = [] → n = c.total → y = (s, leBytes c.total (overlay (leNat (s.tileBytes k t 0 c.total)) ws))) ∧
        (∀ i, (∀ m ∈ g.lap, i < m.1 ∨ m.2 ≤ i) → y.2[i]? = (leBytes n (overlay (leNat (s.tileBytes k t 0 n)) ws))[i]?) ∧
        (c.req.kind.cls = .queue → (c.req.geo r.e).p = (c.req.geo r.e).n → exec end_ s = .next
          (({ s with fresh := s.fresh + c.total }.modCore k (fun x => x.setQueue c.unit (js.foldl
            (fun y j => fillSlot o.id (put j) y) (x.queue c.unit)))).finish o)) ∧
        (∀ f, c.req.kind = .cbfill f → exec end_ s = .next
          ((s.modCore k (fun x => x.setBank c.unit { x.bank c.unit with
            bits := BitVec.ofNat 8192 (overlay 0 ws), st := .ready, fmt := f, count := c.total / 4, pending := none })).finish o))))) ∧
  ((∀ (p : Place) (s : State) (q : Nat) (l : Layout) (old : Nat),
    let g := p.g
    let e := g.e
    let b := shBox g.x
    let w := e.w
    let n := (if g.lay = .tr then b 1 else b 0) * w / 8
    let pitch := if g.nat || shPitch g.x == 0 then n else shPitch g.x
    let r := 2 ^ shRbr g.x
    let c := 2 ^ shRbc g.x
    (if g.lay = .tr then b 1 else b 0) * w % 8 = 0 → n ≤ pitch → (g.lay = .rb → pitch = n ∧ b 1 % r = 0 ∧ b 0 % c = 0) →
    let pad := if p.rows.isSome && shPad g.x == 0 then 1 else shPad g.x
    let box := overlay old (p.gather s q l (fun _ => true))
    let at_ (e0 e1 e2 e3 : Nat) : Nat × Nat × Nat × Nat :=
      (p.ix.getD 0 0 + shStep g.x * e0,
        match p.rows with | some rs => ((rs.getD e1 0).extractLsb' 0 32).toNat | none => p.ix.getD 1 0 + e1,
        p.ix.getD 2 0 + e2, p.ix.getD 3 0 + e3)
    (∀ e0 e1 e2 e3, e0 < b 0 → e1 < b 1 → e2 < b 2 → e3 < b 3 →
      let plane := e2 + b 2 * e3
      let bit := match g.lay with
        | .plain => 8 * pitch * (e1 + b 1 * plane) + w * e0
        | .tr => 8 * pitch * (e0 + b 0 * plane) + w * e1
        | .rb => w * (plane * (b 0 * b 1) + (e1 / r * (b 0 / c) + e0 / c) * (r * c) + e1 % r * c + e0 % c)
      let i := at_ e0 e1 e2 e3
      let inside := e.has i = true ∧ ∀ rs, p.rows = some rs → e0 < ((rs.getD e1 0).extractLsb' 32 16).toNat
      (inside → (box >>> bit) % 2 ^ w = readBits s q e l (e.spot i) w) ∧
      let past := e.typ = .sequence ∧ e.capacity ≤ (match e.rank.toNat with | 0 => i.1 | 1 => i.2.1 | 2 => i.2.2.1 | _ => i.2.2.2) ∧
        ∀ rs, p.rows = some rs → e0 < ((rs.getD e1 0).extractLsb' 32 16).toNat
      (¬ inside → past → (box >>> bit) % 2 ^ w = (old >>> bit) % 2 ^ w) ∧
      (¬ inside → ¬ past → (box >>> bit) % 2 ^ w = if pad = 0 then (old >>> bit) % 2 ^ w else padElem e.fmt pad % 2 ^ w)) ∧
    (e.scfmt ≠ 0 → ∀ k0 k1 k2 k3,
      let m (d : Nat) := ceilDiv (b d) (e.scb d)
      let elems := pitch * (if g.lay = .tr then b 0 else b 1) * b 2 * b 3
      let sb := scBytes e.scfmt
      k0 < m 0 → k1 < m 1 → k2 < m 2 → k3 < m 3 →
      let k := if g.lay = .tr then k1 + m 1 * (k0 + m 0 * (k2 + m 2 * k3)) else k0 + m 0 * (k1 + m 1 * (k2 + m 2 * k3))
      let bit := 8 * (ceilDiv elems 64 * 64 + k * sb)
      let i := at_ (k0 * e.scb 0) (k1 * e.scb 1) k2 k3
      (box >>> bit) % 2 ^ (8 * sb) =
        if e.has i then readBits s q e l (e.sspot i) (8 * sb)
        else if pad = 0 then (old >>> bit) % 2 ^ (8 * sb) else if e.scfmt = 1 then 0x7F else 0x7F0000)) ∧
  (∀ f, padElem f 1 = 0) ∧
  [padElem 0 2, padElem 1 2, padElem 2 2, padElem 3 2, padElem 4 2, padElem 5 2, padElem 6 2, padElem 7 2, padElem 8 2, padElem 9 2, padElem 10 2,
    padElem 16 2] = [0xFF800000, 0xFC00, 0xFF80, 0xFE, 0xFC, 0x3F, 0x3F, 0xF, 0x80000000, 0x80, 0x8, 0])

/-- R52, R56, R57, R148, R211, R216, R317, R321, R349, R443, R477: a copy out that may move stores its box at its home and makes its tile
READY; one whose home or whose shard can no longer be reached poisons its tile, and so does a word of it that has gone bad; one without
acknowledgement leaves its tile and stores later, the bytes that its tile held as it left (what STORE_ACK stores is the model's choice,
log entry 33), or fails, which marks the object and fails the node, with a record whose MASTER is log entry 34 and whose HANDLE and unit
fields are log entry 55's choice; one to a replicated object locks every copy first, and the commit stores and unlocks. R53, R54, R59: the
pieces that a copy stores, whose version no PUB has published since it resolved, and nothing else: memory outside the bytes that the spots
of its box map to keeps its contents, at every package it stores to. R57, R205, R208, R211: two resolved reductions of the same elements
of one object, of sound tiles and with no sum that overflows, merge: the first carries the sums, the second stores nothing more, and where
the first fails the second goes on by itself; and a package that holds a lock and does not answer leaves, behind a marker in every queue,
the replica list, its maps and its locks, an update goes on without it, a read that had resolved there reads elsewhere, and the service
pair is told (the record's MASTER is log entry 34, its CORE log entry 71). R301, R302: a round of a streamer begins at the requester after
the one that opened the last, and grants each requester at most the weight of its oldest waiting operation; a frozen streamer grants
nothing. That the opening place moves on at every round, also at an empty one, is the model's choice: log entry 137. -/
def Obligations.Stores : Prop :=
  (∀ (s : State) (o : Op) (c : CopyOp) (r : Resolved), s.op? o.id = some o → c.res = some r →
    let k := o.who.core
    let lands (u : State) : State := u.tileDrained o c
    let unlocks (u : State) : State := u.modObj r.home r.num (fun x => { x with locks := x.locks.filter (fun k => k.2 != o.id) })
    let locks (u : State) : State := u.modObj r.home r.num (fun x => { x with locks := x.locks ++ r.maps.map (fun m => (m.1, o.id)) })
    (o.kind = .copy c → c.req.kind.stores = true → s.lost r = true → c.req.kind.ff = false →
      exec (.copyOutCompletion o.id) s = .next (s.poisonCopy o c (trapAway c.req.hreg.h))) ∧
    (o.kind = .copy c → c.req.kind.stores = true → s.mayMove o c = true → (s.lost r = false ∨ c.req.kind.ff = true) →
      exec (.copyOutCompletion o.id) s =
        if c.mergedInto.isSome then .next ((lands s).finish o)
        else if c.spoilt s k then .next (s.poisonCopy o c { code := .eccUncorr })
        else if c.req.kind.ff then
          .next (((lands s).finish o).addOp { o with sp := false, sn := false, kind := .store { c with data := c.bytes s k } })
        else if 1 < r.maps.length then
          .next ((locks s).putOp { o with kind := .repl { c with data := c.bytes s k } (r.maps.map (fun m => m.1)) })
        else .next ((lands (storeCopy s k c r)).finish o)) ∧
    (∀ pkgs, o.kind = .repl c pkgs → s.away r.home = false → (∀ q ∈ pkgs, s.away q = false) →
      exec (.replicatedCommit o.id) s =
        .next ((lands (unlocks (storeCopy s k c { r with maps := r.maps.filter (fun m => pkgs.contains m.1) }))).finish o)) ∧
    (o.kind = .store c → s.lockedBy r.home r.num o.id ≠ [] → (∀ q ∈ s.lockedBy r.home r.num o.id, s.away q = false) →
      exec (.replicatedCommit o.id) s =
        .next ((unlocks (storeCopy s k c { r with maps := r.maps.filter (fun m => (s.lockedBy r.home r.num o.id).contains m.1) })).dropOp o.id)) ∧
    (o.kind = .store c → s.storeFails c r = false → (∀ x, s.obj? r.home r.num = some x → x.locks = []) → s.bankOrder o = false →
      exec (.storeAck o.id) s = .next (if 1 < r.maps.length then locks s else (storeCopy s k c r).dropOp o.id)) ∧
    (o.kind = .store c → s.storeFails c r = true →
      let u := (unlocks ((s.unmerge o.id).dropOp o.id)).setErr r.home r.num r.e.gen
      exec (.storeFailure o.id) s = .next (if o.quiet then u
        else (u.emit (mereOf k)
          { o.poisonRec { code := .storeFailed, handle := c.req.hreg.h } .none 0 false with kind := .event }).failLaunch o.part o.launch true))) ∧
  (∀ (s : State) (k : Nat) (c : CopyOp) (r : Resolved) (a : Nat), s.published r = none →
    (∀ m ∈ r.maps, ∀ w ∈ (c.req.place r.e).scatter (leNat (c.bytes s k)), ∀ i, i < ceilDiv (w.1.bit % 8 + w.2.1) 8 →
      m.2.at s m.1 r.e (r.e.byteOff w.1 i) ≠ .ok a) →
    memByte (storeCopy s k c r).mem a = memByte s.mem a) ∧
  ((∀ (s : State) (a b : Op) (ca cb : CopyOp) (r : Resolved), s.op? a.id = some a → s.op? b.id = some b → a.id ≠ b.id → a.kind = .copy ca →
    b.kind = .copy cb → ca.res = some r → cb.res = some r → ca.req.kind.reduces = true → cb.req.kind.reduces = true →
    ca.mergedInto = none → cb.mergedInto = none → ca.req.shape = cb.req.shape → ca.req.idx = cb.req.idx → ca.req.rows = cb.req.rows →
    ca.req.kind = cb.req.kind → ca.spoilt s a.who.core = false → cb.spoilt s b.who.core = false →
    let p := ca.req.place r.e
    let x := leNat (ca.bytes s a.who.core)
    let terms := (p.scatter x).zip (p.scatter (leNat (cb.bytes s b.who.core)))
    (r.e.fmt = 8 ∨ ∀ t ∈ terms, ¬ ((decodeVal (numFmt 0) t.1.2.2).isFin = true ∧ (decodeVal (numFmt 0) t.2.2.2).isFin = true ∧
      (decodeVal (numFmt 0) (reduceOne false t.1.2.2 t.2.2.2)).isFin = false)) →
    let at_ := (p.g.positions.filter p.touches).map (fun t => p.g.bit t.1 t.2.1 t.2.2.1 t.2.2.2)
    let sums := (terms.zip at_).map (fun y => (y.2, 32, reduceOne (r.e.fmt == 8) y.1.1.2.2 y.1.2.2.2))
    exec (.reductionMerge a.id b.id) s =
      .next ((s.putOp { a with kind := .copy { ca with data := leBytes ca.total (overlay x sums) } }).putOp
        { b with kind := .copy { cb with mergedInto := some a.id } })) ∧
  (∀ (s : State) (id : Nat), ((s.unmerge id).ops.map (fun o => o.id) = s.ops.map (fun o => o.id)) ∧ (s.unmerge id).mem = s.mem ∧
    ∀ i : Nat, (s.unmerge id).ops[i]? = (s.ops[i]?).map (fun o => match o.kind with
      | .copy c => if c.mergedInto = some id then { o with kind := .copy { c with mergedInto := none } } else o
      | _ => o)) ∧
  (∀ (s : State) (hd : BitVec 64) (pkg : BitVec 10) (x : Obj), s.objOf? hd = some x → x.e.gen = hGen hd → pkg.toNat ≠ x.home →
    (∃ k ∈ x.locks, k.1 = pkg.toNat) →
    let m := s.settle (fun _ => true)
    ((∀ o ∈ s.ops, o.unresolved = false) → m = s) ∧
    ∀ z, m.obj? x.home x.num = some z →
    let n := s.homeMere x.e.part.toNat
    let told : FaultRec := { handle := x.handle, part := x.e.part.toNat, kind := .event, master := .service, code := .replicaDropped, core := n }
    ∃ (d : State) (y : Obj), exec (.replicaLockTimeout hd pkg) s = .next (d.emit n told) ∧
      d.mem = m.mem ∧ d.cores = m.cores ∧ d.obj? x.home x.num = some y ∧ y.e = z.e.dropReplica pkg ∧
      y.num = z.num ∧ (∀ k ∈ y.locks, k.1 ≠ pkg.toNat) ∧ (∀ m ∈ y.maps, m.1 ≠ pkg.toNat) ∧ d.ops = m.ops.map (fun o => o.redirect y pkg.toNat) ∧
      (∀ o ∈ d.ops, ∀ r u, o.kind = .update r u → r.home = x.home → r.num = x.num → r.e.gen = y.e.gen → ∀ m ∈ r.maps, m.1 ≠ pkg.toNat) ∧
      (∀ o ∈ d.ops, ∀ c r, o.kind = .copy c → c.req.kind.stores = false → c.res = some r → r.home = x.home → r.num = x.num →
        r.e.gen = y.e.gen → ∀ m ∈ r.maps, m.1 ≠ pkg.toNat))) ∧
  (∀ (s : State) (n : Nat),
    ((s.tarn n).frozen = true → exec (.streamerGrantRound n) s = .next s) ∧
    ((s.tarn n).frozen = false →
      ∃ u : State, exec (.streamerGrantRound n) s = .next u ∧ (u.tarn n).cursor = ((s.tarn n).cursor + 1) % 8 ∧
        (u.tarn n).rounds = (s.tarn n).rounds + 1 ∧ u.mem = s.mem ∧ u.cores = s.cores ∧ u.objs = s.objs ∧ u.ops.length = s.ops.length ∧
        ∀ i (a b : Op), s.ops[i]? = some a → u.ops[i]? = some b →
          b.left ≤ a.left ∧ { b with left := a.left, seq := a.seq } = a ∧ (a.pendingAt n = false → b = a) ∧
          ((∀ (j : Nat) (c : Op), j < i → s.ops[j]? = some c → c.pendingAt n = true → c.requester ≠ a.requester) → a.pendingAt n = true →
            b.left = a.left - a.swt)))

/-! ### Resolutions and the fault queue -/

/-- R435, R436, R437, R438, R457: a resolution word whose record the engine awaits, at its mere's port: RESUME and RETRY let the engine
issue the instruction afresh, RETRY after the replay that the record asks for; RESUME completes a TRAP; KILL ends the task, and DELIVER
ends it with a catch continuation. Any other word is counted and ignored. During a takeover every word waits; that it then acts whether or
not the leader serves the mere is the model's choice (log entry 70), and so is that RESUME completes a TRAP also on a frozen core (log
entry 74). R436, R440, R442: what the return from a fault does: the engine runs again at the same program counter with its watchdog count
at 0, and the rest of the machine stays; and a delivered fault enters the record's catch code with the code, the detail and the program
counter. R432: the service pair takes records out of a fault queue, oldest first; where no other writer waits, the engines whose
TOKEN_STALL waits for a place get it, in the order of R173 (the model's choice: log entry 132), and where none waits nothing else changes.
-/
def Obligations.FaultResolution : Prop :=
  (∀ (s : State) (r : ResWord) (f : FaultRec), (s.eng r.who).st = .awaiting f →
    let seen (n : Nat) : State := s.bbox r.mere
      { payload := BitVec.ofNat 64 n, etype := 0x0002, seqno := r.seqno, ctx := r.who.ctx, part := f.part, engine := r.who.eng, svc := true }
    let words : List (Nat × Instr) := [(0, Instr.resume r), (1, .retry r), (2, .kill r), (3, .deliver r)]
    (r.mere ∈ s.takeover → ∀ n j, (n, j) ∈ words → exec j s = .next s) ∧
    (r.mere ∉ s.takeover → f.seqno = r.seqno → mereOf r.who.core = r.mere →
      (f.code ≠ .swTrap → exec (.resume r) s = .next ((seen 0).reissue r.who)) ∧
      (f.code = .swTrap → exec (.resume r) s = .next (((seen 0).reissue r.who).after r.who
        ⟨f.word0.getLsbD 31, f.word0.getLsbD 30, f.word0.getLsbD 29, f.word0.getLsbD 28⟩ 1)) ∧
      exec (.retry r) s = .next (((seen 1).replayFor r.who f).reissue r.who) ∧
      exec (.kill r) s = .next ((seen 2).killTask r.who.core r.who.ctx true) ∧
      exec (.deliver r) s = .next ((seen 3).deliverTask r.who.core r.who.ctx f)) ∧
    (r.mere ∉ s.takeover → f.seqno ≠ r.seqno ∨ mereOf r.who.core ≠ r.mere → ∀ n j, (n, j) ∈ words →
      exec j s = .next (s.ignoreWord r.mere (wordOf r n))) ∧
    (∀ m (word : BitVec 64), 4 ≤ field word 34 32 →
      exec (.resolutionIgnored m word) s = .next (if m ∈ s.takeover then s else s.ignoreWord m word))) ∧
  ((∀ (s : State) (w : EngRef), let u := s.reissue w
    (u.eng w).st = .running ∧ (u.eng w).pc = (s.eng w).pc ∧ (u.eng w).wdog = 0 ∧ (u.eng w).arch = (s.eng w).arch ∧
    (u.eng w).loops = (s.eng w).loops ∧ Frame w s u ∧ u.meres = s.meres ∧ (u.ctx w).s = (s.ctx w).s ∧
    (u.ctx w).fromPred = (s.ctx w).fromPred ∧ (u.ctx w).fromSucc = (s.ctx w).fromSucc ∧ (u.ctx w).views = (s.ctx w).views) ∧
  (∀ (t : Task) (cid core : Nat) (ctx : Bool) (f : FaultRec) (pins : List PinRange),
    let c := catchCont t cid core ctx f.code f.engine f.info (f.pc.zeroExtend 64) pins
    c.pcs = [some (BitVec.ofNat 32 (recCatch t.record)), none, none, none] ∧ (6, f.info) ∈ c.s ∧ (7, f.pc.zeroExtend 64) ∈ c.s ∧
    (∃ v, (5, v) ∈ c.s ∧ v.truncate 16 = f.code.val ∧ v.extractLsb' 16 2 = BitVec.ofNat 2 f.engine.num ∧ v.getLsbD 18 = ctx) ∧
    c.task.catchRun = true ∧ c.tarn = tarnOf core ∧ c.ctx = ctx ∧ c.task.record = t.record)) ∧
  (∀ (s : State) (m n : Nat), s.waitingRecs = [] →
    let x := s.mere m
    let u := s.setMere m { x with queue := x.queue.drop n, cons := (x.cons + min n x.queue.length) % 1024 }
    exec (.consumerIndexAdvance m n) s = .next (u.expire s.engines) ∧
      ((∀ e ∈ s.engines, u.overdue e = none) → exec (.consumerIndexAdvance m n) s = .next u))

/-! ### The walker and the scheduler -/

/-- R156, R157, R467, R477: the walker of an accepted partition reads 64 bytes of the next committed record of the round robin and settles
it; a record whose code's home stays unreachable is reported and discarded; a package becomes unreachable and reachable. A launch queue
whose block is missing is passed over, a reported record counts as its queue's turn, and what a returning package brings on is the model's
choice: log entries 77, 78 and 114. R158, R160 to R164, R167, R169, R448: once the tasks that wait only for their requests have ended, the
scheduler hands out the first work of the highest level that has a free core; a waiting item ages by one level; a satisfied continuation
is enqueued; a pre-empting task starts once its core has frozen; a node whose launch has run out delivers its completions, or its
cancellations, and is FREE. That the context of a killed task is freed at the next TASK_DISPATCH is the model's choice (log entry 124).
R162, R164: the work that the scheduler picks has a free core, and no work of a higher level has one, nor any before it in the round robin
of its own level, where what was served last comes last. The core is one of the work's core set, or of its continuation's tarn. R141,
R143, R173, R202, R203: a held signal goes into its queue when there is room; an engine that stays stalled past its bound faults
TOKEN_STALL with the stall's detail, and so in the order C, L, M, V does every engine of its context that has passed its bound by then
(the order of contexts and of cores is the model's choice, log entry 132; what counts, what passes at WATCHDOG_EXPIRY and that a stalled
BARAW's arrival is withdrawn are its choice and readings, log entries 10, 11, 13 and 88); at a core's next position of the wheel the first
waiting access is chosen and stamped, and its engine's turn is next, a position that it takes when the access takes effect (log entry
115). -/
def Obligations.SchedulerMoves : Prop :=
  (∀ (s : State) (p : Nat) (x : Part), s.part? p = some x →
    (∀ i o l, i < 8 → x.flock = true → s.walks x = true → x.fromQueues < 4096 →
      let h := x.lqh.toList.getD i 0
      let slot := x.lqcur.toList.getD i 0
      (∀ j, j < (i + 8 - x.rr % 8) % 8 → s.launchSeq x ((x.rr + j) % 8) = none) →
      h ≠ 0 → s.objOf? h = some o → o.e.gen = hGen h → o.e.typ = .sequence → s.sound o = true → o.e.err = false → s.away o.home = false →
      slot.toNat < o.val → (∀ y ∈ x.held, y.1 ≠ i) → findMap o.maps o.home .current = some l →
      exec (.walkerReadRecord p) s = match readSpot s o.home o.e l ⟨0, slot.toNat * o.e.rowb, 0⟩ 64 with
        | .ok bs => .next (s.settleRec p i slot (BitVec.ofNat 512 (leNat bs)))
        | .error _ => .next s) ∧
    (∀ i slot r rest, x.held = (i, slot, r) :: rest → s.away (hHome (recCode r)) = true →
      exec (.walkerUnreachableTimeout p) s = .next ((s.modPart p (fun y =>
          if 8 ≤ i then { y with held := rest } else { y.advance i with held := rest, rr := y.rr })).refuseRec x r
        (if i = 8 then BitVec.allOnes 64 else BitVec.ofNat 64 slot) .missingObject (decide (recNode r = 0xFFFF ∨ (x.node (recNode r)).st = .free)) false)) ∧
    (∀ pkg : BitVec 10, ∃ u : State, exec (.homeUnreachable pkg) s = .next u ∧ pkg.toNat ∈ u.unreachable ∧
      { u with unreachable := s.unreachable } = s ∧ ∀ q, q ≠ pkg.toNat → (q ∈ u.unreachable ↔ q ∈ s.unreachable)) ∧
    (∀ pkg : BitVec 10, (∀ y ∈ s.parts, ∀ h ∈ y.held, hHome (recCode h.2.2) ≠ pkg.toNat) →
      exec (.homeReachable pkg) s = .next { s with unreachable := s.unreachable.filter (fun q => q != pkg.toNat) })) ∧
  (∀ (s : State) (p : Nat) (x : Part), s.part? p = some x →
    (s.walks x = true → exec (.taskDispatch p) s = .next (match (s.reap.part? p).bind s.reap.pickWork with
      | some (w, cs) => s.reap.handOut p w cs
      | none => s.reap)) ∧
    ((∀ c ∈ s.cores, c.2.c0.dying = none ∧ c.2.c1.dying = none) → s.reap = s) ∧
    (∀ k w, x.work[k]? = some w → w.age < 15 → w.level < 55 → (∀ y ∈ s.parts, y.cfg.id = p → y = x) →
      exec (.agingStep p k) s = .next (s.modPart p (fun y =>
        { y with work := x.work.eraseIdx k ++ [{ w with level := w.level + 1, served := false }] }))) ∧
    (∀ k c, x.conts.find? (fun c => c.cid == k && c.satisfied.isSome && !c.enqueued) = some c →
      exec (.continuationEnqueue p k) s = .next (s.modPart p (fun y => y.enqueueCont c))) ∧
    (∀ core c id idx, s.partAt core = some x → (s.core core).preemptor = some (c, id, idx) → (s.core core).c1.task = none → s.walks x = true →
      let u := (s.modCore core (fun k => { k with preemptor := none })).startWork x.cfg.id core true c id idx
      exec (.preemptorStart core) s =
        .next (if (u.core core).c1.task.isSome then u else u.modCore core (fun k => { k with frozen := false }))) ∧
    (∀ n l, x.holder n = some l → n ≠ 0xFFFF → s.launchDone p l = true →
      let u := s.deliverNodes p (l.succ.map (fun m => (l.cancelled, m)))
      ∀ y, (u.part? p).bind (fun z => z.launch? l.lid) = some y →
        exec (.nodeComplete p n) s = .next (if y.failed then u else (u.modPart p (fun z => z.setNode n {})).dropLaunch p l)) ∧
    (∀ n l, x.holder n = some l → n ≠ 0xFFFF → s.launchDone p l = true → l.succ = [] → (∀ y ∈ s.parts, y.cfg.id = p → y = x) →
      (∀ y ∈ x.launches, y.lid = l.lid → y = l) →
      ∃ u : State, exec (.nodeComplete p n) s = .next u ∧ u.mem = s.mem ∧ u.cores = s.cores ∧
        ∃ y, u.part? p = some y ∧ y.node n = {} ∧ y.launch? l.lid = none)) ∧
  (∀ (s : State) (p : Part) (w : Work) (cs : List Nat), s.pickWork p = some (w, cs) →
    w ∈ p.work ∧ cs = s.coresFor p w ∧ cs ≠ [] ∧
    (∀ k ∈ cs, ∃ r, s.freeFor k r = true ∧
      (w.isCont = true → ∃ c ∈ p.conts, c.cid = w.id ∧ c.task.record = r ∧ k / 4 = c.tarn ∧ (recPre r = true → k ∈ recCores r)) ∧
      (w.isCont = false → ∃ l ∈ p.launches, l.lid = w.id ∧ l.record = r ∧ (recWalk r = 3 → k / 4 ∈ recTarns r) ∧ (recWalk r ≠ 3 → k ∈ recCores r))) ∧
    (∀ v ∈ p.work, w.level < v.level → v.level < 64 → s.coresFor p v = []) ∧
    (∀ v ∈ p.work.takeWhile (fun v => v ≠ w), v.level = w.level → v.served = w.served → s.coresFor p v = []) ∧
    (w.served = true → ∀ v ∈ p.work, v.level = w.level → v.served = false → s.coresFor p v = [])) ∧
  (∀ (s : State) (e : EngRef) (core : Nat),
    let x := s.ctx e
    let g := x.eng e.eng
    (0 < g.heldP → x.tokS e.eng.pred < 15 → exec (.heldSignalAccept e) s =
      .next (s.setCtx e ((x.sendS e.eng.pred).setEng e.eng { g with heldP := g.heldP - 1 }))) ∧
    (g.heldP = 0 → 0 < g.heldN → x.tokP e.eng.succ < 15 → exec (.heldSignalAccept e) s =
      .next (s.setCtx e ((x.sendP e.eng.succ).setEng e.eng { g with heldN := g.heldN - 1 }))) ∧
    (∀ st, g.stall = some st → s.counts e = true → s.stalled e st = true → exec (.watchdogExpiry e) s =
      .next (s.elapse (s.wdogBound e + 1 - g.wdog))) ∧
    (∀ n, (∀ f ∈ s.engines, ∀ d, s.dueIn f = some d → n < d) → s.elapse n = (s.tick n).expire s.engines) ∧
    (∀ n d, (∀ f ∈ s.engines, ∀ k, s.dueIn f = some k → d ≤ k) → (∃ f ∈ s.engines, s.dueIn f = some d) → d ≤ n →
      s.elapse n = elapseIn s.engines.length (n - d) ((s.tick d).expire s.engines)) ∧
    (∀ n, (s.elapse n).cycles = s.cycles + BitVec.ofNat 64 n) ∧
    (∀ (f : EngRef) (k : Nat), s.dueIn f = some k ↔
      ∃ st, (s.eng f).stall = some st ∧ s.counts f = true ∧ s.stalled f st = true ∧ (s.eng f).wdog + k = s.wdogBound f + 1 ∧ 0 < k) ∧
    (∀ (u : State) (f : EngRef) (st : Stall),
      (u.overdue f = some st ↔
        (u.eng f).stall = some st ∧ st.counted = true ∧ u.canIssue f = true ∧ u.wdogBound f < (u.eng f).wdog) ∧
      ((u.withdraw f st).queueRoom (mereOf f.core) = true → u.stallFault f st = (u.withdraw f st).takeFault f st.trap)) ∧
    (∀ (u : State) (a b : EngRef) (fs : List EngRef), (∀ f ∈ fs, u.overdue f = none) →
      u.expire fs = u ∧
      (∀ x, u.overdue a = some x → u.expire (a :: fs) = u.stallFault a x ∧
        ∀ y, u.overdue b = some y → u.expire (a :: b :: fs) = (u.stallFault a x).stallFault b y)) ∧
    (s.scFirst core = none → exec (.wheelScChoice core) s = .next s) ∧
    (∀ w, s.scFirst core = some w → s.scChosen core = false →
      let u := s.elapse (s.toPosition core)
      (u.scFirst core = none → exec (.wheelScChoice core) s = .next u) ∧
      (∀ v, u.scFirst core = some v → u.scChosen core = false → u.toPosition core = 0 →
        let z := u.modEng v (fun e => { e with scGrant := some u.cycles })
        exec (.wheelScChoice core) s = .next { z with agenda := .turn v :: z.agenda }) ∧
      (core < 1024 → u.cycles.toNat % 1024 = core ∧ (s.core core).lastSc ≠ some u.cycles)))

/-! ### The host's registers -/

/-- R6, R464 to R467, R483, R484: a write of FEAT_ACCEPT takes the whole word or nothing, and never after FLOCK; a launch queue is bound
from its first slot on to a sequence of 64-byte rows that the partition may read, or refused; an edge takes its value; a register of a
partition's block is written at its address, PCTL locks the features and asks for a reset, and a read of it gives its flags and zeros
elsewhere, as the write-only ports read. That the writes with an event of their own act as that event is the model's reading (log entry
86). R91, R444, R445, R459, R470, R471, R474, R495: a window is bound to the object that WOBJ names when the partition may use it so,
another binding being undone first, and its registers say whether it was; unbinding releases what the binding held and abandons its
reservation; a change of the requester or vector, reopening, unfreezing and the target of a COUNTER window do what the rules say of each.
A binding to an object whose home cannot be reached, and a write that keeps or reopens a binding without feature 9, are refused, and the
window stays as it is: log entry 79; a full PIN_CNT refuses a binding that would pin: log entry 138; a window on a TENSOR needs PIN alone
to be bound: log entry 80; a write of WCTL acts as the event it is: log entry 86. They are the model's choices and readings. R299, R350,
R351, R479, R480: a namespace is bound to a COUNTER of the partition over a connection that its configuration defines, and is unbound with
the NSID and CONN written; a connection comes and goes; a key-value command that has ended puts what it read and READY into its tile, not
before earlier requests to its bytes have ended, and its status into its scalar, and the COUNTER that it was sent through counts it, also
where KV_TIMEOUT ends it (the model's reading, log entry 85), which unbinds once the last command sent through it has ended; one that a
reset has abandoned ends without either. -/
def Obligations.HostRegisters : Prop :=
  (∀ (s : State) (p : Nat) (x : Part) (val : BitVec 64) (i : BitVec 3), s.part? p = some x →
    exec (.flock p) s = .next (s.modPart p (fun y => { y with flock := true })) ∧
    (∀ word : BitVec 2, ∃ f : Part → Part, exec (.featAccept p word val) s = .next (s.modPart p f) ∧
      ∀ y, { f y with featAccept := y.featAccept } = y ∧ (y.flock = true → f y = y) ∧
        (∀ b, b < 256 → b / 64 ≠ word.toNat → (f y).featAccept.getLsbD b = y.featAccept.getLsbD b) ∧
        (word = 0 → val &&& ~~~(BitVec.ofNat 64 Config.featOffer) ≠ 0 → f y = y) ∧
        (word = 0 → y.flock = false → val &&& ~~~(BitVec.ofNat 64 Config.featOffer) = 0 → val.getLsbD 0 = true →
          ∀ b, b < 64 → (f y).featAccept.getLsbD b = val.getLsbD b)) ∧
    (val ≠ 0 → exec (.launchQueueBind p i val) s = .next (
      match s.resolve p val with
      | .ok o =>
        if o.e.typ = .sequence ∧ o.e.part.toNat = p ∧ o.e.grants .read = true ∧ o.e.rowb = 64 then
          s.modPart p (fun y => { y.setQueue i.toNat val with lqbad := false })
        else s.modPart p (fun y => { y.setQueue i.toNat 0 with lqbad := true })
      | .error _ => s.modPart p (fun y => { y.setQueue i.toNat 0 with lqbad := true }))) ∧
    exec (.launchQueueUnbind p i) s = .next (s.modPart p (fun y => { y.setQueue i.toNat 0 with lqbad := false })) ∧
    (∀ (n : BitVec 14) (v : BitVec 16), exec (.edgeWrite p n v) s = .next (s.modPart p (fun y => { y with edges := upsert y.edges n.toNat v }))) ∧
    (p < 32 →
      (exec (.registerWrite p 0x40 val) s =
        let u := if val.getLsbD 0 then s.modPart p (fun y => { y with flock := true }) else s
        .next (if val.extractLsb' 6 2 = 1 then u.beginReset p false else if val.extractLsb' 6 2 = 2 then u.beginReset p true else u)) ∧
      (∀ n : BitVec 14, exec (.registerWrite p (0x1000 + 2 * n.zeroExtend 16) val) s =
        .next (s.modPart p (fun y => { y with edges := upsert y.edges n.toNat (val.truncate 16) }))) ∧
      (∀ off : BitVec 16, off.toNat < 0x20 → exec (.registerWrite p off val) s = .next s) ∧
      s.mmioRead (registerAddr p 0x40) = 0#58 ++ BitVec.ofBool x.rstBusy ++ 0#3 ++ BitVec.ofBool x.lqbad ++ BitVec.ofBool x.flock) ∧
    (∀ m, m < 8 → mmioAt (0x030000000000 + 0x1000 * m) = some (.resolution m) ∧ s.mmioRead (0x030000000000 + 0x1000 * m) = 0) ∧
    mmioAt 0x030000010000 = some .election ∧ mmioAt 0x030000010008 = some .heartbeat) ∧
  (∀ (s : State) (p : Nat) (x : Part) (w : BitVec 5) (val : BitVec 64), s.part? p = some x → (∀ y ∈ s.parts, y.cfg.id = p → y = x) →
    let y := x.win w
    let kind := val.extractLsb' 0 2
    let v := val &&& 0xFFFF00000000FF03#64
    let bound (z : Window) : Window := { z with wctl := v, bound := true, badbind := false, bobj := y.wobj, closed := false, slot := none }
    let refused : Result := .next (s.setWin p w { y with wctl := v, badbind := true, closed := false })
    (y.bound = false → kind ≠ 0 → exec (.windowBind p w val) s =
      if kind ≠ 2 ∧ x.featAccept.getLsbD 9 = false then refused
      else match s.resolve p y.wobj with
        | .error _ => refused
        | .ok o =>
          if o.e.part.toNat = p ∧ kind = 1 ∧ o.e.typ = .sequence ∧ o.e.grants .append = true ∧ o.e.capacity * o.e.rowb ≤ 2 ^ 34 then
            .next (s.setWin p w (bound { y with wcur := BitVec.ofNat 64 (o.e.next.toNat * o.e.rowb) }))
          else if o.e.part.toNat = p ∧ kind = 2 ∧ o.e.typ = .tensor ∧ o.e.grants .pin = true ∧ o.e.pinCnt < 65535 then
            (if o.e.wmode then .next ((s.putObj (o.bind o.e.value)).setWin p w (bound { y with bver := some o.e.value }))
            else .next ((s.putObj o.pin).setWin p w (bound y)))
          else if o.e.part.toNat = p ∧ kind = 3 ∧ o.e.typ = .counter ∧ o.e.grants .read = true then .next (s.setWin p w (bound y))
          else refused) ∧
    (y.bound = true → kind ≠ 0 → y.wctl.extractLsb' 0 2 ≠ kind ∨ y.wobj ≠ y.bobj → y.slot = none →
      exec (.windowBind p w val) s = exec (.windowBind p w val) (s.unbindWin p w y)) ∧
    (kind = 0 → y.bound = false → exec (.windowUnbind p w val) s = .next (s.setWin p w { y with wctl := v, closed := false })) ∧
    (kind = 0 → y.bound = true →
      let u := if y.wctl.extractLsb' 0 2 = 2 then
          (match y.bver with
          | some n => (s.modHandle y.bobj (fun o => o.unbind n)).sweep
          | none => (s.modHandle y.bobj (fun o => o.unpin)).sweep)
        else s
      let z : Window := { y with bound := false, closed := false, bobj := 0, bver := none, slot := none }
      (y.slot = none → exec (.windowUnbind p w val) s = .next (u.setWin p w { z with wctl := v })) ∧
      (y.slot ≠ none → ∀ q, ((u.setWin p w z).abandon p (.window p w.toNat)).part? p = some q →
        exec (.windowUnbind p w val) s =
          .next (((u.setWin p w z).abandon p (.window p w.toNat)).setWin p w { q.win w with wctl := v, closed := false }))) ∧
    (y.bound = true → y.wobj = y.bobj → y.wctl.extractLsb' 0 2 = kind → kind ≠ 0 → kind ≠ 2 → x.featAccept.getLsbD 9 = false →
      y.closed = false ∨ kind = 1 → exec (.windowRidChange p w val) s = .next (s.setWin p w { y with badbind := true }) ∧
        exec (.windowReopen p w val) s = .next (s.setWin p w { y with badbind := true })) ∧
    (y.bound = true → y.closed = false → y.wobj = y.bobj → y.wctl.extractLsb' 0 2 = kind → kind ≠ 0 → kind = 2 ∨ x.featAccept.getLsbD 9 = true →
      exec (.windowRidChange p w val) s = .next (s.setWin p w { y with wctl := v, badbind := false })) ∧
    (y.bound = true → y.closed = true → y.wobj = y.bobj → y.wctl.extractLsb' 0 2 = kind → kind = 1 → x.featAccept.getLsbD 9 = true →
      ∃ z : Window, exec (.windowReopen p w val) s = .next (s.setWin p w z) ∧ z.closed = false ∧ z.wctl = v ∧ z.badbind = false ∧
        z.slot = y.slot ∧ z.bobj = y.bobj ∧ (y.slot = none → z.wcur = y.wcur) ∧
        (∀ i o, y.slot = some i → s.objOf? y.bobj = some o → z.wcur = BitVec.ofNat 64 (i * o.e.rowb))) ∧
    (y.frozen = true → exec (.requesterUnfreeze p w) s = .next ((s.setWin p w { y with frozen := false }).bbox x.homeMere
      { payload := 3#64 ||| (y.frid.zeroExtend 64 <<< 16), etype := 0x0005, part := p, svc := true })) ∧
    let reached := ∃ o, s.objOf? y.bobj = some o ∧ y.bound = true ∧ y.wctl.extractLsb' 0 2 = 3 ∧ o.e.gen = hGen y.bobj ∧ val.toNat ≤ o.val
    (¬ reached → exec (.wtgtWrite p w val) s = .next (s.setWin p w { y with wtgt := val })) ∧
    (reached → exec (.wtgtWrite p w val) s =
      .next { s.setWin p w { y with wtgt := BitVec.allOnes 64 } with sent := s.sent ++ [.msix p (y.wctl.extractLsb' 8 8).toNat] })) ∧
  (∀ (s : State) (p : Nat) (x : Part) (n : BitVec 6) (val : BitVec 64) (conn : BitVec 4) (kv : Bool), s.part? p = some x →
    let y := x.nsAt n
    let v := val &&& 0xFFFFFFFF000F0001#64
    (exec (.namespaceBind p n val kv) s =
      if s.nsCounter p y.nsobj = true ∧ (∀ k : Nat, k < 64 → k ≠ n.toNat → ∀ z ∈ x.ns.toList[k]?, z.bound = true → z.bobj ≠ y.nsobj) ∧
          (∃ c ∈ x.cfg.conns, c.num.toNat = (val.extractLsb' 16 4).toNat) ∧ kv = true then
        .next (s.setNs p n { y with nsctl := v, bound := true, unbinding := false, badbind := false, bobj := y.nsobj })
      else .next (s.setNs p n { y with nsctl := v, badbind := true })) ∧
    exec (.namespaceUnbind p n) s = .next ((s.setNs p n { y with nsctl := y.nsctl &&& 0xFFFFFFFF000F0000#64, unbinding := y.bound }).settleNs p n.toNat) ∧
    (p < 32 → val.getLsbD 0 = false → exec (.registerWrite p (0x9000 + 0x40 * n.zeroExtend 16) val) s =
      .next ((s.setNs p n { y with nsctl := val &&& 0xFFFFFFFF000F0000#64, unbinding := y.bound }).settleNs p n.toNat)) ∧
    (∃ f : Part → Part, exec (.nvmeofConnect p conn) s = .next (s.modPart p f) ∧ ∀ z, { f z with links := z.links } = z ∧
      ∀ b, b < 16 → (f z).links.getLsbD b = (z.links.getLsbD b || (decide (b = conn.toNat) && z.cfg.conns.any (fun c => c.num == conn)))) ∧
    (∃ f : Part → Part, exec (.connectionLost p conn) s = .next (s.modPart p f) ∧ ∀ z, { f z with links := z.links } = z ∧
      ∀ b, b < 16 → (f z).links.getLsbD b = (z.links.getLsbD b && decide (b ≠ conn.toNat))) ∧
    (y.unbinding = true → ∃ x', (s.settleNs p n.toNat).part? p = some x' ∧
      x'.nsAt n = if s.kvFlying p n.toNat y.bobj then y else { y with bound := false, unbinding := false, bobj := 0 }) ∧
    (∀ h, s.kvFlying p n.toNat h = true ↔
      ∃ o ∈ s.ops, ∃ k, o.kind = .kv k ∧ k.part = p ∧ k.slot = n.toNat ∧ k.counter = h ∧ k.abandoned = false) ∧
    (∀ (o : Op) (k : KvOp), s.op? o.id = some o → o.kind = .kv k →
      (∀ (nvst : BitVec 16) (len : BitVec 32) (d : List (BitVec 8)),
        (k.abandoned = true →
          exec (.kvCompletion o.id nvst len d) s = .next (s.dropOp o.id) ∧ exec (.kvTimeout o.id) s = .next (s.dropOp o.id)) ∧
        (o.left = 0 → k.abandoned = false →
          exec (.kvTimeout o.id) s = .next (s.endKv o k [] (1#64 <<< 48)) ∧
          (s.heldBack o = true → exec (.kvCompletion o.id nvst len d) s = .next s) ∧
          (s.heldBack o = false → exec (.kvCompletion o.id nvst len d) s = .next (s.endKv o k
            (if k.cmd = .get ∨ k.cmd = .list then d.take k.max else [])
            (0#16 ++ nvst ++ (if k.cmd = .get then len else if k.cmd = .list then BitVec.ofNat 32 (d.take k.max).length else 0#32)))))) ∧
      (∀ (d : List (BitVec 8)) (status : BitVec 64), s.alive o = true → ((s.core o.who.core).tile k.tile).epoch = k.epoch →
        let reads : Bool := decide (k.cmd = .get ∨ k.cmd = .list)
        let a := if reads ∧ d ≠ [] then s.putTile o.who.core k.off k.swz 0 d else s
        let b := if reads ∨ k.cmd = .put then
            a.modCore o.who.core (fun c => c.setTile k.tile { c.tile k.tile with st := .ready, tag := if reads then none else (c.tile k.tile).tag })
          else a
        let z := match k.st with | some r => b.setS o.who (BitVec.ofNat 6 r) status | none => b
        s.endKv o k d status = ((z.finish o).countKv k.counter).settleNs k.part k.slot)) ∧
    (∀ (h : BitVec 64) (o o' : Obj), s.objOf? h = some o → o.e.gen = hGen h → o.e.typ = .counter →
      counterAdd o 1 = .ok o' → s.countKv h = s.putAndWake o'))

/-! ### Windows at work -/

/-- R49, R90, R216, R469, R473, R474: accesses through windows by their requester: a read of a COUNTER answers VALUE and a write adds to
it; a read of a TENSOR answers the bound version's bytes, and a write stores, at an object with replicas as an update that locks every
copy first (R56); one to an object whose ERR is set is dropped (the model's choice: log entry 81). An access past its 16 GiB falls in the
window that lies there; one past BAR2, and one that no window takes, is unsupported. R80, R88 to R91, R444, R472: a write at the cursor of
a sequence window that ends within the slot that the window holds is stored there and moves the cursor; one that ends at or past the end
of that slot commits it, with those it fills after it, and reserves the slots that it begins; one that begins at a free slot reserves the
slots that it reaches, stores its bytes, commits the slots that it fills and holds the last one; where it gives the sequence a private
block the descriptor enters behind a marker in every queue (R205); where no page is free for them the window closes with NO_SPACE (the
model's choice for a private block: log entry 17). One that stands elsewhere, or is marked as relaxed in order, closes the window, freezes
its requester and writes a FREEZE record with SEQ_ORDER. -/
def Obligations.WindowWrites : Prop :=
  (∀ (s : State) (x : Ingress), s.hostHeld = false →
    (∀ n j, j ∈ [Instr.ingressSequenceWrite, .ingressTensorWrite, (fun x => .ingressTensorRead x n), .ingressCounterWrite, .ingressCounterRead] →
      let at_ := (x.win.toNat % 16) * 2 ^ 34 + x.off
      (2 ^ 38 ≤ at_ → exec (j x) s = .next (s.unsupported x)) ∧
      (at_ < 2 ^ 38 →
        exec (j x) s = exec (j { x with win := BitVec.ofNat 5 (16 * (x.win.toNat / 16) + at_ / 2 ^ 34), off := at_ % 2 ^ 34 }) s)) ∧
    (x.off < 2 ^ 34 →
      (∀ n, s.winOf x 2 = none → exec (.ingressTensorRead x n) s = .next (s.unsupported x) ∧ exec (.ingressTensorWrite x) s = .next (s.unsupported x)) ∧
      (s.winOf x 3 = none → exec (.ingressCounterRead x) s = .next (s.unsupported x) ∧ exec (.ingressCounterWrite x) s = .next (s.unsupported x)) ∧
      (x.bytes = [] → exec (.ingressUnsupported x) s = .next (s.unsupported x)) ∧
      (∀ p, s.part? x.part = some p → x.bytes ≠ [] → (p.win x.win).bound = true → (p.win x.win).kind = 1 → (p.win x.win).rid ≠ x.rid →
        exec (.ingressUnsupported x) s = .next ((s.dropped x).unsupported x)) ∧
      ∀ (y : Window) (o : Obj), s.names x.part y.bobj o = true →
        (s.winOf x 3 = some y →
          exec (.ingressCounterRead x) s = .next (if x.off = 0 then { s with sent := s.sent ++ [.readData x.part x.win.toNat (leBytes 8 o.val)] }
            else s.unsupported x) ∧
          exec (.ingressCounterWrite x) s = .next (if x.off ≠ 0 ∨ x.bytes.length ≠ 8 then s.unsupported x
            else if o.e.grants .write then (match counterAdd o (BitVec.ofNat 64 (leNat x.bytes)) with
              | .ok o' => s.putAndWake o'
              | .error _ => s.dropped x)
            else s.dropped x)) ∧
        (s.winOf x 2 = some y →
          (o.e.err = true → ∀ n, exec (.ingressTensorRead x n) s = .next ((s.dropped x).unsupported x) ∧
            exec (.ingressTensorWrite x) s = .next (s.dropped x)) ∧
          (o.e.err = false → s.sound o = true → o.locks = [] →
            (∀ n, x.off + n ≤ o.e.storageBytes (s.winShard o.e) → o.e.grants .read = true →
              exec (.ingressTensorRead x n) s = .next (match s.readRaw o (o.verOf y.bver) x.off n with
                | some bs => { s with sent := s.sent ++ [.readData x.part x.win.toNat bs] }
                | none => s)) ∧
            (x.bytes ≠ [] → x.off + x.bytes.length ≤ o.e.storageBytes (s.winShard o.e) → o.e.grants .write = true → o.e.rwin = false →
              exec (.ingressTensorWrite x) s = .next (match s.storeSpots o x.off x.bytes.length with
                | some (u, o', ms) => if 1 < ms.length then u.startUpdate (o'.resolution ms) (.raw x.off x.bytes none) else u.storeRaw o' ms x.off x.bytes
                | none => s)))))) ∧
  (∀ (s : State) (x : Ingress) (y : Window) (o : Obj), s.hostHeld = false → x.off < 2 ^ 34 → s.winOf x 1 = some y → s.names x.part y.bobj o = true →
    y.closed = false → o.e.rowb ≠ 0 → o.e.err = false → s.sound o = true →
    let rb := o.e.rowb
    let cur := y.wcur.toNat
    let fin := cur + x.bytes.length
    let a := cur / rb
    let me : Owner := .window x.part x.win.toNat
    (x.ro = true ∨ x.off ≠ cur % 2 ^ 34 → exec (.ingressSequenceWrite x) s = .next (s.closeWin x y .seqOrder a)) ∧
    (x.ro = false → x.off = cur % 2 ^ 34 → y.slot = some a → o.reservedBy me a = true → fin < (a + 1) * rb →
      a < o.e.capacity → 0 < x.bytes.length → ∀ l b, findMap o.maps o.home .current = some l → l.at s o.home o.e (a / 16 * (16 * rb)) = .ok b →
      let s1 := if o.blockList.any (fun b => !b.owned && b.num == a / 16) then s.settle (fun _ => true) else s
      exec (.ingressSequenceWrite x) s = .next (match s1.ownBlocks ((s1.obj? o.home o.num).getD o) [a / 16] with
        | some (u, o') => ((storeSlots u o' cur x.bytes).setWin x.part x.win { y with wcur := BitVec.ofNat 64 fin, slot := some a }).putAndWake o'
        | none => s.closeWin x y .noSpace 0)) ∧
    (x.ro = false → x.off = cur % 2 ^ 34 → y.slot = some a → o.reservedBy me a = true → (a + 1) * rb ≤ fin → fin ≤ o.e.capacity * rb →
      ((a + 1) * rb < fin → o.e.next.toNat = a + 1 ∧ o.e.sealedBit = false) →
      let b := ceilDiv fin rb
      let full := fin / rb
      let ks := blocksOf a b
      exec (.ingressSequenceWrite x) s = .next (match (if a + 1 < b then s.allocBlocks o (blocksOf (a + 1) b) else some (s, o)) with
        | none => s.closeWin x y .noSpace 0
        | some (u, p) =>
          if ks.any (fun k => match findMap p.maps p.home .current with
              | some l => (match l.at u p.home p.e (k * (16 * rb)) with | .ok _ => false | .error _ => true)
              | none => true) then s
          else
            let u1 := if p.blockList.any (fun b => !b.owned && ks.contains b.num) then u.settle (fun _ => true) else u
            match u1.ownBlocks ((u1.obj? p.home p.num).getD p) ks with
            | none => s.closeWin x y .noSpace 0
            | some (v, q) =>
              let r := if a + 1 < b then { q with resv := q.resv ++ [⟨a + 1, b, me⟩], e := { q.e with next := BitVec.ofNat 32 b } } else q
              let z : Window := { y with wcur := BitVec.ofNat 64 fin, slot := if fin % rb = 0 then none else some full }
              ((storeSlots v q cur x.bytes).setWin x.part x.win z).putAndWake (r.commit a full))) ∧
    (x.ro = false → x.off = cur % 2 ^ 34 → y.slot = none → cur % rb = 0 → a = o.e.next.toNat → o.e.sealedBit = false → 0 < x.bytes.length →
      fin ≤ o.e.capacity * rb →
      let b := ceilDiv fin rb
      let full := fin / rb
      let ks := blocksOf a b
      exec (.ingressSequenceWrite x) s = .next (match s.allocBlocks o ks with
        | none => s.closeWin x y .noSpace 0
        | some (u, p) =>
          if ks.any (fun k => match findMap p.maps p.home .current with
              | some l => (match l.at u p.home p.e (k * (16 * rb)) with | .ok _ => false | .error _ => true)
              | none => true) then s
          else
            let u1 := if p.blockList.any (fun b => !b.owned && ks.contains b.num) then u.settle (fun _ => true) else u
            match u1.ownBlocks ((u1.obj? p.home p.num).getD p) ks with
            | none => s.closeWin x y .noSpace 0
            | some (v, q) =>
              let r := { q with resv := q.resv ++ [⟨a, b, me⟩], e := { q.e with next := BitVec.ofNat 32 b } }
              let z : Window := { y with wcur := BitVec.ofNat 64 fin, slot := if fin % rb = 0 then none else some full }
              ((storeSlots v q cur x.bytes).setWin x.part x.win z).putAndWake (if a < full then r.commit a full else r))) ∧
    (∀ c i, let u := s.closeWin x y c i
      ∀ z, s.part? x.part = some z → ∃ z', u.part? x.part = some z' ∧ (z'.win x.win).closed = true ∧ (z'.win x.win).frozen = true ∧
        (z'.win x.win).dropped = true ∧ (z'.win x.win).frid = x.rid ∧ u.mem = s.mem))

/-! ### The object manager -/

/-- R40 to R42, R81, R82, R94, R278: the manager makes an object out of a FREE entry of a partition's ranges where its storage is free,
with the read-only fields at their start; destroys one, whose entry is FREE at the next generation, whose alternate view stands alone,
whose blocks are held by one map less, and whose waiters are told STALE_HANDLE; and seals a sequence that a vanished owner's reservation
blocks, under a partition's policy that seals, and tells the waiters above the seal. A told waiter goes on at its catch entry, dies
without one, or is told at its own package. When a sequence is sealed, and when storage counts as free and within the partition's quotas
(R481), is the model's choice: log entries 93 and 94. During a takeover the manager waits (R457, log entry 70): it is stated for a
partition whose requests do not wait. R49 to R51, R58, R59, R441, R457, R462: the manager brings a missing page to a free place and
answers the fault with RETRY, or, where it cannot place it, sets the object's ERR and delivers the fault, and waits for a store that is
still on its way to it; moves a page or block that no pin holds in three phases; lands a promotion, which is late where every request for
the page has been served, or for the whole object where it moves whole, and a late one is counted and goes to the cold end; and rebuilds
the stale view of an object where one serves what is asked, and answers with RETRY, or else delivers the fault. What lateness, a served
request and the cold list come to is the model's choice: log entry 92; a placed page that was never allocated keeps its frame's contents,
which map a page is looked up in, and that a working copy follows a descriptor it has not copied are log entries 89, 90 and 91. What the
conversion of a view gives is not stated: its bytes are free values (log entry 84). During a takeover the manager waits (R457; that it is
the takeover of the partition's home mere is log entry 70). -/
def Obligations.ObjectManager : Prop :=
  ((∀ (s : State) (x : CreateArgs) (p : Part), s.ownerOf x.obj = some p → x.obj ≠ 0 → s.managerWaits p.cfg.id = false →
    let home := s.package.toNat
    let e := { Entry.ofBits x.bits with
      next := 0, pinCnt := 0, value := 0, altStale := false, err := false, sealedBit := false, part := BitVec.ofNat 5 p.cfg.id }
    e.consistent = true → (∀ f, s.obj? home x.obj = some f → f.e.typ = .free) →
    (let o := ({ home := home, num := x.obj, e := e, maps := newMaps home e x.pages } : Obj).retier
      let frames := o.maps.flatMap (fun m => (m.2.2.frames e).map (fun f => (m.1, f)))
      frames.eraseDups = frames → (∀ f ∈ frames, f.2 ∉ s.usedFrames f.1) →
      (∀ b, (home, Ver.current, Layout.slices b) ∈ o.maps → s.sliceSpace o b.toNat (e.storageBytes (e.shardOn home)) = true) →
      let near (t : Nat) : List Nat := ((frames.filter (fun f => f.1 == home)).map (fun f => f.2)).filter (inTier t)
      (∀ f ∈ near 1, f ∈ p.cfg.frames.map BitVec.toNat) → s.tierPages p.cfg.id 1 + (near 1).length ≤ p.cfg.frames.length →
      s.tierPages p.cfg.id 2 + (near 2).length ≤ p.cfg.lpQuota → (∀ q ∈ s.parts, q.cfg.id = p.cfg.id → q = p) →
      exec (.objectCreate x) s = .next ((s.createObj o).1.linkView (s.createObj o).2)) ∧
    (e.typ = .counter → ∃ u : State, exec (.objectCreate x) s = .next u ∧ u.mem = s.mem ∧ u.cores = s.cores ∧
      ∃ o, u.obj? home x.obj = some o ∧ o.e.typ = .counter ∧ o.e.value = 0 ∧ o.e.pinCnt = 0 ∧ o.e.part = BitVec.ofNat 5 p.cfg.id ∧
        o.e.gen = (match s.obj? home x.obj with | some f => if f.e.gen = 0 then 1 else f.e.gen | none => 1) ∧ o.waiters = [] ∧ o.resv = [])) ∧
  (∀ (s : State) (hd : BitVec 64) (o : Obj), s.live? hd = some o → o.waiters = [] → o.e.altObj = 0 → s.ops = [] →
    s.managerWaits o.e.part.toNat = false → ∃ u : State, exec (.objectDestroy hd) s = .next u ∧ u.mem = s.mem ∧ u.cores = s.cores ∧
      ∃ f, u.obj? o.home o.num = some f ∧ f.e.typ = .free ∧ f.e.gen = (if o.e.gen = 0xFF then 1 else o.e.gen + 1)) ∧
  (∀ (s : State) (hd : BitVec 64) (o : Obj), (∀ p, s.managerWaits p = false) → (s.live? hd).isSome = true →
    let z := s.mark
    let y := z.unlinkView o
    z.live? hd = some o → (y.obj? o.home o.num).isSome = true → ∃ u : State, exec (.objectDestroy hd) s = .next u ∧ u.mem = y.mem ∧
      (∃ f, u.obj? o.home o.num = some f ∧ f.e.typ = .free ∧ f.e.gen = (if o.e.gen = 0xFF then 1 else o.e.gen + 1) ∧ f.waiters = [] ∧ f.resv = []) ∧
      (∀ a a', o.e.altObj ≠ 0 → o.e.altObj ≠ o.num → z.obj? o.home o.e.altObj = some a → z.mark.obj? o.home o.e.altObj = some a' →
        a.e.altObj = o.num → a.e.altGen = o.e.gen →
        ∃ b, u.obj? o.home o.e.altObj = some b ∧ b.e.altObj = 0 ∧ b.e.altGen = 0 ∧ b.e.altStale = false) ∧
      (o.e.typ = .sequence → o.waiters = [] → o.binds = [] → o.blkPins = [] → o.pagePins = 0 →
        y.objs.filter (fun x => x.home == o.home && x.num == o.num) = [o] →
        (∀ x ∈ y.objs, ∀ m ∈ x.maps, ∀ bs, m.2.2 = .blocks bs → m.2.1 = .current) →
        (∀ a, u.refcnt o.home a + (if o.maps.any (fun m => match m.2.2 with | .blocks bs => bs.any (fun b => b.addr == a) | _ => false) then 1 else 0) =
          y.refcnt o.home a) ∧
        (∀ q k, k ∈ u.usedFrames q → k ∈ ({ y with objs := y.objs.filter (fun x => !(x.home == o.home && x.num == o.num)) } : State).usedFrames q))) ∧
  (∀ (s z : State) (hd : BitVec 64) (o : Obj) (i : Instr) (code : Code) (told : List Waiter), (∀ p, s.managerWaits p = false) →
    ((i = .objectDestroy hd ∧ code = .staleHandle ∧ (s.live? hd).isSome = true ∧ s.mark.live? hd = some o ∧ z = s.mark.unlinkView o ∧ told = o.waiters) ∨
      (i = .sequenceSeal hd ∧ code = .seqSealed ∧ s.live? hd = some o ∧ z = s ∧ told = o.waiters.filter (fun w => decide (o.val < w.target.toNat)) ∧
        o.e.typ = .sequence ∧ o.e.sealedBit = false ∧ (∃ r ∈ o.resv, r.owner = .nobody) ∧ (∀ p, s.part? o.e.part.toNat = some p →
          p.cfg.sealAbandoned = true))) →
    ((told.Pairwise (fun a b => a.part ≠ b.part ∨ a.cont ≠ b.cont)) →
      (∀ w ∈ told, w.part < 32 ∧ ∃ p c, z.part? w.part = some p ∧ p.conts.find? (fun c => c.cid == w.cont) = some c ∧ c.task.caught = false ∧
        recCatch c.task.record ≠ 0xFFFF) →
      ∀ w ∈ told, ∀ p c, z.part? w.part = some p → p.conts.find? (fun c => c.cid == w.cont) = some c →
        ∃ u p' k, exec i s = .next u ∧ u.part? w.part = some p' ∧ k ∈ p'.conts ∧ k.cid = w.cont ∧ k.enqueued = true ∧
          k.pcs = [some (BitVec.ofNat 32 (recCatch c.task.record)), none, none, none] ∧ k.task.caught = true ∧ k.task.tid = c.task.tid ∧
            (5, code.val.zeroExtend 64 ||| (if c.ctx then 0x40000 else 0)) ∈ k.s) ∧
    (∀ w p c, told = [w] → w.part < 32 → z.part? w.part = some p → p.conts.find? (fun c => c.cid == w.cont) = some c →
      (c.task.caught = true ∨ recCatch c.task.record = 0xFFFF) →
      ∃ u p', exec i s = .next u ∧ u.part? w.part = some p' ∧ ∀ k ∈ p'.conts, k.cid ≠ w.cont) ∧
    (∀ w, told = [w] → 32 ≤ w.part → ∃ u : State, exec i s = .next u ∧ u.sent = z.sent ++ [.peerFault (BitVec.ofNat 10 (w.part - 32)) code])) ∧
  (∀ (s : State) (hd : BitVec 64) (o : Obj), s.live? hd = some o → o.e.typ = .sequence → o.e.sealedBit = false →
    ((∃ p, s.part? o.e.part.toNat = some p ∧ p.cfg.sealAbandoned = false) → exec (.sequenceSeal hd) s = .next s) ∧
    ((∀ p, s.part? o.e.part.toNat = some p → p.cfg.sealAbandoned = true) → (∃ r ∈ o.resv, r.owner = .nobody) →
      s.managerWaits o.e.part.toNat = false → ∃ u : State, exec (.sequenceSeal hd) s = .next u ∧ u.mem = s.mem ∧
        ∃ f, u.obj? o.home o.num = some f ∧ f.e.sealedBit = true ∧ f.e.value = o.e.value ∧ f.e.next = BitVec.ofNat 32 o.val ∧ f.resv = [] ∧
          f.waiters = o.waiters.filter (fun w => decide (w.target.toNat ≤ o.val))))) ∧
  (∀ (s : State) (x : PageArgs) (r : ResWord) (o : Obj), s.live? x.hd = some o →
    let v := o.verOf (x.ver.map (BitVec.ofNat 64))
    let waits := s.managerWaits o.e.part.toNat
    (r.mere ∈ s.takeover ∨ waits = true → exec (.pagePlacement x r) s = .next s ∧ exec (.viewRebuild x.hd r) s = .next s) ∧
    (waits = true → ∀ phase late, exec (.pageMove x phase) s = .next s ∧ exec (.promotionLand x late) s = .next s) ∧
    (∀ y, r.mere ∉ s.takeover → waits = false → o.spot? s v x.page (fun y => !y.valid) = some y →
      (x.tier = 4 → exec (.pagePlacement x r) s = deliverWord r (s.setErr o.home o.num o.e.gen)) ∧
      (∀ q, x.tier ≠ 4 → s.target o x y = some q →
        let u := s.mark
        let w := if y.known then u.copyBytes (y.from u o.home) (u.phys q x.addr.toNat) (y.size o.e) else u
        (y.known = true ∧ u.storing o = true → exec (.pagePlacement x r) s = .next s) ∧
        (y.known = false ∨ u.storing o = false → exec (.pagePlacement x r) s = retryWord r (w.describe o v x.page x y true)))) ∧
    (∀ y, waits = false → o.spot? s v x.page Spotted.valid = some y → o.holds s y = false → exec (.pageMove x 0) s = .next (match y with
      | .page q d => s.mark.modObj o.home o.num (fun o => o.setDesc q v x.page (d &&& ~~~1#64))
      | .block b => s.mark.setBlock o.home b { b with valid := false })) ∧
    (∀ y q, waits = false → o.spot? s v x.page (fun y => !y.valid && y.known) = some y → s.target o x y = some q → s.storing o = false →
      let u := s.copyBytes (y.from s o.home) (s.phys q x.addr.toNat) (y.size o.e)
      exec (.pageMove x 1) s = .next { u with moving := u.moving ++ (pagesOf x.addr.toNat (y.size o.e)).map (fun f => (q, f)) }) ∧
    (∀ y, waits = false → o.spot? s v x.page (fun y => !y.valid && y.known) = some y →
      let fs := (pagesOf x.addr.toNat (y.size o.e)).map (fun f => (if x.tier = 3 then x.pkg.toNat else y.pkg o.home, f))
      (∀ f ∈ fs, f ∈ s.moving) →
      let u := s.mark.describe o v x.page x y true
      exec (.pageMove x 2) s = .next { u with moving := u.moving.filter (fun m => !fs.contains m) }) ∧
    (let m := s.mark
      let late := s.served o (some x.page)
      ∀ o' y q, waits = false → m.live? x.hd = some o' → m.storing o' = false → x.tier ≠ 0 → o'.spot? m v x.page Spotted.valid = some y → o'.holds m y = false →
        m.target o' x y = some q →
        let w := (m.copyBytes (y.from m o'.home) (m.phys q x.addr.toNat) (y.size o'.e)).describe o' v x.page x y true
        let me := (o.home, o.num, x.page)
        let z : State := { w with cold := w.cold.filter (fun c => c != me) ++ (if late then [me] else []) }
        let n := w.homeMere o.e.part.toNat
        exec (.promotionLand x late) s =
          .next (if late then z.setMere n { w.mere n with latePromo := satInc (w.mere n).latePromo } else z)) ∧
    (∀ page, s.served o page = true ↔ ∀ p ∈ s.ops, ∀ c, p.kind = .copy c → s.asks o page c = false) ∧
    (r.mere ∉ s.takeover → waits = false →
      (s.awaited r = none → exec (.viewRebuild x.hd r) s = retryWord r s) ∧
      (∀ f, s.awaited r = some f → (f.code ≠ .missingView → exec (.viewRebuild x.hd r) s = .next s) ∧
        (f.code = .missingView →
          let serves (a : Obj) : Prop := o.e.altObj ≠ 0 ∧ a.e.gen = o.e.altGen ∧ a.e.typ = .tensor ∧
            ∀ z, s.askedShape r.who f = some z → shCdim z = 0 ∨ a.e.serves (shCdim z - 1) = true
          (∀ a, s.obj? o.home o.e.altObj = some a → serves a →
            let u := s.mark.fillView a
            let fresh (o : Obj) : Obj := { o with e := { o.e with altStale := false } }
            exec (.viewRebuild x.hd r) s = retryWord r ((u.modObj o.home o.num fresh).modObj a.home a.num fresh)) ∧
          ((∀ a, s.obj? o.home o.e.altObj = some a → ¬ serves a) → exec (.viewRebuild x.hd r) s = deliverWord r s)))))

/-- R45, R55, R205, R215, R483: the manager rewrites a replica list, with a map that holds the home's contents for each replica that is
new; requests of other packages are done at the home here, a store at an object with replicas as an update that locks every copy first, or
answered with the fault's code. During a checkpoint they wait, but an update of an object of another home that meets this package's
replica finds no answer, and this package leaves the replica list (R57, R492). R171, R172, R450, R451: a full context switch of an
ordinary task that may be saved writes its save object, the header first, keeps the task's image, and frees its context; a restore of a
save that the part accepts on a free core of its set puts registers, queues and accumulators back, and one that it does not accept is
refused. Where the layout of a save is open its bytes are free values (log entry 96). A task whose group is bound is not switched; one
whose ACOOP still waits for its partners is, and issues the ACOOP afresh (the model's reading, log entry 141). During a takeover of the
core's mere both wait (log entry 70). -/
def Obligations.PeersAndSwitches : Prop :=
  ((∀ (s : State) (hd : BitVec 64) (o : Obj) (pkgs : List (BitVec 10)), s.live? hd = some o → o.e.typ = .tensor → o.e.shmode = 0 → o.locks = [] →
    s.managerWaits o.e.part.toNat = false → s.ops = [] → (∀ m ∈ o.maps, m.2.1 ≠ .working) → pkgs.length ≤ 4 →
    let qs := pkgs.map BitVec.toNat
    qs.eraseDups = qs → o.home ∉ qs →
    exec (.objectReplicate hd pkgs) s = .next (match s.addReplicas o qs with
      | none => s
      | some (u, o') => u.putObj { o' with
          maps := o'.maps.filter (fun m => m.1 == o'.home || qs.contains m.1)
          e := { o'.e with repn := BitVec.ofNat 3 qs.length, reps := pkgs.getD 0 0 ++ pkgs.getD 1 0 ++ pkgs.getD 2 0 ++ pkgs.getD 3 0 } })) ∧
  (∀ (s : State) (x : PeerArgs) (o : Obj), s.hostHeld = true → s.names x.part x.hd o = true →
    exec (.peerRequest x) s = .next (if s.warmHold = false ∧ updatesObject x.req = true ∧ o.home ≠ s.package.toNat ∧ s.package.toNat ∈ o.e.replicas
      then s.dropReplica o s.package else s)) ∧
  (∀ (s : State) (x : PeerArgs), s.hostHeld = false →
    ((∃ p, s.ownerOf (hObj x.hd) = some p ∧ p.rstBusy = true) →
      exec (.peerRequest x) s = .next { s with sent := s.sent ++ [.peerFault x.src .missingObject] }) ∧
    ((∀ p, s.ownerOf (hObj x.hd) = some p → p.rstBusy = false) →
      (∀ t, s.resolve x.part x.hd = .error t → exec (.peerRequest x) s = .next { s with sent := s.sent ++ [.peerFault x.src t.code] }) ∧
      (∀ o, s.names x.part x.hd o = true →
        exec (.peerRequest x) s = .next (match s.peer x o with
          | .ok (some u) => u
          | .ok none => s
          | .error t => { s with sent := s.sent ++ [.peerFault x.src t.code] }) ∧
        (∀ v, x.req = .counterAdd v → o.e.typ = .counter → o.e.grants .write = true → s.sound o = true → o.e.err = false →
          exec (.peerRequest x) s = .next (match counterAdd o v with
            | .ok o' => (s.putAndWake o').answer x.src []
            | .error t => { s with sent := s.sent ++ [.peerFault x.src t.code] })) ∧
        (∀ off bytes, x.req = .store off bytes → o.e.typ = .tensor → o.e.grants .write = true → o.e.rwin = false → s.sound o = true →
          o.e.err = false → o.locks = [] → bytes ≠ [] → off + bytes.length ≤ o.e.storageBytes (s.winShard o.e) →
          exec (.peerRequest x) s = .next (match s.storeSpots o off bytes.length with
            | some (u, o', ms) => if 1 < ms.length then u.startUpdate (o'.resolution ms) (.raw off bytes (some x.src))
                else (u.storeRaw o' ms off bytes).answer x.src []
            | none => { s with sent := s.sent ++ [.peerFault x.src (s.missing o .current (off / 65536)).code] })) ∧
        (∀ off n, x.req = .read off n → o.e.typ = .tensor → o.e.grants .read = true → s.sound o = true → o.e.err = false → o.locks = [] →
          off + n ≤ o.e.storageBytes (s.winShard o.e) →
          exec (.peerRequest x) s = .next (match s.readRaw o .current off n with
            | some bs => s.answer x.src bs
            | none => { s with sent := s.sent ++ [.peerFault x.src (s.missing o .current (off / 65536)).code] })))))) ∧
  ((∀ (s : State) (core : Nat) (hd : BitVec 64) (o : Obj) (t : Task), (s.core core).c0.task = some t →
    s.live? hd = some o →
    (mereOf core ∈ s.takeover ∨ (∃ g, (s.core core).group = some g ∧ g.bound = true) → exec (.contextSwitchOut core hd) s = .next s) ∧
    (mereOf core ∉ s.takeover → s.maySave core t = true → o.home = s.package.toNat → o.e.part.toNat = t.part → o.e.typ = .tensor → o.e.rank = 0 →
    o.e.fmt = 8 → o.e.rights = 0 →
    let bs := s.saveBytes core t
    bs.length ≤ 4 * o.e.ext0.toNat →
    (s.writeSave o bs = none → exec (.contextSwitchOut core hd) s = .next s) ∧
    (∀ u, s.writeSave o bs = some u →
      ∃ v : State, exec (.contextSwitchOut core hd) s = .next v ∧ (v.core core).c0 = {} ∧ v.mem = u.mem ∧
        ∃ k gone, v.saves = (u.saves ++ [k]).map (fun y => Save.loseBars y gone) ∧ (∀ b ∈ gone, b ∈ u.bars ∧ b ∉ v.bars) ∧ k.gone = [] ∧
          k.part = t.part ∧ k.obj = hd ∧ k.core = core ∧ k.checkpoint = false ∧ k.image = (match (s.core core).group with
          | none => s.core core
          | some _ => { s.core core with group := none, c0 := { (s.core core).c0 with m := { (s.core core).c0.m with arrived := false } } }).image) ∧
    (∀ u o' ms, s.storeSpots o 0 bs.length = some (u, o', ms) → ∃ n, s.writeSave o bs = some ((u.draw bs.length).2.hostStore o' ms 0
      ((bs.zipIdx).map (fun b => b.1.getD ((Config.outside (n + b.2)).extractLsb' 0 8))) none)) ∧
    ∃ length sflags gpos, bs.take 64 = (leBytes 64 (s.header core length sflags gpos t).toNat).map some ∧ length = bs.length)) ∧
  (∀ (s : State) (p k core : Nat) (v : Save) (t : Task) (x : Part), (s.saves.filter (fun v => v.part == p && !v.checkpoint))[k]? = some v →
    v.image.c0.task = some t → s.part? p = some x → s.walks x = true → (s.core core).c0.task = none → (s.core core).hold = none →
    core ∈ recCores t.record → s.fits core v = true → mereOf core ∉ s.takeover →
    (s.acceptsSave v = false → exec (.contextRestore p k core) s = .next { s with sent := s.sent ++ [.saveRefused p v.sid] }) ∧
    (s.acceptsSave v = true →
      ∃ u : State, exec (.contextRestore p k core) s = .next u ∧ (∀ y ∈ u.saves, y.sid ≠ v.sid) ∧ (u.core core).c0.s = v.image.c0.s ∧
        (u.core core).c0.x = v.image.c0.x ∧ (u.core core).c0.task = some t ∧
        (∀ q, q < 24 → (u.core core).queue q = v.image.queue q) ∧ (∀ a, a < 12 → (u.core core).acc a = v.image.acc a))))

/-! ### The device -/

/-- R444, R447, R454, R455, R457: pairs claim leadership while the election is open, and the lowest claim is granted; the leader's
heartbeat is timed and ends a takeover; a machine check freezes a pair, whose mere's resolutions wait for the takeover, and the next
leader is the lowest-numbered pair that can lead; a lapse of the heartbeat is cause 5. That a takeover ends at the next leader's heartbeat
is the model's reading (log entry 70). R34, R36, R430, R454, R461, R486, R487, R494: power-on takes firmware that verifies, and a
configuration that verifies and that the part can have, with no leader and the election open; a thermal trip holds the package in warm
reset, and its release keeps memory, the black boxes and the records' count; the leader numbers an idle package, whose objects follow its
number; power-on derives the alias key from the identity key and the firmware's digests, and a warm reset keeps both (R488). The model's
choices here: memory is empty at power-on (log entry 1), firmware is judged before the configuration (log entry 99), a trip reads 110
degrees (log entry 107), what a warm reset keeps (log entry 108) and the renumbering (log entry 28). -/
def Obligations.LeaderAndPower : Prop :=
  (∀ (s : State) (m : Nat),
    (m < 8 → s.electionOpen = true → s.leader = none → s.fit m = true → m ∉ s.claims →
      exec (.leaderClaim m) s = .next { s with claims := s.claims ++ [m] }) ∧
    (s.electionOpen = true → s.leader = none → s.claims ≠ [] →
      ∃ c, c ∈ s.claims ∧ (∀ d ∈ s.claims, c ≤ d) ∧
        exec .electionGrant s = .next { s with leader := some c, electionOpen := false, claims := [], heartbeatAt := s.cycles }) ∧
    (s.leader.isSome = true → exec .heartbeat s = .next { s with heartbeatAt := s.cycles, takeover := [] }) ∧
    (∀ cause paddr, m < 8 → (s.mere m).frozen = false →
      ∃ u : State, exec (.machineCheck m cause paddr) s = .next u ∧ (u.mere m).frozen = true ∧ u.mem = s.mem ∧ u.cores = s.cores ∧
        m ∈ u.takeover ∧ (s.leader ≠ some m → u.leader = s.leader) ∧
        (s.leader = some m → u.leader = (List.range 8).find? (fun k => k != m && s.fit k))) ∧
    (∀ n, s.leader = some n → n < 8 →
      ∃ u : State, exec .heartbeatLapse s = .next u ∧ (u.mere n).frozen = true ∧ u.leader ≠ some n ∧ u.mem = s.mem)) ∧
  ((∀ (s : State) (b : Boot), ∃ u : State, exec (.powerOnReset b) s = .next u ∧ u.mem = [] ∧ u.leader = none ∧ u.electionOpen = true ∧
    u.cycles = State.reset.cycles ∧ u.ops = [] ∧ u.objs = [] ∧
    (∀ m, m < 8 → (u.mere m).verified = (match b.firmware[m]? with | some i => i.sigOk && decide (s.versions.getD 0 0 ≤ i.version) | none => false)) ∧
    u.configured = (b.cfgImage.sigOk && decide (s.versions.getD 1 0 ≤ b.cfgImage.version) && configFits b.cfg &&
      (List.range 8).any (fun m => (u.mere m).verified)) ∧
    u.identity = Config.identityKey ∧ u.aliasKey = Config.aliasKey Config.identityKey (u.digests.take 8) ∧
    (u.configured = true → u.parts.map (fun p => p.cfg) = b.cfg.parts) ∧ (u.configured = false → u.parts = [])) ∧
  (∀ s : State, exec .thermalTrip s = .next { s with warmHold := true, temperature := 110 }) ∧
  (∀ s : State, s.warmHold = true → ∃ u : State, exec .warmResetRelease s = .next u ∧ u.warmHold = false ∧ u.mem = s.mem ∧ u.cycles = s.cycles ∧
    u.package = s.package ∧ u.identity = s.identity ∧ u.aliasKey = s.aliasKey ∧ u.objs = [] ∧ u.ops = [] ∧ u.leader = none ∧
      (∀ m, (u.mere m).bbox = (s.mere m).bbox ∧ (u.mere m).queue = [] ∧
      (u.mere m).resIgnored = (s.mere m).resIgnored ∧ (u.mere m).seqno = (s.mere m).seqno) ∧
    u.parts.map (fun p => p.cfg) = s.parts.map (fun p => p.cfg)) ∧
  (∀ (s : State) (pkg : BitVec 10), s.leader.isSome = true → (∀ c ∈ s.cores, c.2.c0.task = none ∧ c.2.c1.task = none) → s.ops = [] → s.saves = [] →
    (∀ p ∈ s.parts, p.launches = [] ∧ p.conts = []) →
    ∃ u : State, exec (.fabricEnumeration pkg) s = .next u ∧ u.package = pkg ∧ u.mem = s.mem ∧ u.cores = s.cores ∧
      ((∀ o ∈ s.objs ++ s.ghosts, o.home ≠ s.package.toNat ∧ o.home ≠ pkg.toNat) → u = { s with package := pkg }) ∧
      (pkg ≠ s.package → ∀ o ∈ u.objs, o.home ≠ s.package.toNat)) ∧
  (∀ (s : State) (m : Nat), exec (.throttlePause m) s = .next (s.setMere m { s.mere m with pausedAt := some s.cycles })) ∧
  (∀ (s : State) (watts : Nat), 1800 ≤ watts → watts ≤ 3600 → exec (.powerLimitSet watts) s = .next { s with powerLimit := watts }))

/-- R483, R496: a reset of a partition makes it busy and stops its tasks, or during a checkpoint waits for its end, and once its issued
requests have completed it leaves the scheduler's tables and the accepted features empty; CLEAR then first destroys its objects of this
package. That it clears the connections is the model's reading (log entry 103). R452, R491, R492, R496: a checkpoint waits for the resets
that run and then quiesces; its copy saves the cores that run tasks, spills what lies in SRAM and takes the image once nothing is in
flight; its resume restores the saved cores and begins the resets written meanwhile; a restore writes the image back into HBM4E and LPDDR6
and leaves the rest of memory alone. A spill leaves no object's storage in SRAM, and the copy waits while HBM4E has no room for it. What
the copy waits for, what a restore leaves and the later resets are the model's choices: log entries 105, 106 and 102. -/
def Obligations.ResetsAndCheckpoints : Prop :=
  (∀ (s : State) (p : Nat) (x : Part), s.part? p = some x →
    (x.rstBusy = false → ∀ clear j, (clear, j) ∈ [(false, Instr.restart p), (true, .clear p)] →
      exec j s = .next (if s.ckpt = .quiesced ∨ s.ckpt = .copied then s.modPart p (fun y => { y with rstBusy := true, rstLater := some clear })
        else (s.modPart p (fun y => { y with rstBusy := true, rstClear := clear })).stopTasks p)) ∧
    (x.rstBusy = true → exec (.restart p) s = .next s ∧ exec (.clear p) s = .next s) ∧
    (x.rstBusy = true → x.rstLater = none → (∀ o ∈ s.ops, o.part ≠ p) → x.rstClear = false → (∀ w, (x.win w).bound = false) →
      (∀ c ∈ s.cores, c.2.c0.dying = none ∧ c.2.c1.dying = none) →
      ∃ u : State, exec (.partitionResetComplete p) s = .next u ∧ u.mem = s.mem ∧ u.cores = s.cores ∧
        ∃ y, u.part? p = some y ∧ y.rstBusy = false ∧ y.featAccept = 0 ∧ y.flock = false ∧ y.nodes = [] ∧ y.edges = [] ∧ y.launches = [] ∧
          y.conts = [] ∧ y.work = [] ∧ y.links = 0 ∧ y.held = [] ∧ y.cfg = x.cfg) ∧
    ((∀ o ∈ s.objs, o.waiters = []) → ∀ o ∈ (s.clearTable p).objs, ¬(o.home = s.package.toNat ∧ s.inRange p o.num = true))) ∧
  (∀ s : State,
    (∀ n, s.ckpt = .none → 1 ≤ n → n ≤ 16 →
      exec (.checkpointStart n) s = .next { s with ckptTargets := n, ckpt := if s.parts.any (fun x => x.rstBusy) then .waiting else .quiesced }) ∧
    (s.ckpt = .quiesced → s.ops = [] →
      let u := s.reap
      let v := ((u.cores.filter (fun c => c.2.c0.task.isSome || c.2.c1.task.isSome)).map (fun c => c.1)).foldl (fun s k => s.checkpointSave k) u
      (v.spillAll = none → exec .checkpointCopy s = .next s) ∧
      (∀ w, v.spillAll = some w → exec .checkpointCopy s = .next { w with ckpt := .copied, ckptImage := some (w.mem.filter inImage, w.objs) })) ∧
    (∀ w, (∀ o ∈ s.objs, o.home < 1024) → s.spillAll = some w → ∀ o ∈ w.objs, o.slicesOn w.package.toNat = []) ∧
    (s.ckpt = .quiesced → s.ops = [] → (∀ c ∈ s.cores, c.2.c0.task = none ∧ c.2.c1.task = none) → s.objs = [] → s.ghosts = [] →
      exec .checkpointCopy s = .next { s with ckpt := .copied, ckptImage := some (s.mem.filter inImage, []) }) ∧
    (s.ckpt = .copied →
      let vs := s.saves.filter (fun v => v.checkpoint)
      (∀ m, m < 8 → (s.mere m).queue.length + ((vs.filter (fun v => mereOf v.core == m)).flatMap (fun v => v.image.waiting v.core)).length ≤ 1024) →
      let u : State := { vs.foldl (fun s v => s.checkpointRestore v) s with ckpt := .none }
      exec .checkpointResume s = .next (u.parts.foldl (fun z x => match x.rstLater with
        | some clear => (z.modPart x.cfg.id (fun y => { y with rstBusy := false, rstLater := none })).beginReset x.cfg.id clear
        | none => z) u)) ∧
    (∀ cells objs, s.ckpt = .none → s.ckptImage = some (cells, objs) → s.memOk = true →
      ∃ u : State, exec .checkpointRestore s = .next u ∧ u.ops = [] ∧
        ∀ a, memByte u.mem a = if 0x010000000000 ≤ a ∧ a < 0x030000000000 then memByte cells a else memByte s.mem a))

/-- R461, R488 to R490: the host reads a mere's black box and counters; every request of SPDM is answered once, and a session is
established by KEY_EXCHANGE and FINISH. The certificate, the capabilities and the boot ROM's digest are the part's own words, the same at
every request; the words that are made with a key are free values, and which key signs is the model's choice (log entry 97). That the
black box reports the limit as the power drawn and the temperature that State holds is the model's choice as well (log entry 107). -/
def Obligations.Attestation : Prop :=
  ∀ s : State,
    let answers (j : Instr) (n : Nat) : Prop := ∃ (u : State) (ws : List (BitVec 256)), exec j s = .next u ∧ u.sent = s.sent ++ [.spdm n ws] ∧
      u.mem = s.mem ∧ u.cores = s.cores ∧ u.parts = s.parts ∧ u.objs = s.objs
    answers .getVersion 0 ∧ exec .getCapabilities s = .next { s with sent := s.sent ++ [.spdm 1 [Config.capabilities]] } ∧
    (s.spdmNegotiated = true →
      exec .getDigests s = .next { s with sent := s.sent ++ [.spdm 3 (digestWords Config.certificateDigest)] } ∧
      exec .getCertificate s = .next { s with sent := s.sent ++ [.spdm 4 Config.certificate] } ∧
      ∃ u ws, exec .getMeasurements s = .next u ∧ u.sent = s.sent ++ [.spdm 6 ((Config.bootRomDigest :: s.digests).flatMap digestWords ++
        s.parts.map (fun p => p.featAccept) ++ ws)]) ∧
    answers .getDigests 3 ∧ answers .getCertificate 4 ∧
    (∀ n, answers (.challenge n) 5) ∧ answers .getMeasurements 6 ∧
    (∃ u : State, exec .negotiateAlgorithms s = .next u ∧ u.spdmNegotiated = true ∧ u.sent = s.sent ++ [.spdm 2 [384, 384, 256]]) ∧
    (∀ k, s.spdmNegotiated = true → k ∉ s.spdmSessions →
      ∃ u ws, exec (.keyExchange k) s = .next u ∧ k ∈ u.spdmPending ∧ u.spdmSessions = s.spdmSessions ∧ u.sent = s.sent ++ [.spdm 7 ws]) ∧
    (∀ k, k ∈ s.spdmPending → ∃ u ws, exec (.finish k) s = .next u ∧ k ∉ u.spdmPending ∧ u.spdmSessions = s.spdmSessions ++ [k] ∧
      u.sent = s.sent ++ [.spdm 8 ws]) ∧
    (∀ m, exec (.blackBoxRead m) s = .next { s with sent := s.sent ++ [.blackBox m (s.mere m).bbox
      [(s.mere m).latePromo, (s.mere m).bboxDrops, (s.mere m).eccCorr, (s.mere m).resIgnored], .power s.powerLimit s.temperature] })

/-! ### The machine as a whole -/

/-- R218, R219, R222, R231 to R235: one step of an engine whose turn it is runs the instruction that the words at its program counter
decode to; words that do not decode fault instead, in the order of R235; an engine that may not issue does nothing; one whose TOKEN_STALL
waits for a place in the fault queue tries again (R143, R432); a held signal keeps it waiting. An event on the agenda is executed as the
instruction it is. Without an agenda the next move of the default order is made: the agenda, the default order and the cycle that each of
its rounds takes are the model's own (log entries 4 and 8), and so is that the feature of a malformed MNCFG is judged as the word reaches
issue (log entry 140). -/
def Obligations.StepRunsDecoded : Prop :=
  ∀ (s : State) (rest : List Action),
    (∀ (w : EngRef), s.agenda = .turn w :: rest →
      let u : State := { s with agenda := rest, turn := w }
      (u.canIssue w = false → step s = .next u) ∧
      (∀ st, u.overdue w = some st → step s = .next (u.stallFault w st)) ∧
      (u.canIssue w = true → u.overdue w = none → (s.eng w).heldP ≠ 0 → step s = .next (u.stallAt w (.heldSignal 2))) ∧
      (u.canIssue w = true → u.overdue w = none → (s.eng w).heldP = 0 → (s.eng w).heldN ≠ 0 → step s = .next (u.stallAt w (.heldSignal 3))) ∧
      (u.canIssue w = true → u.overdue w = none → (s.eng w).heldP = 0 → (s.eng w).heldN = 0 →
        (∀ t, u.fetch w = .error t → step s = .next (u.takeFault w t)) ∧
        (∀ w0 w1, u.fetch w = .ok (w0, w1) →
          (∀ i, decode w0 w1 = .instr i → step s = exec i u) ∧
          (decode w0 w1 = .unassigned → step s = .next (u.takeFault w { code := .illegalOp })) ∧
          (decode w0 w1 = .badEncoding →
            let feat := if w0.extractLsb' 20 8 = 0x81 then mncfgFeature w u (Dep.ofWord w0) (w0.extractLsb' 14 6).toNat (w0.extractLsb' 8 6) else opFeature w0 w1
            (u.accepts w feat = false → step s = .next (u.takeFault w { code := .illegalOp })) ∧
            (u.accepts w feat = true → ∀ e, opEngine (w0.extractLsb' 20 8).toNat = some e →
              (e ≠ w.eng → step s = .next (u.takeFault w { code := .engineMismatch })) ∧
              (e = w.eng → step s = .next (u.takeFault w { code := .illegalEnc }))))))) ∧
    (∀ i : Instr, s.agenda = .event i :: rest → i.words = 0 → i.wf = true → (s.warmHold = true → heldEvent i = true) →
      step s = exec i { s with agenda := rest }) ∧
    (∀ n, s.agenda = .tick n :: rest →
      let u : State := { s with agenda := rest }
      step s = .next (u.elapse n)) ∧
    (s.agenda = [] → s.warmHold = false →
      let ms := s.movers exec
      let k := s.beat % max 1 ms.length
      let u : State := { (if k = 0 then s.elapse 1 else s) with beat := k + 1 }
      (∀ f, ms[k]? = some f → step s = f u) ∧ (ms = [] → step s = .next u))

/-- R218, R222, R224 to R227: words of the spec's worked examples decode to the instructions they stand for. -/
def Obligations.DecodedWords : Prop :=
  decode 0x03600D38 0 = .instr (.subSubscribe Dep.none 0 13 14) ∧
  decode 0x02D0C000 0 = .instr (.park Dep.none 3 0) ∧
  decode 0x31440900 0 = .instr (.shr ⟨false, false, true, true⟩ 16 9 0)

/-- R218, R222, R224 to R230, R234: decoding and encoding agree. The words of every well-formed instruction, with every operand at every
value that its fields admit, decode to it, whatever word follows a word that stands alone; and words that decode are the words of the
instruction they decode to, which is well formed. -/
def Obligations.EncodeDecode : Prop :=
  (∀ i : Instr, i.wf = true → i.words ≠ 0 →
    (encode i).length = i.words ∧ ∀ w1 : BitVec 32, decode ((encode i).getD 0 0) ((encode i).getD 1 w1) = .instr i) ∧
  (∀ (w0 w1 : BitVec 32) (i : Instr), decode w0 w1 = .instr i →
    i.wf = true ∧ encode i = if i.words = 2 then [w0, w1] else [w0])

/-- R3, R174: every step keeps memory, and a checkpoint's image of it, in canonical form: addresses rising, no zero byte listed (the
model's form of memory, log entry 1). -/
def Obligations.MemoryInvariant : Prop :=
  ∀ s t : State, step s = .next t → s.memOk = true → t.memOk = true

/-- R36, R138, R161, R202, R430, R461, R465, R470: what power-on reset leaves: memory with nothing listed, in canonical form; the wheel
counter, the records and the black boxes at 0; no task, null handles; and of a partition made then, its registers at their reset values.
That memory lists nothing at power-on and what the registers without a stated reset value hold is the model's choice: log entries 1 and 3.
-/
def Obligations.ResetValues : Prop :=
  State.reset.memOk = true ∧ State.reset.mem = [] ∧ State.reset.cycles = 0 ∧
  (∀ m : Nat, (State.reset.mere m).seqno = 0 ∧ (State.reset.mere m).queue = [] ∧ (State.reset.mere m).bbox = [] ∧
    (State.reset.mere m).bboxCount = 0 ∧ (State.reset.mere m).latePromo = 0 ∧ (State.reset.mere m).bboxDrops = 0 ∧
    (State.reset.mere m).eccCorr = 0 ∧ (State.reset.mere m).resIgnored = 0) ∧
  (∀ (w : EngRef) (h : BitVec 5), State.reset.task w = none ∧ (State.reset.hreg w h).h = 0 ∧ State.reset.canIssue w = false) ∧
  ∀ (s : State) (b : Boot) (u : State), exec (.powerOnReset b) s = .next u →
    (s.memOk = true → u.memOk = true) ∧ (∀ m : Nat, (u.mere m).seqno = 0 ∧ (u.mere m).queue = [] ∧ (u.mere m).bbox = []) ∧
    ∀ p ∈ u.parts, p.featAccept = 0 ∧ p.flock = false ∧ p.rstBusy = false ∧ p.lqbad = false ∧ p.nodes = [] ∧ p.launches = [] ∧
      ∀ w, (p.win w).wctl = 0 ∧ (p.win w).wtgt = 0xFFFFFFFFFFFFFFFF#64 ∧ (p.win w).badbind = false ∧ (p.win w).dropped = false ∧
        (p.win w).frozen = false ∧ (p.win w).closed = false ∧ (p.win w).bound = false

/-- R174: no instruction and no event is refused, and a step stops only at a physical address that is not populated. That a step stops
there is the model's choice: log entry 111. -/
def Obligations.Stops : Prop :=
  (∀ (i : Instr) (s : State) (r : Refusal), exec i s ≠ .refused r) ∧
  (∀ (s : State) (r : Refusal), step s ≠ .refused r) ∧
  ∀ (s : State) (f : Fault), step s = .fault f → ∃ a, f = .unpopulated a ∧ populated a = false
end

