-- ==== Sys2Proof/Laws/State.lean ====
section
/-! SUPPORT. What each update of the state leaves alone, field by field, and reading after writing. -/

namespace Sys2Proof.Machine

open Sys2Proof

/-! ### Fields that an update leaves alone -/

@[simp] theorem State.setCore_mem (s : State) (k : Nat) (c : Core) : (s.setCore k c).mem = s.mem := rfl
@[simp] theorem State.setCore_cycles (s : State) (k : Nat) (c : Core) : (s.setCore k c).cycles = s.cycles := rfl
@[simp] theorem State.setCore_identity (s : State) (k : Nat) (c : Core) : (s.setCore k c).identity = s.identity := rfl
@[simp] theorem State.setCore_aliasKey (s : State) (k : Nat) (c : Core) : (s.setCore k c).aliasKey = s.aliasKey := rfl
@[simp] theorem State.setCore_package (s : State) (k : Nat) (c : Core) : (s.setCore k c).package = s.package := rfl
@[simp] theorem State.setCore_tarns (s : State) (k : Nat) (c : Core) : (s.setCore k c).tarns = s.tarns := rfl
@[simp] theorem State.setCore_meres (s : State) (k : Nat) (c : Core) : (s.setCore k c).meres = s.meres := rfl
@[simp] theorem State.setCore_parts (s : State) (k : Nat) (c : Core) : (s.setCore k c).parts = s.parts := rfl
@[simp] theorem State.setCore_objs (s : State) (k : Nat) (c : Core) : (s.setCore k c).objs = s.objs := rfl
@[simp] theorem State.setCore_ghosts (s : State) (k : Nat) (c : Core) : (s.setCore k c).ghosts = s.ghosts := rfl
@[simp] theorem State.setCore_cold (s : State) (k : Nat) (c : Core) : (s.setCore k c).cold = s.cold := rfl
@[simp] theorem State.setCore_system (s : State) (k : Nat) (c : Core) : (s.setCore k c).system = s.system := rfl
@[simp] theorem State.setCore_takeover (s : State) (k : Nat) (c : Core) : (s.setCore k c).takeover = s.takeover := rfl
@[simp] theorem State.setCore_ops (s : State) (k : Nat) (c : Core) : (s.setCore k c).ops = s.ops := rfl
@[simp] theorem State.setCore_bars (s : State) (k : Nat) (c : Core) : (s.setCore k c).bars = s.bars := rfl
@[simp] theorem State.setCore_waitingRecs (s : State) (k : Nat) (c : Core) : (s.setCore k c).waitingRecs = s.waitingRecs := rfl
@[simp] theorem State.setCore_badWords (s : State) (k : Nat) (c : Core) : (s.setCore k c).badWords = s.badWords := rfl
@[simp] theorem State.setCore_ckptImage (s : State) (k : Nat) (c : Core) : (s.setCore k c).ckptImage = s.ckptImage := rfl
@[simp] theorem State.setCore_ckpt (s : State) (k : Nat) (c : Core) : (s.setCore k c).ckpt = s.ckpt := rfl
@[simp] theorem State.setCore_warmHold (s : State) (k : Nat) (c : Core) : (s.setCore k c).warmHold = s.warmHold := rfl
@[simp] theorem State.setCore_sent (s : State) (k : Nat) (c : Core) : (s.setCore k c).sent = s.sent := rfl
@[simp] theorem State.setCore_agenda (s : State) (k : Nat) (c : Core) : (s.setCore k c).agenda = s.agenda := rfl
@[simp] theorem State.setCore_turn (s : State) (k : Nat) (c : Core) : (s.setCore k c).turn = s.turn := rfl
@[simp] theorem State.setCore_fresh (s : State) (k : Nat) (c : Core) : (s.setCore k c).fresh = s.fresh := rfl
@[simp] theorem State.setCore_nextId (s : State) (k : Nat) (c : Core) : (s.setCore k c).nextId = s.nextId := rfl
@[simp] theorem State.setCtx_mem (s : State) (w : EngRef) (x : Ctx) : (s.setCtx w x).mem = s.mem := rfl
@[simp] theorem State.setCtx_cycles (s : State) (w : EngRef) (x : Ctx) : (s.setCtx w x).cycles = s.cycles := rfl
@[simp] theorem State.setCtx_identity (s : State) (w : EngRef) (x : Ctx) : (s.setCtx w x).identity = s.identity := rfl
@[simp] theorem State.setCtx_aliasKey (s : State) (w : EngRef) (x : Ctx) : (s.setCtx w x).aliasKey = s.aliasKey := rfl
@[simp] theorem State.setCtx_package (s : State) (w : EngRef) (x : Ctx) : (s.setCtx w x).package = s.package := rfl
@[simp] theorem State.setCtx_tarns (s : State) (w : EngRef) (x : Ctx) : (s.setCtx w x).tarns = s.tarns := rfl
@[simp] theorem State.setCtx_meres (s : State) (w : EngRef) (x : Ctx) : (s.setCtx w x).meres = s.meres := rfl
@[simp] theorem State.setCtx_parts (s : State) (w : EngRef) (x : Ctx) : (s.setCtx w x).parts = s.parts := rfl
@[simp] theorem State.setCtx_objs (s : State) (w : EngRef) (x : Ctx) : (s.setCtx w x).objs = s.objs := rfl
@[simp] theorem State.setCtx_ghosts (s : State) (w : EngRef) (x : Ctx) : (s.setCtx w x).ghosts = s.ghosts := rfl
@[simp] theorem State.setCtx_cold (s : State) (w : EngRef) (x : Ctx) : (s.setCtx w x).cold = s.cold := rfl
@[simp] theorem State.setCtx_system (s : State) (w : EngRef) (x : Ctx) : (s.setCtx w x).system = s.system := rfl
@[simp] theorem State.setCtx_takeover (s : State) (w : EngRef) (x : Ctx) : (s.setCtx w x).takeover = s.takeover := rfl
@[simp] theorem State.setCtx_ops (s : State) (w : EngRef) (x : Ctx) : (s.setCtx w x).ops = s.ops := rfl
@[simp] theorem State.setCtx_bars (s : State) (w : EngRef) (x : Ctx) : (s.setCtx w x).bars = s.bars := rfl
@[simp] theorem State.setCtx_waitingRecs (s : State) (w : EngRef) (x : Ctx) : (s.setCtx w x).waitingRecs = s.waitingRecs := rfl
@[simp] theorem State.setCtx_badWords (s : State) (w : EngRef) (x : Ctx) : (s.setCtx w x).badWords = s.badWords := rfl
@[simp] theorem State.setCtx_ckptImage (s : State) (w : EngRef) (x : Ctx) : (s.setCtx w x).ckptImage = s.ckptImage := rfl
@[simp] theorem State.setCtx_ckpt (s : State) (w : EngRef) (x : Ctx) : (s.setCtx w x).ckpt = s.ckpt := rfl
@[simp] theorem State.setCtx_warmHold (s : State) (w : EngRef) (x : Ctx) : (s.setCtx w x).warmHold = s.warmHold := rfl
@[simp] theorem State.setCtx_sent (s : State) (w : EngRef) (x : Ctx) : (s.setCtx w x).sent = s.sent := rfl
@[simp] theorem State.setCtx_agenda (s : State) (w : EngRef) (x : Ctx) : (s.setCtx w x).agenda = s.agenda := rfl
@[simp] theorem State.setCtx_turn (s : State) (w : EngRef) (x : Ctx) : (s.setCtx w x).turn = s.turn := rfl
@[simp] theorem State.setCtx_fresh (s : State) (w : EngRef) (x : Ctx) : (s.setCtx w x).fresh = s.fresh := rfl
@[simp] theorem State.setCtx_nextId (s : State) (w : EngRef) (x : Ctx) : (s.setCtx w x).nextId = s.nextId := rfl
@[simp] theorem State.setEng_mem (s : State) (w : EngRef) (x : Engine) : (s.setEng w x).mem = s.mem := rfl
@[simp] theorem State.setEng_cycles (s : State) (w : EngRef) (x : Engine) : (s.setEng w x).cycles = s.cycles := rfl
@[simp] theorem State.setEng_identity (s : State) (w : EngRef) (x : Engine) : (s.setEng w x).identity = s.identity := rfl
@[simp] theorem State.setEng_aliasKey (s : State) (w : EngRef) (x : Engine) : (s.setEng w x).aliasKey = s.aliasKey := rfl
@[simp] theorem State.setEng_package (s : State) (w : EngRef) (x : Engine) : (s.setEng w x).package = s.package := rfl
@[simp] theorem State.setEng_tarns (s : State) (w : EngRef) (x : Engine) : (s.setEng w x).tarns = s.tarns := rfl
@[simp] theorem State.setEng_meres (s : State) (w : EngRef) (x : Engine) : (s.setEng w x).meres = s.meres := rfl
@[simp] theorem State.setEng_parts (s : State) (w : EngRef) (x : Engine) : (s.setEng w x).parts = s.parts := rfl
@[simp] theorem State.setEng_objs (s : State) (w : EngRef) (x : Engine) : (s.setEng w x).objs = s.objs := rfl
@[simp] theorem State.setEng_ghosts (s : State) (w : EngRef) (x : Engine) : (s.setEng w x).ghosts = s.ghosts := rfl
@[simp] theorem State.setEng_cold (s : State) (w : EngRef) (x : Engine) : (s.setEng w x).cold = s.cold := rfl
@[simp] theorem State.setEng_system (s : State) (w : EngRef) (x : Engine) : (s.setEng w x).system = s.system := rfl
@[simp] theorem State.setEng_takeover (s : State) (w : EngRef) (x : Engine) : (s.setEng w x).takeover = s.takeover := rfl
@[simp] theorem State.setEng_ops (s : State) (w : EngRef) (x : Engine) : (s.setEng w x).ops = s.ops := rfl
@[simp] theorem State.setEng_bars (s : State) (w : EngRef) (x : Engine) : (s.setEng w x).bars = s.bars := rfl
@[simp] theorem State.setEng_waitingRecs (s : State) (w : EngRef) (x : Engine) : (s.setEng w x).waitingRecs = s.waitingRecs := rfl
@[simp] theorem State.setEng_badWords (s : State) (w : EngRef) (x : Engine) : (s.setEng w x).badWords = s.badWords := rfl
@[simp] theorem State.setEng_ckptImage (s : State) (w : EngRef) (x : Engine) : (s.setEng w x).ckptImage = s.ckptImage := rfl
@[simp] theorem State.setEng_ckpt (s : State) (w : EngRef) (x : Engine) : (s.setEng w x).ckpt = s.ckpt := rfl
@[simp] theorem State.setEng_warmHold (s : State) (w : EngRef) (x : Engine) : (s.setEng w x).warmHold = s.warmHold := rfl
@[simp] theorem State.setEng_sent (s : State) (w : EngRef) (x : Engine) : (s.setEng w x).sent = s.sent := rfl
@[simp] theorem State.setEng_agenda (s : State) (w : EngRef) (x : Engine) : (s.setEng w x).agenda = s.agenda := rfl
@[simp] theorem State.setEng_turn (s : State) (w : EngRef) (x : Engine) : (s.setEng w x).turn = s.turn := rfl
@[simp] theorem State.setEng_fresh (s : State) (w : EngRef) (x : Engine) : (s.setEng w x).fresh = s.fresh := rfl
@[simp] theorem State.setEng_nextId (s : State) (w : EngRef) (x : Engine) : (s.setEng w x).nextId = s.nextId := rfl
@[simp] theorem State.modCore_mem (s : State) (k : Nat) (f : Core → Core) : (s.modCore k f).mem = s.mem := rfl
@[simp] theorem State.modCore_cycles (s : State) (k : Nat) (f : Core → Core) : (s.modCore k f).cycles = s.cycles := rfl
@[simp] theorem State.modCore_identity (s : State) (k : Nat) (f : Core → Core) : (s.modCore k f).identity = s.identity := rfl
@[simp] theorem State.modCore_aliasKey (s : State) (k : Nat) (f : Core → Core) : (s.modCore k f).aliasKey = s.aliasKey := rfl
@[simp] theorem State.modCore_package (s : State) (k : Nat) (f : Core → Core) : (s.modCore k f).package = s.package := rfl
@[simp] theorem State.modCore_tarns (s : State) (k : Nat) (f : Core → Core) : (s.modCore k f).tarns = s.tarns := rfl
@[simp] theorem State.modCore_meres (s : State) (k : Nat) (f : Core → Core) : (s.modCore k f).meres = s.meres := rfl
@[simp] theorem State.modCore_parts (s : State) (k : Nat) (f : Core → Core) : (s.modCore k f).parts = s.parts := rfl
@[simp] theorem State.modCore_objs (s : State) (k : Nat) (f : Core → Core) : (s.modCore k f).objs = s.objs := rfl
@[simp] theorem State.modCore_ghosts (s : State) (k : Nat) (f : Core → Core) : (s.modCore k f).ghosts = s.ghosts := rfl
@[simp] theorem State.modCore_cold (s : State) (k : Nat) (f : Core → Core) : (s.modCore k f).cold = s.cold := rfl
@[simp] theorem State.modCore_system (s : State) (k : Nat) (f : Core → Core) : (s.modCore k f).system = s.system := rfl
@[simp] theorem State.modCore_takeover (s : State) (k : Nat) (f : Core → Core) : (s.modCore k f).takeover = s.takeover := rfl
@[simp] theorem State.modCore_ops (s : State) (k : Nat) (f : Core → Core) : (s.modCore k f).ops = s.ops := rfl
@[simp] theorem State.modCore_bars (s : State) (k : Nat) (f : Core → Core) : (s.modCore k f).bars = s.bars := rfl
@[simp] theorem State.modCore_waitingRecs (s : State) (k : Nat) (f : Core → Core) : (s.modCore k f).waitingRecs = s.waitingRecs := rfl
@[simp] theorem State.modCore_badWords (s : State) (k : Nat) (f : Core → Core) : (s.modCore k f).badWords = s.badWords := rfl
@[simp] theorem State.modCore_ckptImage (s : State) (k : Nat) (f : Core → Core) : (s.modCore k f).ckptImage = s.ckptImage := rfl
@[simp] theorem State.modCore_ckpt (s : State) (k : Nat) (f : Core → Core) : (s.modCore k f).ckpt = s.ckpt := rfl
@[simp] theorem State.modCore_warmHold (s : State) (k : Nat) (f : Core → Core) : (s.modCore k f).warmHold = s.warmHold := rfl
@[simp] theorem State.modCore_sent (s : State) (k : Nat) (f : Core → Core) : (s.modCore k f).sent = s.sent := rfl
@[simp] theorem State.modCore_agenda (s : State) (k : Nat) (f : Core → Core) : (s.modCore k f).agenda = s.agenda := rfl
@[simp] theorem State.modCore_turn (s : State) (k : Nat) (f : Core → Core) : (s.modCore k f).turn = s.turn := rfl
@[simp] theorem State.modCore_fresh (s : State) (k : Nat) (f : Core → Core) : (s.modCore k f).fresh = s.fresh := rfl
@[simp] theorem State.modCore_nextId (s : State) (k : Nat) (f : Core → Core) : (s.modCore k f).nextId = s.nextId := rfl
@[simp] theorem State.modEng_mem (s : State) (w : EngRef) (f : Engine → Engine) : (s.modEng w f).mem = s.mem := rfl
@[simp] theorem State.modEng_cycles (s : State) (w : EngRef) (f : Engine → Engine) : (s.modEng w f).cycles = s.cycles := rfl
@[simp] theorem State.modEng_identity (s : State) (w : EngRef) (f : Engine → Engine) : (s.modEng w f).identity = s.identity := rfl
@[simp] theorem State.modEng_aliasKey (s : State) (w : EngRef) (f : Engine → Engine) : (s.modEng w f).aliasKey = s.aliasKey := rfl
@[simp] theorem State.modEng_package (s : State) (w : EngRef) (f : Engine → Engine) : (s.modEng w f).package = s.package := rfl
@[simp] theorem State.modEng_tarns (s : State) (w : EngRef) (f : Engine → Engine) : (s.modEng w f).tarns = s.tarns := rfl
@[simp] theorem State.modEng_meres (s : State) (w : EngRef) (f : Engine → Engine) : (s.modEng w f).meres = s.meres := rfl
@[simp] theorem State.modEng_parts (s : State) (w : EngRef) (f : Engine → Engine) : (s.modEng w f).parts = s.parts := rfl
@[simp] theorem State.modEng_objs (s : State) (w : EngRef) (f : Engine → Engine) : (s.modEng w f).objs = s.objs := rfl
@[simp] theorem State.modEng_ghosts (s : State) (w : EngRef) (f : Engine → Engine) : (s.modEng w f).ghosts = s.ghosts := rfl
@[simp] theorem State.modEng_cold (s : State) (w : EngRef) (f : Engine → Engine) : (s.modEng w f).cold = s.cold := rfl
@[simp] theorem State.modEng_system (s : State) (w : EngRef) (f : Engine → Engine) : (s.modEng w f).system = s.system := rfl
@[simp] theorem State.modEng_takeover (s : State) (w : EngRef) (f : Engine → Engine) : (s.modEng w f).takeover = s.takeover := rfl
@[simp] theorem State.modEng_ops (s : State) (w : EngRef) (f : Engine → Engine) : (s.modEng w f).ops = s.ops := rfl
@[simp] theorem State.modEng_bars (s : State) (w : EngRef) (f : Engine → Engine) : (s.modEng w f).bars = s.bars := rfl
@[simp] theorem State.modEng_waitingRecs (s : State) (w : EngRef) (f : Engine → Engine) : (s.modEng w f).waitingRecs = s.waitingRecs := rfl
@[simp] theorem State.modEng_badWords (s : State) (w : EngRef) (f : Engine → Engine) : (s.modEng w f).badWords = s.badWords := rfl
@[simp] theorem State.modEng_ckptImage (s : State) (w : EngRef) (f : Engine → Engine) : (s.modEng w f).ckptImage = s.ckptImage := rfl
@[simp] theorem State.modEng_ckpt (s : State) (w : EngRef) (f : Engine → Engine) : (s.modEng w f).ckpt = s.ckpt := rfl
@[simp] theorem State.modEng_warmHold (s : State) (w : EngRef) (f : Engine → Engine) : (s.modEng w f).warmHold = s.warmHold := rfl
@[simp] theorem State.modEng_sent (s : State) (w : EngRef) (f : Engine → Engine) : (s.modEng w f).sent = s.sent := rfl
@[simp] theorem State.modEng_agenda (s : State) (w : EngRef) (f : Engine → Engine) : (s.modEng w f).agenda = s.agenda := rfl
@[simp] theorem State.modEng_turn (s : State) (w : EngRef) (f : Engine → Engine) : (s.modEng w f).turn = s.turn := rfl
@[simp] theorem State.modEng_fresh (s : State) (w : EngRef) (f : Engine → Engine) : (s.modEng w f).fresh = s.fresh := rfl
@[simp] theorem State.modEng_nextId (s : State) (w : EngRef) (f : Engine → Engine) : (s.modEng w f).nextId = s.nextId := rfl
@[simp] theorem State.setS_mem (s : State) (w : EngRef) (i : BitVec 6) (v : BitVec 64) : (s.setS w i v).mem = s.mem := rfl
@[simp] theorem State.setS_cycles (s : State) (w : EngRef) (i : BitVec 6) (v : BitVec 64) : (s.setS w i v).cycles = s.cycles := rfl
@[simp] theorem State.setS_identity (s : State) (w : EngRef) (i : BitVec 6) (v : BitVec 64) : (s.setS w i v).identity = s.identity := rfl
@[simp] theorem State.setS_aliasKey (s : State) (w : EngRef) (i : BitVec 6) (v : BitVec 64) : (s.setS w i v).aliasKey = s.aliasKey := rfl
@[simp] theorem State.setS_package (s : State) (w : EngRef) (i : BitVec 6) (v : BitVec 64) : (s.setS w i v).package = s.package := rfl
@[simp] theorem State.setS_tarns (s : State) (w : EngRef) (i : BitVec 6) (v : BitVec 64) : (s.setS w i v).tarns = s.tarns := rfl
@[simp] theorem State.setS_meres (s : State) (w : EngRef) (i : BitVec 6) (v : BitVec 64) : (s.setS w i v).meres = s.meres := rfl
@[simp] theorem State.setS_parts (s : State) (w : EngRef) (i : BitVec 6) (v : BitVec 64) : (s.setS w i v).parts = s.parts := rfl
@[simp] theorem State.setS_objs (s : State) (w : EngRef) (i : BitVec 6) (v : BitVec 64) : (s.setS w i v).objs = s.objs := rfl
@[simp] theorem State.setS_ghosts (s : State) (w : EngRef) (i : BitVec 6) (v : BitVec 64) : (s.setS w i v).ghosts = s.ghosts := rfl
@[simp] theorem State.setS_cold (s : State) (w : EngRef) (i : BitVec 6) (v : BitVec 64) : (s.setS w i v).cold = s.cold := rfl
@[simp] theorem State.setS_system (s : State) (w : EngRef) (i : BitVec 6) (v : BitVec 64) : (s.setS w i v).system = s.system := rfl
@[simp] theorem State.setS_takeover (s : State) (w : EngRef) (i : BitVec 6) (v : BitVec 64) : (s.setS w i v).takeover = s.takeover := rfl
@[simp] theorem State.setS_ops (s : State) (w : EngRef) (i : BitVec 6) (v : BitVec 64) : (s.setS w i v).ops = s.ops := rfl
@[simp] theorem State.setS_bars (s : State) (w : EngRef) (i : BitVec 6) (v : BitVec 64) : (s.setS w i v).bars = s.bars := rfl
@[simp] theorem State.setS_waitingRecs (s : State) (w : EngRef) (i : BitVec 6) (v : BitVec 64) : (s.setS w i v).waitingRecs = s.waitingRecs := rfl
@[simp] theorem State.setS_badWords (s : State) (w : EngRef) (i : BitVec 6) (v : BitVec 64) : (s.setS w i v).badWords = s.badWords := rfl
@[simp] theorem State.setS_ckptImage (s : State) (w : EngRef) (i : BitVec 6) (v : BitVec 64) : (s.setS w i v).ckptImage = s.ckptImage := rfl
@[simp] theorem State.setS_ckpt (s : State) (w : EngRef) (i : BitVec 6) (v : BitVec 64) : (s.setS w i v).ckpt = s.ckpt := rfl
@[simp] theorem State.setS_warmHold (s : State) (w : EngRef) (i : BitVec 6) (v : BitVec 64) : (s.setS w i v).warmHold = s.warmHold := rfl
@[simp] theorem State.setS_sent (s : State) (w : EngRef) (i : BitVec 6) (v : BitVec 64) : (s.setS w i v).sent = s.sent := rfl
@[simp] theorem State.setS_agenda (s : State) (w : EngRef) (i : BitVec 6) (v : BitVec 64) : (s.setS w i v).agenda = s.agenda := rfl
@[simp] theorem State.setS_turn (s : State) (w : EngRef) (i : BitVec 6) (v : BitVec 64) : (s.setS w i v).turn = s.turn := rfl
@[simp] theorem State.setS_fresh (s : State) (w : EngRef) (i : BitVec 6) (v : BitVec 64) : (s.setS w i v).fresh = s.fresh := rfl
@[simp] theorem State.setS_nextId (s : State) (w : EngRef) (i : BitVec 6) (v : BitVec 64) : (s.setS w i v).nextId = s.nextId := rfl
@[simp] theorem State.setH_mem (s : State) (w : EngRef) (i : BitVec 5) (v : HReg) : (s.setH w i v).mem = s.mem := rfl
@[simp] theorem State.setH_cycles (s : State) (w : EngRef) (i : BitVec 5) (v : HReg) : (s.setH w i v).cycles = s.cycles := rfl
@[simp] theorem State.setH_identity (s : State) (w : EngRef) (i : BitVec 5) (v : HReg) : (s.setH w i v).identity = s.identity := rfl
@[simp] theorem State.setH_aliasKey (s : State) (w : EngRef) (i : BitVec 5) (v : HReg) : (s.setH w i v).aliasKey = s.aliasKey := rfl
@[simp] theorem State.setH_package (s : State) (w : EngRef) (i : BitVec 5) (v : HReg) : (s.setH w i v).package = s.package := rfl
@[simp] theorem State.setH_tarns (s : State) (w : EngRef) (i : BitVec 5) (v : HReg) : (s.setH w i v).tarns = s.tarns := rfl
@[simp] theorem State.setH_meres (s : State) (w : EngRef) (i : BitVec 5) (v : HReg) : (s.setH w i v).meres = s.meres := rfl
@[simp] theorem State.setH_parts (s : State) (w : EngRef) (i : BitVec 5) (v : HReg) : (s.setH w i v).parts = s.parts := rfl
@[simp] theorem State.setH_objs (s : State) (w : EngRef) (i : BitVec 5) (v : HReg) : (s.setH w i v).objs = s.objs := rfl
@[simp] theorem State.setH_ghosts (s : State) (w : EngRef) (i : BitVec 5) (v : HReg) : (s.setH w i v).ghosts = s.ghosts := rfl
@[simp] theorem State.setH_cold (s : State) (w : EngRef) (i : BitVec 5) (v : HReg) : (s.setH w i v).cold = s.cold := rfl
@[simp] theorem State.setH_system (s : State) (w : EngRef) (i : BitVec 5) (v : HReg) : (s.setH w i v).system = s.system := rfl
@[simp] theorem State.setH_takeover (s : State) (w : EngRef) (i : BitVec 5) (v : HReg) : (s.setH w i v).takeover = s.takeover := rfl
@[simp] theorem State.setH_ops (s : State) (w : EngRef) (i : BitVec 5) (v : HReg) : (s.setH w i v).ops = s.ops := rfl
@[simp] theorem State.setH_bars (s : State) (w : EngRef) (i : BitVec 5) (v : HReg) : (s.setH w i v).bars = s.bars := rfl
@[simp] theorem State.setH_waitingRecs (s : State) (w : EngRef) (i : BitVec 5) (v : HReg) : (s.setH w i v).waitingRecs = s.waitingRecs := rfl
@[simp] theorem State.setH_badWords (s : State) (w : EngRef) (i : BitVec 5) (v : HReg) : (s.setH w i v).badWords = s.badWords := rfl
@[simp] theorem State.setH_ckptImage (s : State) (w : EngRef) (i : BitVec 5) (v : HReg) : (s.setH w i v).ckptImage = s.ckptImage := rfl
@[simp] theorem State.setH_ckpt (s : State) (w : EngRef) (i : BitVec 5) (v : HReg) : (s.setH w i v).ckpt = s.ckpt := rfl
@[simp] theorem State.setH_warmHold (s : State) (w : EngRef) (i : BitVec 5) (v : HReg) : (s.setH w i v).warmHold = s.warmHold := rfl
@[simp] theorem State.setH_sent (s : State) (w : EngRef) (i : BitVec 5) (v : HReg) : (s.setH w i v).sent = s.sent := rfl
@[simp] theorem State.setH_agenda (s : State) (w : EngRef) (i : BitVec 5) (v : HReg) : (s.setH w i v).agenda = s.agenda := rfl
@[simp] theorem State.setH_turn (s : State) (w : EngRef) (i : BitVec 5) (v : HReg) : (s.setH w i v).turn = s.turn := rfl
@[simp] theorem State.setH_fresh (s : State) (w : EngRef) (i : BitVec 5) (v : HReg) : (s.setH w i v).fresh = s.fresh := rfl
@[simp] theorem State.setH_nextId (s : State) (w : EngRef) (i : BitVec 5) (v : HReg) : (s.setH w i v).nextId = s.nextId := rfl
@[simp] theorem State.setX_mem (s : State) (w : EngRef) (i : BitVec 4) (v : BitVec 128) : (s.setX w i v).mem = s.mem := rfl
@[simp] theorem State.setX_cycles (s : State) (w : EngRef) (i : BitVec 4) (v : BitVec 128) : (s.setX w i v).cycles = s.cycles := rfl
@[simp] theorem State.setX_identity (s : State) (w : EngRef) (i : BitVec 4) (v : BitVec 128) : (s.setX w i v).identity = s.identity := rfl
@[simp] theorem State.setX_aliasKey (s : State) (w : EngRef) (i : BitVec 4) (v : BitVec 128) : (s.setX w i v).aliasKey = s.aliasKey := rfl
@[simp] theorem State.setX_package (s : State) (w : EngRef) (i : BitVec 4) (v : BitVec 128) : (s.setX w i v).package = s.package := rfl
@[simp] theorem State.setX_tarns (s : State) (w : EngRef) (i : BitVec 4) (v : BitVec 128) : (s.setX w i v).tarns = s.tarns := rfl
@[simp] theorem State.setX_meres (s : State) (w : EngRef) (i : BitVec 4) (v : BitVec 128) : (s.setX w i v).meres = s.meres := rfl
@[simp] theorem State.setX_parts (s : State) (w : EngRef) (i : BitVec 4) (v : BitVec 128) : (s.setX w i v).parts = s.parts := rfl
@[simp] theorem State.setX_objs (s : State) (w : EngRef) (i : BitVec 4) (v : BitVec 128) : (s.setX w i v).objs = s.objs := rfl
@[simp] theorem State.setX_ghosts (s : State) (w : EngRef) (i : BitVec 4) (v : BitVec 128) : (s.setX w i v).ghosts = s.ghosts := rfl
@[simp] theorem State.setX_cold (s : State) (w : EngRef) (i : BitVec 4) (v : BitVec 128) : (s.setX w i v).cold = s.cold := rfl
@[simp] theorem State.setX_system (s : State) (w : EngRef) (i : BitVec 4) (v : BitVec 128) : (s.setX w i v).system = s.system := rfl
@[simp] theorem State.setX_takeover (s : State) (w : EngRef) (i : BitVec 4) (v : BitVec 128) : (s.setX w i v).takeover = s.takeover := rfl
@[simp] theorem State.setX_ops (s : State) (w : EngRef) (i : BitVec 4) (v : BitVec 128) : (s.setX w i v).ops = s.ops := rfl
@[simp] theorem State.setX_bars (s : State) (w : EngRef) (i : BitVec 4) (v : BitVec 128) : (s.setX w i v).bars = s.bars := rfl
@[simp] theorem State.setX_waitingRecs (s : State) (w : EngRef) (i : BitVec 4) (v : BitVec 128) : (s.setX w i v).waitingRecs = s.waitingRecs := rfl
@[simp] theorem State.setX_badWords (s : State) (w : EngRef) (i : BitVec 4) (v : BitVec 128) : (s.setX w i v).badWords = s.badWords := rfl
@[simp] theorem State.setX_ckptImage (s : State) (w : EngRef) (i : BitVec 4) (v : BitVec 128) : (s.setX w i v).ckptImage = s.ckptImage := rfl
@[simp] theorem State.setX_ckpt (s : State) (w : EngRef) (i : BitVec 4) (v : BitVec 128) : (s.setX w i v).ckpt = s.ckpt := rfl
@[simp] theorem State.setX_warmHold (s : State) (w : EngRef) (i : BitVec 4) (v : BitVec 128) : (s.setX w i v).warmHold = s.warmHold := rfl
@[simp] theorem State.setX_sent (s : State) (w : EngRef) (i : BitVec 4) (v : BitVec 128) : (s.setX w i v).sent = s.sent := rfl
@[simp] theorem State.setX_agenda (s : State) (w : EngRef) (i : BitVec 4) (v : BitVec 128) : (s.setX w i v).agenda = s.agenda := rfl
@[simp] theorem State.setX_turn (s : State) (w : EngRef) (i : BitVec 4) (v : BitVec 128) : (s.setX w i v).turn = s.turn := rfl
@[simp] theorem State.setX_fresh (s : State) (w : EngRef) (i : BitVec 4) (v : BitVec 128) : (s.setX w i v).fresh = s.fresh := rfl
@[simp] theorem State.setX_nextId (s : State) (w : EngRef) (i : BitVec 4) (v : BitVec 128) : (s.setX w i v).nextId = s.nextId := rfl
@[simp] theorem State.issued_mem (s : State) (w : EngRef) (dp : Dep) : (s.issued w dp).mem = s.mem := rfl
@[simp] theorem State.issued_cycles (s : State) (w : EngRef) (dp : Dep) : (s.issued w dp).cycles = s.cycles := rfl
@[simp] theorem State.issued_identity (s : State) (w : EngRef) (dp : Dep) : (s.issued w dp).identity = s.identity := rfl
@[simp] theorem State.issued_aliasKey (s : State) (w : EngRef) (dp : Dep) : (s.issued w dp).aliasKey = s.aliasKey := rfl
@[simp] theorem State.issued_package (s : State) (w : EngRef) (dp : Dep) : (s.issued w dp).package = s.package := rfl
@[simp] theorem State.issued_tarns (s : State) (w : EngRef) (dp : Dep) : (s.issued w dp).tarns = s.tarns := rfl
@[simp] theorem State.issued_meres (s : State) (w : EngRef) (dp : Dep) : (s.issued w dp).meres = s.meres := rfl
@[simp] theorem State.issued_parts (s : State) (w : EngRef) (dp : Dep) : (s.issued w dp).parts = s.parts := rfl
@[simp] theorem State.issued_objs (s : State) (w : EngRef) (dp : Dep) : (s.issued w dp).objs = s.objs := rfl
@[simp] theorem State.issued_ghosts (s : State) (w : EngRef) (dp : Dep) : (s.issued w dp).ghosts = s.ghosts := rfl
@[simp] theorem State.issued_cold (s : State) (w : EngRef) (dp : Dep) : (s.issued w dp).cold = s.cold := rfl
@[simp] theorem State.issued_system (s : State) (w : EngRef) (dp : Dep) : (s.issued w dp).system = s.system := rfl
@[simp] theorem State.issued_takeover (s : State) (w : EngRef) (dp : Dep) : (s.issued w dp).takeover = s.takeover := rfl
@[simp] theorem State.issued_ops (s : State) (w : EngRef) (dp : Dep) : (s.issued w dp).ops = s.ops := rfl
@[simp] theorem State.issued_bars (s : State) (w : EngRef) (dp : Dep) : (s.issued w dp).bars = s.bars := rfl
@[simp] theorem State.issued_waitingRecs (s : State) (w : EngRef) (dp : Dep) : (s.issued w dp).waitingRecs = s.waitingRecs := rfl
@[simp] theorem State.issued_badWords (s : State) (w : EngRef) (dp : Dep) : (s.issued w dp).badWords = s.badWords := rfl
@[simp] theorem State.issued_ckptImage (s : State) (w : EngRef) (dp : Dep) : (s.issued w dp).ckptImage = s.ckptImage := rfl
@[simp] theorem State.issued_ckpt (s : State) (w : EngRef) (dp : Dep) : (s.issued w dp).ckpt = s.ckpt := rfl
@[simp] theorem State.issued_warmHold (s : State) (w : EngRef) (dp : Dep) : (s.issued w dp).warmHold = s.warmHold := rfl
@[simp] theorem State.issued_sent (s : State) (w : EngRef) (dp : Dep) : (s.issued w dp).sent = s.sent := rfl
@[simp] theorem State.issued_agenda (s : State) (w : EngRef) (dp : Dep) : (s.issued w dp).agenda = s.agenda := rfl
@[simp] theorem State.issued_turn (s : State) (w : EngRef) (dp : Dep) : (s.issued w dp).turn = s.turn := rfl
@[simp] theorem State.issued_fresh (s : State) (w : EngRef) (dp : Dep) : (s.issued w dp).fresh = s.fresh := rfl
@[simp] theorem State.issued_nextId (s : State) (w : EngRef) (dp : Dep) : (s.issued w dp).nextId = s.nextId := rfl
@[simp] theorem State.pass_mem (s : State) (w : EngRef) (n : Nat) : (s.pass w n).mem = s.mem := rfl
@[simp] theorem State.pass_cycles (s : State) (w : EngRef) (n : Nat) : (s.pass w n).cycles = s.cycles := rfl
@[simp] theorem State.pass_identity (s : State) (w : EngRef) (n : Nat) : (s.pass w n).identity = s.identity := rfl
@[simp] theorem State.pass_aliasKey (s : State) (w : EngRef) (n : Nat) : (s.pass w n).aliasKey = s.aliasKey := rfl
@[simp] theorem State.pass_package (s : State) (w : EngRef) (n : Nat) : (s.pass w n).package = s.package := rfl
@[simp] theorem State.pass_tarns (s : State) (w : EngRef) (n : Nat) : (s.pass w n).tarns = s.tarns := rfl
@[simp] theorem State.pass_meres (s : State) (w : EngRef) (n : Nat) : (s.pass w n).meres = s.meres := rfl
@[simp] theorem State.pass_parts (s : State) (w : EngRef) (n : Nat) : (s.pass w n).parts = s.parts := rfl
@[simp] theorem State.pass_objs (s : State) (w : EngRef) (n : Nat) : (s.pass w n).objs = s.objs := rfl
@[simp] theorem State.pass_ghosts (s : State) (w : EngRef) (n : Nat) : (s.pass w n).ghosts = s.ghosts := rfl
@[simp] theorem State.pass_cold (s : State) (w : EngRef) (n : Nat) : (s.pass w n).cold = s.cold := rfl
@[simp] theorem State.pass_system (s : State) (w : EngRef) (n : Nat) : (s.pass w n).system = s.system := rfl
@[simp] theorem State.pass_takeover (s : State) (w : EngRef) (n : Nat) : (s.pass w n).takeover = s.takeover := rfl
@[simp] theorem State.pass_ops (s : State) (w : EngRef) (n : Nat) : (s.pass w n).ops = s.ops := rfl
@[simp] theorem State.pass_bars (s : State) (w : EngRef) (n : Nat) : (s.pass w n).bars = s.bars := rfl
@[simp] theorem State.pass_waitingRecs (s : State) (w : EngRef) (n : Nat) : (s.pass w n).waitingRecs = s.waitingRecs := rfl
@[simp] theorem State.pass_badWords (s : State) (w : EngRef) (n : Nat) : (s.pass w n).badWords = s.badWords := rfl
@[simp] theorem State.pass_ckptImage (s : State) (w : EngRef) (n : Nat) : (s.pass w n).ckptImage = s.ckptImage := rfl
@[simp] theorem State.pass_ckpt (s : State) (w : EngRef) (n : Nat) : (s.pass w n).ckpt = s.ckpt := rfl
@[simp] theorem State.pass_warmHold (s : State) (w : EngRef) (n : Nat) : (s.pass w n).warmHold = s.warmHold := rfl
@[simp] theorem State.pass_sent (s : State) (w : EngRef) (n : Nat) : (s.pass w n).sent = s.sent := rfl
@[simp] theorem State.pass_agenda (s : State) (w : EngRef) (n : Nat) : (s.pass w n).agenda = s.agenda := rfl
@[simp] theorem State.pass_turn (s : State) (w : EngRef) (n : Nat) : (s.pass w n).turn = s.turn := rfl
@[simp] theorem State.pass_fresh (s : State) (w : EngRef) (n : Nat) : (s.pass w n).fresh = s.fresh := rfl
@[simp] theorem State.pass_nextId (s : State) (w : EngRef) (n : Nat) : (s.pass w n).nextId = s.nextId := rfl
@[simp] theorem State.signal_mem (s : State) (w : EngRef) (dp : Dep) : (s.signal w dp).mem = s.mem := rfl
@[simp] theorem State.signal_cycles (s : State) (w : EngRef) (dp : Dep) : (s.signal w dp).cycles = s.cycles := rfl
@[simp] theorem State.signal_identity (s : State) (w : EngRef) (dp : Dep) : (s.signal w dp).identity = s.identity := rfl
@[simp] theorem State.signal_aliasKey (s : State) (w : EngRef) (dp : Dep) : (s.signal w dp).aliasKey = s.aliasKey := rfl
@[simp] theorem State.signal_package (s : State) (w : EngRef) (dp : Dep) : (s.signal w dp).package = s.package := rfl
@[simp] theorem State.signal_tarns (s : State) (w : EngRef) (dp : Dep) : (s.signal w dp).tarns = s.tarns := rfl
@[simp] theorem State.signal_meres (s : State) (w : EngRef) (dp : Dep) : (s.signal w dp).meres = s.meres := rfl
@[simp] theorem State.signal_parts (s : State) (w : EngRef) (dp : Dep) : (s.signal w dp).parts = s.parts := rfl
@[simp] theorem State.signal_objs (s : State) (w : EngRef) (dp : Dep) : (s.signal w dp).objs = s.objs := rfl
@[simp] theorem State.signal_ghosts (s : State) (w : EngRef) (dp : Dep) : (s.signal w dp).ghosts = s.ghosts := rfl
@[simp] theorem State.signal_cold (s : State) (w : EngRef) (dp : Dep) : (s.signal w dp).cold = s.cold := rfl
@[simp] theorem State.signal_system (s : State) (w : EngRef) (dp : Dep) : (s.signal w dp).system = s.system := rfl
@[simp] theorem State.signal_takeover (s : State) (w : EngRef) (dp : Dep) : (s.signal w dp).takeover = s.takeover := rfl
@[simp] theorem State.signal_ops (s : State) (w : EngRef) (dp : Dep) : (s.signal w dp).ops = s.ops := rfl
@[simp] theorem State.signal_bars (s : State) (w : EngRef) (dp : Dep) : (s.signal w dp).bars = s.bars := rfl
@[simp] theorem State.signal_waitingRecs (s : State) (w : EngRef) (dp : Dep) : (s.signal w dp).waitingRecs = s.waitingRecs := rfl
@[simp] theorem State.signal_badWords (s : State) (w : EngRef) (dp : Dep) : (s.signal w dp).badWords = s.badWords := rfl
@[simp] theorem State.signal_ckptImage (s : State) (w : EngRef) (dp : Dep) : (s.signal w dp).ckptImage = s.ckptImage := rfl
@[simp] theorem State.signal_ckpt (s : State) (w : EngRef) (dp : Dep) : (s.signal w dp).ckpt = s.ckpt := rfl
@[simp] theorem State.signal_warmHold (s : State) (w : EngRef) (dp : Dep) : (s.signal w dp).warmHold = s.warmHold := rfl
@[simp] theorem State.signal_sent (s : State) (w : EngRef) (dp : Dep) : (s.signal w dp).sent = s.sent := rfl
@[simp] theorem State.signal_agenda (s : State) (w : EngRef) (dp : Dep) : (s.signal w dp).agenda = s.agenda := rfl
@[simp] theorem State.signal_turn (s : State) (w : EngRef) (dp : Dep) : (s.signal w dp).turn = s.turn := rfl
@[simp] theorem State.signal_fresh (s : State) (w : EngRef) (dp : Dep) : (s.signal w dp).fresh = s.fresh := rfl
@[simp] theorem State.signal_nextId (s : State) (w : EngRef) (dp : Dep) : (s.signal w dp).nextId = s.nextId := rfl
@[simp] theorem State.setMere_mem (s : State) (m : Nat) (x : Mere) : (s.setMere m x).mem = s.mem := rfl
@[simp] theorem State.setMere_cycles (s : State) (m : Nat) (x : Mere) : (s.setMere m x).cycles = s.cycles := rfl
@[simp] theorem State.setMere_identity (s : State) (m : Nat) (x : Mere) : (s.setMere m x).identity = s.identity := rfl
@[simp] theorem State.setMere_aliasKey (s : State) (m : Nat) (x : Mere) : (s.setMere m x).aliasKey = s.aliasKey := rfl
@[simp] theorem State.setMere_package (s : State) (m : Nat) (x : Mere) : (s.setMere m x).package = s.package := rfl
@[simp] theorem State.setMere_tarns (s : State) (m : Nat) (x : Mere) : (s.setMere m x).tarns = s.tarns := rfl
@[simp] theorem State.setMere_parts (s : State) (m : Nat) (x : Mere) : (s.setMere m x).parts = s.parts := rfl
@[simp] theorem State.setMere_objs (s : State) (m : Nat) (x : Mere) : (s.setMere m x).objs = s.objs := rfl
@[simp] theorem State.setMere_ghosts (s : State) (m : Nat) (x : Mere) : (s.setMere m x).ghosts = s.ghosts := rfl
@[simp] theorem State.setMere_cold (s : State) (m : Nat) (x : Mere) : (s.setMere m x).cold = s.cold := rfl
@[simp] theorem State.setMere_system (s : State) (m : Nat) (x : Mere) : (s.setMere m x).system = s.system := rfl
@[simp] theorem State.setMere_takeover (s : State) (m : Nat) (x : Mere) : (s.setMere m x).takeover = s.takeover := rfl
@[simp] theorem State.setMere_ops (s : State) (m : Nat) (x : Mere) : (s.setMere m x).ops = s.ops := rfl
@[simp] theorem State.setMere_bars (s : State) (m : Nat) (x : Mere) : (s.setMere m x).bars = s.bars := rfl
@[simp] theorem State.setMere_waitingRecs (s : State) (m : Nat) (x : Mere) : (s.setMere m x).waitingRecs = s.waitingRecs := rfl
@[simp] theorem State.setMere_badWords (s : State) (m : Nat) (x : Mere) : (s.setMere m x).badWords = s.badWords := rfl
@[simp] theorem State.setMere_ckptImage (s : State) (m : Nat) (x : Mere) : (s.setMere m x).ckptImage = s.ckptImage := rfl
@[simp] theorem State.setMere_ckpt (s : State) (m : Nat) (x : Mere) : (s.setMere m x).ckpt = s.ckpt := rfl
@[simp] theorem State.setMere_warmHold (s : State) (m : Nat) (x : Mere) : (s.setMere m x).warmHold = s.warmHold := rfl
@[simp] theorem State.setMere_sent (s : State) (m : Nat) (x : Mere) : (s.setMere m x).sent = s.sent := rfl
@[simp] theorem State.setMere_agenda (s : State) (m : Nat) (x : Mere) : (s.setMere m x).agenda = s.agenda := rfl
@[simp] theorem State.setMere_turn (s : State) (m : Nat) (x : Mere) : (s.setMere m x).turn = s.turn := rfl
@[simp] theorem State.setMere_fresh (s : State) (m : Nat) (x : Mere) : (s.setMere m x).fresh = s.fresh := rfl
@[simp] theorem State.setMere_nextId (s : State) (m : Nat) (x : Mere) : (s.setMere m x).nextId = s.nextId := rfl
@[simp] theorem State.setMere_cores (s : State) (m : Nat) (x : Mere) : (s.setMere m x).cores = s.cores := rfl
@[simp] theorem State.bbox_mem (s : State) (m : Nat) (e : BbEvent) : (s.bbox m e).mem = s.mem := rfl
@[simp] theorem State.bbox_cycles (s : State) (m : Nat) (e : BbEvent) : (s.bbox m e).cycles = s.cycles := rfl
@[simp] theorem State.bbox_identity (s : State) (m : Nat) (e : BbEvent) : (s.bbox m e).identity = s.identity := rfl
@[simp] theorem State.bbox_aliasKey (s : State) (m : Nat) (e : BbEvent) : (s.bbox m e).aliasKey = s.aliasKey := rfl
@[simp] theorem State.bbox_package (s : State) (m : Nat) (e : BbEvent) : (s.bbox m e).package = s.package := rfl
@[simp] theorem State.bbox_tarns (s : State) (m : Nat) (e : BbEvent) : (s.bbox m e).tarns = s.tarns := rfl
@[simp] theorem State.bbox_parts (s : State) (m : Nat) (e : BbEvent) : (s.bbox m e).parts = s.parts := rfl
@[simp] theorem State.bbox_objs (s : State) (m : Nat) (e : BbEvent) : (s.bbox m e).objs = s.objs := rfl
@[simp] theorem State.bbox_ghosts (s : State) (m : Nat) (e : BbEvent) : (s.bbox m e).ghosts = s.ghosts := rfl
@[simp] theorem State.bbox_cold (s : State) (m : Nat) (e : BbEvent) : (s.bbox m e).cold = s.cold := rfl
@[simp] theorem State.bbox_system (s : State) (m : Nat) (e : BbEvent) : (s.bbox m e).system = s.system := rfl
@[simp] theorem State.bbox_takeover (s : State) (m : Nat) (e : BbEvent) : (s.bbox m e).takeover = s.takeover := rfl
@[simp] theorem State.bbox_ops (s : State) (m : Nat) (e : BbEvent) : (s.bbox m e).ops = s.ops := rfl
@[simp] theorem State.bbox_bars (s : State) (m : Nat) (e : BbEvent) : (s.bbox m e).bars = s.bars := rfl
@[simp] theorem State.bbox_waitingRecs (s : State) (m : Nat) (e : BbEvent) : (s.bbox m e).waitingRecs = s.waitingRecs := rfl
@[simp] theorem State.bbox_badWords (s : State) (m : Nat) (e : BbEvent) : (s.bbox m e).badWords = s.badWords := rfl
@[simp] theorem State.bbox_ckptImage (s : State) (m : Nat) (e : BbEvent) : (s.bbox m e).ckptImage = s.ckptImage := rfl
@[simp] theorem State.bbox_ckpt (s : State) (m : Nat) (e : BbEvent) : (s.bbox m e).ckpt = s.ckpt := rfl
@[simp] theorem State.bbox_warmHold (s : State) (m : Nat) (e : BbEvent) : (s.bbox m e).warmHold = s.warmHold := rfl
@[simp] theorem State.bbox_sent (s : State) (m : Nat) (e : BbEvent) : (s.bbox m e).sent = s.sent := rfl
@[simp] theorem State.bbox_agenda (s : State) (m : Nat) (e : BbEvent) : (s.bbox m e).agenda = s.agenda := rfl
@[simp] theorem State.bbox_turn (s : State) (m : Nat) (e : BbEvent) : (s.bbox m e).turn = s.turn := rfl
@[simp] theorem State.bbox_fresh (s : State) (m : Nat) (e : BbEvent) : (s.bbox m e).fresh = s.fresh := rfl
@[simp] theorem State.bbox_nextId (s : State) (m : Nat) (e : BbEvent) : (s.bbox m e).nextId = s.nextId := rfl
@[simp] theorem State.bbox_cores (s : State) (m : Nat) (e : BbEvent) : (s.bbox m e).cores = s.cores := rfl
@[simp] theorem State.setTarn_mem (s : State) (n : Nat) (x : Tarn) : (s.setTarn n x).mem = s.mem := rfl
@[simp] theorem State.setTarn_cycles (s : State) (n : Nat) (x : Tarn) : (s.setTarn n x).cycles = s.cycles := rfl
@[simp] theorem State.setTarn_identity (s : State) (n : Nat) (x : Tarn) : (s.setTarn n x).identity = s.identity := rfl
@[simp] theorem State.setTarn_aliasKey (s : State) (n : Nat) (x : Tarn) : (s.setTarn n x).aliasKey = s.aliasKey := rfl
@[simp] theorem State.setTarn_package (s : State) (n : Nat) (x : Tarn) : (s.setTarn n x).package = s.package := rfl
@[simp] theorem State.setTarn_meres (s : State) (n : Nat) (x : Tarn) : (s.setTarn n x).meres = s.meres := rfl
@[simp] theorem State.setTarn_parts (s : State) (n : Nat) (x : Tarn) : (s.setTarn n x).parts = s.parts := rfl
@[simp] theorem State.setTarn_objs (s : State) (n : Nat) (x : Tarn) : (s.setTarn n x).objs = s.objs := rfl
@[simp] theorem State.setTarn_ghosts (s : State) (n : Nat) (x : Tarn) : (s.setTarn n x).ghosts = s.ghosts := rfl
@[simp] theorem State.setTarn_cold (s : State) (n : Nat) (x : Tarn) : (s.setTarn n x).cold = s.cold := rfl
@[simp] theorem State.setTarn_system (s : State) (n : Nat) (x : Tarn) : (s.setTarn n x).system = s.system := rfl
@[simp] theorem State.setTarn_takeover (s : State) (n : Nat) (x : Tarn) : (s.setTarn n x).takeover = s.takeover := rfl
@[simp] theorem State.setTarn_ops (s : State) (n : Nat) (x : Tarn) : (s.setTarn n x).ops = s.ops := rfl
@[simp] theorem State.setTarn_bars (s : State) (n : Nat) (x : Tarn) : (s.setTarn n x).bars = s.bars := rfl
@[simp] theorem State.setTarn_waitingRecs (s : State) (n : Nat) (x : Tarn) : (s.setTarn n x).waitingRecs = s.waitingRecs := rfl
@[simp] theorem State.setTarn_badWords (s : State) (n : Nat) (x : Tarn) : (s.setTarn n x).badWords = s.badWords := rfl
@[simp] theorem State.setTarn_ckptImage (s : State) (n : Nat) (x : Tarn) : (s.setTarn n x).ckptImage = s.ckptImage := rfl
@[simp] theorem State.setTarn_ckpt (s : State) (n : Nat) (x : Tarn) : (s.setTarn n x).ckpt = s.ckpt := rfl
@[simp] theorem State.setTarn_warmHold (s : State) (n : Nat) (x : Tarn) : (s.setTarn n x).warmHold = s.warmHold := rfl
@[simp] theorem State.setTarn_sent (s : State) (n : Nat) (x : Tarn) : (s.setTarn n x).sent = s.sent := rfl
@[simp] theorem State.setTarn_agenda (s : State) (n : Nat) (x : Tarn) : (s.setTarn n x).agenda = s.agenda := rfl
@[simp] theorem State.setTarn_turn (s : State) (n : Nat) (x : Tarn) : (s.setTarn n x).turn = s.turn := rfl
@[simp] theorem State.setTarn_fresh (s : State) (n : Nat) (x : Tarn) : (s.setTarn n x).fresh = s.fresh := rfl
@[simp] theorem State.setTarn_nextId (s : State) (n : Nat) (x : Tarn) : (s.setTarn n x).nextId = s.nextId := rfl
@[simp] theorem State.setTarn_cores (s : State) (n : Nat) (x : Tarn) : (s.setTarn n x).cores = s.cores := rfl
@[simp] theorem State.store_cycles (s : State) (a : Nat) (bs : List Byte) : (s.store a bs).cycles = s.cycles := rfl
@[simp] theorem State.store_identity (s : State) (a : Nat) (bs : List Byte) : (s.store a bs).identity = s.identity := rfl
@[simp] theorem State.store_aliasKey (s : State) (a : Nat) (bs : List Byte) : (s.store a bs).aliasKey = s.aliasKey := rfl
@[simp] theorem State.store_package (s : State) (a : Nat) (bs : List Byte) : (s.store a bs).package = s.package := rfl
@[simp] theorem State.store_tarns (s : State) (a : Nat) (bs : List Byte) : (s.store a bs).tarns = s.tarns := rfl
@[simp] theorem State.store_meres (s : State) (a : Nat) (bs : List Byte) : (s.store a bs).meres = s.meres := rfl
@[simp] theorem State.store_parts (s : State) (a : Nat) (bs : List Byte) : (s.store a bs).parts = s.parts := rfl
@[simp] theorem State.store_objs (s : State) (a : Nat) (bs : List Byte) : (s.store a bs).objs = s.objs := rfl
@[simp] theorem State.store_ghosts (s : State) (a : Nat) (bs : List Byte) : (s.store a bs).ghosts = s.ghosts := rfl
@[simp] theorem State.store_cold (s : State) (a : Nat) (bs : List Byte) : (s.store a bs).cold = s.cold := rfl
@[simp] theorem State.store_system (s : State) (a : Nat) (bs : List Byte) : (s.store a bs).system = s.system := rfl
@[simp] theorem State.store_takeover (s : State) (a : Nat) (bs : List Byte) : (s.store a bs).takeover = s.takeover := rfl
@[simp] theorem State.store_ops (s : State) (a : Nat) (bs : List Byte) : (s.store a bs).ops = s.ops := rfl
@[simp] theorem State.store_bars (s : State) (a : Nat) (bs : List Byte) : (s.store a bs).bars = s.bars := rfl
@[simp] theorem State.store_waitingRecs (s : State) (a : Nat) (bs : List Byte) : (s.store a bs).waitingRecs = s.waitingRecs := rfl
@[simp] theorem State.store_ckptImage (s : State) (a : Nat) (bs : List Byte) : (s.store a bs).ckptImage = s.ckptImage := rfl
@[simp] theorem State.store_ckpt (s : State) (a : Nat) (bs : List Byte) : (s.store a bs).ckpt = s.ckpt := rfl
@[simp] theorem State.store_warmHold (s : State) (a : Nat) (bs : List Byte) : (s.store a bs).warmHold = s.warmHold := rfl
@[simp] theorem State.store_sent (s : State) (a : Nat) (bs : List Byte) : (s.store a bs).sent = s.sent := rfl
@[simp] theorem State.store_agenda (s : State) (a : Nat) (bs : List Byte) : (s.store a bs).agenda = s.agenda := rfl
@[simp] theorem State.store_turn (s : State) (a : Nat) (bs : List Byte) : (s.store a bs).turn = s.turn := rfl
@[simp] theorem State.store_fresh (s : State) (a : Nat) (bs : List Byte) : (s.store a bs).fresh = s.fresh := rfl
@[simp] theorem State.store_nextId (s : State) (a : Nat) (bs : List Byte) : (s.store a bs).nextId = s.nextId := rfl
@[simp] theorem State.store_cores (s : State) (a : Nat) (bs : List Byte) : (s.store a bs).cores = s.cores := rfl
@[simp] theorem State.addOp_mem (s : State) (o : Op) : (s.addOp o).mem = s.mem := rfl
@[simp] theorem State.addOp_cycles (s : State) (o : Op) : (s.addOp o).cycles = s.cycles := rfl
@[simp] theorem State.addOp_identity (s : State) (o : Op) : (s.addOp o).identity = s.identity := rfl
@[simp] theorem State.addOp_aliasKey (s : State) (o : Op) : (s.addOp o).aliasKey = s.aliasKey := rfl
@[simp] theorem State.addOp_package (s : State) (o : Op) : (s.addOp o).package = s.package := rfl
@[simp] theorem State.addOp_tarns (s : State) (o : Op) : (s.addOp o).tarns = s.tarns := rfl
@[simp] theorem State.addOp_meres (s : State) (o : Op) : (s.addOp o).meres = s.meres := rfl
@[simp] theorem State.addOp_parts (s : State) (o : Op) : (s.addOp o).parts = s.parts := rfl
@[simp] theorem State.addOp_objs (s : State) (o : Op) : (s.addOp o).objs = s.objs := rfl
@[simp] theorem State.addOp_ghosts (s : State) (o : Op) : (s.addOp o).ghosts = s.ghosts := rfl
@[simp] theorem State.addOp_cold (s : State) (o : Op) : (s.addOp o).cold = s.cold := rfl
@[simp] theorem State.addOp_system (s : State) (o : Op) : (s.addOp o).system = s.system := rfl
@[simp] theorem State.addOp_takeover (s : State) (o : Op) : (s.addOp o).takeover = s.takeover := rfl
@[simp] theorem State.addOp_bars (s : State) (o : Op) : (s.addOp o).bars = s.bars := rfl
@[simp] theorem State.addOp_waitingRecs (s : State) (o : Op) : (s.addOp o).waitingRecs = s.waitingRecs := rfl
@[simp] theorem State.addOp_badWords (s : State) (o : Op) : (s.addOp o).badWords = s.badWords := rfl
@[simp] theorem State.addOp_ckptImage (s : State) (o : Op) : (s.addOp o).ckptImage = s.ckptImage := rfl
@[simp] theorem State.addOp_ckpt (s : State) (o : Op) : (s.addOp o).ckpt = s.ckpt := rfl
@[simp] theorem State.addOp_warmHold (s : State) (o : Op) : (s.addOp o).warmHold = s.warmHold := rfl
@[simp] theorem State.addOp_sent (s : State) (o : Op) : (s.addOp o).sent = s.sent := rfl
@[simp] theorem State.addOp_agenda (s : State) (o : Op) : (s.addOp o).agenda = s.agenda := rfl
@[simp] theorem State.addOp_turn (s : State) (o : Op) : (s.addOp o).turn = s.turn := rfl
@[simp] theorem State.addOp_fresh (s : State) (o : Op) : (s.addOp o).fresh = s.fresh := rfl
@[simp] theorem State.addOp_nextId (s : State) (o : Op) : (s.addOp o).nextId = s.nextId := rfl
@[simp] theorem State.addOp_cores (s : State) (o : Op) : (s.addOp o).cores = s.cores := rfl
@[simp] theorem State.dropOp_mem (s : State) (id : Nat) : (s.dropOp id).mem = s.mem := rfl
@[simp] theorem State.dropOp_cycles (s : State) (id : Nat) : (s.dropOp id).cycles = s.cycles := rfl
@[simp] theorem State.dropOp_identity (s : State) (id : Nat) : (s.dropOp id).identity = s.identity := rfl
@[simp] theorem State.dropOp_aliasKey (s : State) (id : Nat) : (s.dropOp id).aliasKey = s.aliasKey := rfl
@[simp] theorem State.dropOp_package (s : State) (id : Nat) : (s.dropOp id).package = s.package := rfl
@[simp] theorem State.dropOp_tarns (s : State) (id : Nat) : (s.dropOp id).tarns = s.tarns := rfl
@[simp] theorem State.dropOp_meres (s : State) (id : Nat) : (s.dropOp id).meres = s.meres := rfl
@[simp] theorem State.dropOp_parts (s : State) (id : Nat) : (s.dropOp id).parts = s.parts := rfl
@[simp] theorem State.dropOp_objs (s : State) (id : Nat) : (s.dropOp id).objs = s.objs := rfl
@[simp] theorem State.dropOp_ghosts (s : State) (id : Nat) : (s.dropOp id).ghosts = s.ghosts := rfl
@[simp] theorem State.dropOp_cold (s : State) (id : Nat) : (s.dropOp id).cold = s.cold := rfl
@[simp] theorem State.dropOp_system (s : State) (id : Nat) : (s.dropOp id).system = s.system := rfl
@[simp] theorem State.dropOp_takeover (s : State) (id : Nat) : (s.dropOp id).takeover = s.takeover := rfl
@[simp] theorem State.dropOp_bars (s : State) (id : Nat) : (s.dropOp id).bars = s.bars := rfl
@[simp] theorem State.dropOp_waitingRecs (s : State) (id : Nat) : (s.dropOp id).waitingRecs = s.waitingRecs := rfl
@[simp] theorem State.dropOp_badWords (s : State) (id : Nat) : (s.dropOp id).badWords = s.badWords := rfl
@[simp] theorem State.dropOp_ckptImage (s : State) (id : Nat) : (s.dropOp id).ckptImage = s.ckptImage := rfl
@[simp] theorem State.dropOp_ckpt (s : State) (id : Nat) : (s.dropOp id).ckpt = s.ckpt := rfl
@[simp] theorem State.dropOp_warmHold (s : State) (id : Nat) : (s.dropOp id).warmHold = s.warmHold := rfl
@[simp] theorem State.dropOp_sent (s : State) (id : Nat) : (s.dropOp id).sent = s.sent := rfl
@[simp] theorem State.dropOp_agenda (s : State) (id : Nat) : (s.dropOp id).agenda = s.agenda := rfl
@[simp] theorem State.dropOp_turn (s : State) (id : Nat) : (s.dropOp id).turn = s.turn := rfl
@[simp] theorem State.dropOp_fresh (s : State) (id : Nat) : (s.dropOp id).fresh = s.fresh := rfl
@[simp] theorem State.dropOp_nextId (s : State) (id : Nat) : (s.dropOp id).nextId = s.nextId := rfl
@[simp] theorem State.dropOp_cores (s : State) (id : Nat) : (s.dropOp id).cores = s.cores := rfl
@[simp] theorem State.putOp_mem (s : State) (o : Op) : (s.putOp o).mem = s.mem := rfl
@[simp] theorem State.putOp_cycles (s : State) (o : Op) : (s.putOp o).cycles = s.cycles := rfl
@[simp] theorem State.putOp_identity (s : State) (o : Op) : (s.putOp o).identity = s.identity := rfl
@[simp] theorem State.putOp_aliasKey (s : State) (o : Op) : (s.putOp o).aliasKey = s.aliasKey := rfl
@[simp] theorem State.putOp_package (s : State) (o : Op) : (s.putOp o).package = s.package := rfl
@[simp] theorem State.putOp_tarns (s : State) (o : Op) : (s.putOp o).tarns = s.tarns := rfl
@[simp] theorem State.putOp_meres (s : State) (o : Op) : (s.putOp o).meres = s.meres := rfl
@[simp] theorem State.putOp_parts (s : State) (o : Op) : (s.putOp o).parts = s.parts := rfl
@[simp] theorem State.putOp_objs (s : State) (o : Op) : (s.putOp o).objs = s.objs := rfl
@[simp] theorem State.putOp_ghosts (s : State) (o : Op) : (s.putOp o).ghosts = s.ghosts := rfl
@[simp] theorem State.putOp_cold (s : State) (o : Op) : (s.putOp o).cold = s.cold := rfl
@[simp] theorem State.putOp_system (s : State) (o : Op) : (s.putOp o).system = s.system := rfl
@[simp] theorem State.putOp_takeover (s : State) (o : Op) : (s.putOp o).takeover = s.takeover := rfl
@[simp] theorem State.putOp_bars (s : State) (o : Op) : (s.putOp o).bars = s.bars := rfl
@[simp] theorem State.putOp_waitingRecs (s : State) (o : Op) : (s.putOp o).waitingRecs = s.waitingRecs := rfl
@[simp] theorem State.putOp_badWords (s : State) (o : Op) : (s.putOp o).badWords = s.badWords := rfl
@[simp] theorem State.putOp_ckptImage (s : State) (o : Op) : (s.putOp o).ckptImage = s.ckptImage := rfl
@[simp] theorem State.putOp_ckpt (s : State) (o : Op) : (s.putOp o).ckpt = s.ckpt := rfl
@[simp] theorem State.putOp_warmHold (s : State) (o : Op) : (s.putOp o).warmHold = s.warmHold := rfl
@[simp] theorem State.putOp_sent (s : State) (o : Op) : (s.putOp o).sent = s.sent := rfl
@[simp] theorem State.putOp_agenda (s : State) (o : Op) : (s.putOp o).agenda = s.agenda := rfl
@[simp] theorem State.putOp_turn (s : State) (o : Op) : (s.putOp o).turn = s.turn := rfl
@[simp] theorem State.putOp_fresh (s : State) (o : Op) : (s.putOp o).fresh = s.fresh := rfl
@[simp] theorem State.putOp_nextId (s : State) (o : Op) : (s.putOp o).nextId = s.nextId := rfl
@[simp] theorem State.putOp_cores (s : State) (o : Op) : (s.putOp o).cores = s.cores := rfl
@[simp] theorem State.modPart_mem (s : State) (p : Nat) (f : Part → Part) : (s.modPart p f).mem = s.mem := rfl
@[simp] theorem State.modPart_cycles (s : State) (p : Nat) (f : Part → Part) : (s.modPart p f).cycles = s.cycles := rfl
@[simp] theorem State.modPart_identity (s : State) (p : Nat) (f : Part → Part) : (s.modPart p f).identity = s.identity := rfl
@[simp] theorem State.modPart_aliasKey (s : State) (p : Nat) (f : Part → Part) : (s.modPart p f).aliasKey = s.aliasKey := rfl
@[simp] theorem State.modPart_package (s : State) (p : Nat) (f : Part → Part) : (s.modPart p f).package = s.package := rfl
@[simp] theorem State.modPart_tarns (s : State) (p : Nat) (f : Part → Part) : (s.modPart p f).tarns = s.tarns := rfl
@[simp] theorem State.modPart_meres (s : State) (p : Nat) (f : Part → Part) : (s.modPart p f).meres = s.meres := rfl
@[simp] theorem State.modPart_objs (s : State) (p : Nat) (f : Part → Part) : (s.modPart p f).objs = s.objs := rfl
@[simp] theorem State.modPart_ghosts (s : State) (p : Nat) (f : Part → Part) : (s.modPart p f).ghosts = s.ghosts := rfl
@[simp] theorem State.modPart_cold (s : State) (p : Nat) (f : Part → Part) : (s.modPart p f).cold = s.cold := rfl
@[simp] theorem State.modPart_system (s : State) (p : Nat) (f : Part → Part) : (s.modPart p f).system = s.system := rfl
@[simp] theorem State.modPart_takeover (s : State) (p : Nat) (f : Part → Part) : (s.modPart p f).takeover = s.takeover := rfl
@[simp] theorem State.modPart_ops (s : State) (p : Nat) (f : Part → Part) : (s.modPart p f).ops = s.ops := rfl
@[simp] theorem State.modPart_bars (s : State) (p : Nat) (f : Part → Part) : (s.modPart p f).bars = s.bars := rfl
@[simp] theorem State.modPart_waitingRecs (s : State) (p : Nat) (f : Part → Part) : (s.modPart p f).waitingRecs = s.waitingRecs := rfl
@[simp] theorem State.modPart_badWords (s : State) (p : Nat) (f : Part → Part) : (s.modPart p f).badWords = s.badWords := rfl
@[simp] theorem State.modPart_ckptImage (s : State) (p : Nat) (f : Part → Part) : (s.modPart p f).ckptImage = s.ckptImage := rfl
@[simp] theorem State.modPart_ckpt (s : State) (p : Nat) (f : Part → Part) : (s.modPart p f).ckpt = s.ckpt := rfl
@[simp] theorem State.modPart_warmHold (s : State) (p : Nat) (f : Part → Part) : (s.modPart p f).warmHold = s.warmHold := rfl
@[simp] theorem State.modPart_sent (s : State) (p : Nat) (f : Part → Part) : (s.modPart p f).sent = s.sent := rfl
@[simp] theorem State.modPart_agenda (s : State) (p : Nat) (f : Part → Part) : (s.modPart p f).agenda = s.agenda := rfl
@[simp] theorem State.modPart_turn (s : State) (p : Nat) (f : Part → Part) : (s.modPart p f).turn = s.turn := rfl
@[simp] theorem State.modPart_fresh (s : State) (p : Nat) (f : Part → Part) : (s.modPart p f).fresh = s.fresh := rfl
@[simp] theorem State.modPart_nextId (s : State) (p : Nat) (f : Part → Part) : (s.modPart p f).nextId = s.nextId := rfl
@[simp] theorem State.modPart_cores (s : State) (p : Nat) (f : Part → Part) : (s.modPart p f).cores = s.cores := rfl
@[simp] theorem State.setBar_mem (s : State) (b : BarInst) : (s.setBar b).mem = s.mem := rfl
@[simp] theorem State.setBar_cycles (s : State) (b : BarInst) : (s.setBar b).cycles = s.cycles := rfl
@[simp] theorem State.setBar_identity (s : State) (b : BarInst) : (s.setBar b).identity = s.identity := rfl
@[simp] theorem State.setBar_aliasKey (s : State) (b : BarInst) : (s.setBar b).aliasKey = s.aliasKey := rfl
@[simp] theorem State.setBar_package (s : State) (b : BarInst) : (s.setBar b).package = s.package := rfl
@[simp] theorem State.setBar_tarns (s : State) (b : BarInst) : (s.setBar b).tarns = s.tarns := rfl
@[simp] theorem State.setBar_meres (s : State) (b : BarInst) : (s.setBar b).meres = s.meres := rfl
@[simp] theorem State.setBar_parts (s : State) (b : BarInst) : (s.setBar b).parts = s.parts := rfl
@[simp] theorem State.setBar_objs (s : State) (b : BarInst) : (s.setBar b).objs = s.objs := rfl
@[simp] theorem State.setBar_ghosts (s : State) (b : BarInst) : (s.setBar b).ghosts = s.ghosts := rfl
@[simp] theorem State.setBar_cold (s : State) (b : BarInst) : (s.setBar b).cold = s.cold := rfl
@[simp] theorem State.setBar_system (s : State) (b : BarInst) : (s.setBar b).system = s.system := rfl
@[simp] theorem State.setBar_takeover (s : State) (b : BarInst) : (s.setBar b).takeover = s.takeover := rfl
@[simp] theorem State.setBar_ops (s : State) (b : BarInst) : (s.setBar b).ops = s.ops := rfl
@[simp] theorem State.setBar_waitingRecs (s : State) (b : BarInst) : (s.setBar b).waitingRecs = s.waitingRecs := rfl
@[simp] theorem State.setBar_badWords (s : State) (b : BarInst) : (s.setBar b).badWords = s.badWords := rfl
@[simp] theorem State.setBar_ckptImage (s : State) (b : BarInst) : (s.setBar b).ckptImage = s.ckptImage := rfl
@[simp] theorem State.setBar_ckpt (s : State) (b : BarInst) : (s.setBar b).ckpt = s.ckpt := rfl
@[simp] theorem State.setBar_warmHold (s : State) (b : BarInst) : (s.setBar b).warmHold = s.warmHold := rfl
@[simp] theorem State.setBar_sent (s : State) (b : BarInst) : (s.setBar b).sent = s.sent := rfl
@[simp] theorem State.setBar_agenda (s : State) (b : BarInst) : (s.setBar b).agenda = s.agenda := rfl
@[simp] theorem State.setBar_turn (s : State) (b : BarInst) : (s.setBar b).turn = s.turn := rfl
@[simp] theorem State.setBar_fresh (s : State) (b : BarInst) : (s.setBar b).fresh = s.fresh := rfl
@[simp] theorem State.setBar_nextId (s : State) (b : BarInst) : (s.setBar b).nextId = s.nextId := rfl
@[simp] theorem State.setBar_cores (s : State) (b : BarInst) : (s.setBar b).cores = s.cores := rfl
@[simp] theorem State.touch_mem (s : State) (core : Nat) (rs : List (Nat × Nat)) : (s.touch core rs).mem = s.mem := rfl
@[simp] theorem State.touch_cycles (s : State) (core : Nat) (rs : List (Nat × Nat)) : (s.touch core rs).cycles = s.cycles := rfl
@[simp] theorem State.touch_identity (s : State) (core : Nat) (rs : List (Nat × Nat)) : (s.touch core rs).identity = s.identity := rfl
@[simp] theorem State.touch_aliasKey (s : State) (core : Nat) (rs : List (Nat × Nat)) : (s.touch core rs).aliasKey = s.aliasKey := rfl
@[simp] theorem State.touch_package (s : State) (core : Nat) (rs : List (Nat × Nat)) : (s.touch core rs).package = s.package := rfl
@[simp] theorem State.touch_tarns (s : State) (core : Nat) (rs : List (Nat × Nat)) : (s.touch core rs).tarns = s.tarns := rfl
@[simp] theorem State.touch_meres (s : State) (core : Nat) (rs : List (Nat × Nat)) : (s.touch core rs).meres = s.meres := rfl
@[simp] theorem State.touch_parts (s : State) (core : Nat) (rs : List (Nat × Nat)) : (s.touch core rs).parts = s.parts := rfl
@[simp] theorem State.touch_objs (s : State) (core : Nat) (rs : List (Nat × Nat)) : (s.touch core rs).objs = s.objs := rfl
@[simp] theorem State.touch_ghosts (s : State) (core : Nat) (rs : List (Nat × Nat)) : (s.touch core rs).ghosts = s.ghosts := rfl
@[simp] theorem State.touch_cold (s : State) (core : Nat) (rs : List (Nat × Nat)) : (s.touch core rs).cold = s.cold := rfl
@[simp] theorem State.touch_system (s : State) (core : Nat) (rs : List (Nat × Nat)) : (s.touch core rs).system = s.system := rfl
@[simp] theorem State.touch_takeover (s : State) (core : Nat) (rs : List (Nat × Nat)) : (s.touch core rs).takeover = s.takeover := rfl
@[simp] theorem State.touch_bars (s : State) (core : Nat) (rs : List (Nat × Nat)) : (s.touch core rs).bars = s.bars := rfl
@[simp] theorem State.touch_waitingRecs (s : State) (core : Nat) (rs : List (Nat × Nat)) : (s.touch core rs).waitingRecs = s.waitingRecs := rfl
@[simp] theorem State.touch_badWords (s : State) (core : Nat) (rs : List (Nat × Nat)) : (s.touch core rs).badWords = s.badWords := rfl
@[simp] theorem State.touch_ckptImage (s : State) (core : Nat) (rs : List (Nat × Nat)) : (s.touch core rs).ckptImage = s.ckptImage := rfl
@[simp] theorem State.touch_ckpt (s : State) (core : Nat) (rs : List (Nat × Nat)) : (s.touch core rs).ckpt = s.ckpt := rfl
@[simp] theorem State.touch_warmHold (s : State) (core : Nat) (rs : List (Nat × Nat)) : (s.touch core rs).warmHold = s.warmHold := rfl
@[simp] theorem State.touch_sent (s : State) (core : Nat) (rs : List (Nat × Nat)) : (s.touch core rs).sent = s.sent := rfl
@[simp] theorem State.touch_agenda (s : State) (core : Nat) (rs : List (Nat × Nat)) : (s.touch core rs).agenda = s.agenda := rfl
@[simp] theorem State.touch_turn (s : State) (core : Nat) (rs : List (Nat × Nat)) : (s.touch core rs).turn = s.turn := rfl
@[simp] theorem State.touch_fresh (s : State) (core : Nat) (rs : List (Nat × Nat)) : (s.touch core rs).fresh = s.fresh := rfl
@[simp] theorem State.touch_nextId (s : State) (core : Nat) (rs : List (Nat × Nat)) : (s.touch core rs).nextId = s.nextId := rfl
@[simp] theorem State.touch_cores (s : State) (core : Nat) (rs : List (Nat × Nat)) : (s.touch core rs).cores = s.cores := rfl
@[simp] theorem State.touchTile_mem (s : State) (core t : Nat) (rs : List (Nat × Nat)) : (s.touchTile core t rs).mem = s.mem := rfl
@[simp] theorem State.touchTile_cycles (s : State) (core t : Nat) (rs : List (Nat × Nat)) : (s.touchTile core t rs).cycles = s.cycles := rfl
@[simp] theorem State.touchTile_identity (s : State) (core t : Nat) (rs : List (Nat × Nat)) : (s.touchTile core t rs).identity = s.identity := rfl
@[simp] theorem State.touchTile_aliasKey (s : State) (core t : Nat) (rs : List (Nat × Nat)) : (s.touchTile core t rs).aliasKey = s.aliasKey := rfl
@[simp] theorem State.touchTile_package (s : State) (core t : Nat) (rs : List (Nat × Nat)) : (s.touchTile core t rs).package = s.package := rfl
@[simp] theorem State.touchTile_tarns (s : State) (core t : Nat) (rs : List (Nat × Nat)) : (s.touchTile core t rs).tarns = s.tarns := rfl
@[simp] theorem State.touchTile_meres (s : State) (core t : Nat) (rs : List (Nat × Nat)) : (s.touchTile core t rs).meres = s.meres := rfl
@[simp] theorem State.touchTile_parts (s : State) (core t : Nat) (rs : List (Nat × Nat)) : (s.touchTile core t rs).parts = s.parts := rfl
@[simp] theorem State.touchTile_objs (s : State) (core t : Nat) (rs : List (Nat × Nat)) : (s.touchTile core t rs).objs = s.objs := rfl
@[simp] theorem State.touchTile_ghosts (s : State) (core t : Nat) (rs : List (Nat × Nat)) : (s.touchTile core t rs).ghosts = s.ghosts := rfl
@[simp] theorem State.touchTile_cold (s : State) (core t : Nat) (rs : List (Nat × Nat)) : (s.touchTile core t rs).cold = s.cold := rfl
@[simp] theorem State.touchTile_system (s : State) (core t : Nat) (rs : List (Nat × Nat)) : (s.touchTile core t rs).system = s.system := rfl
@[simp] theorem State.touchTile_takeover (s : State) (core t : Nat) (rs : List (Nat × Nat)) : (s.touchTile core t rs).takeover = s.takeover := rfl
@[simp] theorem State.touchTile_bars (s : State) (core t : Nat) (rs : List (Nat × Nat)) : (s.touchTile core t rs).bars = s.bars := rfl
@[simp] theorem State.touchTile_waitingRecs (s : State) (core t : Nat) (rs : List (Nat × Nat)) : (s.touchTile core t rs).waitingRecs = s.waitingRecs := rfl
@[simp] theorem State.touchTile_badWords (s : State) (core t : Nat) (rs : List (Nat × Nat)) : (s.touchTile core t rs).badWords = s.badWords := rfl
@[simp] theorem State.touchTile_ckptImage (s : State) (core t : Nat) (rs : List (Nat × Nat)) : (s.touchTile core t rs).ckptImage = s.ckptImage := rfl
@[simp] theorem State.touchTile_ckpt (s : State) (core t : Nat) (rs : List (Nat × Nat)) : (s.touchTile core t rs).ckpt = s.ckpt := rfl
@[simp] theorem State.touchTile_warmHold (s : State) (core t : Nat) (rs : List (Nat × Nat)) : (s.touchTile core t rs).warmHold = s.warmHold := rfl
@[simp] theorem State.touchTile_sent (s : State) (core t : Nat) (rs : List (Nat × Nat)) : (s.touchTile core t rs).sent = s.sent := rfl
@[simp] theorem State.touchTile_agenda (s : State) (core t : Nat) (rs : List (Nat × Nat)) : (s.touchTile core t rs).agenda = s.agenda := rfl
@[simp] theorem State.touchTile_turn (s : State) (core t : Nat) (rs : List (Nat × Nat)) : (s.touchTile core t rs).turn = s.turn := rfl
@[simp] theorem State.touchTile_fresh (s : State) (core t : Nat) (rs : List (Nat × Nat)) : (s.touchTile core t rs).fresh = s.fresh := rfl
@[simp] theorem State.touchTile_nextId (s : State) (core t : Nat) (rs : List (Nat × Nat)) : (s.touchTile core t rs).nextId = s.nextId := rfl
@[simp] theorem State.touchTile_cores (s : State) (core t : Nat) (rs : List (Nat × Nat)) : (s.touchTile core t rs).cores = s.cores := rfl

/-! ### Reading after writing -/

@[simp] theorem lookupD_upsert {α : Type} (d : α) (l : List (Nat × α)) (n m : Nat) (v : α) :
    lookupD d (upsert l n v) m = if n = m then v else lookupD d l m := by
  induction l with
  | nil => simp [upsert, lookupD]
  | cons x t ih =>
    obtain ⟨k, w⟩ := x
    by_cases h : k = n <;> by_cases h' : n = m <;> simp_all [upsert, lookupD]

@[simp] theorem State.core_setCore (s : State) (k j : Nat) (c : Core) : (s.setCore k c).core j = if k = j then c else s.core j := by
  simp [State.core, State.setCore]
theorem State.core_setCore_ne (s : State) {k j : Nat} (c : Core) (h : k ≠ j) : (s.setCore k c).core j = s.core j := by simp [h]

@[simp] theorem Core.ctx_setCtx (c : Core) (b d : Bool) (x : Ctx) : (c.setCtx b x).ctx d = if b = d then x else c.ctx d := by
  cases b <;> cases d <;> rfl
theorem Core.setCtx_of (c : Core) (b : Bool) (x : Ctx) : c.setCtx b x = if b then { c with c1 := x } else { c with c0 := x } := rfl

@[simp] theorem Ctx.eng_setEng (c : Ctx) (e f : EngineId) (x : Engine) : (c.setEng e x).eng f = if e = f then x else c.eng f := by
  cases e <;> cases f <;> rfl

@[simp] theorem State.ctx_setCtx (s : State) (w : EngRef) (x : Ctx) : (s.setCtx w x).ctx w = x := by
  simp [State.ctx, State.setCtx]
@[simp] theorem State.eng_setEng (s : State) (w : EngRef) (x : Engine) : (s.setEng w x).eng w = x := by
  simp [State.eng, State.setEng]
@[simp] theorem State.eng_modEng (s : State) (w : EngRef) (f : Engine → Engine) : (s.modEng w f).eng w = f (s.eng w) := by
  simp [State.modEng]
@[simp] theorem State.ctx_setEng (s : State) (w : EngRef) (x : Engine) : (s.setEng w x).ctx w = (s.ctx w).setEng w.eng x := by
  simp [State.setEng]
theorem State.ctx_modEng (s : State) (w : EngRef) (f : Engine → Engine) : (s.modEng w f).ctx w = (s.ctx w).setEng w.eng (f (s.eng w)) := by
  simp [State.modEng]

@[simp] theorem Ctx.setEng_s (c : Ctx) (e : EngineId) (x : Engine) : (c.setEng e x).s = c.s := by cases e <;> rfl
@[simp] theorem Ctx.setEng_h (c : Ctx) (e : EngineId) (x : Engine) : (c.setEng e x).h = c.h := by cases e <;> rfl
@[simp] theorem Ctx.setEng_x (c : Ctx) (e : EngineId) (x : Engine) : (c.setEng e x).x = c.x := by cases e <;> rfl
@[simp] theorem Ctx.setEng_g (c : Ctx) (e : EngineId) (x : Engine) : (c.setEng e x).g = c.g := by cases e <;> rfl
@[simp] theorem Ctx.setEng_spill (c : Ctx) (e : EngineId) (x : Engine) : (c.setEng e x).spill = c.spill := by cases e <;> rfl
@[simp] theorem Ctx.setEng_backing (c : Ctx) (e : EngineId) (x : Engine) : (c.setEng e x).backing = c.backing := by cases e <;> rfl
@[simp] theorem Ctx.setEng_shadow (c : Ctx) (e : EngineId) (x : Engine) : (c.setEng e x).shadow = c.shadow := by cases e <;> rfl
@[simp] theorem Ctx.setEng_active (c : Ctx) (e : EngineId) (x : Engine) : (c.setEng e x).active = c.active := by cases e <;> rfl
@[simp] theorem Ctx.setEng_npos (c : Ctx) (e : EngineId) (x : Engine) : (c.setEng e x).npos = c.npos := by cases e <;> rfl
@[simp] theorem Ctx.setEng_nestTok (c : Ctx) (e : EngineId) (x : Engine) : (c.setEng e x).nestTok = c.nestTok := by cases e <;> rfl
@[simp] theorem Ctx.setEng_task (c : Ctx) (e : EngineId) (x : Engine) : (c.setEng e x).task = c.task := by cases e <;> rfl
@[simp] theorem Ctx.setEng_fromPred (c : Ctx) (e : EngineId) (x : Engine) : (c.setEng e x).fromPred = c.fromPred := by cases e <;> rfl
@[simp] theorem Ctx.setEng_fromSucc (c : Ctx) (e : EngineId) (x : Engine) : (c.setEng e x).fromSucc = c.fromSucc := by cases e <;> rfl

theorem Ctx.sget_sset (c : Ctx) (i j : BitVec 6) (v : BitVec 64) : (c.sset i v).sget j = if i = j then v else c.sget j := by
  simp only [Ctx.sget, Ctx.sset, Vector.getElem_set, BitVec.toNat_inj]

/-- A scalar register reads the value last written to it. -/
@[simp] theorem State.sreg_setS_same (s : State) (w : EngRef) (i : BitVec 6) (v : BitVec 64) : (s.setS w i v).sreg w i = v := by
  simp [State.sreg, State.setS, Ctx.sget_sset]
/-- Writing a scalar register leaves the others alone. -/
theorem State.sreg_setS_ne (s : State) (w : EngRef) {i j : BitVec 6} (v : BitVec 64) (h : i ≠ j) : (s.setS w i v).sreg w j = s.sreg w j := by
  simp [State.sreg, State.setS, Ctx.sget_sset, h]

end Sys2Proof.Machine
end

