-- ==== Sys2Proof/Laws/Issue.lean ====
section
/-! SUPPORT. What issuing an instruction can do: the one case in which it issues, and the shapes of every other outcome. -/

namespace Sys2Proof.Machine

open Sys2Proof

/-- A ready instruction whose own checks pass does what its body says. -/
theorem issue_ready {dp : Dep} {eng : Option EngineId} {feat len : Nat} {pre : EngRef → State → Option Trap} {body : EngRef → State → Act}
    {s : State} (h : s.ready dp eng feat len = true) (hp : pre s.turn s = none) :
    issue dp eng feat len pre body s = s.conclude s.turn dp len (body s.turn s) := by
  simp only [State.ready, Bool.and_eq_true, beq_iff_eq, Bool.or_eq_true, Bool.not_eq_true', Option.isNone_iff_eq_none] at h
  obtain ⟨⟨⟨⟨⟨⟨h1, h2⟩, h3⟩, h4⟩, h5⟩, h6⟩, h7⟩ := h
  have he : (eng.isSome && eng != some s.turn.eng) = false := by rcases h5 with h5 | h5 <;> simp [h5]
  have hl : ¬ (len = 2 ∧ (s.eng s.turn).loops.head?.map (fun l => l.stop) = some (s.eng s.turn).pc.toNat) := by
    intro ⟨a, b⟩; simp [a, b] at h6
  unfold issue
  dsimp only
  rw [if_neg (by simp [h1]), if_neg (by simp [h2]), if_neg (by simp [h3]), if_neg (by simp [h4]), if_neg (by simp [he]), if_neg hl]
  simp only [hp, h7]

/-- A settled instruction does what the body under its interlock says. -/
theorem interlock_settled {rs : List (BitVec 6)} {body : EngRef → State → Act} {s : State} (h : s.settled rs = true) :
    interlock rs body s.turn s = body s.turn s := by
  unfold State.settled at h
  unfold interlock
  rw [if_neg]
  simpa using h

/-- Every outcome of issuing: nothing yet, a stall, a fault of a check of R235, or what the body does. -/
theorem issue_cases {dp : Dep} {eng : Option EngineId} {feat len : Nat} {pre : EngRef → State → Option Trap} {body : EngRef → State → Act}
    {s : State} {P : Host.Outcome State Fault Refusal → Prop}
    (idle : s.canIssue s.turn = false → P (.next s))
    (held : ∀ k, P (.next (s.stallAt s.turn (.heldSignal k))))
    (token : ∀ st, (s.ctx s.turn).tokenWait s.turn.eng dp = some st → P (.next (s.stallAt s.turn st)))
    (trap : ∀ c, P (.next (s.takeFault s.turn { code := c })))
    (check : ∀ t, pre s.turn s = some t → P (.next (s.takeFault s.turn t)))
    (act : s.canIssue s.turn = true → pre s.turn s = none → P (s.conclude s.turn dp len (body s.turn s))) :
    P (issue dp eng feat len pre body s) := by
  unfold issue
  dsimp only
  split
  · exact idle (by simp_all)
  split
  · exact held 2
  split
  · exact held 3
  split
  · exact trap _
  split
  · exact trap _
  split
  · exact trap _
  split
  · exact check _ ‹_›
  split
  · exact token _ ‹_›
  · exact act (by simp_all) ‹_›

/-- Completing at issue. -/
theorem conclude_done (s t : State) (w : EngRef) (dp : Dep) (len : Nat) : s.conclude w dp len (.done t) = .next (t.after w dp len) := rfl
/-- Transferring control. -/
theorem conclude_goto (s t : State) (w : EngRef) (dp : Dep) (len : Nat) (pc : BitVec 32) :
    s.conclude w dp len (.goto t pc) = .next (t.afterTo w dp pc) := rfl
/-- Issuing an operation. -/
theorem conclude_pend (s t : State) (w : EngRef) (dp : Dep) (len id : Nat) (k : OpKind) :
    s.conclude w dp len (.pend t id k) = .next (s.issues t w dp len id k) := rfl
/-- Requesting at a home. -/
theorem conclude_homeReq (s t : State) (w : EngRef) (dp : Dep) (len : Nat) (dst : Option (Nat × BitVec 64)) (hdst : Option (Nat × HReg)) :
    s.conclude w dp len (homeReq t dst hdst) = .next (s.requests t w dp len dst hdst) := rfl

end Sys2Proof.Machine
end

