-- ==== Sys2Proof/Laws/Frame.lean ====
section
/-! SUPPORT. What completing, stalling and faulting leave alone. -/

namespace Sys2Proof.Machine

open Sys2Proof

/-! ### Writing the context of an engine -/

/-- Writing one context keeps everything that is not in it. -/
theorem Frame.of_ctx {w : EngRef} {s : State} {x : Ctx} (hr : x.regs = (s.ctx w).regs) (he : ∀ e, e ≠ w.eng → x.eng e = (s.ctx w).eng e)
    (hv : ∀ e, e ≠ w.eng → x.viewOf e = (s.ctx w).viewOf e) : Frame w s (s.setCtx w x) where
  outside := rfl
  cores k hk := by simp [State.setCtx, Ne.symm hk]
  shared := by
    simp only [State.setCtx, State.core_setCore, if_true]
    cases hb : w.ctx <;> simp [Core.setCtx, Core.shared]
  other := by
    simp only [State.setCtx, State.core_setCore, if_true, Core.ctx_setCtx]
    cases w.ctx <;> simp
  regs := by simpa using hr
  engines e hk := by simpa using he e hk
  views e hk := by simpa using hv e hk
  meres _ := rfl

theorem Ctx.regs_setEng (c : Ctx) (e : EngineId) (x : Engine) : (c.setEng e x).regs = c.regs := by cases e <;> rfl
theorem Ctx.eng_setEng_ne (c : Ctx) {e f : EngineId} (x : Engine) (h : f ≠ e) : (c.setEng e x).eng f = c.eng f := by
  simp [Ne.symm h]

theorem Ctx.viewOf_setEng (c : Ctx) (e f : EngineId) (x : Engine) : (c.setEng e x).viewOf f = c.viewOf f := by cases e <;> rfl

theorem Frame.of_eng {w : EngRef} {s : State} {x : Engine} : Frame w s (s.setEng w x) :=
  Frame.of_ctx (Ctx.regs_setEng _ _ _) (fun _ h => Ctx.eng_setEng_ne _ _ h) (fun _ _ => Ctx.viewOf_setEng _ _ _ _)

/-- Frames compose where the first kept the meres in any case. -/
theorem Frame.trans {w : EngRef} {s t u : State} (a : Frame w s t) (hm : t.meres = s.meres) (b : Frame w t u) : Frame w s u where
  outside := b.outside.trans a.outside
  cores k h := (b.cores k h).trans (a.cores k h)
  shared := b.shared.trans a.shared
  other := b.other.trans a.other
  regs := b.regs.trans a.regs
  engines e h := (b.engines e h).trans (a.engines e h)
  views e h := (b.views e h).trans (a.views e h)
  meres h := (b.meres h).trans hm

theorem Frame.rfl' {w : EngRef} {s : State} : Frame w s s := ⟨rfl, fun _ _ => rfl, rfl, rfl, rfl, fun _ _ => rfl, fun _ _ => rfl, fun _ => rfl⟩

/-! ### Tokens -/

theorem Ctx.eng_take (c : Ctx) (e f : EngineId) (dp : Dep) : (c.take e dp).eng f = c.eng f := by
  unfold Ctx.take Ctx.setPredQ Ctx.setSuccQ Ctx.setView
  cases f <;> simp only [Ctx.eng] <;> split <;> split <;> rfl
theorem Ctx.regs_take (c : Ctx) (e : EngineId) (dp : Dep) : (c.take e dp).regs = c.regs := by
  unfold Ctx.take Ctx.setPredQ Ctx.setSuccQ Ctx.setView
  simp only [Ctx.regs]; split <;> split <;> rfl
theorem Ctx.s_take (c : Ctx) (e : EngineId) (dp : Dep) : (c.take e dp).s = c.s := by
  unfold Ctx.take Ctx.setPredQ Ctx.setSuccQ Ctx.setView
  dsimp only; split <;> split <;> rfl

theorem Ctx.viewOf_setView (c : Ctx) {e f : EngineId} (v : View) (h : f ≠ e) : (c.setView e v).viewOf f = c.viewOf f := by
  have : e.num ≠ f.num := fun n => h (by cases e <;> cases f <;> simp_all [EngineId.num])
  simp [Ctx.viewOf, Ctx.setView, this]
theorem Ctx.viewOf_take (c : Ctx) {e f : EngineId} (dp : Dep) (h : f ≠ e) : (c.take e dp).viewOf f = c.viewOf f := by
  rw [← c.viewOf_setView (c.look e dp) h]
  unfold Ctx.take Ctx.setPredQ Ctx.setSuccQ Ctx.viewOf
  dsimp only; split <;> split <;> rfl
theorem Ctx.viewOf_putP (c : Ctx) (e f : EngineId) : (c.putP e).viewOf f = c.viewOf f := by
  unfold Ctx.putP; split
  · rfl
  · exact Ctx.viewOf_setEng _ _ _ _
theorem Ctx.viewOf_putS (c : Ctx) (e f : EngineId) : (c.putS e).viewOf f = c.viewOf f := by
  unfold Ctx.putS; split
  · rfl
  · exact Ctx.viewOf_setEng _ _ _ _

theorem Ctx.regs_putP (c : Ctx) (e : EngineId) : (c.putP e).regs = c.regs := by
  unfold Ctx.putP; split
  · rfl
  · exact Ctx.regs_setEng _ _ _
theorem Ctx.regs_putS (c : Ctx) (e : EngineId) : (c.putS e).regs = c.regs := by
  unfold Ctx.putS; split
  · rfl
  · exact Ctx.regs_setEng _ _ _
theorem Ctx.s_putP (c : Ctx) (e : EngineId) : (c.putP e).s = c.s := by unfold Ctx.putP; split <;> simp [Ctx.sendS, Ctx.setSuccQ]
theorem Ctx.s_putS (c : Ctx) (e : EngineId) : (c.putS e).s = c.s := by unfold Ctx.putS; split <;> simp [Ctx.sendP, Ctx.setPredQ]
theorem Ctx.eng_sendP (c : Ctx) (e f : EngineId) : (c.sendP e).eng f = c.eng f := by cases f <;> rfl
theorem Ctx.eng_sendS (c : Ctx) (e f : EngineId) : (c.sendS e).eng f = c.eng f := by cases f <;> rfl
theorem Ctx.eng_putP (c : Ctx) (e f : EngineId) (h : f ≠ e) : (c.putP e).eng f = c.eng f := by
  unfold Ctx.putP; split
  · exact Ctx.eng_sendS _ _ _
  · exact Ctx.eng_setEng_ne _ _ h
theorem Ctx.eng_putS (c : Ctx) (e f : EngineId) (h : f ≠ e) : (c.putS e).eng f = c.eng f := by
  unfold Ctx.putS; split
  · exact Ctx.eng_sendP _ _ _
  · exact Ctx.eng_setEng_ne _ _ h
theorem Ctx.arch_putP (c : Ctx) (e f : EngineId) : ((c.putP e).eng f).arch = (c.eng f).arch := by
  by_cases h : f = e
  · subst h; unfold Ctx.putP; split
    · rw [Ctx.eng_sendS]
    · simp [Engine.arch]
  · rw [Ctx.eng_putP _ _ _ h]
theorem Ctx.arch_putS (c : Ctx) (e f : EngineId) : ((c.putS e).eng f).arch = (c.eng f).arch := by
  by_cases h : f = e
  · subst h; unfold Ctx.putS; split
    · rw [Ctx.eng_sendP]
    · simp [Engine.arch]
  · rw [Ctx.eng_putS _ _ _ h]

theorem Ctx.regs_signal (c : Ctx) (e : EngineId) (a b : Bool) : (c.signal e a b).regs = c.regs := by
  cases a <;> cases b <;> simp [Ctx.signal, Ctx.regs_putP, Ctx.regs_putS]
theorem Ctx.s_signal (c : Ctx) (e : EngineId) (a b : Bool) : (c.signal e a b).s = c.s := by
  cases a <;> cases b <;> simp [Ctx.signal, Ctx.s_putP, Ctx.s_putS]
theorem Ctx.eng_signal (c : Ctx) (e f : EngineId) (a b : Bool) (h : f ≠ e) : (c.signal e a b).eng f = c.eng f := by
  cases a <;> cases b <;> simp [Ctx.signal, Ctx.eng_putP, Ctx.eng_putS, h]
theorem Ctx.viewOf_signal (c : Ctx) (e f : EngineId) (a b : Bool) : (c.signal e a b).viewOf f = c.viewOf f := by
  cases a <;> cases b <;> simp [Ctx.signal, Ctx.viewOf_putP, Ctx.viewOf_putS]
theorem Ctx.arch_signal (c : Ctx) (e f : EngineId) (a b : Bool) : ((c.signal e a b).eng f).arch = (c.eng f).arch := by
  cases a <;> cases b <;> simp [Ctx.signal, Ctx.arch_putP, Ctx.arch_putS]

/-! ### Completing -/

theorem State.frame_issued (s : State) (w : EngRef) (dp : Dep) : Frame w s (s.issued w dp) := by
  unfold State.issued State.modEng
  refine Frame.trans (Frame.of_ctx (Ctx.regs_take _ _ _) (fun e _ => Ctx.eng_take _ _ _ _)
    (fun _ h => Ctx.viewOf_take _ _ h)) rfl Frame.of_eng
theorem State.frame_pass (s : State) (w : EngRef) (n : Nat) : Frame w s (s.pass w n) := Frame.of_eng
theorem State.frame_signal (s : State) (w : EngRef) (dp : Dep) : Frame w s (s.signal w dp) :=
  Frame.of_ctx (Ctx.regs_signal _ _ _ _) (fun _ h => Ctx.eng_signal _ _ _ _ _ h) (fun _ _ => Ctx.viewOf_signal _ _ _ _ _)

/-- Completing keeps all but the engine and its context's tokens. -/
theorem State.frame_after (s : State) (w : EngRef) (dp : Dep) (n : Nat) : Frame w s (s.after w dp n) :=
  Frame.trans (Frame.trans (s.frame_issued w dp) rfl (State.frame_pass _ w n)) rfl (State.frame_signal _ w dp)

/-- Completing keeps every scalar. -/
theorem State.sreg_after (s : State) (w : EngRef) (dp : Dep) (n : Nat) (r : BitVec 6) : (s.after w dp n).sreg w r = s.sreg w r := by
  simp only [State.sreg, Ctx.sget, State.after, State.signal, State.pass, State.issued, State.modEng, State.ctx_setCtx, State.ctx_setEng,
    Ctx.s_signal, Ctx.setEng_s, Ctx.s_take]

theorem Engine.arch_past (e : Engine) (n : Nat) : (e.past n).arch = e.arch := rfl

/-- Completing keeps the engine's predicates, generator and flags. -/
theorem State.arch_after (s : State) (w : EngRef) (dp : Dep) (n : Nat) : ((s.after w dp n).eng w).arch = (s.eng w).arch := by
  have h : ∀ t : State, ((t.signal w dp).eng w).arch = (t.eng w).arch := by
    intro t; simp only [State.eng, State.signal, State.ctx_setCtx, Ctx.arch_signal]
  unfold State.after
  rw [h, State.pass, State.eng_modEng, Engine.arch_past, State.issued, State.eng_modEng]
  simp only [Engine.arch, State.eng, State.ctx_setCtx, Ctx.eng_take]

theorem State.frame_setS (s : State) (w : EngRef) (d : BitVec 6) (v : BitVec 64) : Frame w s (s.setS w d v) :=
  Frame.of_ctx rfl (fun e _ => by cases e <;> rfl) (fun _ _ => rfl)

/-! ### Faults and stalls -/

/-- Taking a fault that is no violation, where the queue has a place: one record, one event, and the engine awaits. -/
theorem State.takeFault_eq (s : State) (w : EngRef) (t : Trap) (hf : t.freeze = false) (hq : s.queueRoom (mereOf w.core) = true) :
    s.takeFault w t =
      let x := s.writeRec (mereOf w.core) (s.faultRec w t .precise)
      (x.2.leaveNest w x.1.word0).modEng w
        (fun e => { e with st := .awaiting x.1, wdog := 0, stall := none, scWait := false, scGrant := none }) := by
  simp [State.takeFault, State.takeFault?, hf, hq]

/-- What a fault or a stall of an engine leaves alone: its frame, the scalars, and the engine's predicates, generator and flags. -/
structure Still (w : EngRef) (s t : State) : Prop where
  frame : Frame w s t
  scalars : (t.ctx w).s = (s.ctx w).s
  arch : (t.eng w).arch = (s.eng w).arch

theorem Still.rfl' {w : EngRef} {s : State} : Still w s s := ⟨Frame.rfl', rfl, rfl⟩

theorem Still.of_eng {w : EngRef} {s : State} {x : Engine} (h : x.arch = (s.eng w).arch) : Still w s (s.setEng w x) :=
  ⟨Frame.of_eng, by simp, by simpa using h⟩

theorem State.ctx_setMere (s : State) (m : Nat) (x : Mere) (w : EngRef) : (s.setMere m x).ctx w = s.ctx w := rfl
theorem State.core_setMere (s : State) (m : Nat) (x : Mere) (k : Nat) : (s.setMere m x).core k = s.core k := rfl

/-- Taking a fault that is no violation, where the queue has a place, leaves the rest alone. -/
theorem State.still_takeFault_room {s : State} {w : EngRef} {t : Trap} (hf : t.freeze = false) (hn : w.eng = .m → (s.ctx w).nestTok = false)
    (hq : s.queueRoom (mereOf w.core) = true) : Still w s (s.takeFault w t) := by
  rw [State.takeFault_eq s w t hf hq]
  dsimp only
  generalize hr : (s.writeRec (mereOf w.core) (s.faultRec w t .precise)) = x
  have hx : ∃ y, x.2 = s.setMere (mereOf w.core) y := by
    subst hr
    simp only [State.writeRec, State.bbox, State.setMere, State.mere, Vector.set_set]
    exact ⟨_, rfl⟩
  obtain ⟨y, hy⟩ := hx
  have hl : x.2.leaveNest w x.1.word0 = x.2 := by
    unfold State.leaveNest
    dsimp only
    rw [if_neg]
    intro ⟨h1, h2⟩
    rw [hy, State.ctx_setMere, hn h1] at h2
    exact absurd h2 (by simp)
  rw [hl, hy]
  refine ⟨?_, ?_, ?_⟩
  · refine ⟨rfl, fun k hk => ?_, ?_, ?_, ?_, fun e he => ?_, fun e he => ?_, fun h => ?_⟩
    · simp [State.modEng, State.setEng, State.setCtx, Ne.symm hk, State.core_setMere]
    · exact (Frame.of_eng (w := w) (s := s.setMere (mereOf w.core) y)).shared
    · exact (Frame.of_eng (w := w) (s := s.setMere (mereOf w.core) y)).other
    · exact (Frame.of_eng (w := w) (s := s.setMere (mereOf w.core) y)).regs
    · exact (Frame.of_eng (w := w) (s := s.setMere (mereOf w.core) y)).engines e he
    · exact (Frame.of_eng (w := w) (s := s.setMere (mereOf w.core) y)).views e he
    · simp at h
  · simp [State.modEng, State.ctx_setMere]
  · rw [State.eng_modEng]; rfl

/-- Taking a fault that is no violation leaves the rest alone, whether or not the queue has a place. -/
theorem State.still_takeFault {s : State} {w : EngRef} {t : Trap} (hf : t.freeze = false) (hn : w.eng = .m → (s.ctx w).nestTok = false) :
    Still w s (s.takeFault w t) := by
  cases hq : s.queueRoom (mereOf w.core) with
  | true => exact State.still_takeFault_room hf hn hq
  | false =>
    have : s.takeFault w t = s.setEng w { s.eng w with stall := some .other } := by
      simp [State.takeFault, State.takeFault?, hq, State.stallAt, State.modEng]
    rw [this]
    exact Still.of_eng rfl

theorem Still.trans {w : EngRef} {s t u : State} (a : Still w s t) (hm : t.meres = s.meres) (b : Still w t u) : Still w s u :=
  ⟨a.frame.trans hm b.frame, b.scalars.trans a.scalars, b.arch.trans a.arch⟩

/-- A stall leaves the rest alone. -/
theorem State.still_stallAt {s : State} {w : EngRef} {st : Stall} : Still w s (s.stallAt w st) := Still.of_eng rfl

/-- What issuing leaves alone when the body's own outcome does: `Q` holds of every state that stands still, and of what the body does. -/
theorem issue_still {dp : Dep} {eng : Option EngineId} {feat len : Nat} {pre : EngRef → State → Option Trap} {body : EngRef → State → Act}
    {s t : State} (hn : s.turn.eng = .m → (s.ctx s.turn).nestTok = false) (hp : ∀ x, pre s.turn s = some x → x.freeze = false)
    (h : issue dp eng feat len pre body s = .next t) :
    Still s.turn s t ∨ (s.canIssue s.turn = true ∧ pre s.turn s = none ∧ s.conclude s.turn dp len (body s.turn s) = .next t) := by
  revert h
  refine issue_cases (P := fun x => x = .next t → _) ?_ ?_ ?_ ?_ ?_ ?_
  · rintro - ⟨⟩; exact .inl Still.rfl'
  · rintro k ⟨⟩; exact .inl State.still_stallAt
  · rintro st - ⟨⟩; exact .inl State.still_stallAt
  · rintro c ⟨⟩; exact .inl (State.still_takeFault rfl hn)
  · rintro x hx ⟨⟩; exact .inl (State.still_takeFault (hp x hx) hn)
  · exact fun h1 h2 h3 => .inr ⟨h1, h2, h3⟩

end Sys2Proof.Machine
end

