-- ==== Sys2Proof/Laws/Memory.lean ====
section
/-! SUPPORT. Memory: the canonical form is kept, a byte that was stored is read, and every other byte reads as before. -/

namespace Sys2Proof.Machine

open Sys2Proof

/-! ### The canonical form -/

theorem memWfFrom_mono {m : List Host.Cell} {a b : Nat} (h : memWfFrom b m = true) (hab : a ≤ b) : memWfFrom a m = true := by
  cases m with
  | nil => rfl
  | cons c t =>
    simp only [memWfFrom, Bool.and_eq_true, decide_eq_true_eq] at h ⊢
    exact ⟨⟨by omega, h.1.2⟩, h.2⟩

/-- Cells at or above an address, and cells below it, follow each other in canonical form. -/
theorem memWfFrom_append {l r : List Host.Cell} {lo b : Nat} (hl : memWfFrom lo l = true) (hb : ∀ c ∈ l, c.1 < b) (hlo : lo ≤ b)
    (hr : memWfFrom b r = true) : memWfFrom lo (l ++ r) = true := by
  induction l generalizing lo with
  | nil => exact memWfFrom_mono hr hlo
  | cons c t ih =>
    simp only [memWfFrom, List.cons_append, Bool.and_eq_true, decide_eq_true_eq] at hl ⊢
    exact ⟨hl.1, ih hl.2 (fun x hx => hb x (by simp [hx])) (hb c (by simp))⟩

theorem memWfFrom_takeWhile {m : List Host.Cell} {lo : Nat} (p : Host.Cell → Bool) (h : memWfFrom lo m = true) :
    memWfFrom lo (m.takeWhile p) = true := by
  induction m generalizing lo with
  | nil => rfl
  | cons c t ih =>
    simp only [memWfFrom, Bool.and_eq_true] at h
    rw [List.takeWhile_cons]
    split
    · simp only [memWfFrom, Bool.and_eq_true]; exact ⟨h.1, ih h.2⟩
    · rfl

/-- What is left of the cells from an address on is in canonical form from that address. -/
theorem memWfFrom_dropWhile {m : List Host.Cell} {lo : Nat} (b : Nat) (h : memWfFrom lo m = true) :
    memWfFrom b (m.dropWhile (fun c => c.1 < b)) = true := by
  induction m generalizing lo with
  | nil => rfl
  | cons c t ih =>
    have h' := h
    simp only [memWfFrom, Bool.and_eq_true, decide_eq_true_eq] at h
    rw [List.dropWhile_cons]
    split
    · exact ih h.2
    · next hc =>
      simp only [decide_eq_true_eq, Nat.not_lt] at hc
      simp only [memWfFrom, Bool.and_eq_true, decide_eq_true_eq]
      exact ⟨⟨hc, h.1.2⟩, h.2⟩

theorem memWfFrom_filter {m : List Host.Cell} {lo : Nat} (p : Host.Cell → Bool) (h : memWfFrom lo m = true) :
    memWfFrom lo (m.filter p) = true := by
  induction m generalizing lo with
  | nil => rfl
  | cons c t ih =>
    simp only [memWfFrom, Bool.and_eq_true, decide_eq_true_eq] at h
    rw [List.filter_cons]
    split
    · simp only [memWfFrom, Bool.and_eq_true, decide_eq_true_eq]; exact ⟨h.1, ih h.2⟩
    · exact ih (memWfFrom_mono h.2 (by omega))

theorem cellsOf_wf (a : Nat) (bs : List Byte) : memWfFrom a (cellsOf a bs) = true := by
  induction bs generalizing a with
  | nil => rfl
  | cons b t ih =>
    unfold cellsOf
    split
    · exact memWfFrom_mono (ih (a + 1)) (by omega)
    · next hb => simp only [memWfFrom, Bool.and_eq_true, decide_eq_true_eq]; exact ⟨⟨Nat.le_refl _, by simpa using hb⟩, ih _⟩

theorem cellsOf_lt (a : Nat) (bs : List Byte) : ∀ c ∈ cellsOf a bs, a ≤ c.1 ∧ c.1 < a + bs.length := by
  induction bs generalizing a with
  | nil => simp [cellsOf]
  | cons b t ih =>
    intro c hc
    unfold cellsOf at hc
    split at hc
    · have := ih (a + 1) c hc; simp only [List.length_cons]; omega
    · rcases List.mem_cons.1 hc with rfl | hc
      · simp
      · have := ih (a + 1) c hc; simp only [List.length_cons]; omega

/-- A store keeps the canonical form. -/
theorem memWrite_wf {m : List Host.Cell} (a : Nat) (bs : List Byte) (h : Memory.wf m = true) : Memory.wf (memWrite m a bs) = true := by
  unfold Memory.wf memWrite at *
  have h1 : ∀ c ∈ m.takeWhile (fun c => decide (c.1 < a)), c.1 < a := by
    intro c hc; simpa using (List.all_takeWhile (p := fun c : Host.Cell => decide (c.1 < a)) (l := m) |> List.all_eq_true.1) c hc
  rw [List.append_assoc]
  refine memWfFrom_append (memWfFrom_takeWhile _ h) h1 (Nat.zero_le _) ?_
  exact memWfFrom_append (cellsOf_wf a bs) (fun c hc => (cellsOf_lt a bs c hc).2) (by omega)
    (memWfFrom_dropWhile _ (memWfFrom_dropWhile a h))

/-! ### Reading -/

theorem memByte_append_left {l r : List Host.Cell} {x : Nat} (h : ∀ c ∈ r, c.1 ≠ x) : memByte (l ++ r) x = memByte l x := by
  induction l with
  | nil =>
    induction r with
    | nil => rfl
    | cons c t ih => simp only [List.nil_append, memByte] at *; rw [if_neg (h c (by simp)), ih (fun d hd => h d (by simp [hd]))]
  | cons c t ih => simp only [List.cons_append, memByte, ih]

theorem memByte_append_right {l r : List Host.Cell} {x : Nat} (h : ∀ c ∈ l, c.1 ≠ x) : memByte (l ++ r) x = memByte r x := by
  induction l with
  | nil => rfl
  | cons c t ih => simp only [List.cons_append, memByte]; rw [if_neg (h c (by simp)), ih (fun d hd => h d (by simp [hd]))]

theorem memWfFrom_ge {m : List Host.Cell} {lo : Nat} (h : memWfFrom lo m = true) : ∀ c ∈ m, lo ≤ c.1 := by
  induction m generalizing lo with
  | nil => simp
  | cons d t ih =>
    simp only [memWfFrom, Bool.and_eq_true, decide_eq_true_eq] at h
    intro c hc
    rcases List.mem_cons.1 hc with rfl | hc
    · exact h.1.1
    · have := ih h.2 c hc; omega

theorem memByte_cellsOf (a : Nat) (bs : List Byte) (x : Nat) :
    memByte (cellsOf a bs) x = if a ≤ x then bs.getD (x - a) 0 else 0 := by
  induction bs generalizing a with
  | nil => simp [cellsOf, memByte]
  | cons b t ih =>
    unfold cellsOf
    split
    · next hb =>
      subst hb; rw [ih]
      rcases Nat.lt_trichotomy x a with h | rfl | h
      · rw [if_neg (by omega), if_neg (by omega)]
      · rw [if_neg (by omega)]; simp
      · rw [if_pos (by omega), if_pos (by omega), show x - a = (x - (a + 1)) + 1 by omega]; simp
    · simp only [memByte]
      split
      · next h => subst h; simp
      · rw [ih]
        rcases Nat.lt_or_ge x a with h | h
        · rw [if_neg (by omega), if_neg (by omega)]
        · rw [if_pos (by omega), if_pos (by omega), show x - a = (x - (a + 1)) + 1 by omega]; simp

/-- After a store, a byte it reached reads as stored and every other byte reads as before. -/
theorem memByte_memWrite {m : List Host.Cell} (h : Memory.wf m = true) (a : Nat) (bs : List Byte) (x : Nat) :
    memByte (memWrite m a bs) x = if a ≤ x ∧ x < a + bs.length then bs.getD (x - a) 0 else memByte m x := by
  have e1 : m.takeWhile (fun c => decide (c.1 < a)) ++ m.dropWhile (fun c => decide (c.1 < a)) = m := List.takeWhile_append_dropWhile
  have t1 : ∀ c ∈ m.takeWhile (fun c => decide (c.1 < a)), c.1 < a := by
    intro c hc; simpa using (List.all_takeWhile (p := fun c : Host.Cell => decide (c.1 < a)) (l := m) |> List.all_eq_true.1) c hc
  have d1 := memWfFrom_dropWhile a h
  generalize m.takeWhile (fun c => decide (c.1 < a)) = l at *
  generalize hr : m.dropWhile (fun c => decide (c.1 < a)) = r at *
  have e2 : r.takeWhile (fun c => decide (c.1 < a + bs.length)) ++ r.dropWhile (fun c => decide (c.1 < a + bs.length)) = r :=
    List.takeWhile_append_dropWhile
  have t2 : ∀ c ∈ r.takeWhile (fun c => decide (c.1 < a + bs.length)), c.1 < a + bs.length := by
    intro c hc
    simpa using (List.all_takeWhile (p := fun c : Host.Cell => decide (c.1 < a + bs.length)) (l := r) |> List.all_eq_true.1) c hc
  have d2 := memWfFrom_dropWhile (a + bs.length) d1
  have g1 := memWfFrom_ge d1
  have g2 := memWfFrom_ge d2
  have hw : memWrite m a bs = l ++ cellsOf a bs ++ r.dropWhile (fun c => decide (c.1 < a + bs.length)) := by
    unfold memWrite; rw [hr]
    congr 2
    have : m.takeWhile (fun c => decide (c.1 < a)) ++ r = l ++ r := by rw [e1, ← hr, List.takeWhile_append_dropWhile]
    exact List.append_cancel_right this
  rw [hw]
  generalize r.takeWhile (fun c => decide (c.1 < a + bs.length)) = mid at *
  generalize r.dropWhile (fun c => decide (c.1 < a + bs.length)) = hi at *
  have hm : memByte m x = memByte (l ++ (mid ++ hi)) x := by rw [e2, e1]
  rcases Nat.lt_or_ge x a with hx | hx
  · rw [if_neg (by omega), hm, List.append_assoc, memByte_append_left (r := cellsOf a bs ++ hi), memByte_append_left (r := mid ++ hi)]
    · intro c hc; rw [e2] at hc; have := g1 c hc; omega
    · intro c hc
      rcases List.mem_append.1 hc with hc | hc
      · have := (cellsOf_lt a bs c hc).1; omega
      · have := g2 c hc; omega
  · have n1 : ∀ c ∈ l, c.1 ≠ x := fun c hc => by have := t1 c hc; omega
    rw [hm, List.append_assoc, memByte_append_right n1, memByte_append_right n1]
    rcases Nat.lt_or_ge x (a + bs.length) with hy | hy
    · rw [if_pos ⟨hx, hy⟩, memByte_append_left (fun c hc => by have := g2 c hc; omega), memByte_cellsOf, if_pos hx]
    · rw [if_neg (by omega), memByte_append_right (fun c hc => by have := (cellsOf_lt a bs c hc).2; omega),
        memByte_append_right (fun c hc => by have := t2 c hc; omega)]

/-- Reading a run of bytes reads each of them. -/
theorem expand_eq {m : List Host.Cell} (a n : Nat) (h : memWfFrom a m = true) :
    expand m a n = (List.range n).map (fun i => memByte m (a + i)) := by
  induction n generalizing a m with
  | zero => cases m <;> rfl
  | succ n ih =>
    rw [List.range_succ_eq_map, List.map_cons, List.map_map]
    cases m with
    | nil => simp only [expand, memByte, ih (a + 1) (m := []) rfl]; simp [Function.comp_def]
    | cons c t =>
      obtain ⟨k, v⟩ := c
      have h' := h
      simp only [memWfFrom, Bool.and_eq_true, decide_eq_true_eq] at h
      unfold expand
      split
      · next hk =>
        subst hk
        rw [ih (k + 1) h.2]
        simp only [memByte, Nat.add_zero, if_true, Function.comp_def]
        congr 1
        refine List.map_congr_left fun i _ => ?_
        rw [if_neg (by omega), show k + 1 + i = k + i.succ by omega]
      · next hk =>
        rw [ih (a + 1) (by simp only [memWfFrom, Bool.and_eq_true, decide_eq_true_eq]; exact ⟨⟨by omega, h.1.2⟩, h.2⟩)]
        have : memByte ((k, v) :: t) a = 0 := by
          simp only [memByte, if_neg hk]
          have := memByte_append_right (r := []) (l := t) (x := a) (fun c hc => by have := memWfFrom_ge h.2 c hc; omega)
          simpa [memByte] using this
        simp only [Nat.add_zero, this, Function.comp_def]
        congr 1
        refine List.map_congr_left fun i _ => ?_
        rw [show a + 1 + i = a + i.succ by omega]

theorem memRead_eq {m : List Host.Cell} (h : Memory.wf m = true) (a n : Nat) :
    memRead m a n = (List.range n).map (fun i => memByte m (a + i)) := by
  unfold memRead
  rw [expand_eq a n (memWfFrom_dropWhile a h)]
  refine List.map_congr_left fun i _ => ?_
  have t1 : ∀ c ∈ m.takeWhile (fun c => decide (c.1 < a)), c.1 ≠ a + i := by
    intro c hc
    have := (List.all_takeWhile (p := fun c : Host.Cell => decide (c.1 < a)) (l := m) |> List.all_eq_true.1) c hc
    simp only [decide_eq_true_eq] at this; omega
  rw [← memByte_append_right t1 (r := m.dropWhile (fun c => decide (c.1 < a))), List.takeWhile_append_dropWhile]

/-- What was stored is read back. -/
theorem memRead_memWrite {m : List Host.Cell} (h : Memory.wf m = true) (a : Nat) (bs : List Byte) :
    memRead (memWrite m a bs) a bs.length = bs := by
  rw [memRead_eq (memWrite_wf a bs h)]
  refine List.ext_getElem (by simp) fun i h1 h2 => ?_
  simp only [List.length_map, List.length_range] at h1
  simp [memByte_memWrite h, h1]

/-! ### The machine's memory -/

/-- A store keeps the memory's form. -/
theorem State.store_memOk {s : State} (a : Nat) (bs : List Byte) (h : s.memOk = true) : (s.store a bs).memOk = true := by
  unfold State.memOk at *
  simp only [Bool.and_eq_true] at h ⊢
  exact ⟨memWrite_wf a bs h.1, h.2⟩

/-- Writing a checkpoint's image back between what lies below it and above it keeps the memory's form. -/
theorem image_wf {m cells : List Host.Cell} (h : Memory.wf m = true) (hc : Memory.wf cells = true) (hi : cells.all inImage = true) :
    Memory.wf (m.filter (fun c => decide (c.1 < 0x010000000000)) ++ cells ++ m.filter (fun c => decide (0x030000000000 ≤ c.1))) = true := by
  have hin : ∀ c ∈ cells, 0x010000000000 ≤ c.1 ∧ c.1 < 0x030000000000 := by
    intro c hc; simpa [inImage] using List.all_eq_true.1 hi c hc
  have up : ∀ (l : List Host.Cell) (b lo : Nat), memWfFrom lo l = true → (∀ c ∈ l, b ≤ c.1) → memWfFrom b l = true := by
    intro l b lo hl hb
    cases l with
    | nil => rfl
    | cons c t =>
      simp only [memWfFrom, Bool.and_eq_true, decide_eq_true_eq] at hl ⊢
      exact ⟨⟨hb c (by simp), hl.1.2⟩, hl.2⟩
  unfold Memory.wf at *
  rw [List.append_assoc]
  refine memWfFrom_append (b := 0x010000000000) (memWfFrom_filter _ h) (fun c hc => by simpa using (List.mem_filter.1 hc).2) (by omega) ?_
  refine memWfFrom_append (b := 0x030000000000) (up _ _ 0 hc (fun c hc => (hin c hc).1)) (fun c hc => (hin c hc).2) (by omega) ?_
  exact up _ _ 0 (memWfFrom_filter _ h) (fun c hc => by simpa using (List.mem_filter.1 hc).2)

end Sys2Proof.Machine
end

