-- ==== Sys2Proof/Laws/Objects.lean ====
section
/-! SUPPORT. What a usable handle resolves to, check by check. -/

namespace Sys2Proof.Machine

open Sys2Proof

section
variable {s : State} {p : Nat} {h : BitVec 64} {o : Obj} {ts : List ObjType} {rs : List Right}

/-- A handle that names an object resolves to it. -/
theorem resolve_names (u : s.names p h o = true) : s.resolve p h = .ok o := by
  simp only [State.names, Bool.and_eq_true, bne_iff_ne, decide_eq_true_eq, Bool.not_eq_true', beq_iff_eq] at u
  obtain ⟨⟨⟨⟨⟨⟨h1, h2⟩, h3⟩, h4⟩, h5⟩, h6⟩, h7⟩ := u
  unfold State.resolve
  rw [if_neg (fun x => x.elim h1 (Nat.not_le.2 h2)), if_neg (by simp [h3]), if_neg (by simp [h4]), h5]
  simp only
  rw [if_neg (by simp [h6, h7])]

/-- A usable handle names its object. -/
theorem names_usable (u : s.usable p h o ts rs = true) : s.names p h o = true := by
  simp only [State.usable, Bool.and_eq_true] at u
  exact u.1.1.1.1

/-- A usable handle resolves to its object. -/
theorem resolve_usable (u : s.usable p h o ts rs = true) : s.resolve p h = .ok o := resolve_names (names_usable u)

/-- A usable object passes the type check. -/
theorem needType_usable (u : s.usable p h o ts rs = true) : o.needType ts = .ok () := by
  simp only [State.usable, Bool.and_eq_true] at u
  rw [Obj.needType, need, if_pos u.1.1.1.2]

/-- A usable object passes the rights check. -/
theorem needRights_usable (u : s.usable p h o ts rs = true) : o.needRights rs = .ok () := by
  simp only [State.usable, Bool.and_eq_true] at u
  rw [Obj.needRights, need, if_pos u.1.1.2]

/-- A usable object passes the checks of its entry. -/
theorem needSound_usable (u : s.usable p h o ts rs = true) : s.needSound o = .ok () := by
  simp only [State.usable, Bool.and_eq_true, Bool.not_eq_true'] at u
  simp [State.needSound, need, u.1.2, u.2]

/-- A usable handle passes every check of R67. -/
theorem resolveFor_usable (u : s.usable p h o ts rs = true) : s.resolveFor p h ts rs = .ok o := by
  simp only [State.resolveFor, resolve_usable u, bind, Except.bind, needType_usable u, needRights_usable u, needSound_usable u, pure,
    Except.pure]

/-- A usable handle names the object that the state holds. -/
theorem objOf_usable (u : s.usable p h o ts rs = true) : s.objOf? h = some o := by
  have u := names_usable u
  simp only [State.names, Bool.and_eq_true, beq_iff_eq] at u
  exact u.1.1.2

/-- A handle that names an object is not null. -/
theorem ne_zero_names (u : s.names p h o = true) : h ≠ 0 := by
  rintro rfl
  simp [State.names, hObj] at u

/-- A usable handle is not null. -/
theorem ne_zero_usable (u : s.usable p h o ts rs = true) : h ≠ 0 := ne_zero_names (names_usable u)

/-- An instruction on loaded handle registers that are not null does what its body says. -/
theorem onHandle_loaded {hs : List (BitVec 5)} {body : EngRef → State → Act} (l : s.loaded hs = true)
    (n : ∀ h ∈ hs, (s.hreg s.turn h).h ≠ 0) : onHandle hs body s.turn s = body s.turn s := by
  unfold State.loaded at l
  unfold onHandle
  rw [if_neg (by simpa using l)]
  have : hs.find? (fun h => (s.hreg s.turn h).h = 0) = none := by simpa using n
  rw [this]

/-- A sequence instruction on a usable handle does what its body says, once the requests ahead of it have resolved. -/
theorem onSequence_usable {r : BitVec 5} {k : EngRef → State → Task → Obj → Except Trap Act} {t : Task} {rs : List Right}
    (l : s.loaded [r] = true) (hu : s.unresolved s.turn (s.tid s.turn) (fun _ => true) = false) (ht : s.task s.turn = some t) (u : s.usable t.part (s.hreg s.turn r).h o [.sequence] rs = true) :
    onSequence r rs k s.turn s = Act.of (k s.turn s t o) := by
  unfold onSequence
  rw [onHandle_loaded l (by simpa using ne_zero_usable u)]
  simp only [inOrder, hu, Bool.false_eq_true, if_false, withTask, ht, resolve_usable u, needType_usable u, needRights_usable u, bind, Except.bind]

/-- A tile that may be read is read. -/
theorem readTile_readable {t : Task} {d : BitVec 6} {k : Tile → Act} (h : s.readable t d = true) :
    readTile s.turn s d.toNat k = k ((s.core s.turn.core).tile d.toNat) := by
  simp only [State.readable, Bool.and_eq_true, beq_iff_eq, Bool.not_eq_true'] at h
  simp [readTile, tileRead, eccTile, h.1.2, h.2]

/-- A tile that may be read is allotted. -/
theorem needTiles_readable {t : Task} {d : BitVec 6} (ht : s.task s.turn = some t) (h : s.readable t d = true) :
    needTiles [d.toNat] s.turn s = none := by
  simp only [State.readable, Bool.and_eq_true] at h
  simp [needTiles, ht, h.1.1]
end

end Sys2Proof.Machine
end

