-- ==== Sys2Proof/Laws/Vector.lean ====
section
/-! SUPPORT. What a V instruction does where its queues flow, and the lanes and bits of the entries that it makes. -/

namespace Sys2Proof.Machine

open Sys2Proof

/-- Merging sources keeps their queues. -/
theorem mem_mergeSrcs {ss : List Src} {x : Src} (h : x ∈ mergeSrcs ss) : ∃ y ∈ ss, y.q = x.q := by
  induction ss generalizing x with
  | nil => cases h
  | cons y t ih =>
    simp only [mergeSrcs] at h
    split at h
    · simp only [List.mem_map] at h
      obtain ⟨z, hz, rfl⟩ := h
      obtain ⟨u, hu, e⟩ := ih hz
      refine ⟨u, List.mem_cons_of_mem _ hu, ?_⟩
      split <;> exact e
    · rcases List.mem_cons.1 h with rfl | h
      · exact ⟨x, List.mem_cons_self, rfl⟩
      · obtain ⟨u, hu, e⟩ := ih h
        exact ⟨u, List.mem_cons_of_mem _ hu, e⟩

/-- What flowing queues are. -/
theorem flows_iff {s : State} {srcs : List Src} {dests : List Nat} {ms : List (BitVec 3)} (h : s.flows srcs dests ms = true) :
    ms.any (s.maskBusy s.turn) = false ∧ ∃ t, s.task s.turn = some t ∧
      (∀ x ∈ srcs, t.hasQ s.turn.ctx x.q = true ∧ (t.binding s.turn.ctx x.q).2 = s.turn.eng ∧
        ∃ q e l, (s.core s.turn.core).queue x.q = q :: l ∧ q.bits? = some e) ∧
      (∀ d ∈ dests, t.hasQ s.turn.ctx d = true ∧ (t.binding s.turn.ctx d).1 = s.turn.eng ∧
        (((s.core s.turn.core).popSrcs (mergeSrcs srcs)).queue d).length + (dests.filter (fun x => x == d)).length ≤ 4) := by
  simp only [State.flows, Bool.and_eq_true, Bool.not_eq_true'] at h
  refine ⟨h.1, ?_⟩
  have h2 := h.2
  split at h2
  · cases h2
  · rename_i t ht
    simp only [Bool.and_eq_true, List.all_eq_true, beq_iff_eq, decide_eq_true_eq] at h2
    refine ⟨t, ht, fun x hx => ?_, fun d hd => ⟨(h2.2 d hd).1.1, (h2.2 d hd).1.2, (h2.2 d hd).2⟩⟩
    obtain ⟨⟨a, b⟩, c⟩ := h2.1 x hx
    refine ⟨a, b, ?_⟩
    cases hq : (s.core s.turn.core).queue x.q with
    | nil => simp [hq] at c
    | cons y l =>
      cases hy : y.bits? with
      | none => simp [hq, hy] at c
      | some e => exact ⟨y, e, l, rfl, hy⟩

/-- Reading a queue whose oldest place holds an entry. -/
theorem readQueue_bits {b : Bool} {n : Nat} {q : QSlot} {e : BitVec 4096} {l : List QSlot} (h : q.bits? = some e) : readQueue b n (q :: l) = .ok e := by
  cases q <;> simp [QSlot.bits?] at h <;> subst h <;> rfl

/-- Where queues flow and nothing else is waited for, the body sees the oldest entries. -/
theorem queueIssue_flows {s : State} {srcs : List Src} {dests : List Nat} {ms : List (BitVec 3)} {k : List (BitVec 4096) → Core → Act}
    (h : s.flows srcs dests ms = true) :
    queueIssue s.turn s srcs dests false k = k (srcs.map (fun x => s.oldest x.q)) ((s.core s.turn.core).popSrcs (mergeSrcs srcs)) := by
  obtain ⟨-, t, ht, hs, hd⟩ := flows_iff h
  have hm : ∀ x ∈ mergeSrcs srcs, (t.binding s.turn.ctx x.q).2 = s.turn.eng ∧
      ∃ q e l, (s.core s.turn.core).queue x.q = q :: l ∧ q.bits? = some e := by
    intro x hx
    obtain ⟨y, hy, e⟩ := mem_mergeSrcs hx
    rw [← e]
    exact (hs y hy).2
  have read : ∀ x ∈ mergeSrcs srcs, ∃ e, readQueue (t.isLocal s.turn.ctx x.q) x.q ((s.core s.turn.core).queue x.q) = .ok e := by
    intro x hx
    obtain ⟨-, y, e, l, q, hy⟩ := hm x hx
    exact ⟨e, by rw [q]; exact readQueue_bits hy⟩
  unfold queueIssue
  rw [ht]
  dsimp only
  have e0 : (((mergeSrcs srcs).map Src.q).find? (fun q => (t.binding s.turn.ctx q).2 != s.turn.eng)).or
      (dests.find? (fun d => (t.binding s.turn.ctx d).1 != s.turn.eng)) = none := by
    rw [Option.or_eq_none_iff, List.find?_eq_none, List.find?_eq_none]
    refine ⟨fun q hq => ?_, fun d hd' => by simp [(hd d hd').2.1]⟩
    obtain ⟨x, hx, rfl⟩ := List.mem_map.1 hq
    simp [(hm x hx).1]
  rw [e0]
  dsimp only
  · have full : ∀ b : Bool, dests.find? (fun d => (if b then t.isLocal s.turn.ctx d else !t.isLocal s.turn.ctx d) &&
        decide (4 < (((s.core s.turn.core).popSrcs (mergeSrcs srcs)).queue d).length + (dests.filter (fun x => x == d)).length)) = none := by
      intro b
      rw [List.find?_eq_none]
      intro d hd'
      have := (hd d hd').2.2
      simp only [Bool.and_eq_true, decide_eq_true_eq]
      omega
    have f1 := full true
    have f2 := full false
    simp only [if_true, Bool.false_eq_true, if_false] at f1 f2
    rw [f1]
    dsimp only
    have e1 : (mergeSrcs srcs).find? (fun x => t.isLocal s.turn.ctx x.q && ((s.core s.turn.core).queue x.q).isEmpty) = none := by
      rw [List.find?_eq_none]
      intro x hx
      obtain ⟨-, y, e, l, q, -⟩ := hm x hx
      simp [q]
    rw [e1]
    dsimp only
    rw [f2]
    dsimp only
    have e2 : ∀ {α : Type} (f : Src → Option α), (∀ x ∈ mergeSrcs srcs, f x = none) → (mergeSrcs srcs).findSome? f = none :=
      fun f hf => List.findSome?_eq_none_iff.2 hf
    rw [e2, e2]
    · simp only [Bool.false_eq_true, if_false]
      congr 1
      refine List.map_congr_left fun x hx => ?_
      obtain ⟨-, -, y, e, l, q, hy⟩ := hs x hx
      rw [q, readQueue_bits hy]
      simp [State.oldest, q, hy]
    · intro x hx
      obtain ⟨e, q⟩ := read x hx
      rw [q]
    · intro x hx
      obtain ⟨e, q⟩ := read x hx
      rw [q]

/-- Where queues flow, they are allotted. -/
theorem needQueues_flows {s : State} {srcs : List Src} {dests : List Nat} {ms : List (BitVec 3)} (h : s.flows srcs dests ms = true) :
    needQueues (srcs.map (fun x => x.q) ++ dests) s.turn s = none := by
  obtain ⟨-, t, ht, hs, hd⟩ := flows_iff h
  unfold needQueues
  rw [ht]
  dsimp only
  rw [Option.map_eq_none_iff, List.find?_eq_none]
  intro q hq
  rcases List.mem_append.1 hq with h1 | h1
  · obtain ⟨x, hx, rfl⟩ := List.mem_map.1 h1
    simp [(hs x hx).1]
  · simp [(hd q h1).1]

/-- A V instruction whose queues flow and whose scalars are settled issues with what it computes, or faults. -/
theorem vOp_flows {dp : Dep} {len : Nat} {srcs : List Src} {dests : List Nat} {rs : List (BitVec 6)} {ms : List (BitVec 3)}
    {f : EngRef → State → List (BitVec 4096) → Except Trap VRes} {s : State} (hr : s.ready dp (some .v) 0 len = true)
    (hs : s.settled rs = true) (h : s.flows srcs dests ms = true) :
    vOp dp len srcs dests rs ms f s = match f s.turn s (srcs.map (fun x => s.oldest x.q)) with
      | .error t => .next (s.takeFault s.turn t)
      | .ok r => .next (s.vIssues dp len srcs dests r) := by
  unfold vOp
  rw [issue_ready hr (needQueues_flows h)]
  unfold vAct
  unfold State.settled at hs
  rw [Bool.not_eq_true'] at hs
  rw [(flows_iff h).1, hs, Bool.or_false, queueIssue_flows h]
  cases f s.turn s (srcs.map (fun x => s.oldest x.q)) <;> rfl

/-! ### Lanes -/

/-- Lane `i` of packed lanes. -/
theorem packLanes_lane (w : Nat) (ls : List Nat) (i : Nat) : packLanes w ls >>> (w * i) % 2 ^ w = ls.getD i 0 % 2 ^ w := by
  induction ls generalizing i with
  | nil => simp [packLanes]
  | cons x t ih =>
    cases i with
    | zero => simp [packLanes]
    | succ i =>
      have e : packLanes w (x :: t) >>> (w * (i + 1)) = packLanes w t >>> (w * i) := by
        rw [Nat.mul_succ, Nat.add_comm, Nat.shiftRight_add, packLanes]
        congr 1
        rw [Nat.shiftRight_eq_div_pow, Nat.add_mul_div_left _ _ (Nat.two_pow_pos w), Nat.div_eq_of_lt (Nat.mod_lt _ (Nat.two_pow_pos w)),
          Nat.zero_add]
      rw [e, ih]
      rfl

/-- The low bits of a shifted number depend on no bit above them. -/
theorem shift_mod (x a w n : Nat) (h : a + w ≤ n) : (x % 2 ^ n) >>> a % 2 ^ w = x >>> a % 2 ^ w := by
  apply Nat.eq_of_testBit_eq
  intro i
  simp only [Nat.testBit_mod_two_pow, Nat.testBit_shiftRight]
  by_cases hi : i < w
  · have : a + i < n := by omega
    simp [hi, this]
  · simp [hi]

/-- Lane `i` of an entry made of lanes. -/
theorem lane_entryOf {w : Nat} (ls : List Nat) {i : Nat} (hi : i < 4096 / w) : lane (entryOf w ls) w i = ls.getD i 0 % 2 ^ w := by
  have hw : 0 < w := by
    rcases Nat.eq_zero_or_pos w with rfl | h
    · simp at hi
    · exact h
  have : w * i + w ≤ 4096 := by
    have h1 := Nat.div_mul_le_self 4096 w
    have h2 : w * (i + 1) ≤ w * (4096 / w) := Nat.mul_le_mul_left _ hi
    rw [Nat.mul_comm w (4096 / w)] at h2
    rw [Nat.mul_succ] at h2
    omega
  rw [lane, entryOf, BitVec.toNat_ofNat, shift_mod _ _ _ _ this, packLanes_lane]

/-- A bit of packed lanes. -/
theorem packLanes_testBit {w : Nat} (hw : 0 < w) (ls : List Nat) (k : Nat) :
    (packLanes w ls).testBit k = (ls.getD (k / w) 0).testBit (k % w) := by
  have h := congrArg (fun n => n.testBit (k % w)) (packLanes_lane w ls (k / w))
  simp only [Nat.testBit_mod_two_pow, Nat.mod_lt _ hw, decide_true, Bool.true_and, Nat.testBit_shiftRight, Nat.div_add_mod] at h
  exact h

/-- The bits of the bytes that a guard enables. -/
theorem getLsbD_guardBits (g : BitVec 512) {k : Nat} (h : k < 4096) : (guardBits g).getLsbD k = !g.getLsbD (k / 8) := by
  have h8 : k / 8 < 512 := by omega
  rw [guardBits, BitVec.getLsbD_ofNat, packLanes_testBit (by decide)]
  have e : ((List.range 512).map (fun j => if g.getLsbD j then 0 else 255)).getD (k / 8) 0 = if g.getLsbD (k / 8) then 0 else 255 := by
    rw [List.getD_eq_getElem?_getD, List.getElem?_map, List.getElem?_range h8]
    rfl
  rw [e]
  have h255 : ∀ j, j < 8 → Nat.testBit 255 j = true := by decide
  cases g.getLsbD (k / 8)
  · simp [h, h255 (k % 8) (Nat.mod_lt _ (by decide))]
  · simp

end Sys2Proof.Machine
end

