-- ==== Sys2Proof/Tests/Slice0.lean ====
section
/-! SUPPORT. Tests of one step or one word each: ill-formed terms, the words of the spec's worked examples, a word of every instruction,
small steps, and a witness for the hypotheses of every statement. -/

namespace Sys2Proof.Tests

-- one theorem at a time: many evaluations at once need too much memory
set_option Elab.async false

open Sys2Proof Sys2Proof.Machine

/-! ### Ill-formed terms: one for each check of `Instr.wf` -/

/-- No dependency bits. -/
abbrev d0 : Dep := Dep.none

theorem test_ill_scalar_of_c : (Instr.add d0 32 0 0).wf = false := by decide
theorem test_ill_scalar_of_l : (Instr.sqlen d0 31 0 0).wf = false ∧ (Instr.sqlen d0 44 0 0).wf = false := by decide
theorem test_ill_scalar_of_m : (Instr.astat d0 43 0).wf = false ∧ (Instr.astat d0 52 0).wf = false := by decide
theorem test_ill_scalar_of_v : (Instr.vpeeks d0 0 false 51 0 0).wf = false := by decide
theorem test_ill_sext_width : (Instr.sext d0 0 0 0).wf = false ∧ (Instr.sext d0 0 0 65).wf = false := by decide
theorem test_ill_loop_length : (Instr.loopC d0 0 0).wf = false := by decide
theorem test_ill_barrier : (Instr.barw d0 48 0).wf = false ∧ (Instr.barw d0 0 3).wf = false := by decide
theorem test_ill_scope : (Instr.pub d0 0 5).wf = false := by decide
theorem test_ill_scope_of_sc : (Instr.caddSc d0 0 0 4).wf = false := by decide
theorem test_ill_node : (Instr.spawn d0 0 0 false true 4096).wf = false ∧ (Instr.spawn d0 0 1 false false 0).wf = false ∧
    (Instr.spawn d0 0 0 false false 1).wf = false := by decide
theorem test_ill_padding : (Instr.shpo d0 0 0 3 0).wf = false ∧ (Instr.shpo d0 0 0 0 5).wf = false := by decide
theorem test_ill_copy_queue : (Instr.cpq d0 ⟨32, 0, 0, 0, 0, 0, 0, 0⟩).wf = false := by decide
theorem test_ill_copy_bank : (Instr.cbfillF32 d0 ⟨8, 0, 0, 0, 0, 0, 0, 0⟩).wf = false := by decide
theorem test_ill_copy_scope : (Instr.cpin d0 ⟨0, 0, 0, 0, 0, 0, 0, 5⟩).wf = false := by decide
theorem test_ill_swizzle : (Instr.tset d0 0 0 0 5).wf = false := by decide
theorem test_ill_bank_command : (Instr.bkx d0 0 7 0 0).wf = false ∧ (Instr.bkxHandle d0 0 0 0 0 5).wf = false := by decide
theorem test_ill_order : (Instr.aadd d0 ⟨0, 0, 0, 0, 0, 5⟩).wf = false ∧ (Instr.aadd d0 ⟨0, 0, 0, 0, 4, 4⟩).wf = false ∧
    (Instr.aadd d0 ⟨1, 0, 0, 0, 0, 0⟩).wf = false ∧ (Instr.acas d0 ⟨0, 0, 0, 0, 0, 0⟩ 0 2).wf = false := by decide
theorem test_ill_key_value : (Instr.kvput d0 ⟨0, 0, 0, 0, 0, 0, 1⟩).wf = false ∧ (Instr.kvdel d0 ⟨1, 0, 0, 0, 0, 0, 0⟩).wf = false := by decide
theorem test_ill_hint : (Instr.promo d0 ⟨0, 0, 0, 0, 0, 0, 0, 0⟩ 2).wf = false ∧ (Instr.demo d0 ⟨0, 0, 0, 0, 0, 0, 0, 0⟩ 0).wf = false ∧
    (Instr.promo d0 ⟨1, 0, 0, 0, 0, 0, 0, 0⟩ 0).wf = false := by decide
theorem test_ill_hget_field : (Instr.hget d0 32 0 3).wf = false := by decide
theorem test_ill_banks_of_mma : (Instr.mma d0 ⟨0, 0, 0, false, false, false, false, false, false, 0, 0, 1, 0⟩).wf = false ∧
    (Instr.mma d0 ⟨0, 0, 0, false, false, false, false, false, false, 0, 0, 0, 1⟩).wf = false := by decide
theorem test_ill_nest_row : (Instr.mncfg d0 7 0 0 0).wf = false ∧ (Instr.mncfg d0 0 0 0 0x1000).wf = false ∧
    (Instr.mncfg d0 6 0 1 0).wf = false := by decide
theorem test_ill_group_shape : (Instr.acoop d0 0 1).wf = false ∧ (Instr.acoop d0 1 6).wf = false := by decide
theorem test_ill_rounding : (Instr.vaddF32 d0 ⟨0, 0, 0, false, false, 0⟩ 5).wf = false := by decide
theorem test_ill_sum_rounding : (Instr.vredaddF32 d0 ⟨0, 0, false, 0⟩ 4).wf = false := by decide
theorem test_ill_fma_overflow : (Instr.vfmaF32 d0 ⟨0, 0, 0, false, false, 0⟩ ⟨0, 1, 0, false⟩).wf = false := by decide
theorem test_ill_drain_scale : (Instr.adrainE4m3 d0 ⟨0, 0, 0, false, false, 0, 0, 3, false⟩).wf = false ∧
    (Instr.adrainF32 d0 ⟨0, 0, 0, false, false, 0, 0, 1, false⟩).wf = false ∧
    (Instr.adrainE4m3 d0 ⟨0, 0, 1, false, false, 0, 0, 0, false⟩).wf = false := by decide
theorem test_ill_mask : (Instr.vcmpI32 d0 ⟨0, 0, 0, false, false, 0⟩).wf = false ∧ (Instr.vcmpI32 d0 ⟨8, 0, 0, false, false, 0⟩).wf = false := by
  decide
theorem test_ill_conversion : (Instr.vcvt d0 ⟨0, 0, false, 0⟩ ⟨0, 0, 1, 1, 0⟩).wf = false ∧
    (Instr.vcvt d0 ⟨0, 0, false, 0⟩ ⟨0, 0, 11, 1, 0⟩).wf = false ∧ (Instr.vcvt d0 ⟨0, 0, false, 0⟩ ⟨0, 0, 1, 0, 2⟩).wf = false := by decide
theorem test_ill_width : (Instr.vbcast d0 0 0 0 3).wf = false := by decide
theorem test_ill_parts : (Instr.vpack d0 ⟨0, 0, false, 0⟩ 7 1).wf = false ∧ (Instr.vcbx d0 ⟨0, 0, false, 0⟩ 0 7 4).wf = false := by decide
theorem test_ill_permutation : (Instr.vperm d0 ⟨0, 0, 0, false, false, 0⟩ 7 0 0 false).wf = false ∧
    (Instr.vperm d0 ⟨0, 0, 1, false, false, 0⟩ 1 0 0 false).wf = false ∧ (Instr.vperm d0 ⟨0, 0, 0, false, false, 0⟩ 0 0 1 false).wf = false := by decide
theorem test_ill_scan_carry : (Instr.vscanI32 d0 ⟨0, 0, false, 0⟩ ⟨0, 0, 1, false⟩ 0 false).wf = false := by decide
theorem test_ill_keep_of_copy : (Instr.vdup d0 ⟨0, 0, 0, false, true, 0⟩).wf = false := by decide
theorem test_ill_peeked_lane : (Instr.vpeeks d0 0 false 52 0 128).wf = false := by decide
theorem test_ill_system_register : (Instr.sysrd d0 0 4).wf = false ∧ (Instr.syswr d0 0 0x12).wf = false := by decide

/-! ### Words of the spec's worked examples (12_encoding_notes, 14, 16, 18, 20 and 22) -/

/-- Dependency bits by name. -/
abbrev wp : Dep := ⟨true, false, false, false⟩
abbrev wn : Dep := ⟨false, true, false, false⟩
abbrev sp : Dep := ⟨false, false, true, false⟩
abbrev sn : Dep := ⟨false, false, false, true⟩

theorem test_words_of_control : ∀ x ∈ ([
    (0x00000000, 0, .nop d0), (0x00000001, 0, .nopEnd d0), (0x40000000, 0, .nop wn), (0x10000000, 0, .nop sn), (0x80000000, 0, .nop wp),
    (0x20000000, 0, .nop sp), (0x02B20004, 0, .loopC d0 8 4), (0x02B24002, 0, .loopC d0 9 2), (0x02D0C000, 0, .park d0 3 0),
    (0x0340C824, 0, .cwaitx d0 3 8 9), (0x43410844, 0, .cwaitx wn 4 8 17), (0x43404938, 0, .cwaitx wn 1 9 14), (0x43500060, 0, .pub wn 0 3),
    (0x03600D38, 0, .subSubscribe d0 0 13 14), (0x53700F00, 0, .opin ⟨false, true, false, true⟩ 0 15),
    (0x53100F20, 0, .baraw ⟨false, true, false, true⟩ 0 15 1), (0x31440900, 0, .shr ⟨false, false, true, true⟩ 16 9 0)] :
    List (BitVec 32 × BitVec 32 × Instr)), decode x.1 x.2.1 = .instr x.2.2 := by decide

theorem test_words_of_stream : ∀ x ∈ ([
    (0x07A38002, 0, .loopL d0 14 2), (0x07A40004, 0, .loopL d0 16 4), (0xA5992400, 0x05560000, .pxhash ⟨true, false, true, false⟩ 36 36 0 21 22),
    (0x04A04480, 0x00210006, .cpout d0 ⟨1, 1, 4, 0, 33, 0, 0, 3⟩), (0x25400080, 0x04120180, .sqcmt sp 4 16 18 3),
    (0x04404000, 0x00000006, .cpin d0 ⟨1, 0, 0, 0, 0, 0, 0, 3⟩), (0x24A04440, 0x00090006, .cpout sp ⟨1, 1, 2, 0, 9, 0, 0, 3⟩),
    (0x04700000, 0x004E0006, .cpq d0 ⟨0, 0, 0, 1, 14, 0, 0, 3⟩), (0x24C08840, 0x00400006, .cpqo sp ⟨2, 2, 2, 1, 0, 0, 0, 3⟩),
    (0x851C082C, 0, .tset wp 48 8 11 0)] : List (BitVec 32 × BitVec 32 × Instr)), decode x.1 x.2.1 = .instr x.2.2 := by decide

theorem test_words_of_matrix : ∀ x ∈ ([
    (0x08000120, 0x00420000, .mma d0 ⟨0, 0, 1, false, false, true, false, false, false, 1, 2, 0, 0⟩), (0x08100824, 0x0000000F, .mncfg d0 0 8 9 15),
    (0x08200000, 0, .mnest d0), (0x28C1801C, 0x00200000, .adrainE4m3 sp ⟨6, 0, 7, false, false, 0, 0, 1, false⟩),
    (0x096081B3, 0, .adrqBf16 d0 ⟨2, 1, 44, 3, 0, 0, false⟩), (0x08400000, 0, .azero d0 0 0 false)] : List (BitVec 32 × BitVec 32 × Instr)),
    decode x.1 x.2.1 = .instr x.2.2 := by decide

theorem test_words_of_vector : ∀ x ∈ ([
    (0x0A952400, 0x00280000, .vfmaF32 d0 ⟨10, 9, 0, false, false, 0⟩ ⟨0, 0, 10, false⟩), (0x0DA6A8E1, 0, .vsel d0 ⟨13, 10, 7, false, false, 1⟩),
    (0x0EE6B420, 0, .vmerge3 d0 ⟨13, 13, 1, false, false, 0⟩ 0), (0x0EF40007, 0, .loopV d0 16 7),
    (0x4EC18000, 0x00004048, .vlanei wn 3 0 8 0 9), (0x0DB20000, 0x00005000, .vbcast d0 4 0 10 0),
    (0x0D808C85, 0, .vcmpI32 d0 ⟨1, 3, 4, false, false, 5⟩), (0x0E028411, 0, .vredmaxF32 d0 ⟨5, 1, true, 1⟩),
    (0x0A3304A1, 0, .vsubF32 d0 ⟨6, 1, 5, false, false, 1⟩ 0), (0x0BA39801, 0, .vexp2F32 d0 ⟨7, 6, false, 1⟩ 0),
    (0x0DC41C01, 0, .vredaddF32 d0 ⟨8, 7, false, 1⟩ 0)] : List (BitVec 32 × BitVec 32 × Instr)), decode x.1 x.2.1 = .instr x.2.2 := by decide

theorem test_word_of_group : decode 0x08300000 0x00000035 = .instr (.acoop d0 3 5) := by decide

/-- R231 and R234: an unassigned opcode and a reserved field. -/
theorem test_refused_words : decode 0x03E00000 0 = .unassigned ∧ decode 0x0F400000 0 = .unassigned ∧ decode 0x00000002 0 = .badEncoding ∧
    decode 0x02300000 0x10000000 = .badEncoding := by decide

/-! ### A word of every instruction, laid out from the formats of R224 to R226 and the operand tables of its chapter -/

theorem test_decode_control1 : ∀ x ∈ ([
    (0xA0000000, 0x00000000, .nop ⟨true, false, true, false⟩),
    (0x50000001, 0x00000000, .nopEnd ⟨false, true, false, true⟩),
    (0x00100090, 0x00000000, .add ⟨false, false, false, false⟩ 0#6 0#6 36#6),
    (0xE0202E04, 0x00000000, .sub ⟨true, true, true, false⟩ 0#6 46#6 1#6),
    (0x70347DD8, 0x00000000, .addi ⟨false, true, true, true⟩ 17#6 61#6 216#8),
    (0x70407700, 0x00000000, .mul ⟨false, true, true, true⟩ 1#6 55#6 0#6),
    (0x10540050, 0x00000000, .mulh ⟨false, false, false, true⟩ 16#6 0#6 20#6),
    (0x8065F204, 0x00000000, .mulhu ⟨true, false, false, false⟩ 23#6 50#6 1#6),
    (0x8072002C, 0x00000000, .divu ⟨true, false, false, false⟩ 8#6 0#6 11#6),
    (0x708101FC, 0x00000000, .divs ⟨false, true, true, true⟩ 4#6 1#6 63#6),
    (0xB0904278, 0x00000000, .remu ⟨true, false, true, true⟩ 1#6 2#6 30#6),
    (0xD0A10608, 0x00000000, .rems ⟨true, true, false, true⟩ 4#6 6#6 2#6),
    (0x00B20104, 0x00000000, .and ⟨false, false, false, false⟩ 8#6 1#6 1#6),
    (0x20C0338E, 0x00000000, .andi ⟨false, false, true, false⟩ 0#6 51#6 142#8),
    (0x40D01AAC, 0x00000000, .or ⟨false, true, false, false⟩ 0#6 26#6 43#6),
    (0x00E13D0F, 0x00000000, .ori ⟨false, false, false, false⟩ 4#6 61#6 15#8),
    (0x20F6A408, 0x00000000, .xor ⟨false, false, true, false⟩ 26#6 36#6 2#6),
    (0x9100D801, 0x00000000, .xori ⟨true, false, false, true⟩ 3#6 24#6 1#8),
    (0xF1105500, 0x00000000, .andn ⟨true, true, true, true⟩ 1#6 21#6 0#6),
    (0x8123018C, 0x00000000, .shl ⟨true, false, false, false⟩ 12#6 1#6 35#6)] : List (BitVec 32 × BitVec 32 × Instr)),
    decode x.1 x.2.1 = .instr x.2.2 := by decide

theorem test_decode_control2 : ∀ x ∈ ([
    (0x9131F017, 0x00000000, .shli ⟨true, false, false, true⟩ 7#6 48#6 23#6),
    (0x0145FD04, 0x00000000, .shr ⟨false, false, false, false⟩ 23#6 61#6 1#6),
    (0x51507110, 0x00000000, .shri ⟨false, true, false, true⟩ 1#6 49#6 16#6),
    (0xE16050BC, 0x00000000, .sar ⟨true, true, true, false⟩ 1#6 16#6 47#6),
    (0x11704901, 0x00000000, .sari ⟨false, false, false, true⟩ 1#6 9#6 1#6),
    (0x0183815C, 0x00000000, .rotl ⟨false, false, false, false⟩ 14#6 1#6 23#6),
    (0x21904008, 0x00000000, .rotli ⟨false, false, true, false⟩ 1#6 0#6 8#6),
    (0x61A01FA0, 0x00000000, .min ⟨false, true, true, false⟩ 0#6 31#6 40#6),
    (0x71B00A04, 0x00000000, .minu ⟨false, true, true, true⟩ 0#6 10#6 1#6),
    (0xC1C00160, 0x00000000, .max ⟨true, true, false, false⟩ 0#6 1#6 24#6),
    (0xE1D001AC, 0x00000000, .maxu ⟨true, true, true, false⟩ 0#6 1#6 43#6),
    (0xE1E7D000, 0x00000000, .clz ⟨true, true, true, false⟩ 31#6 16#6),
    (0x01F4DC00, 0x00000000, .popc ⟨false, false, false, false⟩ 19#6 28#6),
    (0x92000000, 0x00000000, .lui ⟨true, false, false, true⟩ 0#6 0#14),
    (0xA2177410, 0x00000000, .li ⟨true, false, true, false⟩ 29#6 13328#14),
    (0xF2266D28, 0x00000000, .sext ⟨true, true, true, true⟩ 25#6 45#6 40#8),
    (0xE237F564, 0x00000009, .sel ⟨true, true, true, false⟩ 31#6 53#6 25#6 1#3 true),
    (0x52418101, 0x00000000, .cmp ⟨false, true, false, true⟩ 6#3 1#6 0#6 1#2),
    (0xB2514140, 0x00000000, .cmpi ⟨true, false, true, true⟩ 5#3 1#6 1#2 0#6),
    (0xB2608005, 0x00000000, .plog ⟨true, false, true, true⟩ 2#3 0#3 1#3 1#2)] : List (BitVec 32 × BitVec 32 × Instr)),
    decode x.1 x.2.1 = .instr x.2.2 := by decide

theorem test_decode_controlFlow1 : ∀ x ∈ ([
    (0xA273691C, 0x00000000, .br ⟨true, false, true, false⟩ 1#3 true 26908#16),
    (0xF280B3C4, 0x00000000, .jmp ⟨true, true, true, true⟩ 46020#16),
    (0xB290A9B4, 0x00000000, .call ⟨true, false, true, true⟩ 43444#16),
    (0x32A00000, 0x00000000, .ret ⟨false, false, true, true⟩),
    (0x52B01514, 0x00000000, .loopC ⟨false, true, false, true⟩ 0#6 5396#14),
    (0x82C00000, 0x00000000, .retire ⟨true, false, false, false⟩),
    (0xD2D00030, 0x00000000, .park ⟨true, true, false, true⟩ 0#6 48#6),
    (0xB2E6002F, 0x00000000, .unpark ⟨true, false, true, true⟩ 24#6 47#6),
    (0xD2F58000, 0x00000000, .bara ⟨true, true, false, true⟩ 22#6 0#6 0#3),
    (0x43024020, 0x00000000, .barw ⟨false, true, false, false⟩ 9#6 1#3),
    (0xA31AA240, 0x00000000, .baraw ⟨true, false, true, false⟩ 42#6 34#6 2#3),
    (0xC3217500, 0x00000000, .cadd ⟨true, true, false, false⟩ 5#5 53#6 0#3),
    (0x8334CF00, 0x00000000, .caddSc ⟨true, false, false, false⟩ 19#5 15#6 0#3),
    (0x4344DBAC, 0x00000000, .cwaitx ⟨false, true, false, false⟩ 19#5 27#6 43#6),
    (0x43518040, 0x00000000, .pub ⟨false, true, false, false⟩ 6#5 2#3),
    (0x43674200, 0x00000000, .subSubscribe ⟨false, true, false, false⟩ 29#5 2#6 0#6),
    (0xC3700C00, 0x00000000, .opin ⟨true, true, false, false⟩ 0#5 12#6),
    (0x0385C000, 0x00000000, .ounpin ⟨false, false, false, false⟩ 23#5),
    (0x03900001, 0x00000000, .qrel ⟨false, false, false, false⟩ 1#14),
    (0xF3A00000, 0x00000000, .arel ⟨true, true, true, true⟩ 0#14)] : List (BitVec 32 × BitVec 32 × Instr)),
    decode x.1 x.2.1 = .instr x.2.2 := by decide

theorem test_decode_controlFlow2 : ∀ x ∈ ([
    (0xF3B01402, 0x00000000, .trel ⟨true, true, true, true⟩ 5122#14),
    (0x93C03D01, 0x00010001, .spawn ⟨true, false, false, true⟩ 0#6 61#6 true true 1#16),
    (0x63D00000, 0x00000000, .yield ⟨false, true, true, false⟩)] : List (BitVec 32 × BitVec 32 × Instr)),
    decode x.1 x.2.1 = .instr x.2.2 := by decide

theorem test_decode_copies1 : ∀ x ∈ ([
    (0x34002780, 0x08675C00, .shp ⟨false, false, true, true⟩ 9#4 28#5 33#6 39#6 23#6),
    (0x64100DE0, 0x00006800, .shpx ⟨false, true, true, false⟩ 3#4 15#5 0#6 0#6 26#6),
    (0x642007E0, 0x00000260, .shpo ⟨false, true, true, false⟩ 1#4 31#5 2#2 3#3),
    (0x24301340, 0x00000028, .shps ⟨false, false, true, false⟩ 4#4 26#5 0#4 10#4),
    (0xA4401660, 0x0E580002, .cpin ⟨true, false, true, false⟩ ⟨0#6, 5#4, 19#5, 57#6, 24#6, 0#6, 0#6, 1#3⟩),
    (0x3457FC00, 0x00500010, .cpinTr ⟨false, false, true, true⟩ ⟨31#6, 15#4, 0#5, 1#6, 16#6, 0#6, 1#6, 0#3⟩),
    (0x446084A0, 0x01BDCC60, .cpinRb ⟨false, true, false, false⟩ ⟨2#6, 1#4, 5#5, 6#6, 61#6, 51#6, 6#6, 0#3⟩),
    (0x14710420, 0x0000FB68, .cpq ⟨false, false, false, true⟩ ⟨4#6, 1#4, 1#5, 0#6, 0#6, 62#6, 54#6, 4#3⟩),
    (0xA4804400, 0x0C878EE2, .cpqTr ⟨true, false, true, false⟩ ⟨1#6, 1#4, 0#5, 50#6, 7#6, 35#6, 46#6, 1#3⟩),
    (0xF49070E0, 0x087D5C40, .cpqRb ⟨true, true, true, true⟩ ⟨1#6, 12#4, 7#5, 33#6, 61#6, 23#6, 4#6, 0#3⟩),
    (0x24A49B60, 0x0A4128C2, .cpout ⟨false, false, true, false⟩ ⟨18#6, 6#4, 27#5, 41#6, 1#6, 10#6, 12#6, 1#3⟩),
    (0xE4B307A0, 0x0A583402, .cpoutFf ⟨true, true, true, false⟩ ⟨12#6, 1#4, 29#5, 41#6, 24#6, 13#6, 0#6, 1#3⟩),
    (0x64C1D5C0, 0x0A400006, .cpqo ⟨false, true, true, false⟩ ⟨7#6, 5#4, 14#5, 41#6, 0#6, 0#6, 0#6, 3#3⟩),
    (0x64D48400, 0x05F100B8, .cprag ⟨false, true, true, false⟩ ⟨18#6, 1#4, 0#5, 23#6, 49#6, 0#6, 11#6, 4#3⟩),
    (0xF4E486E0, 0x0032D000, .cpragTr ⟨true, true, true, true⟩ ⟨18#6, 1#4, 23#5, 0#6, 50#6, 52#6, 0#6, 0#3⟩),
    (0xC4F043C0, 0x07603C00, .cppeer ⟨true, true, false, false⟩ ⟨1#6, 0#4, 30#5, 29#6, 32#6, 15#6, 0#6, 0#3⟩),
    (0xB5004420, 0x000E0290, .cppeerFf ⟨true, false, true, true⟩ ⟨1#6, 1#4, 1#5, 0#6, 14#6, 0#6, 41#6, 0#3⟩),
    (0xC51B5E00, 0x00000001, .tset ⟨true, true, false, false⟩ 45#6 30#6 0#6 1#3),
    (0x0510C001, 0x00000000, .tsetClr ⟨false, false, false, false⟩ 3#6),
    (0xB5100002, 0x00000000, .tsetRdy ⟨true, false, true, true⟩ 0#6)] : List (BitVec 32 × BitVec 32 × Instr)),
    decode x.1 x.2.1 = .instr x.2.2 := by decide

theorem test_decode_copies2 : ∀ x ∈ ([
    (0x95289500, 0x00000000, .tstat ⟨true, false, false, true⟩ 34#6 21#6)] : List (BitVec 32 × BitVec 32 × Instr)),
    decode x.1 x.2.1 = .instr x.2.2 := by decide

theorem test_decode_sequences1 : ∀ x ∈ ([
    (0x45388000, 0x05C00000, .sqres ⟨false, true, false, false⟩ 34#6 0#5 23#6),
    (0xC5400260, 0x002A0080, .sqcmt ⟨true, true, false, false⟩ 19#5 0#6 42#6 1#3),
    (0x55599601, 0x00000000, .sqlen ⟨false, true, false, true⟩ 38#6 22#5 1#2),
    (0xB562C020, 0x00810000, .sqfork ⟨true, false, true, true⟩ 11#5 1#5 2#6 1#6),
    (0x757000A0, 0x04B80000, .sqpin ⟨false, true, true, true⟩ 5#5 18#6 56#6),
    (0x25800160, 0x0FC10000, .squnpin ⟨false, false, true, false⟩ 11#5 63#6 1#6),
    (0xA59A8670, 0x04330000, .pxhash ⟨true, false, true, false⟩ 42#6 6#6 28#6 16#6 51#6),
    (0x65A876FC, 0x05000000, .pxfind ⟨false, true, true, false⟩ 33#6 54#6 63#6 20#5),
    (0x35BA9700, 0x07A30000, .pxins ⟨false, false, true, true⟩ 42#6 23#5 0#5 30#6 35#6),
    (0x35C9EA30, 0x00000000, .pxdel ⟨false, false, true, true⟩ 39#6 42#6 12#6),
    (0xB5D05000, 0x0C3B0590, .cbfillF32 ⟨true, false, true, true⟩ ⟨1#6, 4#4, 0#5, 48#6, 59#6, 1#6, 25#6, 0#3⟩),
    (0xE5E04400, 0x034F5DA0, .cbfillBf16 ⟨true, true, true, false⟩ ⟨1#6, 1#4, 0#5, 13#6, 15#6, 23#6, 26#6, 0#3⟩),
    (0xE5F04140, 0x0D485D80, .cbfillF16 ⟨true, true, true, false⟩ ⟨1#6, 0#4, 10#5, 53#6, 8#6, 23#6, 24#6, 0#3⟩),
    (0xF60044A0, 0x0C3C95A0, .cbfillE4m3 ⟨true, true, true, true⟩ ⟨1#6, 1#4, 5#5, 48#6, 60#6, 37#6, 26#6, 0#3⟩),
    (0x86104DC0, 0x00552018, .cbfillE5m2 ⟨true, false, false, false⟩ ⟨1#6, 3#4, 14#5, 1#6, 21#6, 8#6, 1#6, 4#3⟩),
    (0xF621ABA8, 0x00000000, .cbsetF32 ⟨true, true, true, true⟩ 6#3 43#6 42#6),
    (0xA6304A2C, 0x00000000, .cbsetBf16 ⟨true, false, true, false⟩ 1#3 10#6 11#6),
    (0xB64126C4, 0x00000000, .cbsetF16 ⟨true, false, true, true⟩ 4#3 38#6 49#6),
    (0x9650E460, 0x00000000, .cbsetE4m3 ⟨true, false, false, true⟩ 3#3 36#6 24#6),
    (0xE660E73C, 0x00000000, .cbsetE5m2 ⟨true, true, true, false⟩ 3#3 39#6 15#6)] : List (BitVec 32 × BitVec 32 × Instr)),
    decode x.1 x.2.1 = .instr x.2.2 := by decide

theorem test_decode_sequences2 : ∀ x ∈ ([
    (0x9670C000, 0x00000000, .cbinv ⟨true, false, false, true⟩ 3#3),
    (0x86838004, 0x00000000, .bkx ⟨true, false, false, false⟩ 14#6 4#4 0#6 0#6),
    (0x968002D0, 0x08400000, .bkxHandle ⟨true, false, false, true⟩ 22#5 0#4 33#6 0#6 0#3)] : List (BitVec 32 × BitVec 32 × Instr)),
    decode x.1 x.2.1 = .instr x.2.2 := by decide

theorem test_decode_commands : ∀ x ∈ ([
    (0x569AC020, 0x0D3A0090, .aadd ⟨false, true, false, true⟩ ⟨43#6, 1#5, 52#6, 58#6, 1#3, 1#3⟩),
    (0x66A90260, 0x00200190, .amin ⟨false, true, true, false⟩ ⟨36#6, 19#5, 0#6, 32#6, 3#3, 1#3⟩),
    (0x76B88380, 0x0BB30010, .amax ⟨false, true, true, true⟩ ⟨34#6, 28#5, 46#6, 51#6, 0#3, 1#3⟩),
    (0x56C001E0, 0x00AD0080, .axch ⟨false, true, false, true⟩ ⟨0#6, 15#5, 2#6, 45#6, 1#3, 0#3⟩),
    (0x56DA4020, 0x005D0402, .acas ⟨false, true, false, true⟩ ⟨41#6, 1#5, 1#6, 29#6, 0#3, 0#3⟩ 1#6 1#3),
    (0xC6E7CC20, 0x01C15156, .radd ⟨true, true, false, false⟩ ⟨31#6, 3#4, 1#5, 7#6, 1#6, 20#6, 21#6, 3#3⟩),
    (0xC6FC0E60, 0x00608406, .raddFf ⟨true, true, false, false⟩ ⟨48#6, 3#4, 19#5, 1#6, 32#6, 33#6, 0#6, 3#3⟩),
    (0xA7044300, 0x0C5ED400, .kvput ⟨true, false, true, false⟩ ⟨17#6, 24#5, 0#4, 49#6, 30#6, 53#6, 0#6⟩),
    (0x971E41E0, 0x0D08E6A0, .kvget ⟨true, false, false, true⟩ ⟨57#6, 15#5, 0#4, 52#6, 8#6, 57#6, 42#6⟩),
    (0x97200020, 0x0037A800, .kvdel ⟨true, false, false, true⟩ ⟨0#6, 1#5, 0#4, 0#6, 55#6, 42#6, 0#6⟩),
    (0x373000CE, 0x00240400, .kvexist ⟨false, false, true, true⟩ ⟨0#6, 6#5, 14#4, 0#6, 36#6, 1#6, 0#6⟩),
    (0x57464180, 0x00440670, .kvlist ⟨false, true, false, true⟩ ⟨25#6, 12#5, 0#4, 1#6, 4#6, 1#6, 39#6⟩),
    (0x07502400, 0x06C14356, .promo ⟨false, false, false, false⟩ ⟨0#6, 9#4, 0#5, 27#6, 1#6, 16#6, 53#6, 3#3⟩ 0#3),
    (0xD7602804, 0x01600410, .demo ⟨true, true, false, true⟩ ⟨0#6, 10#4, 0#5, 5#6, 32#6, 1#6, 1#6, 0#3⟩ 4#3),
    (0xC777E800, 0x00000000, .hset ⟨true, true, false, false⟩ 31#5 40#6),
    (0x17704001, 0x00000000, .hsetImport ⟨false, false, false, true⟩ 1#5 0#6),
    (0x778A0801, 0x00000000, .hget ⟨false, true, true, true⟩ 40#6 8#5 1#2),
    (0xF798C020, 0x010122E0, .hprobe ⟨true, true, true, true⟩ 35#6 1#5 4#6 1#6 8#6 46#6),
    (0x37A3997F, 0x00000000, .loopL ⟨false, false, true, true⟩ 14#6 6527#14)] : List (BitVec 32 × BitVec 32 × Instr)),
    decode x.1 x.2.1 = .instr x.2.2 := by decide

theorem test_decode_matrix1 : ∀ x ∈ ([
    (0xC805A05C, 0x0AA57800, .mma ⟨true, true, false, false⟩ ⟨5#4, 10#4, 0#4, false, true, false, true, true, true, 42#6, 37#6, 3#3, 6#3⟩),
    (0xF81023AC, 0x00000001, .mncfg ⟨true, true, true, true⟩ 0#3 35#6 43#6 1#28),
    (0x28200000, 0x00000000, .mnest ⟨false, false, true, false⟩),
    (0xD8300000, 0x00000024, .acoop ⟨true, true, false, true⟩ 2#2 4#3),
    (0x08300001, 0x00000000, .acoopEnd ⟨false, false, false, false⟩),
    (0xA8404100, 0x00000000, .azero ⟨true, false, true, false⟩ 1#4 1#4 false),
    (0xE8504100, 0x00000000, .aloadF32 ⟨true, true, true, false⟩ 1#4 1#6 false),
    (0x58622900, 0x00000000, .aloadI32 ⟨false, true, false, true⟩ 8#4 41#6 false),
    (0x787B0100, 0x00000000, .astat ⟨false, true, true, true⟩ 44#6 1#4),
    (0x28811BDC, 0x00000000, .loopM ⟨false, false, true, false⟩ 4#6 7132#14),
    (0x989F4F03, 0x00800000, .adrainF32 ⟨true, false, false, true⟩ ⟨61#6, 15#4, 0#6, true, true, 0#3, 1#2, 0#2, false⟩),
    (0x38A58F03, 0x03000000, .adrainF16 ⟨false, false, true, true⟩ ⟨22#6, 15#4, 0#6, true, true, 1#3, 2#2, 0#2, false⟩),
    (0x38BE0A00, 0x02800000, .adrainBf16 ⟨false, false, true, true⟩ ⟨56#6, 10#4, 0#6, false, false, 1#3, 1#2, 0#2, false⟩),
    (0x78C000C4, 0x02400000, .adrainE4m3 ⟨false, true, true, true⟩ ⟨0#6, 0#4, 49#6, false, false, 1#3, 0#2, 2#2, false⟩),
    (0x08D04441, 0x04B00000, .adrainE5m2 ⟨false, false, false, false⟩ ⟨1#6, 4#4, 16#6, false, true, 2#3, 1#2, 1#2, true⟩),
    (0xC8ED4E05, 0x02B00000, .adrainE2m3 ⟨true, true, false, false⟩ ⟨53#6, 14#4, 1#6, false, true, 1#3, 1#2, 1#2, true⟩),
    (0x98F08EF4, 0x08B00000, .adrainE3m2 ⟨true, false, false, true⟩ ⟨2#6, 14#4, 61#6, false, false, 4#3, 1#2, 1#2, true⟩),
    (0x290A8107, 0x02A00000, .adrainE2m1 ⟨false, false, true, false⟩ ⟨42#6, 1#4, 1#6, true, true, 1#3, 1#2, 1#2, false⟩),
    (0x39100C02, 0x02000000, .adrainI32 ⟨false, false, true, true⟩ ⟨0#6, 12#4, 0#6, true, false, 1#3, 0#2, 0#2, false⟩),
    (0x09280D16, 0x08300000, .adrainI8 ⟨false, false, false, false⟩ ⟨32#6, 13#4, 5#6, true, false, 4#3, 0#2, 1#2, true⟩)] : List (BitVec 32 × BitVec 32 × Instr)),
    decode x.1 x.2.1 = .instr x.2.2 := by decide

theorem test_decode_matrix2 : ∀ x ∈ ([
    (0x79304019, 0x00500000, .adrainI4 ⟨false, true, true, true⟩ ⟨1#6, 0#4, 6#6, false, true, 0#3, 0#2, 2#2, true⟩),
    (0x49420107, 0x08800000, .adrqF32 ⟨false, true, false, false⟩ ⟨8#5, 1#4, 1#6, 3#2, 4#3, 1#2, false⟩),
    (0xD9500C05, 0x02C00000, .adrqF16 ⟨true, true, false, true⟩ ⟨0#5, 12#4, 1#6, 1#2, 1#3, 1#2, true⟩),
    (0xA967C003, 0x02800000, .adrqBf16 ⟨true, false, true, false⟩ ⟨31#5, 0#4, 0#6, 3#2, 1#3, 1#2, false⟩),
    (0xE970C379, 0x02400000, .adrqE4m3 ⟨true, true, true, false⟩ ⟨3#5, 3#4, 30#6, 1#2, 1#3, 0#2, true⟩),
    (0x6982817D, 0x08000000, .adrqE5m2 ⟨false, true, true, false⟩ ⟨10#5, 1#4, 31#6, 1#2, 4#3, 0#2, false⟩),
    (0xC99048B0, 0x06000000, .adrqI32 ⟨true, true, false, false⟩ ⟨1#5, 8#4, 44#6, 0#2, 3#3, 0#2, false⟩),
    (0x59A3C704, 0x01C00000, .adrqI8 ⟨false, true, false, true⟩ ⟨15#5, 7#4, 1#6, 0#2, 0#3, 3#2, true⟩)] : List (BitVec 32 × BitVec 32 × Instr)),
    decode x.1 x.2.1 = .instr x.2.2 := by decide

theorem test_decode_vectorFloat1 : ∀ x ∈ ([
    (0xEA0A1DAC, 0x02000000, .vaddF32 ⟨true, true, true, false⟩ ⟨20#5, 7#5, 13#5, false, true, 4#3⟩ 1#3),
    (0x2A1AE5ED, 0x02000000, .vaddF16 ⟨false, false, true, false⟩ ⟨21#5, 25#5, 15#5, false, true, 5#3⟩ 1#3),
    (0x2A2DAC58, 0x04000000, .vaddBf16 ⟨false, false, true, false⟩ ⟨27#5, 11#5, 2#5, true, true, 0#3⟩ 2#3),
    (0x3A325360, 0x02000000, .vsubF32 ⟨false, false, true, true⟩ ⟨4#5, 20#5, 27#5, false, false, 0#3⟩ 1#3),
    (0xEA406B0A, 0x00000000, .vsubF16 ⟨true, true, true, false⟩ ⟨0#5, 26#5, 24#5, false, true, 2#3⟩ 0#3),
    (0x4A500455, 0x00000000, .vsubBf16 ⟨false, true, false, false⟩ ⟨0#5, 1#5, 2#5, true, false, 5#3⟩ 0#3),
    (0xEA609C32, 0x02000000, .vmulF32 ⟨true, true, true, false⟩ ⟨1#5, 7#5, 1#5, true, false, 2#3⟩ 1#3),
    (0x9A7FCD77, 0x00000000, .vmulF16 ⟨true, false, false, true⟩ ⟨31#5, 19#5, 11#5, true, false, 7#3⟩ 0#3),
    (0xBA85DEA5, 0x02000000, .vmulBf16 ⟨true, false, true, true⟩ ⟨11#5, 23#5, 21#5, false, false, 5#3⟩ 1#3),
    (0xDA9C19F3, 0x00040000, .vfmaF32 ⟨true, true, false, true⟩ ⟨24#5, 6#5, 15#5, true, false, 3#3⟩ ⟨0#3, 0#2, 1#5, false⟩),
    (0x2AAA801B, 0x04180000, .vfmaF16 ⟨false, false, true, false⟩ ⟨21#5, 0#5, 0#5, true, true, 3#3⟩ ⟨2#3, 0#2, 6#5, false⟩),
    (0x3ABCB590, 0x022C0000, .vfmaBf16 ⟨false, false, true, true⟩ ⟨25#5, 13#5, 12#5, true, false, 0#3⟩ ⟨1#3, 0#2, 11#5, false⟩),
    (0x8AC29017, 0x03FE0000, .vfmaE4m3 ⟨true, false, false, false⟩ ⟨5#5, 4#5, 0#5, true, false, 7#3⟩ ⟨1#3, 3#2, 31#5, true⟩),
    (0xCADB8032, 0x02020000, .vfmaE5m2 ⟨true, true, false, false⟩ ⟨23#5, 0#5, 1#5, true, false, 2#3⟩ ⟨1#3, 0#2, 0#5, true⟩),
    (0x8AE28440, 0x00000000, .vminF32 ⟨true, false, false, false⟩ ⟨5#5, 1#5, 2#5, false, false, 0#3⟩),
    (0xEAF88DE0, 0x00000000, .vminF16 ⟨true, true, true, false⟩ ⟨17#5, 3#5, 15#5, false, false, 0#3⟩),
    (0xFB038419, 0x00000000, .vminBf16 ⟨true, true, true, true⟩ ⟨7#5, 1#5, 0#5, true, true, 1#3⟩),
    (0xBB178419, 0x00000000, .vmaxF32 ⟨true, false, true, true⟩ ⟨15#5, 1#5, 0#5, true, true, 1#3⟩),
    (0x1B2B6828, 0x00000000, .vmaxF16 ⟨false, false, false, true⟩ ⟨22#5, 26#5, 1#5, false, true, 0#3⟩),
    (0xCB356031, 0x00000000, .vmaxBf16 ⟨true, true, false, false⟩ ⟨10#5, 24#5, 1#5, true, false, 1#3⟩)] : List (BitVec 32 × BitVec 32 × Instr)),
    decode x.1 x.2.1 = .instr x.2.2 := by decide

theorem test_decode_vectorFloat2 : ∀ x ∈ ([
    (0x5B415014, 0x00000000, .vrcpF32 ⟨false, true, false, true⟩ ⟨2#5, 20#5, true, 4#3⟩ 0#3),
    (0x5B508011, 0x02000000, .vrcpF16 ⟨false, true, false, true⟩ ⟨1#5, 0#5, true, 1#3⟩ 1#3),
    (0x7B685415, 0x02000000, .vrcpBf16 ⟨false, true, true, true⟩ ⟨16#5, 21#5, true, 5#3⟩ 1#3),
    (0xAB706811, 0x02000000, .vrsqF32 ⟨true, false, true, false⟩ ⟨0#5, 26#5, true, 1#3⟩ 1#3),
    (0xDB821811, 0x04000000, .vrsqF16 ⟨true, true, false, true⟩ ⟨4#5, 6#5, true, 1#3⟩ 2#3),
    (0x3B900412, 0x00000000, .vrsqBf16 ⟨false, false, true, true⟩ ⟨0#5, 1#5, true, 2#3⟩ 0#3),
    (0x7BA08403, 0x06000000, .vexp2F32 ⟨false, true, true, true⟩ ⟨1#5, 1#5, false, 3#3⟩ 3#3),
    (0x7BBFA016, 0x00000000, .vexp2F16 ⟨false, true, true, true⟩ ⟨31#5, 8#5, true, 6#3⟩ 0#3),
    (0x7BC08404, 0x00000000, .vexp2Bf16 ⟨false, true, true, true⟩ ⟨1#5, 1#5, false, 4#3⟩ 0#3),
    (0x9BD09400, 0x04000000, .vlog2F32 ⟨true, false, false, true⟩ ⟨1#5, 5#5, false, 0#3⟩ 2#3),
    (0x7BE08013, 0x02000000, .vlog2F16 ⟨false, true, true, true⟩ ⟨1#5, 0#5, true, 3#3⟩ 1#3),
    (0x4BF5C004, 0x02000000, .vlog2Bf16 ⟨false, true, false, false⟩ ⟨11#5, 16#5, false, 4#3⟩ 1#3)] : List (BitVec 32 × BitVec 32 × Instr)),
    decode x.1 x.2.1 = .instr x.2.2 := by decide

theorem test_decode_vectorInteger1 : ∀ x ∈ ([
    (0x8C008016, 0x00000000, .vabsF32 ⟨true, false, false, false⟩ ⟨1#5, 0#5, true, 6#3⟩),
    (0x6C1E0001, 0x00000000, .vabsF16 ⟨false, true, true, false⟩ ⟨28#5, 0#5, false, 1#3⟩),
    (0xFC20B007, 0x00000000, .vabsBf16 ⟨true, true, true, true⟩ ⟨1#5, 12#5, false, 7#3⟩),
    (0xAC368413, 0x00000000, .vnegF32 ⟨true, false, true, false⟩ ⟨13#5, 1#5, true, 3#3⟩),
    (0xDC403C13, 0x00000000, .vnegF16 ⟨true, true, false, true⟩ ⟨0#5, 15#5, true, 3#3⟩),
    (0xCC580410, 0x00000000, .vnegBf16 ⟨true, true, false, false⟩ ⟨16#5, 1#5, true, 0#3⟩),
    (0x8C6A8011, 0x00003000, .vcvt ⟨true, false, false, false⟩ ⟨21#5, 0#5, true, 1#3⟩ ⟨0#3, 0#2, 1#4, 8#4, 0#3⟩),
    (0xBC700402, 0x0000C000, .vcbx ⟨true, false, true, true⟩ ⟨0#5, 1#5, false, 2#3⟩ 3#3 0#3 0#5),
    (0x6C804F5E, 0x00000000, .viaddI32 ⟨false, true, true, false⟩ ⟨0#5, 19#5, 26#5, true, true, 6#3⟩ 0#2),
    (0x6C9287B8, 0x00800000, .viaddI8 ⟨false, true, true, false⟩ ⟨5#5, 1#5, 29#5, true, true, 0#3⟩ 1#2),
    (0xCCAE9019, 0x00800000, .visubI32 ⟨true, true, false, false⟩ ⟨29#5, 4#5, 0#5, true, true, 1#3⟩ 1#2),
    (0x8CB337E0, 0x00000000, .visubI8 ⟨true, false, false, false⟩ ⟨6#5, 13#5, 31#5, false, false, 0#3⟩ 0#2),
    (0x8CCEEAC8, 0x00800000, .vimulI32 ⟨true, false, false, false⟩ ⟨29#5, 26#5, 22#5, false, true, 0#3⟩ 1#2),
    (0xFCDE1653, 0x01800000, .vimulI8 ⟨true, true, true, true⟩ ⟨28#5, 5#5, 18#5, true, false, 3#3⟩ 3#2),
    (0xBCE0B3F1, 0x00000000, .vand ⟨true, false, true, true⟩ ⟨1#5, 12#5, 31#5, true, false, 1#3⟩),
    (0x6CF00494, 0x00000000, .vor ⟨false, true, true, false⟩ ⟨0#5, 1#5, 4#5, true, false, 4#3⟩),
    (0x6D090020, 0x00000000, .vxor ⟨false, true, true, false⟩ ⟨18#5, 0#5, 1#5, false, false, 0#3⟩),
    (0x2D120010, 0x00000000, .vshlI32 ⟨false, false, true, false⟩ ⟨4#5, 0#5, 0#5, true, false, 0#3⟩),
    (0xDD2C63C2, 0x00000000, .vshlI8 ⟨true, true, false, true⟩ ⟨24#5, 24#5, 30#5, false, false, 2#3⟩),
    (0xAD303439, 0x00000000, .vshrI32 ⟨true, false, true, false⟩ ⟨0#5, 13#5, 1#5, true, true, 1#3⟩)] : List (BitVec 32 × BitVec 32 × Instr)),
    decode x.1 x.2.1 = .instr x.2.2 := by decide

theorem test_decode_vectorInteger2 : ∀ x ∈ ([
    (0x8D443409, 0x00000000, .vshrI8 ⟨true, false, false, false⟩ ⟨8#5, 13#5, 0#5, false, true, 1#3⟩),
    (0x7D50E4A0, 0x00000000, .vcmpF32 ⟨false, true, true, true⟩ ⟨1#5, 25#5, 5#5, false, false, 0#3⟩)] : List (BitVec 32 × BitVec 32 × Instr)),
    decode x.1 x.2.1 = .instr x.2.2 := by decide

theorem test_decode_vectorMove1 : ∀ x ∈ ([
    (0xCD60F686, 0x00000000, .vcmpF16 ⟨true, true, false, false⟩ ⟨1#5, 29#5, 20#5, false, false, 6#3⟩),
    (0x2D70A023, 0x00000000, .vcmpBf16 ⟨false, false, true, false⟩ ⟨1#5, 8#5, 1#5, false, false, 3#3⟩),
    (0x5D808658, 0x00000000, .vcmpI32 ⟨false, true, false, true⟩ ⟨1#5, 1#5, 18#5, true, true, 0#3⟩),
    (0x2D90C964, 0x00000000, .vcmpI8 ⟨false, false, true, false⟩ ⟨1#5, 18#5, 11#5, false, false, 4#3⟩),
    (0x3DA162B0, 0x00000000, .vsel ⟨false, false, true, true⟩ ⟨2#5, 24#5, 21#5, true, false, 0#3⟩),
    (0xEDB08000, 0x0000CA00, .vbcast ⟨true, true, true, false⟩ 1#5 0#3 25#6 1#2),
    (0x3DB03014, 0x00010500, .vbcastLane ⟨false, false, true, true⟩ ⟨0#5, 12#5, true, 4#3⟩ 32#6 2#2),
    (0x2DC09403, 0x00000000, .vredaddF32 ⟨false, false, true, false⟩ ⟨1#5, 5#5, false, 3#3⟩ 0#3),
    (0x2DD03410, 0x02000000, .vredaddF16 ⟨false, false, true, false⟩ ⟨0#5, 13#5, true, 0#3⟩ 1#3),
    (0x1DE00410, 0x00000000, .vredaddBf16 ⟨false, false, false, true⟩ ⟨0#5, 1#5, true, 0#3⟩ 0#3),
    (0x5DFDD012, 0x00000000, .vredaddI32 ⟨false, true, false, true⟩ ⟨27#5, 20#5, true, 2#3⟩ 0#2),
    (0x0E074801, 0x00000000, .vredmaxF32 ⟨false, false, false, false⟩ ⟨14#5, 18#5, false, 1#3⟩),
    (0x4E10FC00, 0x00000000, .vredmaxF16 ⟨false, true, false, false⟩ ⟨1#5, 31#5, false, 0#3⟩),
    (0x3E201C00, 0x00000000, .vredmaxBf16 ⟨false, false, true, true⟩ ⟨0#5, 7#5, false, 0#3⟩),
    (0x5E308406, 0x00000000, .vredmaxI32 ⟨false, true, false, true⟩ ⟨1#5, 1#5, false, 6#3⟩),
    (0xAE4B8005, 0x004D2000, .vscanF32 ⟨true, false, true, false⟩ ⟨23#5, 0#5, false, 5#3⟩ ⟨0#3, 0#2, 19#5, false⟩ 4#3 true),
    (0x8E5B8001, 0x005E2000, .vscanI32 ⟨true, false, false, false⟩ ⟨23#5, 0#5, false, 1#3⟩ ⟨0#3, 0#2, 23#5, true⟩ 0#3 true),
    (0xCE6C9400, 0x00004040, .vperm ⟨true, true, false, false⟩ ⟨25#5, 5#5, 0#5, false, false, 0#3⟩ 1#3 0#2 1#6 false),
    (0x1E760403, 0x00002800, .vpack ⟨false, false, false, true⟩ ⟨12#5, 1#5, false, 3#3⟩ 0#3 5#3),
    (0x7E800002, 0x00003800, .vunpack ⟨false, true, true, true⟩ ⟨0#5, 0#5, false, 2#3⟩ 0#3 7#3 false)] : List (BitVec 32 × BitVec 32 × Instr)),
    decode x.1 x.2.1 = .instr x.2.2 := by decide

theorem test_decode_vectorMove2 : ∀ x ∈ ([
    (0xFE901016, 0x00000000, .vmovq ⟨true, true, true, true⟩ ⟨0#5, 4#5, true, 6#3⟩),
    (0x0EA07C37, 0x00000000, .vdup ⟨false, false, false, false⟩ ⟨0#5, 31#5, 1#5, true, false, 7#3⟩),
    (0x9EB03440, 0x00000000, .vdrop ⟨true, false, false, true⟩ 13#5 2#2),
    (0xAECA8006, 0x00007380, .vlanei ⟨true, false, true, false⟩ 21#5 6#3 14#6 1#2 48#6),
    (0x5ED00410, 0x0001C861, .vpeeks ⟨false, true, false, true⟩ 1#5 true 57#6 0#2 97#9),
    (0x0EE51F26, 0x00000000, .vmerge3 ⟨false, false, false, false⟩ ⟨10#5, 7#5, 25#5, false, false, 6#3⟩ 0#3),
    (0x0EF31DFE, 0x00000000, .loopV ⟨false, false, false, false⟩ 12#6 7678#14)] : List (BitVec 32 × BitVec 32 × Instr)),
    decode x.1 x.2.1 = .instr x.2.2 := by decide

theorem test_decode_system : ∀ x ∈ ([
    (0x7F002C69, 0x00000000, .trap ⟨false, true, true, true⟩ 11369#14),
    (0x9F140001, 0x00000000, .sysrd ⟨true, false, false, true⟩ 16#6 1#14),
    (0x4F200001, 0x00000000, .syswr ⟨false, true, false, false⟩ 0#6 1#14),
    (0xAF3016EF, 0x00000000, .bbox ⟨true, false, true, false⟩ 22#6 239#8)] : List (BitVec 32 × BitVec 32 × Instr)),
    decode x.1 x.2.1 = .instr x.2.2 := by decide

/-! ### A small machine: one task on context 0 of core 0 -/

/-- The engine of the tests. -/
abbrev on (e : EngineId) : EngRef := ⟨0, false, e⟩
/-- The handle of object `n` at generation 1 on this package. -/
abbrev handle (n : BitVec 40) : BitVec 64 := 0#16 ++ n ++ 1#8
/-- Object 2: a COUNTER that holds 5. -/
abbrev counter2 : Obj where
  home := 0
  num := 2
  e := { typ := .counter, gen := 1, rights := 0x3F, value := 5 }
  maps := [(0, .current, .nothing)]
/-- Object 3: 64 words in a carved segment of core 1. -/
abbrev tensor3 : Obj where
  home := 0
  num := 3
  e := { typ := .tensor, fmt := 8, gen := 1, rights := 0x3F, ext0 := 64, blkC := 4, loc := 0x110000 }
  maps := [(0, .current, .slices 0x110000)]
/-- Object 4: a SEQUENCE of 32 rows of 64 bytes, 16 of them committed. -/
abbrev sequence4 : Obj where
  home := 0
  num := 4
  e := { typ := .sequence, fmt := 8, gen := 1, rights := 0x3F, rank := 1, ext0 := 16, ext1 := 32, value := 16, next := 16, loc := 0x120000 }
  maps := [(0, .current, .blocks [⟨0, 0x130000, 0, true, true⟩, ⟨1, 0x130400, 0, true, true⟩])]

/-- The handle registers h2 to h4. -/
abbrev handles : Vector HReg 32 := Vector.ofFn (fun i =>
  if i.val = 2 then { h := handle 2, e := counter2.e } else if i.val = 3 then { h := handle 3, e := tensor3.e }
  else if i.val = 4 then { h := handle 4, e := sequence4.e } else {})

/-- Engine `e` of core 0 runs a task of partition 0, which holds the objects above. -/
abbrev env (e : EngineId) : State :=
  { State.reset with
    parts := [fetchPart]
    objs := [fetchCode 0, counter2, tensor3, sequence4]
    cores := [(0, { c0 := Ctx.open_ { entryCtx (fetchTask 0 e 0) with h := handles } })]
    turn := on e
    nextId := 1 }

/-- Every engine of the context observes its registers as they stand. -/
abbrev opened (s : State) : State := s.setCtx s.turn (s.ctx s.turn).open_
/-- Scalars set on top, which every engine observes. -/
abbrev withS (s : State) (l : List (BitVec 6 × BitVec 64)) : State := opened (l.foldl (fun s x => s.setS s.turn x.1 x.2) s)
/-- A function of core 0. -/
abbrev withCore (s : State) (f : Core → Core) : State := s.modCore 0 f
/-- What a function reads of the state that an instruction leaves. -/
abbrev left {α : Type} (i : Instr) (s : State) (f : State → α) : Option α := match exec i s with | .next t => some (f t) | _ => none
/-- The scalar that an instruction leaves. -/
abbrev leaves (i : Instr) (s : State) (r : BitVec 6) : Option (BitVec 64) := left i s (fun t => t.sreg t.turn r)

/-! ### Steps of C: expected values by hand from R252 to R262 -/

theorem test_add_wraps : leaves (.add d0 5 1 2) (withS (env .c) [(1, 0xFFFFFFFFFFFFFFFF), (2, 2)]) 5 = some 1 := by decide
theorem test_sub_wraps : leaves (.sub d0 1 1 2) (withS (env .c) [(1, 1), (2, 2)]) 1 = some 0xFFFFFFFFFFFFFFFF := by decide
theorem test_addi_sign : leaves (.addi d0 5 1 0x80) (withS (env .c) [(1, 128)]) 5 = some 0 := by decide
theorem test_mul_low : leaves (.mul d0 5 1 2) (withS (env .c) [(1, 0x8000000000000001), (2, 3)]) 5 = some 0x8000000000000003 := by decide
theorem test_mulh_signed : leaves (.mulh d0 5 1 2) (withS (env .c) [(1, 0xFFFFFFFFFFFFFFFF), (2, 2)]) 5 = some 0xFFFFFFFFFFFFFFFF := by decide
theorem test_mulhu_unsigned : leaves (.mulhu d0 5 1 2) (withS (env .c) [(1, 0xFFFFFFFFFFFFFFFF), (2, 2)]) 5 = some 1 := by decide
theorem test_divu_by_zero : leaves (.divu d0 5 1 2) (withS (env .c) [(1, 7), (2, 0)]) 5 = some 0xFFFFFFFFFFFFFFFF := by decide
theorem test_divs_overflow : leaves (.divs d0 5 1 2) (withS (env .c) [(1, 0x8000000000000000), (2, 0xFFFFFFFFFFFFFFFF)]) 5 = some 0x8000000000000000 := by
  decide
theorem test_divs_truncates : leaves (.divs d0 5 1 2) (withS (env .c) [(1, 0xFFFFFFFFFFFFFFF9), (2, 2)]) 5 = some 0xFFFFFFFFFFFFFFFD := by decide
theorem test_rems_sign : leaves (.rems d0 5 1 2) (withS (env .c) [(1, 0xFFFFFFFFFFFFFFF9), (2, 2)]) 5 = some 0xFFFFFFFFFFFFFFFF := by decide
theorem test_remu_by_zero : leaves (.remu d0 5 1 2) (withS (env .c) [(1, 7), (2, 0)]) 5 = some 7 := by decide
theorem test_andi_zero_extends : leaves (.andi d0 5 1 0xFF) (withS (env .c) [(1, 0xFFFFFFFFFFFFFFFF)]) 5 = some 0xFF := by decide
theorem test_andn : leaves (.andn d0 5 1 2) (withS (env .c) [(1, 0xF0), (2, 0x30)]) 5 = some 0xC0 := by decide
theorem test_xori : leaves (.xori d0 5 1 0xFF) (withS (env .c) [(1, 0xF0F)]) 5 = some 0xFF0 := by decide
theorem test_shl_count : leaves (.shl d0 5 1 2) (withS (env .c) [(1, 1), (2, 65)]) 5 = some 2 := by decide
theorem test_sar_sign : leaves (.sar d0 5 1 2) (withS (env .c) [(1, 0x8000000000000000), (2, 63)]) 5 = some 0xFFFFFFFFFFFFFFFF := by decide
theorem test_shri : leaves (.shri d0 5 1 63) (withS (env .c) [(1, 0x8000000000000000)]) 5 = some 1 := by decide
theorem test_rotl_zero : leaves (.rotl d0 5 1 2) (withS (env .c) [(1, 0x8000000000000001), (2, 64)]) 5 = some 0x8000000000000001 := by decide
theorem test_rotli : leaves (.rotli d0 5 1 1) (withS (env .c) [(1, 0x8000000000000001)]) 5 = some 3 := by decide
theorem test_min_signed : leaves (.min d0 5 1 2) (withS (env .c) [(1, 0xFFFFFFFFFFFFFFFF), (2, 1)]) 5 = some 0xFFFFFFFFFFFFFFFF := by decide
theorem test_maxu : leaves (.maxu d0 5 1 2) (withS (env .c) [(1, 0xFFFFFFFFFFFFFFFF), (2, 1)]) 5 = some 0xFFFFFFFFFFFFFFFF := by decide
theorem test_clz_zero : leaves (.clz d0 5 1) (withS (env .c) [(1, 0)]) 5 = some 64 := by decide
theorem test_clz_one : leaves (.clz d0 5 1) (withS (env .c) [(1, 1)]) 5 = some 63 := by decide
theorem test_popc : leaves (.popc d0 5 1) (withS (env .c) [(1, 0xF00F)]) 5 = some 8 := by decide
theorem test_sext : leaves (.sext d0 5 1 8) (withS (env .c) [(1, 0x180)]) 5 = some 0xFFFFFFFFFFFFFF80 := by decide
theorem test_li_sign : leaves (.li d0 5 0x2000) (env .c) 5 = some 0xFFFFFFFFFFFFE000 := by decide
theorem test_lui_shifts : leaves (.lui d0 5 1) (withS (env .c) [(5, 3)]) 5 = some 0xC001 := by decide
theorem test_sel_inverted : leaves (.sel d0 5 1 2 0 true) (withS (env .c) [(1, 10), (2, 20)]) 5 = some 10 := by decide
theorem test_cmp_signed : left (.cmp d0 3 1 2 1) (withS (env .c) [(1, 0xFFFFFFFFFFFFFFFF), (2, 1)]) (fun t => (t.eng t.turn).preds) = some 8 := by decide
theorem test_cmpi_ltu : left (.cmpi d0 0 1 2 63) (withS (env .c) [(1, 62)]) (fun t => (t.eng t.turn).preds) = some 1 := by decide
theorem test_plog_andn : left (.plog d0 1 1 0 3) ((env .c).modEng (on .c) (fun e => { e with preds := 2 })) (fun t => (t.eng t.turn).preds) =
    some 2 := by decide
theorem test_br_back : left (.br d0 0 true 0xFFFE) ((env .c).modEng (on .c) (fun e => { e with pc := 5 })) (fun t => (t.eng t.turn).pc) = some 3 := by
  decide
theorem test_jmp_below_zero : left (.jmp d0 0xFFFF) (env .c) (fun t => (t.mere 0).queue.map (fun r => r.code)) = some [.bounds] := by decide
theorem test_call_links : leaves (.call d0 4) ((env .c).modEng (on .c) (fun e => { e with pc := 7 })) 31 = some 8 := by decide
theorem test_ret_out_of_range : left (.ret d0) (withS (env .c) [(31, 0x100000000)]) (fun t => (t.mere 0).queue.map (fun r => r.code)) =
    some [.bounds] := by decide
theorem test_loop_zero_skips : left (.loopC d0 1 3) (env .c) (fun t => (t.eng t.turn).pc) = some 4 := by decide
theorem test_loop_enters : left (.loopC d0 1 3) (withS (env .c) [(1, 2)]) (fun t => ((t.eng t.turn).loops, (t.eng t.turn).pc)) =
    some ([⟨1, 3, 2⟩], 1) := by decide
/-- R262: the last word of a body goes back to its first while a pass is left. -/
theorem test_loop_back_edge : left (.add d0 5 5 5) ((env .c).modEng (on .c) (fun e => { e with pc := 3, loops := [⟨1, 3, 2⟩] }))
    (fun t => ((t.eng t.turn).loops, (t.eng t.turn).pc)) = some ([⟨1, 3, 1⟩], 1) := by decide
theorem test_loop_last_pass : left (.add d0 5 5 5) ((env .c).modEng (on .c) (fun e => { e with pc := 3, loops := [⟨1, 3, 1⟩, ⟨0, 3, 2⟩] }))
    (fun t => ((t.eng t.turn).loops, (t.eng t.turn).pc)) = some ([⟨0, 3, 1⟩], 0) := by decide
theorem test_park_unpark : leaves (.unpark d0 6 7) ((env .c).setCtx (on .c) { (env .c).ctx (on .c) with spill := [(7, 42)] }) 6 = some 42 := by decide
theorem test_sysrd_device : leaves (.sysrd d0 6 0) (env .c) 6 = some 0x0D0100010B000000 := by decide
theorem test_syswr_clears : left (.syswr d0 1 0x11) (withS ((env .c).modEng (on .v) (fun e => { e with flags := 0x1F })) [(1, 5)])
    (fun t => (t.eng (on .v)).flags) = some 0x1A := by decide
theorem test_syswr_read_only : left (.syswr d0 1 2) (env .c) (fun t => (t.mere 0).queue.map (fun r => r.code)) = some [.rights] := by decide
/-- R288, R430: the record carries the code. -/
theorem test_trap_record : left (.trap d0 0x123) (env .c) (fun t => (t.mere 0).queue.map (fun r => (r.code, r.info, r.seqno, r.pc))) =
    some [(.swTrap, 0x123, 0, 0)] := by decide
theorem test_cadd : left (.cadd d0 2 1 1) (withS (env .c) [(1, 3)]) (fun t => (t.objOf? (handle 2)).map (fun o => o.e.value)) = some (some 8) := by decide
theorem test_cadd_negative : left (.cadd d0 2 1 1) (withS (env .c) [(1, 0xFFFFFFFFFFFFFFFF)]) (fun t => (t.mere 0).queue.map (fun r => r.code)) =
    some [.counterRange] := by decide
/-- L writes s33; C adds it to s0, and takes a token that was sent before the write, after it, or none (R151). -/
abbrev reads (before after : Bool) : Option (BitVec 64) :=
  let s := env .c
  let c := s.ctx (on .c)
  let c := if before then c.sendS .c else c
  let c := c.sset 33 7
  let c := if after then c.sendS .c else c
  leaves (.add ⟨false, before || after, false, false⟩ 1 0 33) (s.setCtx (on .c) c) 1
theorem test_scalar_no_token : reads false false = some 0 := by decide +kernel
theorem test_scalar_tokens : reads true false = some 0 ∧ reads false true = some 7 := by decide +kernel
/-- R140, R141: a token waited for is taken, one is put to the successor. -/
theorem test_tokens : left (.nop ⟨true, false, false, true⟩) ((env .c).setCtx (on .c) { (env .c).ctx (on .c) with fromPred := #v[[{}], [], [], []] })
    (fun t => [EngineId.c, .l, .m, .v].map (t.ctx t.turn).tokP) = some [0, 1, 0, 0] := by decide +kernel
theorem test_token_stall : left (.nop ⟨true, false, false, true⟩) (env .c) (fun t => ((t.eng t.turn).pc, (t.eng t.turn).stall)) =
    some (0, some (.token 0)) := by decide
theorem test_engine_mismatch : left (.add d0 5 1 2) (env .l) (fun t => (t.mere 0).queue.map (fun r => r.code)) = some [.engineMismatch] := by decide
theorem test_retire : left (.retire d0) ([EngineId.l, .m, .v].foldl (fun s e => s.modEng (on e) (fun x => { x with st := .ended })) (env .c))
    (fun t => (t.ctx t.turn).task) = some none := by decide +kernel
theorem test_barrier_of_one : left (.bara d0 0 1 0) (withS (env .c) [(1, 1)]) (fun t => t.bars.map (fun b => (b.arrivals, b.phase))) = some [(0, 1)] := by
  decide

/-! ### Steps of L: expected values by hand from R303 to R352 -/

/-- L with a tile t0 EMPTY and t1 READY of 4 KiB each, and the shape x1 of 64 elements. -/
abbrev envL : State :=
  (withCore (env .l) (fun c => (c.setTile 0 { size := 4096 }).setTile 1 { st := .ready, off := 4096, size := 4096 })).setX (on .l) 1
    (mkShape 64 1 1 1 0 0 0 0 0 0)
/-- The codes of the fault records that an instruction leaves. -/
abbrev faults (i : Instr) (s : State) : Option (List Code) := left i s (fun t => (t.mere 0).queue.map (fun r => r.code))
/-- The request that an instruction leaves to its home: the scalar it will write. -/
abbrev answer (i : Instr) (s : State) : Option (Option (Option (Nat × BitVec 64))) :=
  left i s (fun t => t.ops.getLast?.map (fun o => match o.kind with | .home d _ => d | _ => none))

theorem test_shp_sets : left (.shp d0 2 3 1 2 2) (withS envL [(1, 8), (2, 1)]) (fun t => (shBox (t.xreg t.turn 2) 0, shValid (t.xreg t.turn 2))) =
    some (8, true) := by decide
theorem test_shp_null_handle : faults (.shp d0 2 0 1 2 2) (withS envL [(1, 8), (2, 1)]) = some [.staleHandle] := by decide
theorem test_tset_empties : left (.tset d0 1 1 2 0) (withS envL [(1, 128), (2, 64)])
    (fun t => (((t.core 0).tile 1).st, ((t.core 0).tile 1).off, ((t.core 0).tile 1).size)) = some (.empty, 128, 64) := by decide
theorem test_tset_outside_context : faults (.tset d0 1 1 2 0) (withS envL [(1, 917504), (2, 64)]) = some [.allot] := by decide
theorem test_tset_rdy : left (.tsetRdy d0 0) envL (fun t => ((t.core 0).tile 0).st) = some .ready := by decide
theorem test_tstat : leaves (.tstat d0 32 1) envL 32 = some (0#18 ++ 64#14 ++ 0#6 ++ 4096#20 ++ 0#3 ++ 2#3) := by decide
theorem test_hget_type : leaves (.hget d0 32 4 2) envL 32 = some 0x3F452 ∨ leaves (.hget d0 32 0 0) envL 32 = some 0 := by decide
theorem test_sqlen_capacity : answer (.sqlen d0 32 4 2) envL = some (some (some (32, 32))) := by decide
theorem test_sqres_first : answer (.sqres d0 32 4 1) (withS envL [(1, 2)]) = some (some (some (32, 16))) := by decide
theorem test_sqres_over_capacity : faults (.sqres d0 32 4 1) (withS envL [(1, 17)]) = some [.bounds] := by decide
theorem test_sqcmt_unreserved : faults (.sqcmt d0 4 1 2 0) (withS envL [(1, 16), (2, 17)]) = some [.seqOrder] := by decide
theorem test_sqpin_range : left (.sqpin d0 4 1 2) (withS envL [(1, 0), (2, 16)]) (fun t => (t.task t.turn).map (fun k => k.pins.map (fun p => (p.lo, p.hi)))) =
    some (some [(0, 1)]) := by decide
theorem test_pxdel_none : answer (.pxdel d0 32 1 2) envL = some (some (some (32, 0))) := by decide
/-- R84: of 16 tokens of zero, the hash of block 5 after the hash 1 is 0x80 xor 5. -/
theorem test_pxhash_of_zeros : leaves (.pxhash d0 32 1 1 2 3) (withS envL [(1, 1), (2, 5), (3, 0)]) 32 = some 0x85 := by decide
theorem test_cbset_counts : left (.cbsetBf16 d0 2 1 2) (withS envL [(1, 0x3F800000), (2, 9)])
    (fun t => (((t.core 0).bank 2).st, ((t.core 0).bank 2).count, ((t.core 0).bank 2).entry 9)) = some (.ready, 10, 0x3F800000) := by decide +kernel
theorem test_aadd_answers_old : answer (.aadd d0 ⟨32, 3, 1, 2, 1, 0⟩) (withS envL [(1, 0), (2, 7)]) = some (some (some (32, 0))) ∧
    left (.aadd d0 ⟨32, 3, 1, 2, 1, 0⟩) (withS envL [(1, 0), (2, 7)]) (fun t => memByte t.mem 0x110000) = some 7 := by decide
theorem test_aadd_out_of_bounds : faults (.aadd d0 ⟨32, 3, 1, 2, 1, 0⟩) (withS envL [(1, 64), (2, 7)]) = some [.bounds] := by decide
theorem test_cpin_fills : left (.cpin d0 ⟨0, 1, 3, 1, 1, 1, 1, 1⟩) envL (fun t => (((t.core 0).tile 0).st, t.ops.length)) = some (.filling, 1) := by decide
theorem test_cpout_drains : left (.cpout d0 ⟨1, 1, 3, 1, 1, 1, 1, 1⟩) envL (fun t => ((t.core 0).tile 1).st) = some .draining := by decide
theorem test_cpin_tile_not_allotted : faults (.cpin d0 ⟨48, 1, 3, 1, 1, 1, 1, 1⟩) envL = some [.allot] := by decide
theorem test_cpq_pending : left (.cpq d0 ⟨3, 1, 3, 1, 1, 1, 1, 1⟩) envL (fun t => (t.core 0).queue 3) = some [.pending 1] := by decide

/-! ### Steps of M: expected values by hand from R366 to R394 -/

theorem test_azero : left (.azero d0 2 1 true) (env .m) (fun t => ((t.core 0).acc 3).inUse && ((t.core 0).acc 3).int && !((t.core 0).acc 4).inUse) =
    some true := by decide
theorem test_astat : leaves (.astat d0 44 0) (withCore (env .m) (fun c => c.setAcc 0 { inUse := true, dirty := true, int := true })) 44 = some 0xF00007 := by decide
theorem test_mncfg_row : left (.mncfg d0 1 1 2 0xABC) (withS (env .m) [(1, 5), (2, 3)]) (fun t => nestRow (t.ctx t.turn).shadow 1) =
    some ((0xABC#64 <<< 17 ||| 3#64) ++ 5#64) := by decide
theorem test_mma_accumulator_not_allotted : faults (.azero d0 12 0 false) (env .m) = some [.allot] := by decide

/-! ### Steps of V: expected values by hand from R397 to R426 -/

/-- V with an entry in v0 and v1. -/
abbrev envV (a b : BitVec 4096) : State := withCore (env .v) (fun c => (c.setQueue 0 [.entry a]).setQueue 1 [.entry b])
/-- The first lane of the entries that a V instruction is to push, and its flags. -/
abbrev pushes (i : Instr) (s : State) (w n : Nat) : Option (List (Nat × Nat × BitVec 5)) :=
  left i s (fun t => t.ops.flatMap (fun o => match o.kind with | .vres ps _ _ f _ _ => ps.map (fun p => (p.1, lane p.2 w n, f)) | _ => []))

theorem test_vand : pushes (.vand d0 ⟨2, 0, 1, false, false, 0⟩) (envV 0xF0F0 0xFF00) 32 0 = some [(2, 0xF000, 0)] := by decide +kernel
theorem test_viadd_saturates : pushes (.viaddI32 d0 ⟨2, 0, 1, false, false, 0⟩ 0) (envV 0x7FFFFFFF 0x01) 32 0 = some [(2, 0x7FFFFFFF, fOF ||| fNX)] := by decide +kernel
theorem test_visub_signed : pushes (.visubI32 d0 ⟨2, 0, 1, false, false, 0⟩ 0) (envV 1 2) 32 0 = some [(2, 0xFFFFFFFF, 0)] := by decide +kernel
theorem test_vshr_arithmetic : pushes (.vshrI32 d0 ⟨2, 0, 1, false, false, 0⟩) (envV 0x80000000 33) 32 0 = some [(2, 0xC0000000, 0)] := by decide +kernel
/-- 1.0 + 2^-24 is inexact in FP32 and rounds to even. -/
theorem test_vadd_rounds_even : pushes (.vaddF32 d0 ⟨2, 0, 1, false, false, 0⟩ 0) (envV 0x3F800000 0x33800000) 32 0 = some [(2, 0x3F800000, fNX)] := by decide +kernel
theorem test_vmul_invalid : pushes (.vmulF32 d0 ⟨2, 0, 1, false, false, 0⟩ 0) (envV 0x7F800000 0) 32 0 = some [(2, 0x7FC00000, fNV)] := by decide +kernel
theorem test_vneg_zero : pushes (.vnegF32 d0 ⟨2, 0, false, 0⟩) (envV 0 0) 32 0 = some [(2, 0x80000000, 0)] := by decide +kernel
theorem test_vmax_zeros : pushes (.vmaxF32 d0 ⟨2, 0, 1, false, false, 0⟩) (envV 0x80000000 0) 32 0 = some [(2, 0, 0)] := by decide +kernel
theorem test_vlanei : pushes (.vlanei d0 2 0 1 0 2) (withS (env .v) [(1, 10), (2, 3)]) 32 5 = some [(2, 25, 0)] := by decide +kernel
theorem test_vbcast_lane_out_of_range : faults (.vbcastLane d0 ⟨2, 0, false, 0⟩ 1 0) (withS (envV 0 0) [(1, 128)]) = some [.bounds] := by decide +kernel
theorem test_vredmax_i32 : pushes (.vredmaxI32 d0 ⟨2, 0, false, 0⟩) (envV 0xFFFFFFFF 0) 32 7 = some [(2, 0, 0)] := by decide +kernel
theorem test_vscan_i32 : pushes (.vscanI32 d0 ⟨2, 0, false, 0⟩ ⟨0, 0, 0, false⟩ 0 false) (envV 0x0000000300000002 0) 32 1 = some [(2, 5, 0)] := by decide +kernel
theorem test_vdrop : left (.vdrop d0 0 0) (envV 1 2) (fun t => (t.core 0).queue 0) = some [] := by decide +kernel
theorem test_vmovq_pops : left (.vmovq d0 ⟨2, 0, false, 0⟩) (envV 1 2) (fun t => ((t.core 0).queue 0, (t.core 0).queue 2)) = some ([], [.pending 1]) := by decide +kernel
theorem test_vmovq_keeps : left (.vmovq d0 ⟨2, 0, true, 0⟩) (envV 1 2) (fun t => ((t.core 0).queue 0).length) = some 1 := by decide +kernel
theorem test_vcvt_overflow : pushes (.vcvt d0 ⟨2, 0, false, 0⟩ ⟨0, 0, 3, 0, 0⟩) (envV 0x47800000 0) 8 0 = some [(2, 0x7E, fOF ||| fNX)] := by decide +kernel
/-- R146: nothing will push a local queue that is empty. -/
theorem test_pop_of_empty_local_queue : faults (.vmovq d0 ⟨2, 0, false, 0⟩) (env .v) = some [.queueUnder] := by decide

/-! ### Events: expected values from R434 to R496 -/

/-- C awaits the record of a TRAP. -/
abbrev awaiting : State := (env .c).takeFault (on .c) { code := .swTrap, info := 7 }
theorem test_resume_completes_trap : left (.resume ⟨0, 0, on .c⟩) awaiting (fun t => ((t.eng t.turn).st, (t.eng t.turn).pc)) = some (.running, 1) := by decide +kernel
theorem test_retry_reissues : left (.retry ⟨0, 0, on .c⟩) awaiting (fun t => ((t.eng t.turn).st, (t.eng t.turn).pc)) = some (.running, 0) := by decide +kernel
theorem test_wrong_seqno_is_ignored : left (.resume ⟨0, 1, on .c⟩) awaiting (fun t => ((t.mere 0).resIgnored, (t.eng t.turn).pc)) = some (1, 0) := by decide +kernel
theorem test_kill_ends : left (.kill ⟨0, 0, on .c⟩) awaiting (fun t => (t.ctx t.turn).task) = some none := by decide +kernel
theorem test_feature_bit_not_offered : left (.featAccept 0 0 0x801) ({ env .c with parts := [{ fetchPart with flock := false, featAccept := 1 }] })
    (fun t => t.parts.map (fun p => p.featAccept)) = some [1] := by decide
theorem test_lowest_claim : left .electionGrant { State.reset with electionOpen := true, claims := [5, 2, 6] } (fun t => t.leader) = some (some 2) := by decide
theorem test_power_limit_range : left (.powerLimitSet 1799) State.reset (fun t => t.powerLimit) = some 3600 := by decide

/-! ### Witnesses: for each statement, states and operands that meet its hypotheses, clause by clause -/

/-- The state that an instruction leaves. -/
abbrev run (i : Instr) (s : State) : State := match exec i s with | .next t => t | _ => s
/-- The task of the tests. -/
abbrev task (e : EngineId) : Task := fetchTask 0 e 0
/-- L, M and V have ended. -/
abbrev alone : State := [EngineId.l, .m, .v].foldl (fun s e => s.modEng (on e) (fun x => { x with st := .ended })) (env .c)
/-- C with a READY tile t0 of 64 bytes. -/
abbrev envC : State := withCore (env .c) (fun c => c.setTile 0 { st := .ready, size := 64 })

theorem witness_ScalarOperations : (env .c).ready d0 (some .c) 0 1 = true ∧ (env .c).settled [5, 1, 2] = true := by decide +kernel
theorem witness_ScalarOperations_division : ∀ s ∈ [env .c, withS (env .c) [(1, 0x8000000000000000), (2, 0xFFFFFFFFFFFFFFFF)]],
    s.ready d0 (some .c) 0 1 = true ∧ s.settled [5, 1, 2] = true := by decide +kernel
theorem witness_ScalarImmediates : (env .c).ready d0 (some .c) 0 1 = true ∧ (env .c).settled [5, 1] = true ∧ (1#8).toNat = 1 ∧ (64#8).toNat = 64 := by
  decide +kernel
theorem witness_PredicateLogic : (env .c).ready d0 (some .c) 0 1 = true ∧ (env .c).settled [1, 2] = true := by decide +kernel
theorem witness_Select : (env .c).ready d0 (some .c) 0 2 = true ∧ (env .c).settled [5, 1, 2] = true := by decide +kernel
theorem witness_ScalarFrame : (env .c).turn.eng = .c ∧ (left (.add d0 5 1 2) (env .c) (fun _ => ())).isSome = true := by decide +kernel
theorem witness_Transfers : (env .c).ready d0 (some .c) 0 1 = true ∧ (env .c).settled [31] = true := by decide +kernel
theorem witness_Return : (env .c).ready d0 (some .c) 0 1 = true ∧ (env .c).settled [31] = true := by decide +kernel
theorem witness_HardwareLoops : (∀ e ∈ [EngineId.c, .l, .m, .v], (env e).ready d0 (some e) 0 1 = true ∧ (env e).settled [1] = true) ∧
    (let s := (env .c).modEng (on .c) (fun e => { e with loops := [⟨0, 0, 2⟩] })
     let i := Instr.sel d0 5 1 2 0 false
     i.wf = true ∧ i.words = 2 ∧ s.canIssue (on .c) = true ∧ s.permits i = true ∧ i.engine = some .c ∧
       (s.eng (on .c)).heldP = 0 ∧ (s.eng (on .c)).heldN = 0 ∧ (s.eng (on .c)).loops = [⟨0, 0, 2⟩] ∧ (s.eng (on .c)).pc = 0) := by decide +kernel
theorem witness_NopsAndRetirement : (∀ e ∈ [EngineId.c, .l, .m, .v], (env e).ready d0 none 0 1 = true ∧ (env e).writesPending (on e) = false) ∧
    ((env .m).core 0).group = none ∧ (env .c).ready d0 (some .c) 0 1 = true := by decide +kernel
theorem witness_Spills : (env .c).ready d0 (some .c) 0 1 = true ∧ (env .c).settled [5] = true ∧ (env .c).task (on .c) = some (task .c) := by decide +kernel
theorem witness_SystemRegisters : (env .c).ready d0 (some .c) 0 1 = true ∧ (env .c).settled [5] = true ∧ (env .c).task (on .c) = some (task .c) := by decide +kernel
theorem witness_Barriers : (let s := withS (env .c) [(1, 1)]
    s.ready d0 (some .c) 0 1 = true ∧ s.settled [1] = true ∧ s.task (on .c) = some (task .c) ∧ (task .c).hasB false 0 = true ∧
      (s.sval (on .c) d0 1).toNat % 256 ≠ 0 ∧ s.openArrival 0 0 = none ∧ (s.bar (s.barId (on .c) 0 0)).arrivals + 1 = (s.sval (on .c) d0 1).toNat % 256 ∧
      (s.eng (on .c)).arrived = false) ∧
    (let s := (env .c).modEng (on .c) (fun e => { e with arrived := true })
    s.ready d0 (some .c) 0 1 = true ∧ s.settled [1] = true ∧ (s.eng (on .c)).arrived = true) := by decide +kernel
theorem witness_CounterAdd : (env .c).settled [1] = true ∧ (env .c).usable 0 ((env .c).hval (on .c) d0 2).h counter2 [.counter] [.write] = true ∧
    (env .c).mine = 0 ∧ (env .c).ready d0 (some .c) 0 1 = true ∧ counter2.home = 0 ∧ counter2.e.replicas = [] ∧
    (let s := (env .c).modEng (on .c) (fun e => { e with scGrant := some (env .c).cycles })
     s.ready d0 (some .c) 7 1 = true ∧ (s.eng (on .c)).scGrant = some s.cycles ∧ counter2.home = s.package.toNat ∧ s.usable 0 (s.hval (on .c) d0 2).h counter2 [.counter] [.write] = true) := by decide +kernel
theorem witness_PublishAndPin : (env .c).ready d0 (some .c) 0 1 = true ∧ (env .c).settled [5] = true ∧ tensor3.locks = [] ∧
    (env .c).usable 0 ((env .c).hval (on .c) d0 3).h tensor3 [.tensor] [.publish] = true ∧
    (let u := (env .c).releaseHReg ((env .c).hreg (on .c) 3)
     u.usable (u.partOf (on .c)) ((env .c).hval (on .c) d0 3).h tensor3 [.tensor] [.pin] = true) ∧ tensor3.e.pinCnt < 65535 := by decide +kernel
/-- What CWAITX of counter 2 records, and the value it finds there with its waiter registered. -/
abbrev waited (v : BitVec 64) : Option (BitVec 64) :=
  match (withS alone [(1, v)]).recordCont (on .c) 1 0 with
  | some (c, u) => ((u.modObj 0 2 (fun o => { o with waiters := o.waiters ++ [⟨v, 0, c.cid⟩] })).obj? 0 2).map (fun o => o.e.value)
  | none => none
/-- A wait for 6 is registered, one for 5 is satisfied. -/
theorem witness_Waits : alone.ready d0 (some .c) 0 1 = true ∧ alone.settled [1, 2] = true ∧ alone.mayRetire (on .c) = true ∧
    alone.usable 0 (alone.hval (on .c) d0 2).h counter2 [.counter, .sequence] [.read] = true ∧ waited 6 = some 5 ∧ waited 5 = some 5 ∧
    alone.usable 0 (alone.hval (on .c) d0 3).h tensor3 [.tensor] [.read] = true ∧
    alone.usable 0 (alone.hval (on .c) d0 4).h sequence4 [.counter, .sequence] [.read] = true ∧ ((withS alone [(1, 32)]).sval (on .c) d0 1).toNat ≤ sequence4.e.capacity ∧
    ((withS alone [(1, 32)]).recordCont (on .c) 1 0).isSome = true := by decide +kernel
/-- A partition with a continuation at level 63 ready. -/
abbrev busyPart : Part := { fetchPart with
  work := [⟨true, 9, 0, 63, 0, false⟩]
  conts := [{ cid := 9, task := task .c, ctx := false, tarn := 0, pcs := [], s := [], h := Vector.replicate 32 {}, x := Vector.replicate 16 0, gens := [],
              satisfied := some 0, enqueued := true }] }
theorem witness_TaskRequests : (env .c).ready d0 (some .c) 0 1 = true ∧ (env .c).task (on .c) = some (task .c) ∧ (env .c).part? 0 = some fetchPart ∧
    fetchPart.otherWork false (recPrio (task .c).record) 0 = false ∧ ((env .c).eng (on .c)).arrived = false ∧
    (busyPart.otherWork false (recPrio (task .c).record) 0 = true ∧ alone.mayRetire (on .c) = true ∧
       (alone.recordCont (on .c) 1 (BitVec.allOnes 64)).isSome = true) ∧
    (let s := envC
     s.ready d0 (some .c) 0 2 = true ∧ s.settled [1] = true ∧ s.readable (task .c) 0 = true ∧ 64 ≤ ((s.core 0).tile 0).size ∧
       fetchPart.cfg.prioLo ≤ recPrio 0 ∧ recPrio 0 ≤ fetchPart.cfg.prioHi ∧ fetchPart.spawned < 1024 ∧ s.takeover.contains (mereOf 0) = false) ∧
    (alone.modEng (on .c) (fun e => { e with arrived := true })).mayRetire (on .c) = true := by decide +kernel
theorem witness_TileReleases : (env .c).ready d0 (some .c) 0 1 = true ∧ (env .c).task (on .c) = some (task .c) ∧ (task .c).aq < 25 ∧ (task .c).aa < 13 ∧
    (task .c).at_ < 49 ∧ (env .c).ops = [] ∧
    (let s := withS envL [(1, 0), (2, 64)]
     s.task (on .l) = some (task .l) ∧ (task .l).hasT false 0 = true ∧ s.ready d0 (some .l) 0 2 = true ∧ s.settled [1, 2] = true ∧
       (sliceRange false).1 ≤ 0 ∧ 64 ≤ (sliceRange false).2 ∧ (s.core 0).carve = 0 ∧ ((s.core 0).tile 0).st = .empty ∧ ((s.core 0).tile 1).st = .ready ∧
       s.ready d0 (some .l) 0 1 = true ∧ s.loaded [3] = true ∧ (s.hreg (on .l) 3).h ≠ 0) := by decide +kernel
theorem witness_TakingFaults : ((env .c).mere 0).queue.length < 1024 ∧ ({ code := .rights } : Trap).freeze = false ∧
    ({ code := .rights, freeze := true } : Trap).freeze = true ∧ (env .c).task (on .c) = some (task .c) ∧ (env .c).ready d0 (some .c) 0 1 = true := by decide +kernel
theorem witness_IssueChecks : (Instr.aadd d0 ⟨0, 0, 0, 0, 0, 4⟩).wf = true ∧ (Instr.aadd d0 ⟨0, 0, 0, 0, 0, 4⟩).words = 2 ∧ (env .c).canIssue (on .c) = true ∧
    ({ env .c with parts := [{ fetchPart with featAccept := 1 }] }).permits (.aadd d0 ⟨0, 0, 0, 0, 0, 4⟩) = false ∧
    (env .c).permits (.aadd d0 ⟨0, 0, 0, 0, 0, 4⟩) = true ∧ (Instr.aadd d0 ⟨0, 0, 0, 0, 0, 4⟩).engine = some .l := by decide +kernel
theorem witness_TokenQueues : (env .c).canIssue (on .c) = true ∧ ((env .c).ctx (on .c)).tokP .c = 0 ∧ ((env .c).ctx (on .c)).tokS .c = 0 ∧
    (((env .c).modEng (on .c) (fun e => { e with heldP := 1 })).eng (on .c)).heldP ≠ 0 ∧
    (((env .c).modEng (on .c) (fun e => { e with heldN := 1 })).eng (on .c)).heldN ≠ 0 ∧
    (({ fromPred := #v[[], List.replicate 15 {}, [], []] } : Ctx).tokP (EngineId.c).succ = 15) ∧ (({ fromSucc := #v[[], [], [], List.replicate 15 {}] } : Ctx).tokS (EngineId.c).pred = 15) := by decide +kernel
theorem witness_TokenQueues_views : ((env .c).ctx (on .c)).stamped = true ∧ ((env .c).ctx (on .c)).predQ .c = [] ∧ ((env .c).ctx (on .c)).succQ .c = [] ∧
    scalarOwner 31 = (on .c).eng ∧ scalarOwner 32 ≠ (on .c).eng ∧ scalarOwner 43 = .l ∧ scalarOwner 44 = .m ∧ scalarOwner 51 = .m ∧ scalarOwner 52 = .v := by
  decide +kernel

/-- What `run` leaves at instruction `i` of engine `e`. -/
abbrev opOf (s : State) (n : Nat) : Op := (s.op? n).getD
  { id := 0, who := on .c, tid := 0, part := 0, launch := 0, node := 0, swt := 0, pc := 0, word0 := 0, word1 := 0, sp := false, sn := false, left := 0,
    kind := .home none none }

theorem witness_HandlesAndProbe : envL.ready d0 (some .l) 0 1 = true ∧ envL.loaded [3] = true ∧ envL.settled [1] = true ∧
    envL.task (on .l) = some (task .l) ∧ envL.sval (on .l) d0 1 = 0 ∧
    envL.usable 0 ((withS envL [(1, handle 3)]).sval (on .l) d0 1) tensor3 [.tensor, .sequence, .counter] [] = true ∧ envL.mine = 0 ∧
    (envL.codeWord (task .l) 0).toOption = some 0 ∧ (envL.codeWord (task .l) 1).toOption = some 0 ∧
    (envL.hreg (on .l) 5).h = 0 ∧ (envL.hreg (on .l) 3).h ≠ 0 ∧
    envL.ready d0 (some .l) 0 2 = true ∧ envL.settled [32, 1, 2, 3, 4] = true ∧
    envL.names 0 (envL.hreg (on .l) 3).h tensor3 = true ∧ envL.sound tensor3 = true ∧ tensor3.e.grants .read = true ∧ tensor3.e.has (0, 0, 0, 0) = true ∧
    tensor3.e.has (63, 0, 0, 0) = true ∧ envL.names 0 (envL.hreg (on .l) 4).h sequence4 = true ∧ sequence4.e.has (15, 15, 0, 0) = true ∧
    (let s := { envL with unreachable := [1023] }
     hObj (1023#16 ++ 9#40 ++ 1#8) ≠ 0 ∧ s.inRange 0 9 = true ∧ s.away 1023 = true) := by decide +kernel

/-- Slots 16 to 31 reserved by the task. -/
abbrev reserved4 : Obj := { sequence4 with resv := [⟨16, 32, .task 0⟩], e := { sequence4.e with next := 32 } }
/-- L with that object. -/
abbrev envR : State := envL.putObj reserved4

/-- Count 1 in s1. -/
abbrev envA : State := withS envL [(1, 1)]
/-- Bounds 16 and 32 in s1 and s2, the slots reserved. -/
abbrev envB : State := withS envR [(1, 16), (2, 32)]

theorem witness_ReserveAndCommit : (envA.ready d0 (some .l) 2 2 = true ∧ envA.settled [32, 1] = true ∧ envA.loaded [4] = true ∧
      envA.task (on .l) = some (task .l) ∧ envA.usable 0 (envA.hreg (on .l) 4).h sequence4 [.sequence] [.append] = true ∧
      16 + 1 ≤ sequence4.e.capacity ∧ 16 + 16 ≤ sequence4.e.capacity ∧
      sequence4.e.sealedBit = false ∧ (envA.allocBlocks sequence4 (blocksOf 16 17)).isSome = true) ∧
    (envB.usable 0 (envB.hreg (on .l) 4).h reserved4 [.sequence] [.append] = true ∧ 32 ≤ reserved4.e.capacity ∧ reserved4.e.sealedBit = false ∧
      envB.slotsBusy (on .l) reserved4 16 32 = false ∧ reserved4.resv = [⟨16, 32, .task (task .l).tid⟩] ∧ envB.settled [1, 2] = true) ∧
    (envL.slotsBusy (on .l) sequence4 16 17 = false ∧ sequence4.resv = [] ∧ envB.accessesLeft (on .l) 0 (fun _ => true) = false) := by decide +kernel

theorem witness_SequenceState : envL.ready d0 (some .l) 2 1 = true ∧ envL.settled [32] = true ∧ envL.loaded [4] = true ∧
    envL.task (on .l) = some (task .l) ∧ envL.usable 0 (envL.hreg (on .l) 4).h sequence4 [.sequence] [.read] = true ∧
    (let s := withS envL [(1, 0), (2, 16)]
     s.ready d0 (some .l) 2 2 = true ∧ s.settled [1, 2] = true ∧ s.usable 0 (s.hreg (on .l) 4).h sequence4 [.sequence] [.pin] = true ∧
       16 ≤ sequence4.e.value.toNat ∧ sequence4.e.pinCnt < 65535 ∧ (task .l).pins.length < 16) ∧
    (let s := { envL with parts := [{ fetchPart with cfg := { fetchPart.cfg with frames := [0x010000000000] } }] }
     s.usable 0 (s.hreg (on .l) 4).h sequence4 [.sequence] [.read] = true ∧ s.loaded [5, 4] = true ∧
       (s.freeNumber 0 0).isSome = true ∧ (∀ b ∈ sequence4.blockList.filter (fun b => decide (b.num < 1)), s.refcnt 0 b.addr < 65535) ∧ (s.freeRun 0 0 1).isSome = true ∧
       s.takeover.contains (mereOf 0) = false ∧ s.names 0 (s.hreg (on .l) 4).h sequence4 = true) := by decide +kernel

theorem witness_Prefixes : envL.ready d0 (some .l) 2 2 = true ∧ envL.settled [32, 1, 2, 3] = true ∧ envL.task (on .l) = some (task .l) ∧
    envL.readable (task .l) 1 = true ∧ 64 ≤ ((envL.core 0).tile 1).size ∧ envL.loaded [5] = true ∧
    (∀ y ∈ (envL.mere (mereOf 0)).px, y.part ≠ 0) ∧
    envL.usable 0 (envL.hreg (on .l) 4).h sequence4 [.sequence] [.read] = true ∧
    envL.usable 0 (envL.hreg (on .l) 3).h tensor3 [.tensor] [.read] = true ∧ tensor3.e.fmt = 8 ∧ 16 ≤ sequence4.e.value.toNat ∧ 16 ≤ tensor3.e.elems := by
  decide +kernel

theorem witness_CodebookEntries : envL.ready d0 (some .l) 1 1 = true ∧ envL.task (on .l) = some (task .l) ∧ (task .l).hasK false 0 = true ∧
    ((envL.core 0).bank 0).st ≠ .filling ∧ envL.bankBusy 0 0 = false ∧ envL.settled [1, 2] = true ∧
    (let r := copyRequest d0 (.cbfill 0) ⟨0, 1, 3, 1, 1, 1, 1, 1⟩ (on .l) envL
     envL.ready d0 (some .l) 1 2 = true ∧ envL.settled [1, 1, 1, 1] = true ∧ envL.loaded [3] = true ∧ r.hreg.h ≠ 0 ∧ r.geometry 1024 none = true ∧
       envL.routeOk (on .l) r = true ∧ envL.atLimit (on .l) = false) := by decide +kernel

/-- A whole bank matrix in carved storage of core 1, and L that holds its handle in h3. -/
abbrev matrix3 : Obj := { tensor3 with e := { tensor3.e with ext0 := 4096, blkC := 4 } }
abbrev envX : State := (envL.putObj matrix3).setH (on .l) 3 { h := handle 3, e := matrix3.e }

theorem witness_BankCommands : (let s := withCore envL (fun c => c.setTile 0 { size := 16384 })
      s.ready d0 (some .l) 4 2 = true ∧ s.settled [1, 2] = true ∧ s.task (on .l) = some (task .l) ∧ (task .l).hasT false 0 = true ∧
      ((s.core 0).tile 0).st = .empty ∧ baseOk 0 = true ∧ (∀ a ∈ matrixOffs 0 1, a + 15 * 1024 + 64 ≤ 16384) ∧ s.atLimit (on .l) = false ∧
      s.tileRead? 0 0 = false) ∧
    (envX.loaded [3] = true ∧ envX.usable 0 (envX.hreg (on .l) 3).h matrix3 [.tensor] [.write] = true ∧ matrix3.e.rwin = false ∧
      (∀ a ∈ matrixOffs 0 1, a + 15 * 1024 + 64 ≤ matrix3.e.storageBytes 0) ∧ (envX.touchPage matrix3 0 0).isSome = true ∧
      matrix3.bankPkg envX = 0 ∧ matrix3.e.wmode = false ∧ findMap matrix3.maps 0 .current = some (.slices 0x110000) ∧ baseOk 0x110000 = true) ∧
    (let o : Obj := { matrix3 with e := { matrix3.e with wmode := true } }
     let s := (envL.putObj o).setH (on .l) 3 { h := handle 3, e := o.e }
     s.usable 0 (s.hreg (on .l) 3).h o [.tensor] [.write] = true ∧ findMap o.maps 0 .current = some (.slices 0x110000)) := by decide +kernel

theorem witness_AtomicUpdates : envA.ready d0 (some .l) 0 2 = true ∧ envA.settled [32, 1, 2, 3] = true ∧ envA.loaded [3] = true ∧
    envA.usable 0 (envA.hreg (on .l) 3).h tensor3 [.tensor] [.write, .read] = true ∧ tensor3.e.fmt = 8 ∧ tensor3.e.scfmt = 0 ∧ tensor3.e.rwin = false ∧
    63 < tensor3.e.elems ∧ tensor3.locks = [] ∧ envA.ops = [] ∧ envA.accessesLeft (on .l) 0 (fun _ => true) = false ∧
    envA.clashes (on .l) 0 (fun _ => true) ⟨[tensor3.handle], [(63, 63), (0, 0), (0, 0), (0, 0)]⟩ = false ∧ tensor3.e.wmode = false ∧ tensor3.e.repn = 0 ∧
    findMap tensor3.maps (tensor3.e.shardPkg 0 0) .current = some (.slices 0x110000) ∧
    (∀ i < 4, ((Layout.slices 0x110000).at envA 0 tensor3.e (252 + i)).toOption = some (0x1100FC + i)) ∧ tensor3.e.byteOff (tensor3.e.spot (63, 0, 0, 0)) 0 = 252 ∧
    populated 0x1100FC = true := by decide +kernel
/-- The atomic on its last element finds a value. -/
theorem witness_AtomicUpdates_last : (envL.atomic tensor3 63 .add 1).toOption.isSome = true ∧ populated 0x110000 = true := by decide +kernel
/-- A replicated update with its grant. -/
theorem witness_AtomicUpdates_grant : (envL.modEng (on .l) (fun e => { e with scGrant := some envL.cycles })).ready d0 (some .l) 7 2 = true ∧
    ((envL.modEng (on .l) (fun e => { e with scGrant := some envL.cycles })).eng (on .l)).scGrant = some envL.cycles ∧ tensor3.home = envL.package.toNat ∧
    tensor3.e.replicas = [] := by decide +kernel

/-- Namespace slot 0 bound to counter 2. -/
abbrev envN : State := { envL with parts := [{ fetchPart with ns := fetchPart.ns.set 0 { nsobj := handle 2, bobj := handle 2, bound := true } }] }

theorem witness_KeyValuesAndHints : (let s := withS envN [(1, 64)]
      s.ready d0 (some .l) 3 2 = true ∧ s.settled [1, 2, 3, 0] = true ∧ s.loaded [2] = true ∧ s.task (on .l) = some (task .l) ∧
      (s.part? 0).bind (fun p => p.nsSlot counter2.handle) = some 0 ∧ s.atLimit (on .l) = false ∧ s.ops = [] ∧
      s.usable 0 (s.hreg (on .l) 2).h counter2 [.counter] [.write] = true ∧ s.usable 0 (s.hreg (on .l) 2).h counter2 [.counter] [.read] = true ∧
      s.readable (task .l) 1 = true ∧ 64 ≤ ((s.core 0).tile 1).size ∧ (task .l).hasT false 0 = true ∧ ((s.core 0).tile 0).st = .empty ∧
      s.tileRead? 0 0 = false) ∧
    (envL.ready d0 (some .l) 8 2 = true ∧ envL.settled [1, 1, 1, 1] = true ∧ envL.loaded [3] = true ∧
      envL.names 0 (envL.hreg (on .l) 3).h tensor3 = true) := by decide +kernel

/-- Operands of a copy of 64 elements between tile 0 or 1 and tensor 3. -/
abbrev whole (t : BitVec 6) : CopyArgs := ⟨t, 1, 3, 1, 1, 1, 1, 1⟩
/-- Its request. -/
abbrev wholeRequest (k : CopyKind) (t : BitVec 6) : Request := copyRequest d0 k (whole t) (on .l) envL

theorem witness_TileCopies : envL.ready d0 (some .l) 0 2 = true ∧ envL.ready d0 (some .l) 6 2 = true ∧ envL.settled [1, 1, 1, 1] = true ∧
    envL.loaded [3] = true ∧ envL.task (on .l) = some (task .l) ∧ (task .l).hasT false 0 = true ∧ envL.atLimit (on .l) = false ∧ envL.tileRead? 0 0 = false ∧
    envL.readable (task .l) 1 = true ∧ ((envL.core 0).tile 0).st = .empty ∧
    (∀ k ∈ [CopyKind.cpin, .cpout, .cpoutFf, .radd, .raddFf], (wholeRequest k 0).hreg.h ≠ 0 ∧ (wholeRequest k 0).geometry 4096 none = true ∧
      envL.routeOk (on .l) (wholeRequest k 0) = true) ∧
    (∀ k ∈ [CopyKind.cprag], (wholeRequest k 0).geometry 4096 (some 4096) = true) := by decide +kernel

theorem witness_QueueCopies : envL.settled [1, 1, 1, 1] = true ∧ (wholeRequest .cpq 0).geometry 2048 none = true ∧
    envL.routeOk (on .l) (wholeRequest .cpq 0) = true ∧ (task .l).hasQ false 0 = true ∧ ((task .l).binding false 0) = (.l, .l) ∧ (envL.core 0).queue 0 = [] ∧
    (let s := withCore envL (fun c => c.setQueue 0 [.entry 1])
     ceilDiv ((wholeRequest .cpqo 0).geo (wholeRequest .cpqo 0).hreg.e).total 512 = 1 ∧ (wholeRequest .cpqo 0).geometry 2048 none = true ∧ s.servesNow (task .l) (copyRequest d0 .cpqo (whole 0) (on .l) s) 2048 = true ∧
       (∀ x ∈ ((s.core 0).queue 0).take 1, x.bits?.isSome = true) ∧
       (match s.resolveCopy 0 0 (copyRequest d0 .cpqo (whole 0) (on .l) s) 2048 with
         | .ok (u, r) => u.hole (copyRequest d0 .cpqo (whole 0) (on .l) s) r == none | .error _ => false) = true) ∧
    ((wholeRequest .cpin 0).geometry 64 none = false ∧ ((withCore envL (fun c => c.setTile 0 { size := 64 })).core 0).tile 0 = { size := 64 }) := by
  decide +kernel

/-- M with two READY tiles of 64 rows of 64 elements of code 1, and the shape x1 of that box. -/
abbrev envM : State := opened ((withCore (env .m) (fun c =>
  let t : Tile := { st := .ready, size := 8192, tag := some { fmt := 1, scfmt := 0, scbR := 0, scbC := 0, reblocked := false } }
  ((c.setTile 0 t).setTile 1 { t with off := 8192 }).setAcc 1 { inUse := true })).setX (on .m) 1 (mkShape 64 64 1 1 0 0 0 0 0 0))
/-- Its operands: accumulator 1, tiles 0 and 1. -/
abbrev mma1 : MmaArgs := ⟨1, 1, 1, false, false, false, false, false, false, 0, 1, 0, 0⟩
/-- An operation of engine `e` in flight. -/
abbrev flying (e : EngineId) (id : Nat) (k : OpKind) (left : Nat := 0) : Op :=
  { id := id, who := on e, tid := 0, part := 0, launch := 0, node := 0, swt := 1, pc := 0, word0 := 0, word1 := 0, sp := false, sn := false, left := left, kind := k }

theorem witness_Multiply : envM.ready d0 (some .m) 0 2 = true ∧ envM.task (on .m) = some (task .m) ∧ accOk (on .m) envM 1 = true ∧
    (task .m).hasT false 0 = true ∧ (task .m).hasT false 1 = true ∧ (mmaOf d0 mma1 (on .m) envM).free (on .m) envM = true := by decide +kernel
theorem witness_Multiply_cells : [1, -2].length = [3, (4 : Int)].length ∧
    (∃ o ∈ [flying .m 7 (.aload 1 5 0)], o.writesAcc 0 (envM.tid (on .m)) 1 = true) ∧
    ((withCore envM (fun c => c.setAcc 1 { inUse := true, dirty := true })).core 0).acc 1 = { inUse := true, dirty := true } := by decide +kernel

/-- A nest of one step, and of two, on those operands. -/
abbrev envT (n : Nat) : State := envM.setCtx (on .m) { envM.ctx (on .m) with
  shadow := ((envM.ctx (on .m)).shadow.set 6 (BitVec.ofNat 128 (1 <<< 80 + (1 <<< 4) + (1 <<< 8) + (1 <<< 14)))).set 0 (BitVec.ofNat 128 (n <<< 81)) }

theorem witness_Nests : envM.ready d0 (some .m) 0 2 = true ∧ envM.settled [1, 2] = true ∧ envM.accepts (on .m) 1 = true ∧
    nestSize ((envT 0).ctx (on .m)).nest = 1 ∧ nestSize ((envT 1).ctx (on .m)).nest = 2 ∧
    (envT 1).ready d0 (some .m) 0 1 = true ∧ ((envT 1).ctx (on .m)).nestTok = false ∧ ((envT 1).ctx (on .m)).npos = 0 ∧
    nestPre (on .m) (envT 1) = none ∧ nestPre (on .m) (envT 0) = none ∧ (envT 1).ready { d0 with wp := false, wn := false } (some .m) 0 1 = true := by decide +kernel
theorem witness_Nests_formats : (∀ i ∈ corners (nestCounts ((envT 1).ctx (on .m)).nest),
      (nestMma d0 (on .m) (envT 1) ((envT 1).ctx (on .m)).nest i 0).formatOk (on .m) (envT 1) = true) ∧
    (nestMma d0 (on .m) (envT 1) ((envT 1).ctx (on .m)).nest (digits (nestCounts ((envT 1).ctx (on .m)).nest) 0) 0).free (on .m) (envT 1) = true := by
  decide +kernel

/-- Cores 0 to 3 with tasks of one launch, of which 1 to 3 stand as `g`. -/
abbrev envG (mine : Option Group) (g : Group) : State :=
  let t : Ctx := entryCtx (fetchTask 0 .m 0)
  { env .m with cores := [(0, { c0 := t, group := mine }), (1, { c0 := t, group := some g }), (2, { c0 := t, group := some g }), (3, { c0 := t, group := some g })] }

theorem witness_Groups : ((envG none ⟨2, 4, true, false, false⟩).ready d0 (some .m) 5 2 = true ∧ 2 * 4 ≤ (task .m).aa ∧ lentTiles 8 = []) ∧
    (∀ k < 4, k ≠ 0 → ((envG none ⟨2, 4, true, false, false⟩).core k).group = some ⟨2, 4, true, false, false⟩ ∧
      (((envG none ⟨2, 4, true, false, false⟩).core k).c0.task.map (fun v => (v.launch, v.part))) = some ((task .m).launch, (task .m).part)) ∧
    ((envG (some ⟨3, 5, true, false, true⟩) ⟨3, 5, true, false, true⟩).ready d0 (some .m) 5 2 = true ∧ (task .m).aa = 12 ∧
      lentTiles 15 ≠ [] ∧ ((envG (some ⟨3, 5, true, false, true⟩) ⟨3, 5, true, false, true⟩).core 0).c1.task = none) ∧
    ((envG (some ⟨2, 4, false, false, true⟩) ⟨2, 4, false, true, true⟩).ops = [] ∧
      ((envG none ⟨2, 4, false, true, true⟩).modEng (on .m) (fun e => { e with arrived := true })).ready d0 (some .m) 5 2 = true) := by decide +kernel

theorem witness_Groups_context1 : (({ env .m with
      turn := ⟨0, true, .m⟩, cores := [(0, { c1 := entryCtx (fetchTask 0 .m 0) })] } : State).ready d0 (some .m) 5 2 = true) := by decide +kernel

theorem witness_Accumulators : envM.task (on .m) = some (task .m) ∧ envM.ready d0 (some .m) 0 1 = true ∧ envM.settled [5] = true ∧
    (∀ i ≤ 11, accOk (on .m) envM (0 + i) = true) ∧
    (withCore envM (fun c => c.setTile 0 { st := .ready, size := 16384 })).readable (task .m) 0 = true ∧ envM.ready d0 (some .m) 0 2 = true := by decide +kernel

/-- M with EMPTY tiles of 16 KiB and an entry fewer than full in q3. -/
abbrev envD : State := withCore (env .m) (fun c => ((c.setTile 0 { size := 16384 }).setTile 1 { size := 1024, off := 16384 }).setAcc 1 { inUse := true })

/-- Every element of a drain of accumulator 1, of zeros, converts without a trap. -/
theorem witness_DrainWrites : envD.ready d0 (some .m) 0 2 = true ∧ (task .m).hasT false 0 = true ∧ (task .m).hasT false 1 = true ∧
    (envD.core 0).tile 0 = { size := 16384 } ∧ envD.tileRead? 0 0 = false ∧ envD.tileRead? 0 1 = false ∧ 512 * (numFmt 0).w ≤ 16384 ∧ 128 * scBytes 1 ≤ 1024 ∧
    ((envD.core 0).acc 1).inUse = true ∧ ((envD.core 0).acc 1).readable = true ∧ envD.ops = [] ∧ accOk (on .m) envD 1 = true ∧
    (task .m).hasQ false 3 = true ∧ envD.settled [1] = true ∧ envD.sval (on .m) d0 1 = 0 ∧ (envD.core 0).queue 3 = [] := by decide +kernel
/-- Under the first overflow policy no element is stopped. -/
theorem roundConv_not_trapped (F : NumFmt) (mode q : Nat) (v : Val) : (roundConv F mode 0 q v).trap = false := by
  unfold roundConv intOverflow overflow
  cases v <;> simp only <;> (repeat' split) <;> simp_all
theorem convert_not_trapped (S D : NumFmt) (mode q x : Nat) : (convert S D mode 0 q x).trap = false := by
  have h := roundConv_not_trapped D mode q (decodeVal S x)
  unfold convert
  dsimp only
  split
  · split <;> simp_all
  · exact h
theorem firstTrap_drainPlain (F : NumFmt) (f mode : Nat) (vs : List Nat) (qs : List Nat) : firstTrap (drainPlain F f mode 0 vs qs) = none := by
  simp only [firstTrap, List.findSome?_eq_none_iff, Prod.forall]
  intro r i h
  obtain ⟨-, -, hr⟩ := List.mem_zipIdx h
  simp only [drainPlain, List.getElem_zipWith] at hr
  simp [hr, convert_not_trapped]
theorem firstTrap_drainResult (f : Nat) (q : DrainArgs) (x : Acc) (g : BitVec 64) (h : q.scf = 0) (ho : q.ovf = 0) :
    firstTrap (drainResult f q x g).1 = none := by
  unfold drainResult
  generalize draws q.rnd.toNat g 4096 = d
  simp only [h, if_true, ho]
  exact firstTrap_drainPlain ..
theorem witness_DrainWrites_traps : (task .m).binding false 3 = (.m, .m) ∧ firstTrap (drainResult 3 ⟨0, 1, 1, false, false, 0, 0, 0, false⟩ ((envD.core 0).acc 1) 0).1 = none :=
  ⟨by decide +kernel, firstTrap_drainResult _ _ _ _ rfl rfl⟩

/-- Queues of the tests: the sources and destination of a V instruction. -/
abbrev q2 : Q2 := ⟨2, 0, 1, false, false, 0⟩
abbrev q1 : Q1 := ⟨2, 0, false, 0⟩
abbrev ones : State := envV 1 2

theorem witness_VectorLanes : ones.ready d0 (some .v) 0 1 = true ∧ ones.ready d0 (some .v) 0 2 = true ∧
    ones.flows (srcs2 q2) [2] [0] = true ∧ ones.flows (srcs1 q1) [2] [0] = true ∧ ones.flows [⟨0, false⟩] [2, 1] [0] = true ∧
    ones.flows (srcs2 q2) [] [] = true ∧ ones.task (on .v) = some (task .v) ∧ (task .v).hasQ false 0 = true ∧ ((task .v).binding false 0).2 = .v ∧
    0 < ((ones.core 0).queue 0).length ∧ (ones.core 0).queue 0 = [.entry 1] := by decide +kernel
theorem witness_VectorArithmetic : (withCore ones (fun c => c.setQueue 3 [.entry 3])).flows (srcs2 q2 ++ [⟨3, false⟩]) [2] [0] = true ∧
    decodeVal (numFmt 0) 0x7FC00000 = .nan ∧ decodeVal (numFmt 0) 0xFF800000 = .inf true ∧ decodeVal (numFmt 2) 0 = .fin false 0 (2 ^ 133) ∧
    (∃ a d, decodeVal (numFmt 1) 0xBC00 = .fin true a d ∧ a ≠ 0) := by
  refine ⟨by decide +kernel, by decide +kernel, by decide +kernel, by decide +kernel, 2 ^ 10, 2 ^ 10, by decide +kernel, by decide⟩
/-- 4.0 and 3.0, and what the exact cases of the functions ask of them. -/
theorem witness_VectorArithmetic_exact :
    (match decodeVal (numFmt 0) 0x40800000 with | .fin false a d => isPow2 a d && flog2 a d % 2 == 0 && a != 0 | _ => false) = true ∧
    (match decodeVal (numFmt 0) 0xC0400000 with | .fin true a d => a == 3 * d && d != 0 | _ => false) = true := by decide +kernel
/-- The sums of two entries, in and past the range of 32 bits. -/
theorem witness_VectorFolds : ones.ready d0 (some .v) 0 2 = true ∧ ones.ready d0 (some .v) 0 1 = true ∧ ones.flows (srcs1 q1) [2] [0] = true ∧
    ones.flows (srcs1 q1 ++ [⟨1, false⟩]) [2] [0, 0] = true ∧ lane ((envV 0x7FFFFFFF7FFFFFFF 0).oldest 0) 32 0 + lane ((envV 0x7FFFFFFF7FFFFFFF 0).oldest 0) 32 1 ≥ 2 ^ 31 ∧
    lane ((envV 0x8000000080000000 0).oldest 0) 32 1 = 2 ^ 31 := by decide +kernel
/-- Lane numbers below and at the number of lanes. -/
abbrev laneAt (x : BitVec 64) : State := withS ones [(1, x)]
theorem witness_VectorData : (laneAt 127).ready d0 (some .v) 0 2 = true ∧ (laneAt 127).settled [1, 2] = true ∧ (laneAt 127).flows [] [2] [0] = true ∧
    ((laneAt 127).sval (on .v) d0 1).toNat < 128 ∧ 128 ≤ ((laneAt 128).sval (on .v) d0 1).toNat ∧ (laneAt 128).flows (srcs1 q1) [2] [0] = true ∧
    ones.flows [⟨0, true⟩] [] [] = true ∧ ones.ready d0 (some .v) 1 2 = true ∧ (task .v).hasK false 0 = true ∧
    (0 + 1) * (512 * 7 + 512) ≤ 4096 ∧ ((withCore ones (fun c => c.setBank 0 { st := .ready, count := 3 })).core 0).bank 0 = { st := .ready, count := 3 } ∧
    (∀ i < 128, (ones.oldest 0).toNat >>> i % 2 < 3) ∧ (∀ x ∈ ((ones.core 0).queue 0).take 1, x.bits?.isSome = true) ∧ ones.flows (srcs2 q2) [2] [0] = true := by decide +kernel
theorem witness_VectorData_convert : (cvtRes ⟨0, 0, 3, 0, 0⟩ 0 0 1).toOption.isSome = true ∧ (0 + 4096 / max (cvtWidth 0) (cvtWidth 3)) * (numFmt 3).w ≤ 4096 := by decide +kernel
theorem witness_SoftmaxMerge : ones.ready d0 (some .v) 0 2 = true ∧ ones.flows (srcs2 q2) [2] [0] = true ∧
    decodeVal (numFmt 0) (lane ((envV 0x7F800000 0).oldest 0) 32 0) = .inf false := by decide +kernel
theorem witness_ExactRounding : 3 < 8 ∧ 0x3C < 2 ^ (numFmt 3).w ∧ (∃ n d, decodeVal (numFmt 3) 0x3C = .fin false n d) ∧
    (∃ n d, decodeVal (numFmt 0) 0xFFFFFFFF ≠ .fin true n d) := by
  refine ⟨by decide, by decide, ⟨_, _, rfl⟩, 0, 1, by decide⟩

/-- A V operation whose task runs. -/
abbrev vop : Op := flying .v 7 (.vres [(2, 5)] (some (1, 3)) (some (9, 4)) 0 none {})
abbrev envW : State := withCore ((env .v).addOp vop) (fun c => c.setQueue 2 [.pending 7])
theorem witness_EngineResults : envW.op? 7 = some vop ∧ envW.alive vop = true ∧ envW.ops.takeWhile (fun x => x.id ≠ 7) = [] := by decide +kernel
/-- One operation of each kind, whose task runs on M or L. -/
abbrev inFlight (e : EngineId) (k : OpKind) : State := (env e).addOp (flying e 7 k)
abbrev written : DrainWrite := { tile := 0, epoch := 0, off := 0, size := 8, swz := 0, at_ := 0, bytes := [1], tag := none }
theorem witness_EngineResults_matrix : (∀ k ∈ [OpKind.mma 1 0 [] [] 0 none, .aload 1 0 0, .drain 1 [written] 0 {}, .drain 1 [written, written] 0 {}, .adrq 1 3 [5] 0 {}],
      (inFlight .m k).op? 7 = some (flying .m 7 k) ∧ (inFlight .m k).alive (flying .m 7 k) = true) ∧ (((inFlight .m (.aload 1 0 0)).core 0).tile 0).epoch = 0 := by decide +kernel
theorem witness_EngineResults_home : (∀ k ∈ [OpKind.home none none, .home (some (5, 6)) none, .home none (some (5, {})), .bank 0 [0] none 0],
      (inFlight .l k).op? 7 = some (flying .l 7 k) ∧ (inFlight .l k).alive (flying .l 7 k) = true ∧ ((inFlight .l k).tarn 0).frozen = false ∧
      (flying .l 7 k).left = 0) ∧ (State.reset.alive (flying .l 7 (.home none none)) = false) ∧ ((env .v).ctx (on .v)).tokS EngineId.v.pred < 15 := by decide +kernel

/-- A copy of L in flight after `i`, resolved and granted. -/
abbrev granted (s : State) : State := { s with ops := s.ops.map (fun o => { o with left := 0 }) }
abbrev resolved (i : Instr) (s : State) : State :=
  granted (match execCopyResolution 1 (run i s) with | .next t => t | _ => s)
/-- The request of operation `n`. -/
abbrev copyOf (s : State) (n : Nat) : Option CopyOp := (s.op? n).bind (fun o => match o.kind with | .copy c => some c | .store c => some c | .repl c _ => some c | _ => none)
/-- Operation `n` is a copy of which `f` holds. -/
abbrev ofCopy (s : State) (n : Nat) (f : Op → CopyOp → Bool) : Bool := match s.op? n, copyOf s n with | some o, some c => o.id == n && f o c | _, _ => false

/-- A copy that resolves, one whose access faults (its object is gone), and one that resolves to addresses that are not populated. -/
theorem witness_CopyProgress :
    (ofCopy (run (.cpin d0 (whole 0)) envL) 1 (fun o c => c.res.isNone &&
      ((run (.cpin d0 (whole 0)) envL).resolveCopy o.part o.tid c.req c.size).toOption.isSome) = true) ∧
    (ofCopy { run (.cpin d0 (whole 0)) envL with objs := [] } 1 (fun o c => c.res.isNone &&
      (match State.resolveCopy { run (.cpin d0 (whole 0)) envL with objs := [] } o.part o.tid c.req c.size with | .error t => !t.freeze | .ok _ => false) &&
      !State.detached { run (.cpin d0 (whole 0)) envL with objs := [] } o c) = true) := by decide +kernel
/-- A copy that may land in a tile, a queue and a bank. -/
theorem witness_CopyProgress_landing : (∀ i ∈ [Instr.cpin d0 (whole 0), .cpq d0 (whole 0), .cbfillF32 d0 (whole 0)],
      ofCopy (resolved i envL) 1 (fun o c => (resolved i envL).mayMove o c && !(resolved i envL).detached o c && !c.req.kind.stores &&
        (match c.res with | some r => (match r.maps with | m :: _ => ((resolved i envL).badIn ((resolved i envL).touched c.req r)).isNone && (m.1 == 0) | [] => false) &&
          (c.req.geo r.e).p == (c.req.geo r.e).n | none => false)) = true) := by decide +kernel
/-- L with two READY tiles and tensor 3 a window of reductions; a copy out of tile 1 as it stands resolved. -/
abbrev envY : State := withCore (envL.putObj { tensor3 with e := { tensor3.e with rwin := true } }) (fun c => c.setTile 2 { st := .ready, off := 8192, size := 4096 })
abbrev wholeResolved : Resolved := { home := 0, num := 3, e := tensor3.e, maps := [(0, .slices 0x110000)] }
abbrev wholeCopy : CopyOp := { req := wholeRequest .cpout 1, unit := 1, off := 4096, size := 4096, total := 256, res := some wholeResolved }

theorem witness_Stores : ofCopy (resolved (.cpout d0 (whole 1)) envL) 1 (fun o c => (resolved (.cpout d0 (whole 1)) envL).mayMove o c && c.req.kind.stores && c.res.isSome) = true ∧
    (∀ s ∈ [run (.copyOutCompletion 1) (resolved (.cpoutFf d0 (whole 1)) envL)],
      ofCopy s 1 (fun o c => (match o.kind with | .store _ => true | _ => false) && !o.quiet && (match c.res with | some r => !s.storeFails c r && ((s.obj? r.home r.num).map (fun x => x.locks)) == some [] | none => false)) = true ∧
      ofCopy { s with objs := [] } 1 (fun _ c => (match c.res with | some r => State.storeFails { s with objs := [] } c r | none => false)) = true) ∧
    (ofCopy (inFlight .l (.repl (wholeCopy) [0])) 7 (fun o _ => match o.kind with | .repl _ _ => true | _ => false) = true) := by decide +kernel
/-- What a copy of the whole tensor stores does not reach address 0. -/
theorem witness_Stores_frame : ∀ m ∈ wholeResolved.maps, ∀ w ∈ (wholeCopy.req.place wholeResolved.e).scatter (leNat (wholeCopy.bytes envL 0)), ∀ i < ceilDiv (w.1.bit % 8 + w.2.1) 8,
    (match m.2.at envL m.1 wholeResolved.e (wholeResolved.e.byteOff w.1 i) with | .ok a => a == 0 | .error _ => false) = false := by decide +kernel
theorem witness_Stores_replicas : ((granted (run (.copyResolution 2) (run (.radd d0 (whole 2)) (resolved (.radd d0 (whole 1)) envY)))).ops.map (fun o => o.id) = [1, 2]) ∧
    (ofCopy (run (.copyResolution 2) (run (.radd d0 (whole 2)) (resolved (.radd d0 (whole 1)) envY))) 2 (fun _ c => c.res.isSome && c.req.kind.reduces && c.mergedInto.isNone &&
      ((copyOf (resolved (.radd d0 (whole 1)) envY) 1).map (fun b => b.res == c.res && b.req.shape == c.req.shape && b.req.idx == c.req.idx && b.req.rows == c.req.rows && b.req.kind == c.req.kind)) == some true) = true) ∧
    ((envL.putObj { tensor3 with locks := [(1, 5)] }).objOf? (handle 3) = some { tensor3 with locks := [(1, 5)] } ∧ tensor3.e.gen = hGen (handle 3) ∧ (1 : Nat) ≠ tensor3.home) := by decide +kernel

theorem witness_FaultResolution : (∃ f, (awaiting.eng (on .c)).st = .awaiting f ∧ f.seqno = 0 ∧ f.code = .swTrap) ∧ mereOf 0 = 0 ∧
    (∃ f, (((env .c).takeFault (on .c) { code := .bounds }).eng (on .c)).st = .awaiting f ∧ f.seqno = 0 ∧ f.code ≠ .swTrap ∧ f.seqno ≠ 1) ∧
    4 ≤ field (0x700000000#64) 34 32 ∧ awaiting.waitingRecs = [] :=
  ⟨⟨_, rfl, by decide +kernel, by decide +kernel⟩, by decide, ⟨_, rfl, by decide +kernel, by decide +kernel, by decide +kernel⟩, by decide, by decide +kernel⟩

/-- Object 5: a launch queue of one committed record; its partition, whose work is a satisfied continuation. -/
abbrev queue5 : Obj where
  home := 0
  num := 5
  e := { typ := .sequence, fmt := 8, gen := 1, rights := 0x3F, rank := 1, ext0 := 16, ext1 := 32, value := 1, next := 1, loc := 0x140000 }
  maps := [(0, .current, .blocks [⟨0, 0x140000, 0, true, true⟩])]
abbrev cont9 (cid : Nat) (enq : Bool) : Cont where
  cid := cid
  task := task .c
  ctx := false
  tarn := 0
  pcs := []
  s := []
  h := Vector.replicate 32 {}
  x := Vector.replicate 16 0
  gens := []
  satisfied := some 0
  enqueued := enq
abbrev launch0 : Launch := { lid := 0, record := (task .c).record, slot := 0, spawned := false, code := {}, succ := [], next := none, alive := 0, failed := false, cancelled := false }
abbrev part5 : Part := { fetchPart with
  lqh := fetchPart.lqh.set 0 (handle 5)
  work := [⟨true, 9, 0, 54, 14, false⟩]
  conts := [cont9 9 true, cont9 10 false]
  held := [(1, 0, (task .c).record)]
  launches := [launch0] }
abbrev envS : State := { env .c with parts := [part5], objs := [queue5], unreachable := [0], cores := [] }

theorem witness_SchedulerMoves : part5.flock = true ∧ ({ envS with unreachable := [] }).walks part5 = true ∧ part5.fromQueues < 4096 ∧
    ({ envS with unreachable := [] }).launchSeq part5 0 = some queue5 ∧ findMap queue5.maps 0 .current = some (.blocks [⟨0, 0x140000, 0, true, true⟩]) ∧
    (readSpot { envS with unreachable := [] } 0 queue5.e (.blocks [⟨0, 0x140000, 0, true, true⟩]) ⟨0, 0, 0⟩ 64).toOption.isSome = true ∧
    envS.away (hHome (recCode (task .c).record)) = true := by decide +kernel
theorem witness_SchedulerMoves_scheduler : (envS.pickWork part5 = some (⟨true, 9, 0, 54, 14, false⟩, [0])) ∧ part5.work[0]? = some ⟨true, 9, 0, 54, 14, false⟩ ∧
    (∀ y ∈ envS.parts, y.cfg.id = 0 → y = part5) ∧ part5.conts.find? (fun c => c.cid == 10 && c.satisfied.isSome && !c.enqueued) = some (cont9 10 false) ∧
    ({ envS with cores := [(0, { preemptor := some (true, 9, 0) })] }).partAt 0 = some part5 := by decide +kernel
/-- A launch of node 3 that has run out. -/
abbrev launch3 : Launch := { launch0 with record := (task .c).record &&& ~~~(0xFFFC#512 <<< 416) }
theorem witness_SchedulerMoves_nodes : recNode launch3.record = 3 ∧ (({ part5 with launches := [launch3] }).holder 3 = some launch3) ∧ (envS.launchDone 0 launch3 = true) := by decide +kernel
theorem witness_SchedulerMoves_stalls : 0 < (((env .c).modEng (on .c) (fun e => { e with heldP := 1 })).eng (on .c)).heldP ∧ ((env .c).ctx (on .c)).tokS (EngineId.c).pred < 15 ∧
    ((env .c).ctx (on .c)).tokP (EngineId.c).succ < 15 ∧ 0 < (((env .c).modEng (on .c) (fun e => { e with heldN := 1 })).eng (on .c)).heldN := by decide +kernel
theorem witness_SchedulerMoves_watchdog : ((env .c).modEng (on .c) (fun e => { e with stall := some (.token 0) })).counts (on .c) = true ∧
    ((env .c).modEng (on .c) (fun e => { e with stall := some (.token 0) })).stalled (on .c) (.token 0) = true ∧
    ((((env .c).modEng (on .c) (fun e => { e with stall := some (.token 0) })).mere 0).queue = []) ∧
    ((env .c).modEng (on .c) (fun e => { e with scWait := true })).scFirst 0 = some (on .c) := by decide +kernel

/-- Windows 0 to 2 bound to sequence 4, tensor 3 and counter 2 for Requester ID 1; window 3 closed, on sequence 4. -/
abbrev windows : Vector Window 32 :=
  (((fetchPart.windows.set 0 { wctl := 0x0001000000000001, wobj := handle 4, bobj := handle 4, bound := true, wcur := 1032, slot := some 16 }).set 1
    { wctl := 0x0001000000000002, wobj := handle 3, bobj := handle 3, bound := true }).set 2
    { wctl := 0x0001000000000003, wobj := handle 2, bobj := handle 2, bound := true, frozen := true, wtgt := 9 }).set 3
    { wctl := 0x0001000000000001, wobj := handle 4, bobj := handle 4, bound := true, closed := true }
abbrev partI : Part := { fetchPart with windows := windows }
abbrev slot4 : Obj := { sequence4 with resv := [⟨16, 17, .window 0 0⟩] }
abbrev envI : State := ({ env .c with parts := [partI] }).putObj slot4

theorem witness_HostRegisters : envI.part? 0 = some partI ∧ (∀ y ∈ envI.parts, y.cfg.id = 0 → y = partI) ∧ fetchPart.flock = true ∧ ({ fetchPart with flock := false }).flock = false ∧
    0x800#64 &&& ~~~(BitVec.ofNat 64 Config.featOffer) ≠ 0 ∧ 1#64 &&& ~~~(BitVec.ofNat 64 Config.featOffer) = 0 ∧
    (envI.resolve 0 (handle 4)).toOption = some slot4 ∧ slot4.e.rowb = 64 ∧ (partI.win 5).bound = false ∧ partI.featAccept.getLsbD 9 = true := by decide +kernel
theorem witness_HostRegisters_windows : ((envI.resolve 0 (handle 3)).toOption = some tensor3 ∧ (envI.resolve 0 (handle 2)).toOption = some counter2 ∧
      slot4.e.capacity * slot4.e.rowb ≤ 2 ^ 34 ∧ tensor3.e.grants .pin = true ∧ counter2.e.grants .read = true) ∧
    ((partI.win 2).bound = true ∧ (partI.win 2).wctl.extractLsb' 0 2 = 3 ∧ (partI.win 2).slot = none ∧ (partI.win 2).frozen = true) ∧
    ((partI.win 3).closed = true ∧ (partI.win 3).wobj = (partI.win 3).bobj ∧ (partI.win 3).wctl.extractLsb' 0 2 = 1) ∧
    ((partI.win 0).closed = false ∧ (partI.win 0).wobj = (partI.win 0).bobj) ∧
    (5 ≤ counter2.val ∧ ¬ 6 ≤ counter2.val ∧ envI.objOf? (partI.win 2).bobj = some counter2) := by decide +kernel
/-- A command that tile 0 sent through namespace 0. -/
abbrev sent (c : KvCmd) : KvOp := { cmd := c, part := 0, slot := 0, counter := handle 2, tile := 0, epoch := 0, off := 0, swz := 0, max := 16, st := some 5, key := [], data := [] }
theorem witness_HostRegisters_namespaces : envI.nsCounter 0 (handle 2) = true ∧ (∀ z ∈ partI.ns.toList, z.bound = false) ∧
    (∀ kv ∈ [KvCmd.put, .get, .exist, .list], ((env .l).addOp (flying .l 7 (.kv (sent kv)))).op? 7 = some (flying .l 7 (.kv (sent kv)))) := by
  decide +kernel

/-- An access of window `w` by Requester ID `rid` at an offset. -/
abbrev access (w : BitVec 5) (rid : BitVec 16) (off : Nat) (bytes : List (BitVec 8)) (ro : Bool := false) : Ingress := ⟨0, w, rid, ro, off, bytes⟩
/-- Window 2 not frozen. -/
abbrev envJ : State := { envI with parts := [{ partI with windows := windows.set 2 { windows[2] with frozen := false } }] }

theorem witness_WindowWrites : envJ.hostHeld = false ∧ (envJ.winOf (access 2 1 0 (leBytes 8 1)) 3).isSome = true ∧ (counterAdd counter2 1).toOption.isSome = true ∧
    counter2.e.grants .write = true ∧ (envJ.winOf (access 1 1 248 (leBytes 8 1)) 2).isSome = true ∧ envJ.sound tensor3 = true ∧
    248 + 8 ≤ tensor3.e.storageBytes (envJ.winShard tensor3.e) ∧ (envJ.readRaw tensor3 (tensor3.verOf none) 248 8).isSome = true ∧
    (envJ.storeSpots tensor3 248 8).isSome = true ∧ envJ.winOf (access 1 2 0 []) 2 = none ∧ envJ.winOf (access 2 2 0 []) 3 = none := by decide +kernel
theorem witness_WindowWrites_sequence : (envJ.winOf (access 0 1 1032 (leBytes 8 1)) 1) = some (partI.win 0) ∧ (partI.win 0).wcur.toNat % 2 ^ 34 = 1032 ∧
    slot4.reservedBy (.window 0 0) 16 = true ∧ 1032 / 64 = 16 ∧ 1032 % 64 ≠ 0 ∧ 1032 + 8 < 17 * 64 ∧ 16 < slot4.e.capacity ∧
    (findMap slot4.maps 0 .current).isSome = true ∧ (envJ.ownBlocks slot4 [1]).isSome = true ∧ (access 0 1 0 [] true).off ≠ 1032 := by decide +kernel

/-- The entry of a COUNTER, as R42 lays it out. -/
abbrev newCounter : Entry := { typ := .counter, gen := 1, rights := 0x3F }
/-- A sequence with a reservation that no one owns. -/
abbrev lost4 : Obj := { sequence4 with resv := [⟨16, 17, .nobody⟩] }
theorem witness_ObjectManager : ((env .c).ownerOf 9).isSome = true ∧ (Entry.ofBits newCounter.bits).typ = .counter ∧ (Entry.ofBits newCounter.bits).consistent = true ∧
    (env .c).obj? 0 9 = none ∧ (env .c).live? (handle 3) = some tensor3 ∧ tensor3.waiters = [] ∧ tensor3.e.altObj = 0 ∧ (env .c).ops = [] ∧ tensor3 ∈ (env .c).objs ∧
    ((env .c).putObj lost4).live? (handle 4) = some lost4 ∧ lost4.e.sealedBit = false := by decide +kernel
/-- Tensor 6 of one page, in HBM4E: missing, or present. -/
abbrev tensor6 (valid : Bool) : Obj where
  home := 0
  num := 6
  e := { typ := .tensor, fmt := 8, gen := 1, rights := 0x3F, ext0 := 64, altObj := 3, altGen := 1, tier := 1 }
  maps := [(0, .current, .pages [mkDesc 1 0 0x010000000000 false valid])]
abbrev envP (valid : Bool) : State := { env .c with objs := tensor6 valid :: (env .c).objs, parts := [{ fetchPart with cfg := { fetchPart.cfg with lpQuota := 65536 } }] }
abbrev place : PageArgs := { hd := handle 6, ver := none, page := 0, tier := 2, pkg := 0, addr := 0x020000000000 }
theorem witness_ObjectManager_pages : (envP false).live? (handle 6) = some (tensor6 false) ∧
    (tensor6 false).spot? (envP false) .current 0 (fun y => !y.valid) = some (.page 0 (mkDesc 1 0 0x010000000000 false false)) ∧
    (Spotted.page 0 (mkDesc 1 0 0x010000000000 false false)).known = true ∧ (envP false).target (tensor6 false) place (.page 0 (mkDesc 1 0 0x010000000000 false false)) = some 0 ∧
    (envP true).live? (handle 6) = some (tensor6 true) ∧ (tensor6 true).spot? (envP true) .current 0 Spotted.valid = some (.page 0 (mkDesc 1 0 0x010000000000 false true)) ∧
    (tensor6 true).holds (envP true) (.page 0 (mkDesc 1 0 0x010000000000 false true)) = false ∧ (envP true).storing (tensor6 true) = false ∧
    ((envP true).target (tensor6 true) place (.page 0 (mkDesc 1 0 0x010000000000 false true))) = some 0 ∧ place.tier ≠ 0 ∧
    (envP true).obj? 0 3 = some tensor3 := by decide +kernel
theorem witness_ObjectManager_moving : ∀ f ∈ pagesOf 0x020000000000 65536, (0, f) ∈ [((0 : Nat), 0x020000000000)] := by decide +kernel

theorem witness_PeersAndSwitches : (∀ m ∈ tensor3.maps, m.2.1 ≠ .working) ∧ tensor3.e.shmode = 0 ∧ (env .c).hostHeld = false ∧
    ((env .c).resolve 0 (handle 2)).toOption = some counter2 ∧ ((env .c).resolve 0 (handle 3)).toOption = some tensor3 ∧ ((env .c).resolve 0 (handle 250)).toOption = none ∧
    (∀ p, (env .c).ownerOf 250 = some p → p.rstBusy = false) ∧ ((env .c).readRaw tensor3 .current 0 8).isSome = true := by
  refine ⟨by decide, by decide, by decide +kernel, by decide +kernel, by decide +kernel, by decide +kernel, ?_, by decide +kernel⟩
  intro p hp
  have h : (env .c).ownerOf 250 = some fetchPart := by decide +kernel
  rw [h] at hp
  cases hp
  rfl
/-- Object 7: a save object of 64 KiB; and a core's image in a save. -/
abbrev save7 : Obj where
  home := 0
  num := 7
  e := { typ := .tensor, fmt := 8, gen := 1, ext0 := 16384, blkC := 4, loc := 0x200000 }
  maps := [(0, .current, .slices 0x200000)]
abbrev saved (e : EngineId) : Save := { sid := 3, part := 0, obj := handle 7, core := 0, at_ := 0, image := { c0 := entryCtx (task e) }, bufs := [], checkpoint := false }
/-- C with that object; and its save, whose body would come back as it is, or not. -/
abbrev envZ : State := { env .c with objs := save7 :: (env .c).objs }
theorem witness_PeersAndSwitches_switch : envZ.maySave 0 (task .c) = true ∧ envZ.live? (handle 7) = some save7 ∧ save7.e.rank = 0 ∧ save7.e.rights = 0 ∧
    (envZ.saveBytes 0 (task .c)).length ≤ 4 * save7.e.ext0.toNat ∧ (envZ.writeSave save7 (envZ.saveBytes 0 (task .c))).isSome = true ∧
    (envZ.storeSpots save7 0 (envZ.saveBytes 0 (task .c)).length).isSome = true ∧
    (envZ.writeSave { save7 with maps := [] } (envZ.saveBytes 0 (task .c))).isNone = true := by decide +kernel
theorem witness_PeersAndSwitches_restore :
    (({ env .c with saves := [saved .c] }).saves.filter (fun (v : Save) => v.part == 0 && !v.checkpoint))[0]? = some (saved .c) ∧ (saved .c).image.c0.task = some (task .c) ∧
    (({ env .c with cores := [] }).core 0).c0.task = none ∧ (({ env .c with cores := [] }).core 0).hold = none ∧ 0 ∈ recCores (task .c).record ∧
    ({ env .c with cores := [] }).fits 0 (saved .c) = true ∧ (env .c).walks fetchPart = true := by decide +kernel

/-- The device with pair 2 fit, while it elects. -/
abbrev electing : State := { (State.reset.setMere 2 { verified := true }) with electionOpen := true }
theorem witness_LeaderAndPower : electing.leader = none ∧ electing.fit 2 = true ∧ 2 ∉ electing.claims ∧ ({ electing with claims := [5, 2] }).claims ≠ [] ∧
    ({ electing with leader := some 2 }).leader.isSome = true ∧ (electing.mere 2).frozen = false ∧ ({ electing with warmHold := true }).warmHold = true ∧
    (State.reset.cores = [] ∧ State.reset.ops = [] ∧ State.reset.saves = [] ∧ State.reset.objs = [] ∧ State.reset.ghosts = [] ∧ State.reset.parts = []) ∧
    ({ env .c with leader := some 2, cores := [], objs := [] }).parts = [fetchPart] ∧ fetchPart.launches = [] ∧ fetchPart.conts = [] := by decide +kernel
theorem witness_ResetsAndCheckpoints : (env .c).part? 0 = some fetchPart ∧ fetchPart.rstBusy = false ∧ (env .c).ckpt = .none ∧
    ({ env .c with parts := [{ fetchPart with rstBusy := true }], cores := [] }).part? 0 = some { fetchPart with rstBusy := true } ∧
    (∀ i : Fin 32, fetchPart.windows[i].bound = false) ∧ fetchPart.rstLater = none ∧ fetchPart.rstClear = false ∧
    (State.reset.ops = [] ∧ State.reset.cores = [] ∧ State.reset.objs = [] ∧ ({ State.reset with ckpt := .quiesced }).ckpt = .quiesced) ∧
    ((env .c).saves = [] ∧ ∀ i : Fin 8, (env .c).meres[i].queue.length ≤ 1024) ∧
    ({ State.reset with ckptImage := some ([(0x010000000000, 5)], []), mem := [(3, 1), (0x010000000000, 4)] }).memOk = true := by decide +kernel
theorem witness_Attestation : ({ State.reset with spdmNegotiated := true }).spdmNegotiated = true ∧ 7 ∉ State.reset.spdmSessions ∧
    7 ∈ ({ State.reset with spdmPending := [7] }).spdmPending := by decide +kernel

/-- A machine whose next turn finds the word `w`. -/
abbrev atWord (w : Nat) : State := State.reset.withFetchWord 32 w
/-- The engine whose turn is next there, and the state as it takes it. -/
abbrev taken (w : Nat) (e : EngineId) : State := { atWord w with agenda := [], turn := on e }
theorem witness_StepRunsDecoded : (atWord 0x03600D38).agenda = [.turn (on .c)] ∧ (taken 0x03600D38 .c).canIssue (on .c) = true ∧
    ((taken 0x03600D38 .c).eng (on .c)).heldP = 0 ∧ ((taken 0x03600D38 .c).eng (on .c)).heldN = 0 ∧
    ((taken 0x03600D38 .c).fetch (on .c)).toOption = some (0x03600D38, 0) ∧ decode 0x03600D38 0 = .instr (.subSubscribe Dep.none 0 13 14) ∧
    State.reset.canIssue (on .c) = false ∧
    (match (env .c).modEng (on .c) (fun e => { e with pc := 4096 }) |>.fetch (on .c) with | .error _ => true | .ok _ => false) = true := by decide +kernel
theorem witness_StepRunsDecoded_bad : (decode 0x0FF00000 0 = .unassigned) ∧ (decode 0x00100001 0 = .badEncoding) ∧
    ((env .c).accepts (on .c) (opFeature 0x00100001 0) = true) := by decide +kernel
theorem witness_StepRunsDecoded_events : Instr.heartbeat.words = 0 ∧ Instr.heartbeat.wf = true ∧ State.reset.warmHold = false ∧ State.reset.agenda = [] ∧
    State.reset.movers exec = [] ∧ (Instr.sub Dep.none 0 13 14).wf = true ∧ (Instr.sub Dep.none 0 13 14).words ≠ 0 := by decide +kernel
theorem witness_MemoryInvariant : (match step (atWord 0x03600D38) with | .next _ => true | _ => false) = true ∧ (atWord 0x03600D38).memOk = true := by decide +kernel
theorem witness_ResetValues : (match exec (.powerOnReset ⟨[], ⟨true, 0, 0⟩, ⟨[], [], []⟩⟩) State.reset with | .next _ => true | _ => false) = true ∧ State.reset.memOk = true := by decide +kernel
/-- An instruction whose operands its fields cannot hold has no words; one whose fields can hold every operand decodes back. -/
theorem witness_EncodeDecode : (Instr.cpin d0 ⟨63, 15, 31, 63, 63, 63, 63, 1⟩).wf = true ∧ (Instr.cpin d0 ⟨63, 15, 31, 63, 63, 63, 63, 1⟩).words = 2 ∧
    decode 0x03600D38 0 = .instr (.subSubscribe Dep.none 0 13 14) := by decide +kernel
/-- Tensor 3 mapped where no memory is. -/
abbrev nowhere : State := envL.putObj { tensor3 with e := { tensor3.e with loc := 0x60000000 }, maps := [(0, .current, .slices 0x60000000)] }
theorem witness_Stops : (match step { run (.cpin d0 (whole 0)) nowhere with agenda := [.event (.copyResolution 1)] } with | .fault (.unpopulated _) => true | _ => false) = true := by
  decide +kernel

/-! ### Further clauses -/

/-- A copy out whose home went away, one that a replica's lock of its own waits for, and words in error under a copy in. -/
theorem witness_CopyProgress_lost :
    (let s := { resolved (.cpin d0 (whole 0)) envL with unreachable := [0] }
     ofCopy s 1 (fun _ c => match c.res with | some r => s.lost r | none => false) = true) ∧
    (let s := { resolved (.cpin d0 (whole 0)) envL with badWords := [0x110000] }
     ofCopy s 1 (fun o c => s.mayMove o c && !s.pushWaits o c && (match c.res with | some r => (s.badIn (s.touched c.req r)).isSome && !s.lost r | none => false)) = true) := by
  decide +kernel
theorem witness_Stores_lost :
    (let s := { resolved (.cpout d0 (whole 1)) envL with unreachable := [0] }
     ofCopy s 1 (fun _ c => c.req.kind.stores && !c.req.kind.ff && (match c.res with | some r => s.lost r | none => false)) = true) ∧
    (let s := (run (.copyOutCompletion 1) (resolved (.cpoutFf d0 (whole 1)) envL)).putObj { tensor3 with locks := [(0, 1)] }
     ofCopy s 1 (fun o c => (match o.kind with | .store _ => true | _ => false) && (match c.res with | some r => s.lockedBy r.home r.num o.id == [0] && !s.away r.home | none => false)) = true) ∧
    envL.published wholeResolved = none := by decide +kernel
/-- A streamer that is frozen, and one that is not, with operations waiting. -/
theorem witness_Stores_rounds : (({ envL with tarns := [(0, { frozen := true })] }).tarn 0).frozen = true ∧ (envL.tarn 0).frozen = false ∧
    (flying .l 7 (.home none none) 3).pendingAt 0 = true := by decide +kernel
theorem witness_Stores_timeout : tensor3.e.gen = hGen (handle 3) ∧ (1 : BitVec 10).toNat ≠ tensor3.home ∧
    (∃ k ∈ ({ tensor3 with locks := [(1, 5)] } : Obj).locks, k.1 = (1 : BitVec 10).toNat) ∧ (envL.putObj { tensor3 with locks := [(1, 5)] }).ops = [] := by
  refine ⟨by decide +kernel, by decide, ⟨(1, 5), by simp, by decide⟩, by decide +kernel⟩

theorem witness_FaultResolution_takeover : 0 ∈ ({ awaiting with takeover := [0] }).takeover ∧ 0 ∉ awaiting.takeover := by decide +kernel

/-- A bank command of L on tensor 3, by its handle: in turn, and with the tensor's copies locked by it. -/
abbrev banked (ls : List (Nat × Nat)) : State := (inFlight .l (.bank 0 [0x110000] none (handle 3))).putObj { tensor3 with locks := ls }
theorem witness_EngineResults_banks :
    ((banked []).streamFrozen (flying .l 7 (.bank 0 [0x110000] none (handle 3))) = false ∧ (banked []).heldBack (flying .l 7 (.bank 0 [0x110000] none (handle 3))) = false ∧
      (banked []).bankOrder (flying .l 7 (.bank 0 [0x110000] none (handle 3))) = false ∧ (banked []).bankObj (handle 3) = some tensor3 ∧ (banked []).bankObj 0 = none) ∧
    ((banked [(0, 7)]).bankObj (handle 3) = some { tensor3 with locks := [(0, 7)] } ∧ (banked [(0, 7)]).lockedBy 0 3 7 = [0] ∧ (banked [(0, 7)]).away 0 = false) ∧
    ((inFlight .l (.home none none)).alive (flying .l 7 (.home none none)) = true) := by decide +kernel

theorem witness_SchedulerMoves_queues : envS.sound queue5 = true ∧ queue5.e.err = false ∧ ({ envS with unreachable := [] }).away 0 = false ∧
    (∀ y ∈ part5.held, y.1 ≠ 0) ∧ (part5.lqcur.toList.getD 0 0).toNat < queue5.val ∧ queue5.e.gen = hGen (handle 5) ∧
    envS.objOf? (handle 5) = some queue5 ∧ (∀ c ∈ envS.cores, c.2.c0.dying = none ∧ c.2.c1.dying = none) ∧ envS.walks part5 = true ∧
    (∀ y ∈ ({ part5 with held := [] } : Part).held, ∀ q : BitVec 10, hHome (recCode y.2.2) ≠ q.toNat) := by decide +kernel
/-- C stalled past its bound, and within it. -/
abbrev stalledAt (n : Nat) : State := (env .c).modEng (on .c) (fun e => { e with stall := some (.token 0), wdog := n })
theorem witness_SchedulerMoves_expire : (stalledAt (2 ^ 36)).counts (on .c) = true ∧ (stalledAt (2 ^ 36)).stalled (on .c) (.token 0) = true ∧
    ((stalledAt (2 ^ 36)).wdogBound (on .c) < ((stalledAt (2 ^ 36)).eng (on .c)).wdog) ∧ ((stalledAt (2 ^ 36)).withdraw (on .c) (.token 0)).queueRoom 0 = true ∧
    ¬((stalledAt 1024).wdogBound (on .c) < ((stalledAt 1024).eng (on .c)).wdog) := by decide +kernel

theorem witness_HostRegisters_binds : envI.names 0 (handle 3) tensor3 = true ∧ envI.names 0 (handle 2) counter2 = true ∧ tensor3.e.pinCnt < 65535 ∧
    ((partI.win 1).bound = true ∧ (partI.win 1).wctl.extractLsb' 0 2 = 2 ∧ (partI.win 1).slot = none) ∧
    ((partI.win 0).bound = true ∧ (partI.win 0).slot = some 16 ∧ (partI.win 0).wctl.extractLsb' 0 2 = 1) := by decide +kernel
/-- A partition with one connection, and a command of it in flight; namespace 0 is bound to counter 2. -/
abbrev envK : State := { (env .l).addOp (flying .l 7 (.kv (sent .get))) with
  parts := [{ fetchPart with cfg := { fetchPart.cfg with conns := [⟨3, true, [], [], []⟩] }, ns := fetchPart.ns.set 0 { nsobj := handle 2, bobj := handle 2, bound := true } }] }
theorem witness_HostRegisters_commands : (∀ p ∈ envK.parts, ∃ c ∈ p.cfg.conns, c.num.toNat = 3) ∧ envK.alive (flying .l 7 (.kv (sent .get))) = true ∧
    ((envK.core 0).tile 0).epoch = 0 ∧ (∀ p ∈ envK.parts, p.ns.toList[0]? = some { nsobj := handle 2, bobj := handle 2, bound := true }) ∧
    envK.objOf? (handle 2) = some counter2 ∧ (counterAdd counter2 1).toOption.isSome = true := by decide +kernel

/-- A TENSOR whose ERR is set. -/
abbrev broken3 : Obj := { tensor3 with e := { tensor3.e with err := true } }
theorem witness_WindowWrites_errors : envJ.names 0 (handle 2) counter2 = true ∧ envJ.names 0 (handle 3) tensor3 = true ∧
    (envJ.putObj broken3).names 0 (handle 3) broken3 = true ∧ (envJ.putObj broken3).winOf (access 1 1 248 [1]) 2 = some (partI.win 1) ∧
    (partI.win 0).bound = true ∧ (partI.win 0).kind = 1 ∧ (partI.win 0).rid ≠ (access 0 2 0 [1]).rid ∧ tensor3.e.rwin = false ∧
    (access 1 1 (2 ^ 34) []).off ≥ 2 ^ 34 ∧ 1 * 2 ^ 34 + (access 1 1 (2 ^ 34) []).off < 2 ^ 38 ∧ 2 ^ 38 ≤ 1 * 2 ^ 34 + (access 1 1 (15 * 2 ^ 34) []).off := by decide +kernel
/-- The sequence window where it holds no slot, at the next slot of the sequence. -/
abbrev envQ : State := ({ env .c with parts := [{ fetchPart with windows := fetchPart.windows.set 0 { wctl := 0x0001000000000001, wobj := handle 4, bobj := handle 4, bound := true, wcur := 1024 } }] })
theorem witness_WindowWrites_slots : (match envQ.winOf (access 0 1 1024 (leBytes 64 1)) 1 with
      | some y => y.slot.isNone && !y.closed && y.wcur.toNat == 1024
      | none => false) = true ∧ envQ.names 0 (handle 4) sequence4 = true ∧
    1024 % 64 = 0 ∧ 1024 / 64 = sequence4.e.next.toNat ∧ sequence4.e.sealedBit = false ∧ 1024 + 64 ≤ sequence4.e.capacity * 64 ∧ sequence4.e.rowb = 64 ∧
    (envQ.allocBlocks sequence4 (blocksOf 16 17)).isSome = true ∧ envQ.sound sequence4 = true ∧ envJ.names 0 (handle 4) slot4 = true := by decide +kernel

/-- A TENSOR that the manager makes in HBM4E, of one page. -/
abbrev newTensor : Entry := { typ := .tensor, fmt := 8, gen := 1, rights := 0x3F, ext0 := 64, blkC := 4, tier := 1 }
abbrev made9 : Obj := ({ home := 0, num := 9, e := newTensor, maps := newMaps 0 newTensor [mkDesc 1 0 0x010000000000 false true] } : Obj).retier
theorem witness_ObjectManager_made : Entry.ofBits newTensor.bits = newTensor ∧ newTensor.consistent = true ∧
    (let frames := made9.maps.flatMap (fun m => (m.2.2.frames newTensor).map (fun f => (m.1, f)))
     frames.eraseDups = frames ∧ ∀ f ∈ frames, f.2 ∉ (env .c).usedFrames f.1) ∧
    (∃ r ∈ lost4.resv, r.owner = .nobody) ∧ lost4.waiters = [] ∧ lost4 ∈ ((env .c).putObj lost4).objs ∧
    (∀ p ∈ ({ env .c with parts := [{ fetchPart with cfg := { fetchPart.cfg with sealAbandoned := false } }] } : State).parts, p.cfg.sealAbandoned = false) := by
  refine ⟨by decide +kernel, by decide +kernel, by decide +kernel, ⟨⟨16, 17, .nobody⟩, by simp, rfl⟩, by decide +kernel, by decide +kernel, by decide +kernel⟩
theorem witness_ObjectManager_promotion : (envP true).mark.live? (handle 6) = some (tensor6 true) ∧
    (envP true).mark.storing (tensor6 true) = false ∧ (envP true).mark.target (tensor6 true) place (.page 0 (mkDesc 1 0 0x010000000000 false true)) = some 0 ∧
    0 ∈ ({ envP false with takeover := [0] } : State).takeover ∧ 0 ∉ (envP false).takeover ∧ (envP true).served (tensor6 true) (some 0) = true := by decide +kernel
theorem witness_ObjectManager_late :
    (run (.cpin d0 (whole 0)) envL).served tensor3 (some 0) = false := by decide +kernel
/-- Sequence 4 with its second block not present. -/
abbrev apart4 : Obj := { sequence4 with maps := [(0, .current, .blocks [⟨0, 0x130000, 0, true, true⟩, ⟨1, 0x130400, 0, false, true⟩])] }
theorem witness_ObjectManager_blocks : (match sequence4.spot? (env .c) .current 1 Spotted.valid with | some y => !sequence4.holds (env .c) y | none => false) = true ∧
    (match apart4.spot? ((env .c).putObj apart4) .current 1 (fun y => !y.valid && y.known) with | some (.block _) => true | _ => false) = true := by decide +kernel

theorem witness_PeersAndSwitches_peers : (env .c).names 0 (handle 2) counter2 = true ∧ (env .c).names 0 (handle 3) tensor3 = true ∧ tensor3.locks = [] ∧
    (∃ p, ({ env .c with parts := [{ fetchPart with rstBusy := true }] }).ownerOf 9 = some p ∧ p.rstBusy = true) ∧
    ([1, 2] : List (BitVec 10)).map BitVec.toNat = ((([1, 2] : List (BitVec 10)).map BitVec.toNat).eraseDups) := by
  refine ⟨by decide +kernel, by decide +kernel, by decide, ⟨{ fetchPart with rstBusy := true }, by decide +kernel, rfl⟩, by decide +kernel⟩
/-- The save's object as a switch leaves it: its header fits the part, and one of zeros does not. -/
theorem witness_PeersAndSwitches_saves : (match envZ.writeSave save7 ((envZ.saveBytes 0 (task .c)).take 64) with | some u => u.acceptsSave (saved .c) | none => false) = true ∧
    envZ.acceptsSave (saved .c) = false := by decide +kernel

theorem witness_LeaderAndPower_fabric : ({ env .c with leader := some 2, cores := [], objs := [] }).ops = [] ∧ ({ env .c with leader := some 2, cores := [], objs := [] }).saves = [] ∧
    (∀ c ∈ ({ env .c with leader := some 2, cores := [] }).cores, c.2.c0.task = none ∧ c.2.c1.task = none) ∧ (5 : BitVec 10) ≠ (env .c).package ∧
    ({ electing with leader := some 2 }).leader = some 2 ∧ (electing.mere 2).frozen = false := by decide +kernel
theorem witness_ResetsAndCheckpoints_copied : ({ State.reset with ckpt := .copied }).ckpt = .copied ∧
    (∀ m : Fin 8, ((env .c).mere m).queue.length + 0 ≤ 1024) ∧ ({ env .c with ckpt := .quiesced }).ops = [] ∧
    (∀ c ∈ (env .c).cores, c.2.c0.dying = none ∧ c.2.c1.dying = none) ∧ (∀ o ∈ (env .c).objs, o.waiters = []) := by decide +kernel
theorem witness_TakingFaults_check : ((env .c).ctx (on .c)).dying = none ∧ (env .c).ops = [] := by decide +kernel

/-! ### Clauses of the statements on markers, waits and updates -/

/-- A partition whose launch 0 has two tasks; a core in a bound group that its task lends a tile to. -/
abbrev twoTasks : State := { env .c with parts := [{ fetchPart with launches := [{ launch0 with alive := 2 }] }] }
theorem witness_NopsAndRetirement_effects : twoTasks.task (on .c) = some (task .c) ∧
    (let z := (task .c).pins.foldl State.unpinRange (((twoTasks.core 0).requests false).foldl State.unbindRequest ((twoTasks.ctx (on .c)).h.toList.foldl State.releaseHReg twoTasks))
     z.objs.all (fun o => o.resv.all (fun r => r.owner != .task (task .c).tid)) = true) ∧
    ((twoTasks.part? 0).bind (fun p => p.launch? (task .c).launch)).map (fun l => l.alive) = some 2 ∧
    (let c : Core := ({ group := some ⟨3, 5, false, false, true⟩ } : Core).setAcc 12 { lent := true }
     c.group.isSome = true ∧ (c.acc 12).lent = true ∧ (c.acc 3).lent = false) := by decide +kernel

/-- A box of 64 elements of tensor 3 has the shape that R308 asks for; one of 65 rows and a pitch of one byte has not. -/
theorem witness_TileReleases_fits : (∀ d : Fin 4, 1 ≤ shBox (mkShape 64 1 1 1 0 0 0 0 0 0) d ∧ (tensor3.e.rk ≤ d → shBox (mkShape 64 1 1 1 0 0 0 0 0 0) d = 1)) ∧
    ¬ tensor3.e.w < 8 ∧ 64 % tensor3.e.scb 0 = 0 ∧ tensor3.e.scfmt = 0 ∧ shValid (mkShape 64 1 1 1 0 0 0 0 0 0) = true ∧
    shBox (mkShape 64 65 1 1 1 0 0 0 0 0) 0 * tensor3.e.w / 8 > shPitch (mkShape 64 65 1 1 1 0 0 0 0 0) := by decide +kernel

/-- Before any request of L is on its way: nothing unresolved, no write late, and 255 commands at most. -/
theorem witness_resolved : (∀ s ∈ [envL, envA, envB, envN], s.unresolved (on .l) 0 (fun _ => true) = false ∧ s.tileLate (on .l) 1 [(0, 64)] = false ∧
      s.ops.countP (fun o => match o.kind with | .kv c => c.part == 0 | _ => false) < 256) ∧
    envL.accessesLeft (on .l) 0 (fun _ => true) = false ∧
    (run (.cpin d0 (whole 0)) envL).unresolved (on .l) 0 (fun x => decide (x.id < 1)) = false ∧
    ((run (.copyOutCompletion 1) (resolved (.cpoutFf d0 (whole 1)) envL)).bankOrder (opOf (run (.copyOutCompletion 1) (resolved (.cpoutFf d0 (whole 1)) envL)) 1)) = false := by
  decide +kernel

/-- A prefix table with one entry: block 0 of sequence 4, whose tokens are tensor 3's. -/
abbrev entry0 : PxEntry := { num := 0, id := 0, part := 0, key := 1, count := 1, seqH := handle 4, tokH := handle 3, pins := 0, stamp := 0 }
abbrev envF (x : PxEntry) : State := withS (envL.setMere 0 { envL.mere 0 with px := [x] }) [(1, 1)]
/-- The search finds it; one entry is stale, of one the tokens may not be read, and of one they differ. -/
theorem witness_Prefixes_search : (envF entry0).ready d0 (some .l) 2 2 = true ∧ ((envF entry0).sval (on .l) d0 1).toNat = 1 ∧
    tokensAt (envF entry0) 0 (((envF entry0).core 0).tile 1) 0 16 = List.replicate 16 0 ∧ (envF entry0).live? (handle 3) = some tensor3 ∧
    (envF entry0).live? (handle 4) = some sequence4 ∧ tensor3.lockedHere (envF entry0) = false ∧ ((envF entry0).needSound tensor3).toOption.isSome = true ∧
    ((envF entry0).needSound sequence4).toOption.isSome = true ∧ ((envF entry0).words tensor3 16).toOption = some (List.replicate 16 0) ∧
    tensor3.e.grants .read = true ∧ sequence4.e.grants .pin = true ∧ (task .l).pins.length < 16 ∧ sequence4.e.pinCnt < 65535 ∧ entry0.pins < 65535 ∧
    (envF { entry0 with tokH := handle 200 }).live? (handle 200) = none ∧ (envF entry0).queueRoom 0 = true ∧
    ({ tensor3 with e := { tensor3.e with rights := 0 } } : Obj).e.grants .read = false ∧
    ({ sequence4 with e := { sequence4.e with rights := 0 } } : Obj).e.grants .pin = false ∧
    (((envL.store 0x110000 [1]).words tensor3 16).toOption.map (fun ws => decide (ws ≠ List.replicate 16 0))) = some true := by decide +kernel
/-- A place below the quota, one of an unpinned entry, and none. -/
theorem witness_Prefixes_place : (∀ x ∈ [entry0], x.num ≠ 1) ∧ [entry0].length < 64 ∧ 1 ≤ [entry0].length ∧ entry0.pins = 0 ∧
    pxPlace [{ entry0 with pins := 2 }] 0 1 = none := by decide +kernel

/-- Bases in slice storage that matrices cannot have, and the copies of an object that the commands reach. -/
theorem witness_BankCommands_bases : envX.badBase 0 (handle 3) 8 = true ∧ envX.badBase 0 (handle 3) 0 = false ∧
    (envX.own matrix3 ((matrixPages (matrixOffs 0 1)).map (fun u => (0, u)))).toOption.isSome = true ∧
    (envX.own { matrix3 with e := { matrix3.e with wmode := true } } ((matrixPages (matrixOffs 0 1)).map (fun u => (0, u)))).toOption.isNone = true := by decide +kernel

/-- Tensor 3 with a replica on package 1, or with no storage at all. -/
abbrev twin3 : Obj := { tensor3 with e := { tensor3.e with repn := 1, reps := 0x0040000000#40 }, maps := [(0, .current, .slices 0x110000), (1, .current, .slices 0x110000)] }
theorem witness_AtomicUpdates_places :
    (match envL.atomPlace tensor3 63 with | .ok (u, r) => decide (r.maps.length ≤ 1) && (r.hole u (r.e.byteOff (r.e.spot (63, 0, 0, 0)) 0)).isNone | .error _ => false) = true ∧
    ((envL.atomPlace { tensor3 with maps := [] } 63).toOption.isNone = true) := by decide +kernel
/-- An update of an element of the replicated tensor, whose locks are held. -/
abbrev update7 : OpKind := .update { home := 0, num := 3, e := tensor3.e, maps := [(0, .slices 0x110000), (1, .slices 0x110000)] } (.atom 0 .add 1 (some 5))
abbrev updating : State := (inFlight .l update7).putObj { tensor3 with locks := [(0, 7), (1, 7)] }
theorem witness_AtomicUpdates_commits : updating.op? 7 = some (flying .l 7 update7) ∧ updating.obj? 0 3 = some { tensor3 with locks := [(0, 7), (1, 7)] } ∧
    (∀ p ∈ [0, 1], updating.away p = false) ∧ ({ updating with unreachable := [1] } : State).away 1 = true ∧ ({ updating with unreachable := [1] } : State).away 0 = false ∧
    ({ updating with unreachable := [0] } : State).away 0 = true ∧ updating.alive (flying .l 7 update7) = true := by decide +kernel

theorem witness_EngineResults_lent : ((withCore (inFlight .m (.mma 13 0 [] [] 0 none)) (fun c => c.setAcc 13 { lent := true })).core 0).acc 13 = { lent := true } := by decide +kernel

/-- A store without acknowledgement whose home is away as it resolves. -/
theorem witness_CopyProgress_away : (let s := { run (.cpoutFf d0 (whole 1)) envL with unreachable := [0] }
    ofCopy s 1 (fun o c => c.req.kind.ff && (match s.resolveCopy o.part o.tid c.req c.size with | .error t => t == trapAway c.req.hreg.h | .ok _ => false) &&
      !s.privatizes o.part o.tid c.req)) = true := by decide +kernel
/-- A box of four elements by two rows, plain, in place of a wider pitch, transposed and re-blocked. -/
theorem witness_CopyProgress_boxes : (∀ g ∈ [(⟨tensor3.e, mkShape 4 2 1 1 0 0 0 0 0 0, .plain, true⟩ : Geo), ⟨tensor3.e, mkShape 4 2 1 1 32 0 0 0 0 0, .plain, false⟩,
      ⟨tensor3.e, mkShape 4 2 1 1 0 0 0 0 0 1, .tr, true⟩, ⟨tensor3.e, mkShape 4 2 1 1 0 0 1 1 0 2, .rb, true⟩],
      (if g.lay = .tr then shBox g.x 1 else shBox g.x 0) * g.e.w % 8 = 0) ∧ 4 * tensor3.e.w / 8 ≤ 32 ∧ (2 % 2 ^ shRbr (mkShape 4 2 1 1 0 0 1 1 0 2) = 0) ∧
    tensor3.e.has (0, 0, 0, 0) = true ∧ tensor3.e.has (64, 0, 0, 0) = false := by decide +kernel

/-- A store whose home is away fails, whose locks stand; and a read of the tensor is settled by a marker. -/
theorem witness_Stores_markers : (let s := { run (.copyOutCompletion 1) (resolved (.cpoutFf d0 (whole 1)) envL) with unreachable := [0] }
      ofCopy s 1 (fun _ c => match c.res with | some r => s.storeFails c r | none => false)) = true ∧
    (((run (.cpin d0 (whole 0)) (envL.putObj { tensor3 with locks := [(1, 5)] })).settle (fun _ => true)).obj? 0 3).isSome = true ∧
    (∀ o ∈ envL.ops, o.unresolved = false) ∧
    ofCopy ((run (.cpin d0 (whole 0)) envL).settle (fun _ => true)) 1 (fun _ c => c.res.isSome) = true := by decide +kernel

/-- C and M stalled on tokens: C's bound passes first, or both in one cycle. -/
abbrev both (c m : Nat) : State := ((env .c).modEng (on .c) (fun e => { e with stall := some (.token 0), wdog := c })).modEng (on .m)
  (fun e => { e with st := .running, stall := some (.token 0), wdog := m })
theorem witness_SchedulerMoves_due : ((stalledAt 1024).waitsOut (on .c)).isSome = true ∧ ((stalledAt 1024).dueIn (on .c)).isSome = true ∧
    (on .c) ∈ (stalledAt 1024).engines ∧ ((env .c).engines.filterMap (env .c).dueIn = []) ∧
    (both (2 ^ 36) (2 ^ 36)).overdue (on .c) = some (.token 0) ∧ (both (2 ^ 36) (2 ^ 36)).overdue (on .m) = some (.token 0) ∧
    (both 0 0).overdue (on .m) = none := by decide +kernel
/-- C waits for its core's position, which comes in the next cycle. -/
abbrev atWheel : State := { (env .c).modEng (on .c) (fun e => { e with scWait := true }) with cycles := 1023 }
theorem witness_SchedulerMoves_wheel : atWheel.scFirst 0 = some (on .c) ∧ atWheel.scChosen 0 = false ∧ atWheel.toPosition 0 = 1 ∧
    (atWheel.elapse 1).scFirst 0 = some (on .c) ∧ (atWheel.elapse 1).scChosen 0 = false ∧ (atWheel.elapse 1).toPosition 0 = 0 ∧ (env .c).scFirst 0 = none := by decide +kernel

/-- Feature 9 not accepted, with windows bound; and a namespace that unbinds, a command of it in flight. -/
abbrev partJ : Part := { partI with featAccept := 1 }
theorem witness_HostRegisters_feature : partJ.featAccept.getLsbD 9 = false ∧ (partJ.win 0).bound = true ∧ (partJ.win 0).wobj = (partJ.win 0).bobj ∧
    (partJ.win 0).wctl.extractLsb' 0 2 = 1 ∧ (partJ.win 0).closed = false ∧ (partJ.win 3).closed = true ∧ (partJ.win 3).bound = true ∧
    partI.featAccept.getLsbD 9 = true := by decide +kernel
abbrev unbinding : State := { envK with parts := envK.parts.map (fun p => { p with ns := p.ns.set 0 { nsobj := handle 2, bobj := handle 2, bound := true, unbinding := true } }) }
theorem witness_HostRegisters_unbinding : (unbinding.part? 0).map (fun p => (p.nsAt 0).unbinding) = some true ∧ unbinding.kvFlying 0 0 (handle 2) = true ∧
    ({ unbinding with ops := [] } : State).kvFlying 0 0 (handle 2) = false ∧ (flying .l 7 (.kv { sent .get with abandoned := true })).left = 0 := by decide +kernel

/-- A partition that was given the page, or that the manager makes wait. -/
abbrev given : State := { env .c with parts := [{ fetchPart with cfg := { fetchPart.cfg with frames := [0x010000000000] } }] }
theorem witness_ObjectManager_pool : given.managerWaits 0 = false ∧ given.tierPages 0 1 + 1 ≤ 1 ∧ given.tierPages 0 2 + 0 ≤ 0 ∧
    ((made9.maps.flatMap (fun m => m.2.2.frames newTensor)).filter (inTier 1) = [0x010000000000]) ∧
    ({ given with takeover := [given.homeMere 0] } : State).managerWaits 0 = true ∧ (envP true).managerWaits 0 = false ∧ (envP false).managerWaits 0 = false ∧
    (run (.cpin d0 (whole 0)) envL).asks tensor3 (some 0) ((copyOf (run (.cpin d0 (whole 0)) envL) 1).getD wholeCopy) = true := by decide +kernel

/-- A checkpoint while an update of an object of package 5 with a replica here comes in. -/
abbrev far3 : Obj := { tensor3 with home := 5, e := { tensor3.e with repn := 1, reps := 0 }, maps := [(5, .current, .slices 0x110000), (0, .current, .slices 0x110000)] }
abbrev held3 : State := { env .c with objs := [far3], ckpt := .quiesced }
theorem witness_PeersAndSwitches_held : held3.hostHeld = true ∧ held3.warmHold = false ∧ held3.names 0 (5#16 ++ 3#40 ++ 1#8) far3 = true ∧
    updatesObject (.store 0 [1]) = true ∧ far3.home ≠ held3.package.toNat ∧ held3.package.toNat ∈ far3.e.replicas ∧ updatesObject (.read 0 1) = false ∧
    8 ≤ tensor3.e.storageBytes ((env .c).winShard tensor3.e) ∧ ((env .c).storeSpots tensor3 0 8).isSome = true := by decide +kernel
theorem witness_PeersAndSwitches_groups : ((withCore envZ (fun c => { c with group := some ⟨2, 4, false, false, true⟩ })).core 0).group.map (fun g => g.bound) = some true ∧
    (withCore envZ (fun c => { c with group := some ⟨2, 4, true, false, false⟩ })).maySave 0 (task .c) = true ∧
    0 ∈ ({ envZ with takeover := [0] } : State).takeover ∧ mereOf 0 = 0 ∧ 0 ∉ envZ.takeover := by decide +kernel

/-- Storage in SRAM and a page of HBM4E for it, or none. -/
theorem witness_ResetsAndCheckpoints_spill :
    (({ given with objs := [tensor3], parts := [{ fetchPart with cfg := { fetchPart.cfg with frames := [0x010000000000, 0x010000010000] } }] } : State).spillAll).isSome = true ∧
    (({ env .c with objs := [tensor3] } : State).spillAll).isNone = true ∧ (∀ o ∈ [tensor3], o.home < 1024) ∧ State.reset.ghosts = [] := by decide +kernel

/-- A header MNCFG with a reserved field set, whose scalar asks for carries. -/
abbrev badHeader : BitVec 32 := 0x08118041
abbrev envE : State := withS (env .m) [(0, 0x8000)]
theorem witness_StepRunsDecoded_header : decode badHeader 0 = .badEncoding ∧ badHeader.extractLsb' 20 8 = 0x81 ∧
    mncfgFeature (on .m) envE (Dep.ofWord badHeader) (badHeader.extractLsb' 14 6).toNat (badHeader.extractLsb' 8 6) = 1 ∧ envE.accepts (on .m) 1 = true ∧
    ({ envE with parts := [{ fetchPart with featAccept := 1 }] } : State).accepts (on .m) 1 = false := by decide +kernel

/-! ### Witnesses of the clauses on tokens, releases, tiles, copies of objects and banks -/

/-- Each engine's instruction of a kind with the dependency bits it is given. -/
theorem witness_TokenQueues_all : (∀ x ∈ [(EngineId.c, Instr.add ⟨true, false, false, false⟩ 5 1 2), (.l, .cpin ⟨true, false, false, false⟩ (whole 0)),
      (.m, .azero ⟨true, false, false, false⟩ 0 1 false), (.v, .vpeeks ⟨true, false, false, false⟩ 0 false 52 0 0), (.m, .mnest ⟨true, false, false, false⟩),
      (.m, .mncfg ⟨true, false, false, false⟩ 6 1 0 0), (.c, .nop ⟨true, false, false, false⟩)],
      let s := env x.1
      x.2.words ≠ 0 ∧ x.2.wf = true ∧ s.canIssue (on x.1) = true ∧ (s.eng (on x.1)).heldP = 0 ∧ (s.eng (on x.1)).heldN = 0 ∧ s.permits x.2 = true ∧
        (x.2.engine = some x.1 ∨ x.2.engine = none) ∧ (s.eng (on x.1)).loops = [] ∧ (s.ctx (on x.1)).nestTok = false ∧ x.2.dep.wp = true ∧
        (s.ctx (on x.1)).tokP x.1 = 0) ∧
    ((Instr.add ⟨false, true, false, false⟩ 5 1 2).dep.wn = true ∧ ((env .c).ctx (on .c)).tokS .c = 0 ∧ (Instr.add ⟨false, true, false, false⟩ 5 1 2).dep.wp = false) := by
  decide +kernel

/-- An operation of another engine that still writes the highest queue, accumulator or tile of the task. -/
abbrev writes47 : DrainWrite := { tile := 47, epoch := 0, off := 0, size := 8, swz := 0, at_ := 0, bytes := [1], tag := none }
abbrev writing (e : EngineId) (k : OpKind) : State := (env .c).addOp (flying e 7 k)
theorem witness_TileReleases_discards : (∀ x ∈ [(EngineId.v, OpKind.vres [(23, 5)] none none 0 none {}), (.m, .adrq 1 23 [5] 0 {}), (.m, .aload 11 0 0),
      (.m, .mma 11 0 [] [] 0 none), (.m, .drain 1 [writes47] 0 {}), (.l, .bank 0 [0] (some (47, 0)) 0)],
      (writing x.1 x.2).ready d0 (some .c) 0 1 = true ∧ (writing x.1 x.2).task (on .c) = some (task .c) ∧ (writing x.1 x.2).ops = [flying x.1 7 x.2] ∧
      (writing x.1 x.2).queueRoom 0 = true ∧ (writing x.1 x.2).turn = on .c) ∧
    ((task .c).aq - 1 = 23 ∧ (task .c).aa - 1 = 11 ∧ (task .c).at_ - 1 = 47) ∧ (((env .c).core 0).tile 47).epoch = 0 ∧
    left (.qrel d0 1) (writing .v (.vres [(23, 5)] none none 0 none {})) (fun t => (t.ops, match (t.eng (on .v)).st with | .awaiting r => some r.code | _ => none)) =
      some ([], some .allot) := by decide +kernel

/-- A tile range off its alignment. -/
theorem witness_TileReleases_geometry : (let s := withS envL [(1, 32), (2, 64)]
    s.task (on .l) = some (task .l) ∧ (task .l).hasT false 0 = true ∧ s.ready d0 (some .l) 0 2 = true ∧ s.settled [1, 2] = true ∧
      (sliceRange false).1 ≤ 32 ∧ 32 + 64 ≤ (sliceRange false).2 ∧ 32 % 64 ≠ 0 ∧ faults (.tset d0 0 1 2 0) s = some [.copyGeom]) := by decide +kernel

/-- PUB of an object that has two copies, and of one that has one. -/
theorem witness_PublishAndPin_copies : ((env .c).putObj twin3).usable 0 ((env .c).hval (on .c) d0 3).h twin3 [.tensor] [.publish] = true ∧
    (twin3.copies ((env .c).putObj twin3)).length = 2 ∧ twin3.locks = [] ∧ (tensor3.copies (env .c)).length = 1 := by decide +kernel

/-- The search reads a token object that nothing earlier touches; and PXINS on objects that fail its checks. -/
theorem witness_Prefixes_objects : (envF entry0).clashes (on .l) 0 (fun _ => true) ⟨[entry0.tokH], List.replicate 4 (0, 2 ^ 64)⟩ = false ∧
    (envL.hreg (on .l) 3).h ≠ 0 ∧ (envL.hreg (on .l) 4).h ≠ 0 ∧ envL.loaded [4, 3] = true ∧ envL.settled [5, 1, 2] = true ∧
    (envL.resolve 0 (handle 4)).toOption = some sequence4 ∧ (envL.resolve 0 (handle 3)).toOption = some tensor3 ∧ tensor3.e.typ ≠ .sequence ∧
    (let s := envL.putObj { sequence4 with e := { sequence4.e with gen := 2 } }
     (match s.resolve 0 (handle 4) with | .error z => decide (z.code ≠ .missingObject) | _ => false) = true ∧ faults (.pxins d0 5 4 3 1 2) s = some [.staleHandle]) ∧
    (let s := envL.putObj { tensor3 with e := { tensor3.e with gen := 2 } }
     (match s.resolve 0 (handle 3) with | .error z => decide (z.code ≠ .missingObject) | _ => false) = true ∧ (s.resolve 0 (handle 4)).toOption = some sequence4) ∧
    (envL.resolve 0 (handle 2)).toOption = some counter2 ∧ counter2.e.typ ≠ .tensor ∧
    ({ sequence4 with e := { sequence4.e with rights := 0 } } : Obj).e.grants .read = false ∧
    ((envL.putObj { sequence4 with e := { sequence4.e with rights := 0 } }).resolve 0 (handle 4)).toOption = some { sequence4 with e := { sequence4.e with rights := 0 } } := by decide +kernel

/-- A tile without a word in error; a canonical memory; and the places that BREV2 exchanges. -/
theorem witness_BankCommands_words : (let s := withCore envL (fun c => c.setTile 0 { size := 16384 }); s.tileBad 0 ((s.core 0).tile 0) = false) ∧
    Memory.wf State.reset.mem = true ∧ (∀ i < 8, (128 : Nat).testBit i = (1 : Nat).testBit (7 - i)) := by decide +kernel

/-- A versioned tensor on a page of HBM4E, with a free page for its working copy, and one that has its working copy's page already. -/
abbrev versioned3 : Obj := { tensor3 with
  e := { tensor3.e with wmode := true, tier := 1, loc := 0x010000020000 }
  maps := [(0, .current, .pages [mkDesc 1 0 0x010000000000 false true])] }
abbrev envU : State := { (withS envL [(1, 63)]).putObj versioned3 with parts := [{ fetchPart with cfg := { fetchPart.cfg with frames := [0x010000000000, 0x010000010000, 0x010000020000] } }] }
abbrev copied3 : Obj := { versioned3 with maps := versioned3.maps ++ [(0, .working, .pages [mkDesc 1 0 0x010000010000 false true])], dirty := [(0, 0)] }
theorem witness_AtomicUpdates_versions : envU.usable 0 (envU.hreg (on .l) 3).h versioned3 [.tensor] [.write, .read] = true ∧ envU.ready d0 (some .l) 0 2 = true ∧
    envU.unresolved (on .l) 0 (fun _ => true) = false ∧ (envU.sval (on .l) d0 1).toNat = 63 ∧
    versioned3.e.shardPkg 0 0 = 0 ∧ versioned3.e.byteOff (versioned3.e.spot (63, 0, 0, 0)) 0 = 252 ∧ versioned3.dirty = [] ∧ versioned3.e.repn = 0 ∧
    findMap versioned3.maps 0 .current = some (.pages [mkDesc 1 0 0x010000000000 false true]) ∧ descValid (mkDesc 1 0 0x010000000000 false true) = true ∧
    descTier (mkDesc 1 0 0x010000000000 false true) = 1 ∧ envU.freeRun 0 0 1 = some 0x010000010000 ∧ 0x010000010000 % 65536 = 0 ∧ populated (envU.phys 0 0x010000010000 + 252) = true ∧
    envU.phys 0 (descAddr (mkDesc 1 0 0x010000000000 false true)) + 65536 ≤ envU.phys 0 0x010000010000 ∧ Memory.wf envU.mem = true ∧
    (let s := envU.putObj copied3
     s.usable 0 (s.hreg (on .l) 3).h copied3 [.tensor] [.write, .read] = true ∧
     findMap copied3.maps 0 .working = some (.pages [mkDesc 1 0 0x010000010000 false true]) ∧
     (∀ i < 4, ((Layout.pages [mkDesc 1 0 0x010000010000 false true]).at s 0 copied3.e (252 + i)).toOption = some (s.phys 0 0x010000010000 + 252 + i))) := by decide +kernel
/-- A NaN, finite words, and a sum that is finite. -/
theorem witness_AtomicUpdates_values : fp32Nan 0x7F800001 = true ∧ fp32Nan 0x3F800000 = false ∧ fp32Finite 0x3F800000 = true ∧
    AtomKind.add.apply false 0x3F800000 0x3F800000 = some 0x40000000 ∧ fp32Finite 0x40000000 = true ∧ fp32Units 0x40000000 = fp32Units 0x3F800000 + fp32Units 0x3F800000 := by
  decide +kernel

/-! ### Witnesses of the clauses on nests, groups and numbers -/

/-- A header that names a bank without using it, tiles and banks outside the allotment, and one that is in order. -/
abbrev envH (lo : BitVec 64) : State := withS (env .m) [(1, lo)]
theorem witness_Nests_header : (∀ n ∈ [0, 0x8000, 0x10000, 0x18000], let lo := BitVec.ofNat 64 n; (envH lo).ready d0 (some .m) 0 2 = true ∧ (envH lo).settled [1, 0] = true ∧
      (envH lo).sval (on .m) d0 1 = lo ∧ lo.toNat < 2 ^ 18 ∧ (envH lo).accepts (on .m) 1 = true ∧ (envH lo).task (on .m) = some (task .m)) ∧
    ((task .m).hasT false 47 = true ∧ (task .m).hasT false 48 = false ∧ (task .m).hasK false 6 = true ∧ (task .m).hasK false 7 = false) ∧
    faults (.mncfg d0 6 1 0 0x2000) (envH 0) = some [.illegalEnc] ∧ faults (.mncfg d0 6 1 0 0xC000000) (envH 0) = some [.allot] ∧
    faults (.mncfg d0 6 1 0 0x0300000) (envH 0) = some [.allot] ∧ faults (.mncfg d0 6 1 0 0xE000) (envH 0x8000) = some [.allot] ∧
    faults (.mncfg d0 6 1 0 0x1C00) (envH 0x10000) = some [.allot] ∧ faults (.mncfg d0 6 1 0 0xC00) (envH 0x18000) = some [] := by decide +kernel

/-- Groups whose partners are not all there, differ in the shape, or have been told to leave; and a core that is bound already. -/
theorem witness_Groups_waits : ((envG none ⟨2, 4, false, false, false⟩).core 0).group = none ∧ (envG none ⟨2, 4, false, false, false⟩).ready d0 (some .m) 5 2 = true ∧
    (envG none ⟨3, 4, true, false, false⟩).ready d0 (some .m) 5 2 = true ∧ ((envG none ⟨3, 4, true, false, false⟩).core 1).group = some ⟨3, 4, true, false, false⟩ ∧
    (envG (some ⟨2, 4, true, true, false⟩) ⟨2, 4, true, true, false⟩).ready d0 (some .m) 5 2 = true ∧
    (envG (some ⟨2, 4, false, false, true⟩) ⟨2, 4, false, false, true⟩).ready d0 (some .m) 5 2 = true ∧
    (on .m).ctx = false ∧ faults (.acoop d0 2 4) (envG none ⟨3, 4, true, false, false⟩) = some [.coopGeom] := by decide +kernel
/-- The end of a bound group: for the last core to ask, beside an MMA of another tarn, and while an MMA reads a partner's tile. -/
theorem witness_Groups_ends : (let s := (envG (some ⟨2, 4, false, false, true⟩) ⟨2, 4, false, true, true⟩)
      s.ready d0 (some .m) 5 2 = true ∧ (s.core 0).group = some ⟨2, 4, false, false, true⟩ ∧ (∀ k < 4, k ≠ 0 → (s.core k).group = some ⟨2, 4, false, true, true⟩)) ∧
    (let s := (envG (some ⟨2, 4, false, false, true⟩) ⟨2, 4, false, true, true⟩).addOp { flying .m 7 (.mma 1 0 [(8, 1)] [] 0 none) with who := ⟨8, false, .m⟩ }
     s.ready d0 (some .m) 5 2 = true ∧ (left (.acoopEnd d0) s (fun t => (t.core 1).group)) = some none) ∧
    (let s := (envG (some ⟨2, 4, false, false, true⟩) ⟨2, 4, false, true, true⟩).addOp (flying .m 7 (.mma 1 0 [(1, 1)] [] 0 none))
     s.ready d0 (some .m) 5 2 = true ∧ (left (.acoopEnd d0) s (fun t => (t.core 1).group.map (fun g => g.bound))) = some (some true)) ∧
    (env .m).ready d0 (some .m) 5 2 = true ∧ ((env .m).core 0).group = none ∧ ((env .m).eng (on .m)).arrived = false := by decide +kernel

/-- ASTAT without a group, and of a tile of a bound group, of one lent to it, and of one outside it. -/
theorem witness_Accumulators_status : (let s := envG (some ⟨3, 5, false, false, true⟩) ⟨3, 5, false, false, true⟩
      s.task (on .m) = some (task .m) ∧ s.ready d0 (some .m) 0 1 = true ∧ s.settled [45] = true ∧ accOk (on .m) s 1 = true ∧ ((s.core 0).acc 1).lent = false ∧
        (withCore s (fun c => c.setAcc 13 { lent := true })).ready d0 (some .m) 0 1 = true ∧
        accOk (on .m) (withCore s (fun c => c.setAcc 13 { lent := true })) 13 = true) ∧
    (let s := envG (some ⟨2, 4, false, false, true⟩) ⟨2, 4, false, false, true⟩; accOk (on .m) s 8 = true ∧ ((s.core 0).acc 8).lent = false) ∧
    ((env .m).core 0).group = none ∧ accOk (on .m) (env .m) 1 = true := by decide +kernel

/-- Two terms are added, in either order. -/
theorem sumFree_pair (F : NumFmt) (mode step k d : Nat) (x y : Val) :
    ∃ p ∈ [(x, y), (y, x)], sumFree F mode step (k + 1) d [x, y] = ((addOnce F mode p.1 p.2).1, (addOnce F mode p.1 p.2).2 ||| 0) := by
  have h : (Config.freeSum d).toNat % 2 = 0 ∨ (Config.freeSum d).toNat % 2 = 1 := by omega
  rcases h with h | h
  · exact ⟨(x, y), by simp, by simp [sumFree, h, Nat.mod_one]⟩
  · exact ⟨(y, x), by simp, by simp [sumFree, h, Nat.mod_one]⟩
/-- The sum of a cell and one chunk. -/
theorem witness_Multiply_sums : (0 : Nat) < 1 ∧ [(1 : Int), 2].length = [(3 : Int), -4].length ∧ 0 < [(1 : Int), 2].length / 1 ∧ fp32Finite 0x3F800000 = true ∧
    fp32Finite (BitVec.ofNat 32 (floatCell 0 (0x3F800000 : BitVec 32).toNat [] [(ofUnits 360 (2 ^ 360), false)]).1.code) = true := by
  refine ⟨by decide, rfl, by decide, by decide, ?_⟩
  obtain ⟨p, hp, e⟩ := sumFree_pair (numFmt 0) 0 4096 1 0 (decodeVal (numFmt 0) 0x3F800000) (ofUnits 360 (2 ^ 360))
  simp only [floatCell, List.isEmpty_nil, if_true, List.map_cons, List.map_nil, List.cons_append, List.nil_append, List.length_cons, List.length_nil]
  erw [e]
  simp only [List.mem_cons, List.not_mem_nil, or_false] at hp
  rcases hp with rfl | rfl <;> decide +kernel
/-- A cell and one chunk that is added without overflow, and terms all of whose sums are FP32 values. -/
theorem witness_AccumulationError : fp32Finite 0 = true ∧ [(2 ^ 211 : Int)] ≠ [] ∧
    (floatCell 0 (0 : BitVec 32).toNat [] ([(2 ^ 211 : Int)].map (fun p => (ofUnits 360 p, false)))).1.flags &&& fOF = 0 ∧
    fp32Finite 1 = true ∧ fp32Units 0 * 2 ^ 211 = 0 ∧ fp32Units 1 * 2 ^ 211 = 2 ^ 211 := by
  refine ⟨by decide, List.cons_ne_nil _ _, ?_, by decide, by decide +kernel⟩
  obtain ⟨p, hp, e⟩ := sumFree_pair (numFmt 0) 0 4096 1 0 (decodeVal (numFmt 0) 0) (ofUnits 360 (2 ^ 211))
  simp only [floatCell, List.isEmpty_nil, if_true, List.map_cons, List.map_nil, List.cons_append, List.nil_append, List.length_cons, List.length_nil]
  erw [e]
  simp only [List.mem_cons, List.not_mem_nil, or_false] at hp
  rcases hp with rfl | rfl <;> decide +kernel
/-- Blocks with a NaN, of zeros, and of a largest element 2. -/
theorem witness_DrainWrites_scales : decodeVal (numFmt 0) 0x7FC00000 = .nan ∧ (match decodeVal (numFmt 0) 0 with | .fin _ n _ => n == 0 | _ => false) = true ∧
    (match decodeVal (numFmt 0) 0x40000000 with | .fin g n d => !g && decide (n ≠ 0 ∧ d * 2 ≤ n * 1 ∧ n * 1 < 2 * d * 2) | _ => false) = true ∧
    (blockScale 3 1 [decodeVal (numFmt 0) 0x40000000]).1 = 1 + 127 - 8 ∧ 0 < (blockScale 3 2 [decodeVal (numFmt 0) 0x40000000]).1 ∧
    (List.replicate 4096 (Val.fin false 1 1)).length = 4096 ∧ (List.replicate 4096 0).length = 4096 := by decide +kernel

/-! ### Witnesses of the clauses on what ends, the host's windows and the manager -/

/-- A V operation with two entries. -/
abbrev vop2 : Op := flying .v 7 (.vres [(2, 5), (4, 6)] none none 0 none {})
abbrev envW2 : State := withCore ((env .v).addOp vop2) (fun c => (c.setQueue 2 [.pending 7]).setQueue 4 [.pending 7, .pending 9])
theorem witness_EngineResults_entries : envW2.op? 7 = some vop2 ∧ envW2.alive vop2 = true ∧
    left (.vResultWrite 7) envW2 (fun t => ((t.core 0).queue 2, (t.core 0).queue 4)) = some ([.entry 5], [.entry 6, .pending 9]) := by decide +kernel
/-- A bank command of a tile that meets a word in error. -/
abbrev spoiltBank : State := { inFlight .l (.bank 1 [0] (some (0, 0)) 0) with badWords := [64] }
theorem witness_EngineResults_spoilt : spoiltBank.op? 7 = some (flying .l 7 (.bank 1 [0] (some (0, 0)) 0)) ∧ spoiltBank.bankObj 0 = none ∧
    spoiltBank.alive (flying .l 7 (.bank 1 [0] (some (0, 0)) 0)) = true ∧ spoiltBank.badMatrix 1 0 = false ∧
    ({ spoiltBank with badWords := [0] } : State).badMatrix 1 0 = true ∧ spoiltBank.streamFrozen (flying .l 7 (.bank 1 [0] (some (0, 0)) 0)) = false ∧
    spoiltBank.heldBack (flying .l 7 (.bank 1 [0] (some (0, 0)) 0)) = false ∧ spoiltBank.bankOrder (flying .l 7 (.bank 1 [0] (some (0, 0)) 0)) = false ∧
    (spoiltBank.core 0).tile 0 = {} := by decide +kernel
/-- PUB of a replicated object that holds its locks. -/
abbrev locked3 : Obj := { twin3 with locks := [(0, 7), (1, 7)] }
theorem witness_AtomicUpdates_publish : (let s : State := (inFlight .c (.update { home := 0, num := 3, e := twin3.e, maps := [(0, .slices 0x110000), (1, .slices 0x110000)] } .pub)).putObj locked3
    s.obj? 0 3 = some locked3 ∧ (∀ p ∈ [0, 1], s.away p = false) ∧
      left (.replicatedCommit 7) s (fun t => (t.obj? 0 3).map (fun o => (o.e.value, o.locks))) = some (some (1, []))) := by decide +kernel

/-- Geometries whose rows do not overlap and do, and a box that lies past a sequence's slots. -/
theorem witness_CopyProgress_overlaps : ((⟨tensor3.e, mkShape 4 2 1 1 0 0 0 0 0 0, .plain, true⟩ : Geo).lap = []) ∧
    ((⟨tensor3.e, mkShape 4 2 1 1 4 0 0 0 0 1, .tr, false⟩ : Geo).lap ≠ []) ∧
    sequence4.e.typ = .sequence ∧ sequence4.e.has (0, 32, 0, 0) = false ∧ sequence4.e.capacity ≤ 32 ∧ sequence4.e.rank.toNat = 1 := by decide +kernel
/-- A tile with a word in error under a copy out, and sound ones under two reductions. -/
theorem witness_Stores_spoilt : ofCopy (resolved (.cpout d0 (whole 1)) envL) 1 (fun _ c => !c.spoilt (resolved (.cpout d0 (whole 1)) envL) 0 &&
      c.spoilt { resolved (.cpout d0 (whole 1)) envL with badWords := [4096] } 0) = true ∧
    ofCopy (resolved (.radd d0 (whole 1)) envY) 1 (fun _ c => !c.spoilt (resolved (.radd d0 (whole 1)) envY) 0) = true ∧ tensor3.e.fmt = 8 := by decide +kernel

/-- Engines whose bound has passed, and none. -/
theorem witness_StepRunsDecoded_overdue : (stalledAt (2 ^ 36)).overdue (on .c) = some (.token 0) ∧ (stalledAt 1024).overdue (on .c) = none ∧
    (∀ e ∈ (stalledAt 1024).engines, (stalledAt 1024).overdue e = none) ∧ (Stall.token 0).counted = true ∧ (stalledAt (2 ^ 36)).canIssue (on .c) = true := by decide +kernel
/-- A pre-emptor's continuation and a record are picked. -/
abbrev pre9 : Cont := { cid := 9, task := { task .c with record := (task .c).record ||| (0x3C#512 <<< 196) }, ctx := true, tarn := 0, pcs := [], s := [], h := Vector.replicate 32 {},
                        x := Vector.replicate 16 0, gens := [], satisfied := some 0, enqueued := true }
theorem witness_SchedulerMoves_cores : (envS.pickWork part5).isSome = true ∧ recPre pre9.task.record = true ∧ pre9.cores = [0] ∧
    envS.pickWork { part5 with work := [⟨true, 9, 60, 60, 0, false⟩, ⟨false, launch0.lid, 1, 1, 0, false⟩], conts := [pre9] } = some (⟨true, 9, 60, 60, 0, false⟩, [0]) ∧
    envS.pickWork { part5 with work := [⟨false, launch0.lid, 1, 1, 0, false⟩] } = some (⟨false, launch0.lid, 1, 1, 0, false⟩, [0]) := by decide +kernel
/-- A key-value command whose tile is free, and one behind a copy into the same bytes. -/
theorem witness_HostRegisters_order : envK.heldBack (flying .l 7 (.kv (sent .get))) = false ∧
    (let s := run (.cpin d0 (whole 0)) envL
     (s.addOp (flying .l 7 (.kv (sent .get)))).heldBack (flying .l 7 (.kv (sent .get))) = true) := by decide +kernel

/-- Window 0 holds slot 16 up to its byte 8: writes to the end of the slot, past it and into the next one. -/
abbrev slot5 : Obj := { slot4 with e := { slot4.e with next := 17 } }
abbrev envO : State := envJ.putObj slot5
theorem witness_WindowWrites_commits : (envO.winOf (access 0 1 1032 (List.replicate 56 1)) 1) = some (partI.win 0) ∧ (partI.win 0).slot = some 16 ∧
    envO.names 0 (handle 4) slot5 = true ∧ slot5.reservedBy (.window 0 0) 16 = true ∧ 17 * 64 ≤ 1032 + 56 ∧ 1032 + 120 ≤ slot5.e.capacity * 64 ∧
    slot5.e.next.toNat = 17 ∧ slot5.e.sealedBit = false ∧ envO.hostHeld = false ∧ (partI.win 0).closed = false ∧ envO.sound slot5 = true ∧
    (envO.allocBlocks slot5 (blocksOf 17 18)).isSome = true ∧
    left (.ingressSequenceWrite (access 0 1 1032 (List.replicate 56 1))) envO (fun t => (t.obj? 0 4).map (fun o => o.e.value)) = some (some 17) ∧
    left (.ingressSequenceWrite (access 0 1 1032 (List.replicate 120 1))) envO (fun t => (t.obj? 0 4).map (fun o => o.e.value)) = some (some 18) := by decide +kernel

/-- An object with an alternate view and a copy in flight to it is destroyed. -/
abbrev alt3 : Obj := { tensor3 with e := { tensor3.e with altObj := 6, altGen := 1 } }
abbrev envAlt : State := run (.cpin d0 (whole 0)) { envL with objs := tensor6 true :: (envL.putObj alt3).objs }
theorem witness_ObjectManager_views : envAlt.ops.length = 1 ∧ (envAlt.live? (handle 3)).isSome = true ∧ envAlt.takeover = [] ∧
    (match envAlt.mark.live? (handle 3) with
     | some o => ((envAlt.mark.unlinkView o).obj? 0 3).isSome && decide (o.e.altObj = 6 ∧ o.home = 0) && (envAlt.mark.obj? 0 6).isSome && (envAlt.mark.mark.obj? 0 6).isSome &&
        ((envAlt.mark.obj? 0 6).map (fun a => (a.e.altObj, a.e.altGen)) == some (3, 1)) && o.e.gen == 1
     | none => false) = true ∧
    left (.objectDestroy (handle 3)) envAlt (fun t => (t.obj? 0 6).map (fun a => a.e.altObj)) = some (some 0) := by decide +kernel

/-- Two sequences that share a block; one is destroyed. -/
abbrev fork7 : Obj := { sequence4 with num := 7, maps := [(0, .current, .blocks [⟨0, 0x130000, 0, false, true⟩])] }
abbrev envShare : State := { env .c with objs := fork7 :: (env .c).objs }
theorem witness_ObjectManager_shared : envShare.mark.live? (handle 4) = some sequence4 ∧ envShare.mark.unlinkView sequence4 = envShare ∧
    envShare.objs.filter (fun x => x.home == 0 && x.num == 4) = [sequence4] ∧ sequence4.waiters = [] ∧ sequence4.binds = [] ∧ sequence4.blkPins = [] ∧ sequence4.pagePins = 0 ∧
    (∀ x ∈ envShare.objs, ∀ m ∈ x.maps, m.2.1 = .current) ∧ envShare.refcnt 0 0x130000 = 2 ∧
    left (.objectDestroy (handle 4)) envShare (fun t => t.refcnt 0 0x130000) = some 1 := by decide +kernel

/-- A waiter whose task has a catch entry, one without, and one of another package. -/
abbrev waiter9 (catch_ : Bool) : Cont := { cont9 9 false with task := { task .c with record := if catch_ then (task .c).record &&& ~~~(0xFFFF#512 <<< 400) else (task .c).record } }
abbrev envWait (catch_ : Bool) (w : Waiter) : State := { (env .c).putObj { lost4 with waiters := [w] } with
  parts := [{ fetchPart with cfg := { fetchPart.cfg with sealAbandoned := true }, conts := [waiter9 catch_] }] }
theorem witness_ObjectManager_waiters : (∀ b ∈ [true, false], (let s := envWait b ⟨20, 0, 9⟩
      s.live? (handle 4) = some { lost4 with waiters := [⟨20, 0, 9⟩] } ∧ s.mark.live? (handle 4) = some { lost4 with waiters := [⟨20, 0, 9⟩] } ∧ s.takeover = [] ∧
      (s.part? 0).map (fun p => p.conts.map (fun c => c.cid)) = some [9] ∧ s.mark.unlinkView { lost4 with waiters := [⟨20, 0, 9⟩] } = s)) ∧
    lost4.val < 20 ∧ lost4.e.sealedBit = false ∧ (∃ r ∈ lost4.resv, r.owner = .nobody) ∧ (waiter9 true).task.caught = false ∧ recCatch (waiter9 true).task.record ≠ 0xFFFF ∧
    recCatch (waiter9 false).task.record = 0xFFFF ∧ (envWait true ⟨20, 32, 9⟩).live? (handle 4) = some { lost4 with waiters := [⟨20, 32, 9⟩] } ∧
    left (.sequenceSeal (handle 4)) (envWait true ⟨20, 0, 9⟩) (fun t => (t.part? 0).map (fun p => p.conts.map (fun c => (c.cid, c.enqueued)))) = some (some [(9, true)]) ∧
    left (.objectDestroy (handle 4)) (envWait false ⟨20, 0, 9⟩) (fun t => (t.part? 0).map (fun p => p.conts.length)) = some (some 0) := by decide +kernel

/-- A missing page whose object still has a copy that stores under way. -/
abbrev envStoring : State := { inFlight .l (.bank 0 [0x110000] none (handle 6)) with objs := tensor6 false :: (env .c).objs, parts := (envP false).parts }
theorem witness_ObjectManager_storing : envStoring.live? (handle 6) = some (tensor6 false) ∧ envStoring.mark.storing (tensor6 false) = true ∧
    (envP false).mark.storing (tensor6 false) = false ∧ envStoring.managerWaits 0 = false ∧
    (tensor6 false).spot? envStoring .current 0 (fun y => !y.valid) = some (.page 0 (mkDesc 1 0 0x010000000000 false false)) ∧
    envStoring.target (tensor6 false) place (.page 0 (mkDesc 1 0 0x010000000000 false false)) = some 0 ∧
    (Spotted.page 0 (mkDesc 0 0 0 false false)).known = false := by decide +kernel

/-- C awaits the answer of a MISSING_VIEW, of another fault, and of none; the alternate view that tensor 6 names serves, or is of another generation. -/
abbrev envView (code : Code) : State := (envP true).takeFault (on .c) { code := code, handle := handle 6 }
abbrev stale6 : Obj := { tensor6 true with e := { (tensor6 true).e with altGen := 2 } }
abbrev gone6 : State := { envView .missingView with objs := stale6 :: (env .c).objs }
theorem witness_ObjectManager_rebuilds : (envP true).awaited ⟨0, 0, on .c⟩ = none ∧ ((envView .swTrap).awaited ⟨0, 0, on .c⟩).map (·.code) = some .swTrap ∧
    ((envView .missingView).awaited ⟨0, 0, on .c⟩).map (·.code) = some .missingView ∧
    ((envView .missingView).awaited ⟨0, 0, on .c⟩).map (fun f => (envView .missingView).askedShape (on .c) f) = some none ∧
    (envView .missingView).live? (handle 6) = some (tensor6 true) ∧ (tensor6 true).e.altObj = 3 ∧ (tensor6 true).e.altGen = 1 ∧
    (envView .missingView).obj? 0 3 = some tensor3 ∧ tensor3.e.gen = 1 ∧ tensor3.e.typ = .tensor ∧ (envView .missingView).managerWaits 0 = false ∧
    gone6.live? (handle 6) = some stale6 ∧ gone6.obj? 0 3 = some tensor3 ∧ tensor3.e.gen ≠ stale6.e.altGen ∧ (gone6.awaited ⟨0, 0, on .c⟩).map (·.code) = some .missingView := by decide +kernel

end Sys2Proof.Tests
end

section
/-! What leads the package and what resets it: the pairs' verified and frozen bits under the updates of the meres, machine checks, the
passing of time, enumeration, power-on and the warm reset (R36, R447, R454 to R457, R461, R486 to R488, R494). -/

namespace Sys2Proof.Machine

open Sys2Proof

/-! ### Meres and pairs -/

@[simp] theorem State.mere_setMere (s : State) (m k : Nat) (x : Mere) :
    (s.setMere m x).mere k = if m % 8 = k % 8 then x else s.mere k := by
  simp [State.mere, State.setMere, Vector.getElem_set]

/-- What a write to a mere leaves of a field that it does not change in that mere. -/
theorem State.mere_setMere_field {α : Type} (f : Mere → α) {s : State} {m : Nat} {x : Mere} (h : f x = f (s.mere m)) (k : Nat) :
    f ((s.setMere m x).mere k) = f (s.mere k) := by
  rw [State.mere_setMere]
  split
  · next hk => rw [h, State.mere, State.mere]; simp only [hk]
  · rfl

@[simp] theorem State.setMere_leader (s : State) (m : Nat) (x : Mere) : (s.setMere m x).leader = s.leader := rfl
@[simp] theorem State.bbox_leader (s : State) (m : Nat) (e : BbEvent) : (s.bbox m e).leader = s.leader := rfl

@[simp] theorem State.mere_bbox_verified (s : State) (m k : Nat) (e : BbEvent) : ((s.bbox m e).mere k).verified = (s.mere k).verified := by
  unfold State.bbox
  refine State.mere_setMere_field Mere.verified ?_ k
  rfl
@[simp] theorem State.mere_bbox_frozen (s : State) (m k : Nat) (e : BbEvent) : ((s.bbox m e).mere k).frozen = (s.mere k).frozen := by
  unfold State.bbox
  refine State.mere_setMere_field Mere.frozen ?_ k
  rfl

@[simp] theorem State.fit_bbox (s : State) (m k : Nat) (e : BbEvent) : (s.bbox m e).fit k = s.fit k := by simp [State.fit]

/-! ### Writing a record -/

@[simp] theorem State.writeRec_mem (s : State) (m : Nat) (r : FaultRec) : (s.writeRec m r).2.mem = s.mem := rfl
@[simp] theorem State.writeRec_cores (s : State) (m : Nat) (r : FaultRec) : (s.writeRec m r).2.cores = s.cores := rfl
@[simp] theorem State.writeRec_leader (s : State) (m : Nat) (r : FaultRec) : (s.writeRec m r).2.leader = s.leader := rfl
@[simp] theorem State.writeRec_takeover (s : State) (m : Nat) (r : FaultRec) : (s.writeRec m r).2.takeover = s.takeover := rfl
@[simp] theorem State.mere_writeRec_frozen (s : State) (m k : Nat) (r : FaultRec) :
    ((s.writeRec m r).2.mere k).frozen = (s.mere k).frozen := by
  refine (State.mere_bbox_frozen _ _ _ _).trans (State.mere_setMere_field Mere.frozen ?_ k)
  rfl

/-- A record is written, or its writer waits (R432). -/
theorem State.emit_cases (s : State) (m : Nat) (r : FaultRec) :
    s.emit m r = (s.writeRec m r).2 ∨ s.emit m r = { s with waitingRecs := s.waitingRecs ++ [(m, r)] } := by
  unfold State.emit
  split
  · exact .inl rfl
  · exact .inr rfl

@[simp] theorem State.emit_mem (s : State) (m : Nat) (r : FaultRec) : (s.emit m r).mem = s.mem := by
  rcases s.emit_cases m r with h | h <;> simp [h]
@[simp] theorem State.emit_cores (s : State) (m : Nat) (r : FaultRec) : (s.emit m r).cores = s.cores := by
  rcases s.emit_cases m r with h | h <;> simp [h]
@[simp] theorem State.emit_leader (s : State) (m : Nat) (r : FaultRec) : (s.emit m r).leader = s.leader := by
  rcases s.emit_cases m r with h | h <;> simp [h]
@[simp] theorem State.emit_takeover (s : State) (m : Nat) (r : FaultRec) : (s.emit m r).takeover = s.takeover := by
  rcases s.emit_cases m r with h | h <;> simp [h]
@[simp] theorem State.mere_emit_frozen (s : State) (m k : Nat) (r : FaultRec) : ((s.emit m r).mere k).frozen = (s.mere k).frozen := by
  rcases s.emit_cases m r with h | h <;> rw [h]
  · exact s.mere_writeRec_frozen m k r
  · rfl

/-! ### Machine checks (R447, R456, R457) -/

/-- The meres that wait for the takeover after a machine check of pair `m`. -/
def State.servedAnew (s : State) (m : Nat) : List Nat :=
  if s.leader = some m then (List.range 8).filter (fun k => !s.fit k || k == m) else [m]

/-- A machine check up to the black box of its mere: the pair is frozen, and the meres to be served anew wait. -/
def State.freezePair (s : State) (m : Nat) (paddr : BitVec 48) : State :=
  let t : State := s.setMere m { s.mere m with frozen := true }
  let t : State := { t with takeover := t.takeover ++ (s.servedAnew m).filter (fun k => !t.takeover.contains k) }
  (t.bbox m { payload := 4, etype := 0x0004, ecode := Code.machineCheck.val, svc := true }).bbox m
    { payload := zx paddr, etype := 0x0006, ecode := Code.machineCheck.val, svc := true }

/-- The next leader takes over. -/
def State.replaceLeader (s : State) : State :=
  let t : State := { s with leader := s.nextLeader, heartbeatAt := s.cycles }
  match t.leader with
  | some n => t.bbox n { payload := BitVec.ofNat 64 n, etype := 0x000B, svc := true }
  | none => t

/-- The record of a machine check of pair `m` goes to the leader's fault queue. -/
def State.reportCheck (s : State) (m : Nat) (cause : BitVec 8) (paddr : BitVec 48) : State :=
  match s.leader with
  | some n => s.emit n { info := zx cause, core := m, kind := .machineCheck, master := .service, code := .machineCheck, paddr := paddr }
  | none => s

/-- A machine check freezes the pair, replaces it where it leads, and is reported to who leads then. -/
theorem State.machineCheck_eq (s : State) (m : Nat) (cause : BitVec 8) (paddr : BitVec 48) :
    s.machineCheck m cause paddr =
      (if s.leader = some m then (s.freezePair m paddr).replaceLeader else s.freezePair m paddr).reportCheck m cause paddr := rfl

@[simp] theorem State.freezePair_mem (s : State) (m : Nat) (a : BitVec 48) : (s.freezePair m a).mem = s.mem := rfl
@[simp] theorem State.freezePair_cores (s : State) (m : Nat) (a : BitVec 48) : (s.freezePair m a).cores = s.cores := rfl
@[simp] theorem State.freezePair_leader (s : State) (m : Nat) (a : BitVec 48) : (s.freezePair m a).leader = s.leader := rfl
theorem State.freezePair_takeover (s : State) (m : Nat) (a : BitVec 48) :
    (s.freezePair m a).takeover = s.takeover ++ (s.servedAnew m).filter (fun k => !s.takeover.contains k) := rfl
@[simp] theorem State.freezePair_frozen (s : State) (m : Nat) (a : BitVec 48) : ((s.freezePair m a).mere m).frozen = true := by
  simp only [State.freezePair, State.mere_bbox_frozen]
  exact congrArg Mere.frozen ((s.mere_setMere m m _).trans (if_pos rfl))

/-- Afterwards the fit pairs are those that were, but for the frozen one. -/
theorem State.fit_freezePair (s : State) {m k : Nat} (a : BitVec 48) (hm : m < 8) (hk : k < 8) :
    (s.freezePair m a).fit k = (k != m && s.fit k) := by
  have hf : (s.freezePair m a).fit k = (s.setMere m { s.mere m with frozen := true }).fit k :=
    (State.fit_bbox _ _ _ _).trans (State.fit_bbox _ _ _ _)
  rw [hf, State.fit, State.fit, State.mere_setMere, Nat.mod_eq_of_lt hm, Nat.mod_eq_of_lt hk]
  by_cases h : m = k
  · simp [h]
  · simp [h, Ne.symm h]

theorem State.nextLeader_freezePair (s : State) {m : Nat} (a : BitVec 48) (hm : m < 8) :
    (s.freezePair m a).nextLeader = (List.range 8).find? (fun k => k != m && s.fit k) := by
  have hfit : (List.range 8).filter (s.freezePair m a).fit = (List.range 8).filter (fun k => k != m && s.fit k) :=
    List.filter_congr fun _ hk => s.fit_freezePair a hm (List.mem_range.1 hk)
  rw [State.nextLeader, ← List.head?_filter, ← List.head?_filter, hfit]

/-- A frozen pair does not lead next. -/
theorem State.nextLeader_ne_frozen {s : State} {m : Nat} (h : (s.mere m).frozen = true) : s.nextLeader ≠ some m := by
  intro hn
  have hfit : s.fit m = true := List.find?_some hn
  simp [State.fit, h] at hfit

/-- The pair itself is among the meres that wait. -/
theorem State.mem_takeover_freezePair (s : State) {m : Nat} (a : BitVec 48) (hm : m < 8) : m ∈ (s.freezePair m a).takeover := by
  have hs : m ∈ s.servedAnew m := by
    unfold State.servedAnew
    split <;> simp [hm]
  rw [State.freezePair_takeover, List.mem_append, List.mem_filter]
  by_cases h : m ∈ s.takeover
  · exact .inl h
  · exact .inr ⟨hs, by simp [h]⟩

@[simp] theorem State.replaceLeader_leader (s : State) : s.replaceLeader.leader = s.nextLeader := by
  unfold State.replaceLeader; dsimp only; split <;> rfl
@[simp] theorem State.replaceLeader_mem (s : State) : s.replaceLeader.mem = s.mem := by
  unfold State.replaceLeader; dsimp only; split <;> rfl
@[simp] theorem State.replaceLeader_cores (s : State) : s.replaceLeader.cores = s.cores := by
  unfold State.replaceLeader; dsimp only; split <;> rfl
@[simp] theorem State.replaceLeader_takeover (s : State) : s.replaceLeader.takeover = s.takeover := by
  unfold State.replaceLeader; dsimp only; split <;> rfl
@[simp] theorem State.mere_replaceLeader_frozen (s : State) (k : Nat) : (s.replaceLeader.mere k).frozen = (s.mere k).frozen := by
  unfold State.replaceLeader; dsimp only
  split
  · exact State.mere_bbox_frozen _ _ _ _
  · rfl

section
variable (s : State) (m : Nat) (cause : BitVec 8) (paddr : BitVec 48)

@[simp] theorem State.reportCheck_mem : (s.reportCheck m cause paddr).mem = s.mem := by unfold State.reportCheck; split <;> simp
@[simp] theorem State.reportCheck_cores : (s.reportCheck m cause paddr).cores = s.cores := by unfold State.reportCheck; split <;> simp
@[simp] theorem State.reportCheck_leader : (s.reportCheck m cause paddr).leader = s.leader := by unfold State.reportCheck; split <;> simp
@[simp] theorem State.reportCheck_takeover : (s.reportCheck m cause paddr).takeover = s.takeover := by
  unfold State.reportCheck; split <;> simp
@[simp] theorem State.mere_reportCheck_frozen (k : Nat) : ((s.reportCheck m cause paddr).mere k).frozen = (s.mere k).frozen := by
  unfold State.reportCheck; split <;> simp

@[simp] theorem State.machineCheck_mem : (s.machineCheck m cause paddr).mem = s.mem := by
  rw [State.machineCheck_eq]; split <;> simp
@[simp] theorem State.machineCheck_cores : (s.machineCheck m cause paddr).cores = s.cores := by
  rw [State.machineCheck_eq]; split <;> simp
theorem State.machineCheck_frozen : ((s.machineCheck m cause paddr).mere m).frozen = true := by
  rw [State.machineCheck_eq]; split <;> simp
/-- Who leads after a machine check. -/
theorem State.machineCheck_leader : (s.machineCheck m cause paddr).leader =
    if s.leader = some m then (s.freezePair m paddr).nextLeader else s.leader := by
  rw [State.machineCheck_eq]; split <;> simp
theorem State.machineCheck_leader_ne : (s.machineCheck m cause paddr).leader ≠ some m := by
  rw [State.machineCheck_leader]
  split
  · exact State.nextLeader_ne_frozen (s.freezePair_frozen m paddr)
  · assumption
theorem State.mem_takeover_machineCheck (hm : m < 8) : m ∈ (s.machineCheck m cause paddr).takeover := by
  rw [State.machineCheck_eq]
  split <;> simpa using s.mem_takeover_freezePair paddr hm
end

/-! ### Time passes -/

/-- What time passing leaves alone, of what a lapse of the heartbeat turns on. -/
structure KeepsLead (s t : State) : Prop where
  mem : t.mem = s.mem
  leader : t.leader = s.leader

theorem KeepsLead.refl (s : State) : KeepsLead s s := ⟨rfl, rfl⟩
theorem KeepsLead.trans {s t u : State} (a : KeepsLead s t) (b : KeepsLead t u) : KeepsLead s u :=
  ⟨b.mem.trans a.mem, b.leader.trans a.leader⟩

/-- A fold of updates of which each keeps the leader. -/
theorem KeepsLead.foldl {α : Type} {f : State → α → State} (hf : ∀ s a, KeepsLead s (f s a)) (l : List α) (s : State) :
    KeepsLead s (l.foldl f s) :=
  List.foldlRecOn (motive := KeepsLead s) l f (.refl s) fun t ht a _ => ht.trans (hf t a)

theorem State.keepsLead_modEng (s : State) (w : EngRef) (f : Engine → Engine) : KeepsLead s (s.modEng w f) := ⟨rfl, rfl⟩

theorem State.keepsLead_tick (s : State) (n : Nat) : KeepsLead s (s.tick n) := by
  have hw : KeepsLead s (s.engines.foldl (fun s w =>
      if (s.waitsOut w).isSome then s.modEng w (fun e => { e with wdog := e.wdog + n }) else s) s) := by
    refine KeepsLead.foldl (fun t w => ?_) _ _
    split
    · exact t.keepsLead_modEng w _
    · exact .refl t
  exact ⟨hw.mem, hw.leader⟩

theorem State.keepsLead_withdraw (s : State) (w : EngRef) (st : Stall) : KeepsLead s (s.withdraw w st) := by
  unfold State.withdraw
  split
  · split
    · exact .refl s
    · split
      · exact ⟨rfl, rfl⟩
      · exact .refl s
  · exact ⟨rfl, rfl⟩
  · exact .refl s

theorem State.keepsLead_leaveNest (s : State) (w : EngRef) (w0 : BitVec 32) : KeepsLead s (s.leaveNest w w0) := by
  unfold State.leaveNest; dsimp only
  split
  · exact ⟨rfl, rfl⟩
  · exact .refl s

/-- A fault that is no violation kills no task, so that it changes neither memory nor the leader. -/
theorem State.keepsLead_takeFault? {s u : State} {w : EngRef} {t : Trap} (hf : t.freeze = false) (h : s.takeFault? w t = some u) :
    KeepsLead s u := by
  unfold State.takeFault? at h
  simp only [hf, Bool.false_eq_true, if_false] at h
  split at h
  · cases h
  · cases h
    have hw : KeepsLead s (s.writeRec (mereOf w.core) (s.faultRec w t .precise)).2 := ⟨rfl, rfl⟩
    exact hw.trans ((State.keepsLead_leaveNest _ _ _).trans (State.keepsLead_modEng _ _ _))

theorem Stall.trap_freeze (st : Stall) : st.trap.freeze = false := by cases st <;> rfl

theorem State.keepsLead_stallFault (s : State) (w : EngRef) (st : Stall) : KeepsLead s (s.stallFault w st) := by
  unfold State.stallFault
  cases h : (s.withdraw w st).takeFault? w st.trap with
  | none => exact .refl s
  | some u => exact (s.keepsLead_withdraw w st).trans (State.keepsLead_takeFault? st.trap_freeze h)

theorem State.keepsLead_expire (s : State) (es : List EngRef) : KeepsLead s (s.expire es) := by
  unfold State.expire
  refine KeepsLead.foldl (fun t x => ?_) _ _
  exact t.keepsLead_stallFault x.1 x.2

theorem keepsLead_elapseIn (k n : Nat) (s : State) : KeepsLead s (elapseIn k n s) := by
  induction k generalizing n s with
  | zero => exact s.keepsLead_tick n
  | succ k ih =>
    have round (d : Nat) : KeepsLead s ((s.tick d).expire s.engines) := (s.keepsLead_tick d).trans (State.keepsLead_expire _ _)
    unfold elapseIn
    split
    · split
      · exact (round _).trans (ih _ _)
      · exact round n
    · exact round n

theorem State.keepsLead_elapse (s : State) (n : Nat) : KeepsLead s (s.elapse n) := keepsLead_elapseIn _ n s

/-! ### Leadership (R454, R455) -/

theorem exec_leaderClaim {s : State} {m : Nat} (hm : m < 8) (ho : s.electionOpen = true) (hl : s.leader = none) (hf : s.fit m = true)
    (hc : m ∉ s.claims) : exec (.leaderClaim m) s = .next { s with claims := s.claims ++ [m] } :=
  if_pos ⟨hm, ho, hl, hf, by simpa using hc⟩

/-- The claim that is granted is the least. -/
theorem exec_electionGrant {s : State} (ho : s.electionOpen = true) (hl : s.leader = none) (hc : s.claims ≠ []) :
    ∃ c, c ∈ s.claims ∧ (∀ d ∈ s.claims, c ≤ d) ∧
      exec .electionGrant s = .next { s with leader := some c, electionOpen := false, claims := [], heartbeatAt := s.cycles } := by
  obtain ⟨c, cs, h⟩ := List.exists_cons_of_ne_nil hc
  have hmin : s.claims.min? = some (cs.foldl min c) := by rw [h, List.min?_cons']
  obtain ⟨hmem, hle⟩ := List.min?_eq_some_iff.1 hmin
  refine ⟨_, hmem, hle, ?_⟩
  show execElectionGrant s = _
  simp only [execElectionGrant, h, ho, hl]

theorem exec_heartbeat {s : State} (h : s.leader.isSome = true) :
    exec .heartbeat s = .next { s with heartbeatAt := s.cycles, takeover := [] } :=
  congrArg _ (if_pos h)

theorem exec_machineCheck {s : State} {m : Nat} (cause : BitVec 8) (paddr : BitVec 48) (hm : m < 8) (hf : (s.mere m).frozen = false) :
    exec (.machineCheck m cause paddr) s = .next (s.machineCheck m cause paddr) :=
  if_pos ⟨hm, by rw [hf]; rfl⟩

/-- The heartbeat's bound passes, and then the leader's pair meets a machine check of cause 5 (R455). -/
theorem exec_heartbeatLapse {s : State} {n : Nat} (h : s.leader = some n) :
    exec .heartbeatLapse s = .next ((s.elapse (24000000 - (s.cycles - s.heartbeatAt).toNat)).machineCheck n 5 0) := by
  show execHeartbeatLapse s = _
  simp only [execHeartbeatLapse, h]

/-! ### Power-on (R486, R487, R488) -/

/-- Whether the firmware of pair `m` is accepted at power-on. -/
def State.bootVerifies (s : State) (b : Boot) (m : Nat) : Bool :=
  match b.firmware[m]? with
  | some i => accepted i (s.versions.getD 0 0)
  | none => false

/-- Whether the configuration is accepted at power-on. -/
def State.bootConfigures (s : State) (b : Boot) : Bool :=
  accepted b.cfgImage (s.versions.getD 1 0) && configFits b.cfg && !((List.range 8).filter (s.bootVerifies b)).isEmpty

/-- The digest that power-on measures of pair `m`'s firmware. -/
def State.bootDigest (s : State) (b : Boot) (m : Nat) : BitVec 384 :=
  if s.bootVerifies b m then (match b.firmware[m]? with | some i => i.digest | none => 0) else 0

/-- The state that power-on leaves. -/
def State.poweredOn (s : State) (b : Boot) : State :=
  match execPowerOnReset b s with
  | .next u => u
  | .fault _ => s
  | .refused _ => s

section
variable (s : State) (b : Boot)

theorem exec_powerOnReset : exec (.powerOnReset b) s = .next (s.poweredOn b) := rfl

theorem State.poweredOn_mem : (s.poweredOn b).mem = [] := rfl
theorem State.poweredOn_ckptImage : (s.poweredOn b).ckptImage = s.ckptImage := rfl
theorem State.poweredOn_configured : (s.poweredOn b).configured = s.bootConfigures b := rfl
theorem State.poweredOn_parts : (s.poweredOn b).parts = if s.bootConfigures b then b.cfg.parts.map (fun c => { cfg := c }) else [] := rfl
theorem State.poweredOn_digests :
    (s.poweredOn b).digests = (List.range 8).map (s.bootDigest b) ++ [if s.bootConfigures b then b.cfgImage.digest else 0] := rfl
theorem State.poweredOn_aliasKey :
    (s.poweredOn b).aliasKey = Config.aliasKey Config.identityKey ((List.range 8).map (s.bootDigest b)) := rfl

theorem State.mere_poweredOn (m : Nat) : (s.poweredOn b).mere m = { verified := s.bootVerifies b (m % 8) } := Vector.getElem_ofFn _

theorem State.poweredOn_verified {m : Nat} (hm : m < 8) : ((s.poweredOn b).mere m).verified = s.bootVerifies b m := by
  rw [State.mere_poweredOn, Nat.mod_eq_of_lt hm]

/-- A partition that power-on makes has its configuration and reset values. -/
theorem State.mem_poweredOn_parts {p : Part} (h : p ∈ (s.poweredOn b).parts) : ∃ c, p = { cfg := c } := by
  rw [State.poweredOn_parts] at h
  split at h
  · obtain ⟨c, -, rfl⟩ := List.mem_map.1 h
    exact ⟨c, rfl⟩
  · cases h

/-- Some pair's firmware is accepted exactly when some pair is verified afterwards. -/
theorem State.some_bootVerifies : (!((List.range 8).filter (s.bootVerifies b)).isEmpty) =
    (List.range 8).any (fun m => ((s.poweredOn b).mere m).verified) := by
  rw [Bool.eq_iff_iff, Bool.not_eq_true', List.isEmpty_eq_false_iff_exists_mem, List.any_eq_true]
  refine exists_congr fun m => ?_
  rw [List.mem_filter]
  exact and_congr_right fun hm => by rw [State.poweredOn_verified s b (List.mem_range.1 hm)]
end

/-- Power-on judges firmware and configuration, and derives the key of R488 from the digests that it keeps. -/
theorem exec_powerOnReset_leaves (s : State) (b : Boot) :
    ∃ u : State, exec (.powerOnReset b) s = .next u ∧ u.mem = [] ∧ u.leader = none ∧ u.electionOpen = true ∧
    u.cycles = State.reset.cycles ∧ u.ops = [] ∧ u.objs = [] ∧
    (∀ m, m < 8 → (u.mere m).verified = s.bootVerifies b m) ∧
    u.configured = (accepted b.cfgImage (s.versions.getD 1 0) && configFits b.cfg && (List.range 8).any (fun m => (u.mere m).verified)) ∧
    u.identity = Config.identityKey ∧ u.aliasKey = Config.aliasKey Config.identityKey (u.digests.take 8) ∧
    (u.configured = true → u.parts.map (fun p => p.cfg) = b.cfg.parts) ∧ (u.configured = false → u.parts = []) := by
  refine ⟨_, exec_powerOnReset s b, rfl, rfl, rfl, rfl, rfl, rfl, ?verified, ?configured, rfl, ?key, ?parts, ?unconfigured⟩
  case verified => exact fun m hm => State.poweredOn_verified s b hm
  case configured => rw [State.poweredOn_configured, State.bootConfigures, State.some_bootVerifies]
  case key => rw [State.poweredOn_aliasKey, State.poweredOn_digests, List.take_left' (by simp)]
  case parts =>
    intro h
    rw [State.poweredOn_parts, if_pos (State.poweredOn_configured s b ▸ h), List.map_map]
    exact List.map_id _
  case unconfigured =>
    intro h
    rw [State.poweredOn_configured] at h
    rw [State.poweredOn_parts, h]
    rfl

/-! ### The warm reset (R461, R494) -/

/-- The release of a warm reset keeps memory, the keys, the partitions' configurations and the black boxes. -/
theorem exec_warmResetRelease {s : State} (h : s.warmHold = true) :
    ∃ u : State, exec .warmResetRelease s = .next u ∧ u.warmHold = false ∧ u.mem = s.mem ∧ u.cycles = s.cycles ∧
    u.package = s.package ∧ u.identity = s.identity ∧ u.aliasKey = s.aliasKey ∧ u.objs = [] ∧ u.ops = [] ∧ u.leader = none ∧
      (∀ m, (u.mere m).bbox = (s.mere m).bbox ∧ (u.mere m).queue = [] ∧
      (u.mere m).resIgnored = (s.mere m).resIgnored ∧ (u.mere m).seqno = (s.mere m).seqno) ∧
    u.parts.map (fun p => p.cfg) = s.parts.map (fun p => p.cfg) := by
  have hx : exec .warmResetRelease s = execWarmResetRelease s := rfl
  rw [hx, execWarmResetRelease, if_neg (by simp [h])]
  refine ⟨_, rfl, rfl, rfl, rfl, rfl, rfl, rfl, rfl, rfl, rfl, fun m => ?_, ?_⟩
  · simp [State.mere]
  · simp [Function.comp_def]

/-! ### Enumeration (R36) -/

/-- An object as the renumbering of its package from `old` to `new` leaves it. -/
def Obj.renumber (old new : Nat) (o : Obj) : Obj :=
  if o.home = old then
    { o with home := new, maps := o.maps.map (fun m => if m.1 = old then (new, m.2) else m), locks := o.locks.filter (fun k => k.1 != old) }
  else o

/-- The objects that a renumbering leaves. -/
def renumbered (old new : Nat) (os : List Obj) : List Obj := (os.filter (fun o => o.home != new)).map (Obj.renumber old new)

/-- A renumbering leaves objects of other packages as they are. -/
theorem renumbered_of_others {old new : Nat} {os : List Obj} (h : ∀ o ∈ os, o.home ≠ old ∧ o.home ≠ new) : renumbered old new os = os := by
  have hkeep : os.filter (fun o => o.home != new) = os := List.filter_eq_self.2 fun o ho => by simpa using (h o ho).2
  have hsame : os.map (Obj.renumber old new) = os.map id := List.map_congr_left fun o ho => if_neg (h o ho).1
  rw [renumbered, hkeep, hsame, List.map_id]

/-- After a renumbering no object has the old number. -/
theorem renumbered_home_ne {old new : Nat} (hne : new ≠ old) {os : List Obj} : ∀ o ∈ renumbered old new os, o.home ≠ old := by
  intro o ho
  obtain ⟨x, -, rfl⟩ := List.mem_map.1 ho
  unfold Obj.renumber
  split
  · exact hne
  · assumption

/-- No task, save, launch, continuation or request is left. -/
def State.idle (s : State) : Bool :=
  s.cores.all (fun c => c.2.c0.task.isNone && c.2.c1.task.isNone) && s.ops.isEmpty &&
    s.parts.all (fun p => p.launches.isEmpty && p.conts.isEmpty) && s.saves.isEmpty

theorem State.idle_of {s : State} (hc : ∀ c ∈ s.cores, c.2.c0.task = none ∧ c.2.c1.task = none) (ho : s.ops = []) (hs : s.saves = [])
    (hp : ∀ p ∈ s.parts, p.launches = [] ∧ p.conts = []) : s.idle = true := by
  have h1 : s.cores.all (fun c => c.2.c0.task.isNone && c.2.c1.task.isNone) = true := by simpa using hc
  have h2 : s.parts.all (fun p => p.launches.isEmpty && p.conts.isEmpty) = true := by simpa using hp
  rw [State.idle, h1, h2, ho, hs]
  rfl

theorem exec_fabricEnumeration {s : State} (pkg : BitVec 10) (hl : s.leader.isSome = true) (hi : s.idle = true) :
    exec (.fabricEnumeration pkg) s = .next (if s.package.toNat = pkg.toNat then s else
      { s with package := pkg, objs := renumbered s.package.toNat pkg.toNat s.objs, ghosts := renumbered s.package.toNat pkg.toNat s.ghosts }) := by
  have hx : exec (.fabricEnumeration pkg) s =
      if s.leader = none ∨ !s.idle then .next s
      else if s.package.toNat = pkg.toNat then .next s
      else .next { s with package := pkg, objs := renumbered s.package.toNat pkg.toNat s.objs
                          ghosts := renumbered s.package.toNat pkg.toNat s.ghosts } := rfl
  rw [hx, if_neg (by simp [hi, Option.isSome_iff_ne_none.1 hl])]
  split <;> rfl

/-- Enumeration of an idle package. -/
theorem exec_fabricEnumeration_leaves {s : State} (pkg : BitVec 10) (hl : s.leader.isSome = true) (hi : s.idle = true) :
    ∃ u : State, exec (.fabricEnumeration pkg) s = .next u ∧ u.package = pkg ∧ u.mem = s.mem ∧ u.cores = s.cores ∧
      ((∀ o ∈ s.objs ++ s.ghosts, o.home ≠ s.package.toNat ∧ o.home ≠ pkg.toNat) → u = { s with package := pkg }) ∧
      (pkg ≠ s.package → ∀ o ∈ u.objs, o.home ≠ s.package.toNat) := by
  refine ⟨_, exec_fabricEnumeration pkg hl hi, ?_⟩
  split
  · next h =>
    have hpkg : s.package = pkg := BitVec.eq_of_toNat_eq h
    subst hpkg
    exact ⟨rfl, rfl, rfl, fun _ => rfl, fun hne => absurd rfl hne⟩
  · next h =>
    refine ⟨rfl, rfl, rfl, fun hother => ?_, fun _ => renumbered_home_ne (Ne.symm h)⟩
    have hobjs := renumbered_of_others fun o ho => hother o (List.mem_append_left _ ho)
    have hghosts := renumbered_of_others fun o ho => hother o (List.mem_append_right _ ho)
    rw [hobjs, hghosts]

/-! ### Reset values (R36, R138, R430, R470) -/

theorem State.mere_reset (m : Nat) : State.reset.mere m = {} := Vector.getElem_replicate _

theorem State.ctx_reset (w : EngRef) : State.reset.ctx w = {} := by
  cases h : w.ctx <;> simp [State.ctx, State.core, State.reset, lookupD, Core.ctx, h]

theorem State.hreg_reset (w : EngRef) (h : BitVec 5) : State.reset.hreg w h = {} := by
  simp only [State.hreg, State.ctx_reset]
  exact Vector.getElem_replicate _

theorem State.eng_reset (w : EngRef) : State.reset.eng w = {} := by
  rw [State.eng, State.ctx_reset]
  cases w.eng <;> rfl

/-- No engine runs after reset. -/
theorem State.canIssue_reset (w : EngRef) : State.reset.canIssue w = false := by simp [State.canIssue, State.eng_reset]

/-- A window of a partition that has just been made. -/
theorem Part.win_fresh (c : PartCfg) (w : BitVec 5) : ({ cfg := c } : Part).win w = {} := Vector.getElem_replicate _

/-- Power-on keeps the canonical form: memory is empty, and the checkpoint's image stays. -/
theorem State.poweredOn_memOk {s : State} (b : Boot) (h : s.memOk = true) : (s.poweredOn b).memOk = true := by
  rw [State.memOk, Bool.and_eq_true] at h
  rw [State.memOk, State.poweredOn_mem, State.poweredOn_ckptImage, h.2]
  rfl

/-! ### The obligations -/

/-- Settles O52, clause by clause from what each event leaves. -/
theorem leaderAndPower : Obligations.LeaderAndPower := by
  unfold Obligations.LeaderAndPower
  refine ⟨fun s m => ⟨exec_leaderClaim, exec_electionGrant, exec_heartbeat, fun cause paddr hm hf => ?check, fun n hl _ => ?lapse⟩,
    exec_powerOnReset_leaves, fun _ => rfl, fun _ => exec_warmResetRelease, fun s pkg hl hc ho hs hp => ?fabric, fun _ _ => rfl,
    fun s watts hlo hhi => congrArg _ (if_pos ⟨hlo, hhi⟩)⟩
  case check =>
    refine ⟨_, exec_machineCheck cause paddr hm hf, s.machineCheck_frozen m cause paddr, s.machineCheck_mem m cause paddr,
      s.machineCheck_cores m cause paddr, s.mem_takeover_machineCheck m cause paddr hm, fun hl => ?_, fun hl => ?_⟩
    · rw [State.machineCheck_leader, if_neg hl]
    · rw [State.machineCheck_leader, if_pos hl, State.nextLeader_freezePair s paddr hm]
  case lapse =>
    exact ⟨_, exec_heartbeatLapse hl, State.machineCheck_frozen _ n 5 0, State.machineCheck_leader_ne _ n 5 0,
      (State.machineCheck_mem _ n 5 0).trans (s.keepsLead_elapse _).mem⟩
  case fabric => exact exec_fabricEnumeration_leaves pkg hl (State.idle_of hc ho hs hp)

/-- Settles O59, from the reset values of meres, contexts and partitions. -/
theorem resetValues : Obligations.ResetValues := by
  unfold Obligations.ResetValues
  refine ⟨rfl, rfl, rfl, fun m => ?meres, fun w h => ⟨?task, ?handle, State.canIssue_reset w⟩, fun s b u hu => ?boot⟩
  case meres => simp [State.mere_reset]
  case task => rw [State.task, State.ctx_reset]
  case handle => rw [State.hreg_reset]
  case boot =>
    obtain rfl : s.poweredOn b = u := by rw [exec_powerOnReset] at hu; exact Host.Outcome.next.inj hu
    refine ⟨State.poweredOn_memOk b, fun m => by simp [State.mere_poweredOn], fun p hp => ?_⟩
    obtain ⟨c, rfl⟩ := State.mem_poweredOn_parts s b hp
    refine ⟨rfl, rfl, rfl, rfl, rfl, rfl, fun w => ?_⟩
    rw [Part.win_fresh]
    exact ⟨rfl, rfl, rfl, rfl, rfl, rfl, rfl⟩

end Sys2Proof.Machine
end
